-- ==== Sys2Proof/Word.lean ====
section
/-! DEFINITION. The word types: octets, octet strings and the widths the spec's fields have (00_scope.md R8, R9;
10_state.md R21, R34). -/

namespace Sys2Proof

/-- An octet, bit 7 its most significant (R8). -/
abbrev Byte := BitVec 8

/-- An octet string, index 0 the first octet on the wire (R9). -/
abbrev Bytes := List Byte

/-- A 16-bit field. -/
abbrev Half := BitVec 16

/-- A 32-bit register or field (R21). -/
abbrev Word := BitVec 32

/-- An IPv4 address as a 32-bit value (R34, R51). -/
abbrev Ipv4 := BitVec 32

/-- An IPv6 address as a 128-bit value (R34, R51). -/
abbrev Ipv6 := BitVec 128

/-- An AS number, held in 32 bits whatever its wire width (R37). -/
abbrev Asn := BitVec 32

end Sys2Proof
end

