-- ==== Sys2Proof/Syntax.lean ====
section
/-! DEFINITION. The instructions (one constructor per row of spec/opcode_table.json), the structured values of the data
model (10_state.md R30 to R39) and the classified errors (60_exceptions.md R280). -/

namespace Sys2Proof

/-! ### The data model -/

/-- `Prefix4` and `Prefix6` (R34): an address of width `w` and a length in bits. The length is unbounded: encode
checks it (R232). -/
structure Prefix (w : Nat) where
  addr : BitVec w
  len : Nat
deriving DecidableEq, Repr

abbrev Prefix4 := Prefix 32
abbrev Prefix6 := Prefix 128

/-- ORIGIN values (R36, R80). -/
inductive Origin where
  | igp
  | egp
  | incomplete
deriving DecidableEq, Repr

/-- The kind of an AS-path segment (R37). -/
inductive SegKind where
  | sequence
  | set
deriving DecidableEq, Repr

structure AsPathSegment where
  kind : SegKind
  members : List Asn
deriving DecidableEq, Repr

structure AsPath where
  segments : List AsPathSegment
deriving DecidableEq, Repr

structure Aggregator where
  asn : Asn
  identifier : Ipv4
deriving DecidableEq, Repr

/-- A standard community, two 2-octet fields (R38, R261); `loc` is the spec's `local`. -/
structure Comm where
  global : Half
  loc : Half
deriving DecidableEq, Repr

/-- An extended community, exactly 8 raw octets by type (R38, R262). -/
structure ExtComm where
  o0 : Byte
  o1 : Byte
  o2 : Byte
  o3 : Byte
  o4 : Byte
  o5 : Byte
  o6 : Byte
  o7 : Byte
deriving DecidableEq, Repr

/-- A large community, three 4-octet fields (R38, R263). -/
structure LargeComm where
  global : Word
  local1 : Word
  local2 : Word
deriving DecidableEq, Repr

/-- An IPv6 extended community, the spec's split of 16 + 4 octets (R38, R264, conflict C5). -/
structure Extv6Comm where
  addr : Ipv6
  localAdmin : Word
deriving DecidableEq, Repr

/-- A raw attribute record kept verbatim (R39): the whole flags octet, the type and the body. -/
structure UnknownAttr where
  flags : Byte
  type : Byte
  value : Bytes
deriving DecidableEq, Repr

/-- Legacy reachable prefixes and their next hop (R32). -/
structure ReachNlri where
  prefixes : List Prefix4
  nexthop : Ipv4
deriving DecidableEq, Repr

/-- Legacy withdrawn prefixes (R32). -/
structure UnreachNlri where
  prefixes : List Prefix4
deriving DecidableEq, Repr

/-- MP_REACH_NLRI by family (R33). -/
inductive MpReachNlri where
  | ipv4Unicast (prefixes : List Prefix4) (nexthop : Ipv4)
  | ipv6Unicast (prefixes : List Prefix6) (nexthop : Ipv6) (llNexthop : Option Ipv6)
deriving DecidableEq, Repr

/-- MP_UNREACH_NLRI by family (R33). -/
inductive MpUnreachNlri where
  | ipv4Unicast (prefixes : List Prefix4)
  | ipv6Unicast (prefixes : List Prefix6)
deriving DecidableEq, Repr

/-- The twelve base attributes, in the source's order (R36). -/
structure BaseAttrs where
  origin : Option Origin := none
  asPath : Option AsPath := none
  as4Path : Option AsPath := none
  nexthop : Option Ipv4 := none
  llNexthop : Option Ipv6 := none
  med : Option Word := none
  localPref : Option Word := none
  aggregator : Option Aggregator := none
  as4Aggregator : Option Aggregator := none
  atomicAggregate : Bool := false
  originatorId : Option Ipv4 := none
  clusterList : Option (List Ipv4) := none
deriving DecidableEq, Repr

/-- The attribute block of an UPDATE (R35). The defaults are the empty block that decode starts from (R160). -/
structure Attrs where
  base : BaseAttrs := {}
  comm : Option (List Comm) := none
  extComm : Option (List ExtComm) := none
  extv6Comm : Option (List Extv6Comm) := none
  largeComm : Option (List LargeComm) := none
  unknown : List UnknownAttr := []
deriving DecidableEq, Repr

/-- The value of an UPDATE: five independent optional groups (R31). -/
structure UpdateMsg where
  reach : Option ReachNlri := none
  unreach : Option UnreachNlri := none
  mpReach : Option MpReachNlri := none
  mpUnreach : Option MpUnreachNlri := none
  attrs : Option Attrs := none
deriving DecidableEq, Repr

/-- A message (R30), exactly five constructors. -/
inductive Message where
  | openMsg (body : Bytes)
  | update (u : UpdateMsg)
  | notification (body : Bytes)
  | keepalive
  | routeRefresh (body : Bytes)
deriving DecidableEq, Repr

/-! ### The names the encodings select -/

/-- The five message kinds (30_encoding.md R72). -/
inductive MsgKind where
  | openMsg
  | update
  | notification
  | keepalive
  | routeRefresh
deriving DecidableEq, Repr

/-- The 17 recognized attribute types (R76, R163). -/
inductive AttrType where
  | origin
  | asPath
  | nextHop
  | multiExitDisc
  | localPref
  | atomicAggregate
  | aggregator
  | communities
  | originatorId
  | clusterList
  | mpReachNlri
  | mpUnreachNlri
  | extendedCommunities
  | as4Path
  | as4Aggregator
  | ipv6ExtendedCommunities
  | largeCommunity
deriving DecidableEq, Repr

/-- The two path attributes, whose bodies are segments (43_aspath.md). -/
inductive PathKind where
  | asPath
  | as4Path
deriving DecidableEq, Repr

/-- The two multiprotocol attributes, whose bodies start with a family (44_nlri.md). -/
inductive MpKind where
  | reach
  | unreach
deriving DecidableEq, Repr

/-! ### Classified errors -/

/-- The sub-reasons of 60_exceptions.md R280, one constructor per (CLASS, SUB) row of its table. -/
inductive Reason where
  -- CLASS 1, HeaderError
  | shortBuffer
  | marker
  | badLength
  | lengthMismatch
  | badType
  -- CLASS 2, AttributeFlagsError
  | otMismatch
  | partialSet
  -- CLASS 3, AttributeLengthError
  | bodyLength
  | nexthopLength
  -- CLASS 4, MissingWellKnownAttribute
  | absent
  | unknownNotOptional
  -- CLASS 5, UnrecognizedWellKnownAttribute
  | unrecognizedWellKnown
  -- CLASS 6, InvalidOrigin
  | originValue
  -- CLASS 7, InvalidNetworkField
  | bitlenTooLong
  | overrun
  | trailingBits
  -- CLASS 8, MalformedAsPath
  | badSegmentType
  | truncated
  -- CLASS 9, MalformedAttributeList
  | bodyTooShort
  | withdrawnOverrun
  | attrSectionOverrun
  | recordTruncated
  | recordOverrun
  | duplicate
  -- CLASS 10, UnsupportedCapability
  | asnWidth
  | family
  -- CLASS 11, InvalidMessage
  | emptyLegacyGroup
  | attrsPresence
  | llNexthopSet
  | nexthopConflict
  | unknownCollision
  | prefixLen
  | segmentTooLong
  | attrTooLong
  | messageTooLong
  | passthroughLength
deriving DecidableEq, Repr

/-- A classified error: the sub-reason (which fixes the class) and the 16-bit value it records (R281). -/
structure CodecError where
  reason : Reason
  value : Half
deriving DecidableEq, Repr

/-! ### The wire forms as the engine reads them -/

/-- A framed message: the type octet, the marker and the body (R71). -/
structure MsgForm where
  type : Byte
  marker : Bytes
  body : Bytes
deriving DecidableEq, Repr

/-- An attribute record (R74). -/
structure RecForm where
  flags : Byte
  type : Byte
  body : Bytes
deriving DecidableEq, Repr

/-- An AS-path segment (R79): one of the two kinds with its members, or the two octets of a malformed one. -/
inductive SegForm where
  | known (seg : AsPathSegment)
  | other (stype count : Byte)
deriving DecidableEq, Repr

/-- A multiprotocol body (R81, R82): the family and what follows it. -/
structure FamForm where
  afi : Half
  safi : Byte
  rest : Bytes
deriving DecidableEq, Repr

/-! ### Instructions -/

/-- The forms of spec/opcode_table.json. The first four are the words the host writes to CMD. The others are the wire
forms the engine reads at its cursor in a DECODE and emits in an ENCODE, with the octets the form itself does not fix as
operands. -/
inductive Instr where
  -- command words (30_encoding.md R70)
  | clr
  | decode
  | encode
  | cmdReserved (word : Word)
  -- messages (R71, R72): the marker and the body after the header
  | msgOpen (marker body : Bytes)
  | msgUpdate (marker body : Bytes)
  | msgNotification (marker body : Bytes)
  | msgKeepalive (marker body : Bytes)
  | msgRouteRefresh (marker body : Bytes)
  | msgUnassigned (type : Byte) (marker body : Bytes)
  -- attribute records (R74 to R76): the flags octet and the body
  | attrOrigin (flags : Byte) (body : Bytes)
  | attrAsPath (flags : Byte) (body : Bytes)
  | attrNextHop (flags : Byte) (body : Bytes)
  | attrMultiExitDisc (flags : Byte) (body : Bytes)
  | attrLocalPref (flags : Byte) (body : Bytes)
  | attrAtomicAggregate (flags : Byte) (body : Bytes)
  | attrAggregator (flags : Byte) (body : Bytes)
  | attrCommunities (flags : Byte) (body : Bytes)
  | attrOriginatorId (flags : Byte) (body : Bytes)
  | attrClusterList (flags : Byte) (body : Bytes)
  | attrMpReachNlri (flags : Byte) (body : Bytes)
  | attrMpUnreachNlri (flags : Byte) (body : Bytes)
  | attrExtendedCommunities (flags : Byte) (body : Bytes)
  | attrAs4Path (flags : Byte) (body : Bytes)
  | attrAs4Aggregator (flags : Byte) (body : Bytes)
  | attrIpv6ExtendedCommunities (flags : Byte) (body : Bytes)
  | attrLargeCommunity (flags : Byte) (body : Bytes)
  | attrUnrecognizedOptional (flags type : Byte) (body : Bytes)
  | attrUnrecognizedWellKnown (flags type : Byte) (body : Bytes)
  -- AS-path segments (R79): the members, or the octets a malformed segment starts with
  | segAsSet (members : List Asn)
  | segAsSequence (members : List Asn)
  | segOther (stype count : Byte)
  -- multiprotocol bodies (R81 to R83): what follows AFI and SAFI
  | familyIpv4Unicast (rest : Bytes)
  | familyIpv6Unicast (rest : Bytes)
  | familyOther (afi : Half) (safi : Byte) (rest : Bytes)
deriving DecidableEq, Repr

end Sys2Proof
end

