-- ==== Sys2Proof/Config.lean ====
section
/-! DEFINITION. The implementation parameters (00_scope.md R6), the fixed sizes, and the negotiated context as a command
latches it (10_state.md R27, R28). -/

namespace Sys2Proof

/-- HDR_LEN, the header size in octets (R6, R71). -/
def hdrLen : Nat := 19

/-- MARKER_LEN, the marker size in octets (R6, R71). -/
def markerLen : Nat := 16

/-- The parameters of R6, fixed for the life of the block, and the platform's base addresses of 20_memory.md R58
(`none`: the spec gives no default). The field defaults are the spec's. HDR_LEN, MARKER_LEN and SUPPORTED_FAMILIES are
fixed by R6, and OBUF_CAP is MAX_MSG_LEN. -/
structure Params where
  maxMsgLen : Nat := 4096
  markerCheck : Bool := false
  ibufCap : Nat := 65535
  regBase : Option Nat := none
  ibufBase : Option Nat := none
  obufBase : Option Nat := none
deriving DecidableEq, Repr

/-- The legal ranges of R6. -/
def Params.legal (p : Params) : Bool :=
  decide (29 ≤ p.maxMsgLen) && decide (p.maxMsgLen ≤ 65535) &&
    decide (p.maxMsgLen ≤ p.ibufCap) && decide (p.ibufCap ≤ 65535)

/-- OBUF_CAP = MAX_MSG_LEN (R6). -/
def Params.obufCap (p : Params) : Nat := p.maxMsgLen

/-- The part of the Decode Context a command reads (R28): FOUR_OCTET_AS and MP_SET. It is latched at the start of a
command and read-only for its duration. -/
structure Cxt where
  as4 : Bool
  mpIpv4 : Bool
  mpIpv6 : Bool
deriving DecidableEq, Repr

end Sys2Proof
end

