-- ==== Sys2Proof/Machine/Octets.lean ====
section
/-! DEFINITION. Octet strings and the pseudocode primitives (00_scope.md R9, R10; 20_memory.md R50, R54). -/

namespace Sys2Proof.Machine

open Sys2Proof

/-- `be_N` as a number: the unsigned value held big-endian in an octet string (R9, R50). -/
def beNat (bs : Bytes) : Nat :=
  bs.foldl (fun n b => n * 256 + b.toNat) 0

/-- `be_N` zero-extended into a field of `w` bits (R86). -/
def be (w : Nat) (bs : Bytes) : BitVec w :=
  BitVec.ofNat w (beNat bs)

/-- `to_be_N(v)`, the N-octet big-endian string of `v` (R9). -/
def toBe : Nat → Nat → Bytes
  | 0, _ => []
  | n + 1, v => BitVec.ofNat 8 (v / 256 ^ n) :: toBe n v

/-- `ceil8(n)`, the number of octets that hold `n` bits (R10). -/
def ceil8 (n : Nat) : Nat :=
  (n + 7) / 8

/-- An error with a value taken from a number; every value but the two clamped ones fits 16 bits (R281). -/
def err (r : Reason) (v : Nat) : CodecError :=
  ⟨r, BitVec.ofNat 16 v⟩

/-- `if cond: raise e` (R10). -/
def raiseIf (cond : Bool) (e : CodecError) : Except CodecError Unit :=
  if cond then .error e else .ok ()

/-- The bounds-checked read of R54, on what is left of the section: the `n` octets at the cursor and what follows. -/
def readOctets (n : Nat) (onShort : CodecError) (bs : Bytes) : Except CodecError (Bytes × Bytes) :=
  if bs.length < n then .error onShort else .ok (bs.take n, bs.drop n)

/-- The first octet of an octet string, 0 where it has none (only used under a length check). -/
def octet (bs : Bytes) : Byte :=
  bs.headD 0

/-- The substring of `n` octets at offset `i` (R9). -/
def slice (bs : Bytes) (i n : Nat) : Bytes :=
  (bs.drop i).take n

/-- The loop `while cur < end` over a section: `item` consumes octets at the cursor until the section is exhausted or
an error ends the command (R10, R284). The number bounds the rounds; `scan` gives it the section's length, which
suffices because every item consumes at least one octet (R318), so the last arm is never taken (log entry 17). -/
def scanFor {σ : Type} (item : σ → Bytes → Except CodecError (σ × Bytes)) : Nat → σ → Bytes → Except CodecError σ
  | _, acc, [] => .ok acc
  | n + 1, acc, b :: bs => do
    let (acc', rest) ← item acc (b :: bs)
    scanFor item n acc' rest
  | 0, _, _ :: _ => .error (err .bodyTooShort 0)

/-- The loop over a whole section. -/
def scan {σ : Type} (item : σ → Bytes → Except CodecError (σ × Bytes)) (acc : σ) (section_ : Bytes) :
    Except CodecError σ :=
  scanFor item section_.length acc section_

/-- `for x in xs: emit(f(x))`: the concatenation in list order; the first failure raises (R10, R287). -/
def emitAll {α : Type} (f : α → Except CodecError Bytes) : List α → Except CodecError Bytes
  | [] => .ok []
  | x :: xs => do
    let a ← f x
    let b ← emitAll f xs
    .ok (a ++ b)

/-- The first `n` records of `k` octets each, in wire order (R260). -/
def chunks (k : Nat) : Nat → Bytes → List Bytes
  | 0, _ => []
  | n + 1, bs => bs.take k :: chunks k n (bs.drop k)

end Sys2Proof.Machine
end

