-- ==== Sys2Proof/Machine/Flags.lean ====
section
/-! DEFINITION. The codes and flag words: error classes and ERR (60_exceptions.md R280 to R282), STATUS (10_state.md
R23), attribute type codes, expected flags and the flag check (30_encoding.md R75 to R77, 42_attributes.md R164),
message type codes and legal lengths (R72, R109), the context bits (R27). -/

namespace Sys2Proof.Machine

open Sys2Proof

/-! ### Errors -/

/-- CLASS of a sub-reason (R280). -/
def reasonClass : Reason → Nat
  | .shortBuffer | .marker | .badLength | .lengthMismatch | .badType => 1
  | .otMismatch | .partialSet => 2
  | .bodyLength | .nexthopLength => 3
  | .absent | .unknownNotOptional => 4
  | .unrecognizedWellKnown => 5
  | .originValue => 6
  | .bitlenTooLong | .overrun | .trailingBits => 7
  | .badSegmentType | .truncated => 8
  | .bodyTooShort | .withdrawnOverrun | .attrSectionOverrun | .recordTruncated | .recordOverrun | .duplicate => 9
  | .asnWidth | .family => 10
  | .emptyLegacyGroup | .attrsPresence | .llNexthopSet | .nexthopConflict | .unknownCollision | .prefixLen
  | .segmentTooLong | .attrTooLong | .messageTooLong | .passthroughLength => 11

/-- SUB of a sub-reason (R280). -/
def reasonSub : Reason → Nat
  | .shortBuffer | .otMismatch | .bodyLength | .absent | .unrecognizedWellKnown | .originValue | .bitlenTooLong
  | .badSegmentType | .bodyTooShort | .asnWidth | .emptyLegacyGroup => 1
  | .marker | .partialSet | .nexthopLength | .unknownNotOptional | .overrun | .truncated | .withdrawnOverrun | .family
  | .attrsPresence => 2
  | .badLength | .trailingBits | .attrSectionOverrun | .llNexthopSet => 3
  | .lengthMismatch | .recordTruncated | .nexthopConflict => 4
  | .badType | .recordOverrun | .unknownCollision => 5
  | .duplicate | .prefixLen => 6
  | .segmentTooLong => 7
  | .attrTooLong => 8
  | .messageTooLong => 9
  | .passthroughLength => 10

/-- ERR = VALUE << 16 | SUB << 8 | CLASS (R282). -/
def errWord (e : CodecError) : Word :=
  BitVec.ofNat 32 (e.value.toNat * 65536 + reasonSub e.reason * 256 + reasonClass e.reason)

/-! ### STATUS -/

/-- The field STATE of STATUS (R23). -/
def statusState (w : Word) : Nat := w.toNat % 4

/-- The field LAST of STATUS (R23). -/
def statusLast (w : Word) : Nat := w.toNat / 4 % 4

/-- STATUS with STATE and LAST set and bits [31:4] zero (R23). -/
def statusWord (state last : Nat) : Word := BitVec.ofNat 32 (last * 4 + state)

/-- STATE values (R23). -/
def stateOk : Nat := 1
def stateErr : Nat := 2

/-- LAST values, the OP of the command (R22, R23). -/
def lastDecode : Nat := 1
def lastEncode : Nat := 2

/-! ### Attribute types and flags -/

/-- The type code of each recognized attribute (R76). -/
def attrCode : AttrType → Byte
  | .origin => 1
  | .asPath => 2
  | .nextHop => 3
  | .multiExitDisc => 4
  | .localPref => 5
  | .atomicAggregate => 6
  | .aggregator => 7
  | .communities => 8
  | .originatorId => 9
  | .clusterList => 10
  | .mpReachNlri => 14
  | .mpUnreachNlri => 15
  | .extendedCommunities => 16
  | .as4Path => 17
  | .as4Aggregator => 18
  | .ipv6ExtendedCommunities => 25
  | .largeCommunity => 32

/-- The flags each recognized attribute expects, EXPECTED of R164 (R76): 0x40 well-known transitive, 0x80 optional
non-transitive, 0xC0 optional transitive. -/
def expectedFlags : AttrType → Byte
  | .origin | .asPath | .nextHop | .localPref | .atomicAggregate => 0x40
  | .multiExitDisc | .originatorId | .clusterList | .mpReachNlri | .mpUnreachNlri => 0x80
  | .aggregator | .communities | .extendedCommunities | .as4Path | .as4Aggregator | .ipv6ExtendedCommunities
  | .largeCommunity => 0xC0

/-- The recognized types in ascending type code, which is also the emission order (R76, R142). -/
def recognizedTypes : List AttrType :=
  [.origin, .asPath, .nextHop, .multiExitDisc, .localPref, .atomicAggregate, .aggregator, .communities, .originatorId,
    .clusterList, .mpReachNlri, .mpUnreachNlri, .extendedCommunities, .as4Path, .as4Aggregator,
    .ipv6ExtendedCommunities, .largeCommunity]

/-- The recognized type a code names, `none` where it is unrecognized (R76, R163). -/
def attrTypeOf (t : Byte) : Option AttrType :=
  recognizedTypes.find? (fun a => attrCode a == t)

/-- The O bit, 0x80 (R75). -/
def optionalBit (flags : Byte) : Bool := flags &&& 0x80 != 0

/-- The P bit, 0x20 (R75). -/
def partialBit (flags : Byte) : Bool := flags &&& 0x20 != 0

/-- The E bit, 0x10 (R75). -/
def extendedBit (flags : Byte) : Bool := flags &&& 0x10 != 0

/-- `check_flags` (R164, R77): O and T as expected, and P clear unless the expected pattern is optional transitive. -/
def checkFlags (flags : Byte) (t : AttrType) : Except CodecError Unit := do
  raiseIf (flags &&& 0xC0 != expectedFlags t) (err .otMismatch (attrCode t).toNat)
  raiseIf (expectedFlags t != 0xC0 && partialBit flags) (err .partialSet (attrCode t).toNat)

/-- The attribute type of a path and of a multiprotocol attribute. -/
def pathAttr : PathKind → AttrType
  | .asPath => .asPath
  | .as4Path => .as4Path

def mpAttr : MpKind → AttrType
  | .reach => .mpReachNlri
  | .unreach => .mpUnreachNlri

/-! ### Message types -/

/-- The type code of each message kind (R72). -/
def msgCode : MsgKind → Byte
  | .openMsg => 1
  | .update => 2
  | .notification => 3
  | .keepalive => 4
  | .routeRefresh => 5

/-- The kind a type code names, `none` where it is unassigned (R72, R108). -/
def msgKindOf (t : Byte) : Option MsgKind :=
  [MsgKind.openMsg, .update, .notification, .keepalive, .routeRefresh].find? (fun k => msgCode k == t)

/-- `len_ok(T, L)`, the legal total lengths of each kind (R109). -/
def lenOk (k : MsgKind) (l : Nat) : Bool :=
  match k with
  | .openMsg => decide (29 ≤ l)
  | .update => decide (23 ≤ l)
  | .notification => decide (21 ≤ l)
  | .keepalive => decide (l = 19)
  | .routeRefresh => decide (l = 23)

/-! ### Context bits -/

/-- The context a command latches from CXT_CAPS: bit 0 FOUR_OCTET_AS, bit 1 MP_IPV4_UNICAST, bit 2 MP_IPV6_UNICAST
(R27, R100, R101). Bit 3 is read by no rule. -/
def cxtOfCaps (caps : Word) : Cxt :=
  { as4 := caps.getLsbD 0, mpIpv4 := caps.getLsbD 1, mpIpv6 := caps.getLsbD 2 }

end Sys2Proof.Machine
end

