-- ==== Sys2Proof/Machine/Operands.lean ====
section
/-! DEFINITION. Operand assembly (30_encoding.md R86): the AS-number width and the AS-number reads and writes
(43_aspath.md R210 to R212), the legal families (44_nlri.md R236), the prefix operand (R230, R232) and the fixed
records of the communities (45_communities.md R260 to R264). -/

namespace Sys2Proof.Machine

open Sys2Proof

/-! ### AS numbers -/

/-- W = 4 if FOUR_OCTET_AS, otherwise 2 (R212). -/
def asnWidth (cx : Cxt) : Nat :=
  if cx.as4 then 4 else 2

/-- The width of a path's members: W for AS_PATH, always 4 for AS4_PATH (R212, R216). -/
def pathWidth (cx : Cxt) : PathKind → Nat
  | .asPath => asnWidth cx
  | .as4Path => 4

/-- `read_asn`: the big-endian value, zero-extended (R210). -/
def readAsn (bs : Bytes) : Asn := be 32 bs

/-- `write_asn(a, W, t)`: at width 2 an AS number above 0xFFFF is refused (R211). -/
def writeAsn (width : Nat) (t : AttrType) (a : Asn) : Except CodecError Bytes := do
  raiseIf (width == 2 && decide (0xFFFF < a.toNat)) (err .asnWidth (attrCode t).toNat)
  .ok (toBe width a.toNat)

/-! ### Families -/

/-- `legal((afi, safi), cx)`: supported and negotiated (R236). -/
def legalFamily (cx : Cxt) (afi : Half) (safi : Byte) : Bool :=
  (afi == 1 && safi == 1 && cx.mpIpv4) || (afi == 2 && safi == 1 && cx.mpIpv6)

/-! ### Prefixes -/

/-- Whether the last of the prefix's octets has a bit set past the bit length (R230). -/
def hasTrailingBits (len : Nat) (raw : Bytes) : Bool :=
  len % 8 != 0 && (raw.getLastD 0 &&& ((0xFF : Byte) >>> (len % 8))) != 0

/-- `decode_prefix(S, i, W)` at the cursor: the width check, then the section boundary, then the trailing bits (R230).
The empty section has no prefix to decode; the list loop never asks for one (R231). -/
def decodePrefix (w : Nat) (bs : Bytes) : Except CodecError (Prefix w × Bytes) :=
  match bs with
  | [] => .error (err .overrun 0)
  | l :: rest => do
    let n := ceil8 l.toNat
    raiseIf (decide (w < l.toNat)) (err .bitlenTooLong l.toNat)
    let (raw, rest') ← readOctets n (err .overrun l.toNat) rest
    raiseIf (hasTrailingBits l.toNat raw) (err .trailingBits l.toNat)
    .ok ({ addr := be w (raw ++ List.replicate (w / 8 - n) 0), len := l.toNat }, rest')

/-- `decode_prefix_list(S, W)`: prefixes back to back, filling the section exactly, in wire order (R231). -/
def decodePrefixList (w : Nat) (bs : Bytes) : Except CodecError (List (Prefix w)) :=
  scan (fun ps s => do
    let (p, rest) ← decodePrefix w s
    .ok (ps ++ [p], rest)) [] bs

/-- The address with every bit below the top `len` bits cleared (R232, R34). -/
def maskedAddr {w : Nat} (p : Prefix w) : BitVec w :=
  BitVec.ofNat w (p.addr.toNat - p.addr.toNat % 2 ^ (w - p.len))

/-- `encode_prefix(p, W)`: masked to its length, never refused for its address (R232). -/
def encodePrefix {w : Nat} (p : Prefix w) : Except CodecError Bytes := do
  raiseIf (decide (w < p.len)) (err .prefixLen (min p.len 65535))
  .ok (BitVec.ofNat 8 p.len :: (toBe (w / 8) (maskedAddr p).toNat).take (ceil8 p.len))

/-- `encode_prefix_list(ps, W)` (R233). -/
def encodePrefixList {w : Nat} (ps : List (Prefix w)) : Except CodecError Bytes :=
  emitAll encodePrefix ps

/-- The canonical form of a prefix (R34, R232). -/
def canonPrefix {w : Nat} (p : Prefix w) : Prefix w :=
  { p with addr := maskedAddr p }

/-! ### Fixed-width records -/

/-- The record loop of R260: the body must be a whole number of `k`-octet records. -/
def decodeRecords {α : Type} (k : Nat) (t : AttrType) (rec : Bytes → α) (v : Bytes) : Except CodecError (List α) := do
  raiseIf (v.length % k != 0) (err .bodyLength (attrCode t).toNat)
  .ok ((chunks k (v.length / k) v).map rec)

/-- A fixed body of exactly `k` octets (R166 to R174). -/
def fixedBody (k : Nat) (t : AttrType) (v : Bytes) : Except CodecError Unit :=
  raiseIf (v.length != k) (err .bodyLength (attrCode t).toNat)

/-- COMMUNITIES record (R261). -/
def decodeComm (r : Bytes) : Comm :=
  { global := be 16 (slice r 0 2), loc := be 16 (slice r 2 2) }

def encodeComm (c : Comm) : Bytes :=
  toBe 2 c.global.toNat ++ toBe 2 c.loc.toNat

/-- EXTENDED_COMMUNITIES record: the 8 octets as they are (R262). -/
def decodeExtComm (r : Bytes) : ExtComm :=
  { o0 := octet r, o1 := octet (r.drop 1), o2 := octet (r.drop 2), o3 := octet (r.drop 3),
    o4 := octet (r.drop 4), o5 := octet (r.drop 5), o6 := octet (r.drop 6), o7 := octet (r.drop 7) }

def encodeExtComm (c : ExtComm) : Bytes :=
  [c.o0, c.o1, c.o2, c.o3, c.o4, c.o5, c.o6, c.o7]

/-- LARGE_COMMUNITY record (R263). -/
def decodeLargeComm (r : Bytes) : LargeComm :=
  { global := be 32 (slice r 0 4), local1 := be 32 (slice r 4 4), local2 := be 32 (slice r 8 4) }

def encodeLargeComm (c : LargeComm) : Bytes :=
  toBe 4 c.global.toNat ++ toBe 4 c.local1.toNat ++ toBe 4 c.local2.toNat

/-- IPV6_EXTENDED_COMMUNITIES record, the source's 16 + 4 split (R264, conflict C5). -/
def decodeExtv6Comm (r : Bytes) : Extv6Comm :=
  { addr := be 128 (slice r 0 16), localAdmin := be 32 (slice r 16 4) }

def encodeExtv6Comm (c : Extv6Comm) : Bytes :=
  toBe 16 c.addr.toNat ++ toBe 4 c.localAdmin.toNat

/-- ORIGIN codes (R80). -/
def originCode : Origin → Byte
  | .igp => 0
  | .egp => 1
  | .incomplete => 2

/-- The ORIGIN a code names; values above 2 name none (R80, R166). -/
def originOf (v : Byte) : Option Origin :=
  [Origin.igp, .egp, .incomplete].find? (fun o => originCode o == v)

/-- Segment type codes: 1 Set, 2 Sequence (R79). -/
def segCode : SegKind → Byte
  | .set => 1
  | .sequence => 2

def segKindOf (t : Byte) : Option SegKind :=
  [SegKind.set, .sequence].find? (fun k => segCode k == t)

end Sys2Proof.Machine
end

