-- ==== Sys2Proof/Decode.lean ====
section
/-! DEFINITION. Reading the forms from their words (30_encoding.md R70 to R83, R87, R88), total and rejecting by the
error the spec names, and after it the encoder, written from the same encoding tables. -/

namespace Sys2Proof

open Sys2Proof.Machine

/-! ### Selecting the instruction -/

/-- The command a word written to CMD names: the whole word must equal the command's value (R70). -/
def decodeCommand (w : Word) : Instr :=
  if w = 0 then .clr
  else if w = 1 then .decode
  else if w = 2 then .encode
  else .cmdReserved w

/-- The instruction a message's type octet selects (R72, R108). -/
def MsgForm.toInstr (f : MsgForm) : Instr :=
  match msgKindOf f.type with
  | some .openMsg => .msgOpen f.marker f.body
  | some .update => .msgUpdate f.marker f.body
  | some .notification => .msgNotification f.marker f.body
  | some .keepalive => .msgKeepalive f.marker f.body
  | some .routeRefresh => .msgRouteRefresh f.marker f.body
  | none => .msgUnassigned f.type f.marker f.body

/-- The instruction a record's type octet selects, by the O flag for an unrecognized type (R76, R163, R165). -/
def RecForm.toInstr (f : RecForm) : Instr :=
  match attrTypeOf f.type with
  | some .origin => .attrOrigin f.flags f.body
  | some .asPath => .attrAsPath f.flags f.body
  | some .nextHop => .attrNextHop f.flags f.body
  | some .multiExitDisc => .attrMultiExitDisc f.flags f.body
  | some .localPref => .attrLocalPref f.flags f.body
  | some .atomicAggregate => .attrAtomicAggregate f.flags f.body
  | some .aggregator => .attrAggregator f.flags f.body
  | some .communities => .attrCommunities f.flags f.body
  | some .originatorId => .attrOriginatorId f.flags f.body
  | some .clusterList => .attrClusterList f.flags f.body
  | some .mpReachNlri => .attrMpReachNlri f.flags f.body
  | some .mpUnreachNlri => .attrMpUnreachNlri f.flags f.body
  | some .extendedCommunities => .attrExtendedCommunities f.flags f.body
  | some .as4Path => .attrAs4Path f.flags f.body
  | some .as4Aggregator => .attrAs4Aggregator f.flags f.body
  | some .ipv6ExtendedCommunities => .attrIpv6ExtendedCommunities f.flags f.body
  | some .largeCommunity => .attrLargeCommunity f.flags f.body
  | none =>
    if optionalBit f.flags then .attrUnrecognizedOptional f.flags f.type f.body
    else .attrUnrecognizedWellKnown f.flags f.type f.body

/-- The instruction a segment's type octet selects (R79, R214). -/
def SegForm.toInstr : SegForm → Instr
  | .known ⟨.set, members⟩ => .segAsSet members
  | .known ⟨.sequence, members⟩ => .segAsSequence members
  | .other stype count => .segOther stype count

/-- The instruction a family selects; a supported family that is not negotiated is FAMILY_OTHER (R236, R242, and the
table's row FAMILY_OTHER). -/
def FamForm.toInstr (cx : Cxt) (f : FamForm) : Instr :=
  if legalFamily cx f.afi f.safi then
    if f.afi = 1 then .familyIpv4Unicast f.rest else .familyIpv6Unicast f.rest
  else .familyOther f.afi f.safi f.rest

/-! ### Reading the forms -/

/-- The header checks of R104 to R107 in their order (R103); the message that passes them is the whole buffer. -/
def readHeader (par : Params) (b : Bytes) : Except CodecError MsgForm := do
  raiseIf (decide (b.length < hdrLen)) (err .shortBuffer b.length)
  raiseIf (par.markerCheck && b.take markerLen != List.replicate markerLen 0xFF) (err .marker 0)
  let l := beNat (slice b 16 2)
  raiseIf (decide (l < hdrLen) || decide (par.maxMsgLen < l)) (err .badLength l)
  raiseIf (l != b.length) (err .lengthMismatch l)
  .ok { type := octet (b.drop 18), marker := b.take markerLen, body := b.drop hdrLen }

/-- `read_record`, the envelope of an attribute record (R161). -/
def readRecord (s : Bytes) : Except CodecError (RecForm × Bytes) :=
  match s with
  | f :: t :: afterType => do
    let n := if extendedBit f then 2 else 1
    let (lenOctets, afterLen) ← readOctets n (err .recordTruncated t.toNat) afterType
    let (v, rest) ← readOctets (beNat lenOctets) (err .recordOverrun t.toNat) afterLen
    .ok ({ flags := f, type := t, body := v }, rest)
  | _ => .error (err .recordTruncated 0)

/-- One round of `decode_segments` up to its members: the segment type is checked before the count is used, so a
malformed type is a form of its own (R214). `w` is the width of a member. -/
def readSegment (w : Nat) (t : AttrType) (s : Bytes) : Except CodecError (SegForm × Bytes) :=
  match s with
  | st :: c :: rest =>
    match segKindOf st with
    | none => .ok (.other st c, rest)
    | some kind => do
      let (asns, rest') ← readOctets (c.toNat * w) (err .truncated (attrCode t).toNat) rest
      .ok (.known { kind := kind, members := (chunks w c.toNat asns).map readAsn }, rest')
  | _ => .error (err .truncated (attrCode t).toNat)

/-- The family at the start of an MP body, which must hold AFI and SAFI (R237, R239). -/
def readFamily (k : MpKind) (v : Bytes) : Except CodecError FamForm := do
  raiseIf (decide (v.length < 3)) (err .bodyLength (attrCode (mpAttr k)).toNat)
  .ok { afi := be 16 (v.take 2), safi := octet (v.drop 2), rest := v.drop 3 }

/-! ### The decoder -/

/-- The words of one instruction and the kind of place they stand in: a 32-bit command word, or octets at the cursor. A
form's first octets do not say which kind it is; the place does (R88). -/
inductive Code where
  | word (w : Word)
  | message (bs : Bytes)
  | record (bs : Bytes)
  | segment (bs : Bytes)
  | family (bs : Bytes)
deriving DecidableEq, Repr

/-- What the reading of a form depends on besides its octets: the parameters, the latched context, and which path or
multiprotocol attribute holds the segment or family. -/
structure FormCtx where
  par : Params
  cx : Cxt
  path : PathKind
  mp : MpKind
deriving DecidableEq, Repr

/-- The decoder: the instruction and the octets after it, or the error the spec names. A message and a family take all
the octets they are given (R107, R81, R82). -/
def decode (c : FormCtx) : Code → Except CodecError (Instr × Bytes)
  | .word w => .ok (decodeCommand w, [])
  | .message bs => do
    let f ← readHeader c.par bs
    .ok (f.toInstr, [])
  | .record bs => do
    let (f, rest) ← readRecord bs
    .ok (f.toInstr, rest)
  | .segment bs => do
    let (f, rest) ← readSegment (pathWidth c.cx c.path) (pathAttr c.path) bs
    .ok (f.toInstr, rest)
  | .family bs => do
    let f ← readFamily c.mp bs
    .ok (f.toInstr c.cx, [])

/-! ### The encoder -/

/-- Header and body of a message (R71): LENGTH counts the header. -/
def messageOctets (marker : Bytes) (t : Byte) (body : Bytes) : Bytes :=
  marker ++ toBe 2 (hdrLen + body.length) ++ [t] ++ body

/-- An attribute record, its length in 2 octets exactly when E is set (R74). -/
def recordOctets (flags t : Byte) (v : Bytes) : Bytes :=
  [flags, t] ++ toBe (if extendedBit flags then 2 else 1) v.length ++ v

/-- A segment with members of `w` octets (R79). -/
def segmentOctets (w : Nat) (s : AsPathSegment) : Bytes :=
  [segCode s.kind, BitVec.ofNat 8 s.members.length] ++ (s.members.map (fun a => toBe w a.toNat)).flatten

/-- A multiprotocol body (R81, R82). -/
def familyOctets (afi : Half) (safi : Byte) (rest : Bytes) : Bytes :=
  toBe 2 afi.toNat ++ [safi] ++ rest

/-- The encoder: the words of an instruction, and the place they stand in. -/
def encode (c : FormCtx) : Instr → Code
  | .clr => .word 0
  | .decode => .word 1
  | .encode => .word 2
  | .cmdReserved w => .word w
  | .msgOpen m b => .message (messageOctets m (msgCode .openMsg) b)
  | .msgUpdate m b => .message (messageOctets m (msgCode .update) b)
  | .msgNotification m b => .message (messageOctets m (msgCode .notification) b)
  | .msgKeepalive m b => .message (messageOctets m (msgCode .keepalive) b)
  | .msgRouteRefresh m b => .message (messageOctets m (msgCode .routeRefresh) b)
  | .msgUnassigned t m b => .message (messageOctets m t b)
  | .attrOrigin f v => .record (recordOctets f (attrCode .origin) v)
  | .attrAsPath f v => .record (recordOctets f (attrCode .asPath) v)
  | .attrNextHop f v => .record (recordOctets f (attrCode .nextHop) v)
  | .attrMultiExitDisc f v => .record (recordOctets f (attrCode .multiExitDisc) v)
  | .attrLocalPref f v => .record (recordOctets f (attrCode .localPref) v)
  | .attrAtomicAggregate f v => .record (recordOctets f (attrCode .atomicAggregate) v)
  | .attrAggregator f v => .record (recordOctets f (attrCode .aggregator) v)
  | .attrCommunities f v => .record (recordOctets f (attrCode .communities) v)
  | .attrOriginatorId f v => .record (recordOctets f (attrCode .originatorId) v)
  | .attrClusterList f v => .record (recordOctets f (attrCode .clusterList) v)
  | .attrMpReachNlri f v => .record (recordOctets f (attrCode .mpReachNlri) v)
  | .attrMpUnreachNlri f v => .record (recordOctets f (attrCode .mpUnreachNlri) v)
  | .attrExtendedCommunities f v => .record (recordOctets f (attrCode .extendedCommunities) v)
  | .attrAs4Path f v => .record (recordOctets f (attrCode .as4Path) v)
  | .attrAs4Aggregator f v => .record (recordOctets f (attrCode .as4Aggregator) v)
  | .attrIpv6ExtendedCommunities f v => .record (recordOctets f (attrCode .ipv6ExtendedCommunities) v)
  | .attrLargeCommunity f v => .record (recordOctets f (attrCode .largeCommunity) v)
  | .attrUnrecognizedOptional f t v => .record (recordOctets f t v)
  | .attrUnrecognizedWellKnown f t v => .record (recordOctets f t v)
  | .segAsSet ms => .segment (segmentOctets (pathWidth c.cx c.path) ⟨.set, ms⟩)
  | .segAsSequence ms => .segment (segmentOctets (pathWidth c.cx c.path) ⟨.sequence, ms⟩)
  | .segOther st n => .segment [st, n]
  | .familyIpv4Unicast rest => .family (familyOctets 1 1 rest)
  | .familyIpv6Unicast rest => .family (familyOctets 2 1 rest)
  | .familyOther afi safi rest => .family (familyOctets afi safi rest)

/-! ### The words of spec/opcode_table.json -/

/-- The context in which both supported families are negotiated: the one in which the table's family rows select their
own forms (R236; log entry 4). -/
def tableCtx : FormCtx :=
  { par := {}, cx := { as4 := true, mpIpv4 := true, mpIpv6 := true }, path := .asPath, mp := .unreach }

/-- Where the words of a table row stand, by the number of bits the row gives: 32 bits are a command word, 24 bits the AFI
and SAFI of an MP body, 8 bits a type octet. The table gives one number to rows of three kinds (0x01 is MSG_OPEN,
ATTR_ORIGIN and SEG_AS_SET): a bare octet is read as the type octet of an attribute record with flags 0 and an empty
body, since most of the table's rows are attributes (log entry 4). -/
def tableCode (nbits w : Nat) : Option Code :=
  if nbits = 32 then some (.word (BitVec.ofNat 32 w))
  else if nbits = 24 then some (.family (toBe 3 w))
  else if nbits = 8 then some (.record [0, BitVec.ofNat 8 w, 0])
  else none

/-- The instruction the decoder reads from a table row's words. -/
def decodeTableWord (nbits w : Nat) : Option Instr :=
  match tableCode nbits w with
  | none => none
  | some code =>
    match decode tableCtx code with
    | .ok (i, _) => some i
    | .error _ => none

end Sys2Proof
end

