-- ==== Sys2Proof/Machine/State.lean ====
section
/-! DEFINITION. The state of the block: the register file, the buffers and ports (10_state.md R20 to R45), what the
engine holds inside one command (R24, 41_update.md R130, 42_attributes.md R160), the parameters, and the host's side of
the interface; the reasons a step can stop; the state after reset (R44). -/

namespace Sys2Proof.Machine

open Sys2Proof

/-! ### Why a step stops -/

/-- The one fault. The block has no trap and no stuck behaviour (60_exceptions.md R288). -/
inductive Fault where
  /-- The cursor of a section lies past the section's end (10_state.md R24 says it never does). Raised by `step` alone, in
  states no run reaches. Safe. -/
  | cursorPastEnd
deriving DecidableEq, Repr

/-- The host actions and forms that have no meaning. The first group is R286 of 60_exceptions.md, item by item, and R311;
all of them are safe: the model stops where the spec gives no meaning. -/
inductive Refusal where
  /-- An instruction whose meaning is not written yet. Raised by `exec`. Safe. -/
  | notModelled (mnemonic : String)
  /-- R286 item 1: a write to CMD of a word that is no command. Raised by CMD_RESERVED. Safe. -/
  | reservedCommand
  /-- R286 item 2: a read of CMD. Raised by a host read. Safe. -/
  | readOfCmd
  /-- R286 item 2: a write to STATUS, ERR or OBUF_LEN. Raised by a host write. Safe. -/
  | writeToReadOnly
  /-- R286 item 2: an access to REG offsets 0x020 to 0xFFF or to one that is no multiple of 4. Raised by a host access. Safe. -/
  | reservedOffset
  /-- R286 items 3 and 4: a write that sets reserved bits. Raised by a host write. Safe. -/
  | reservedBits
  /-- R286 item 4: a write to IBUF_LEN above IBUF_CAP. Raised by a host write. Safe. -/
  | lengthAboveCapacity
  /-- R286 item 5: an access to IBUF at an index at or above IBUF_CAP. Raised by a host access. Safe. -/
  | ibufIndex
  /-- R286 item 5: a read of an IBUF octet that is unwritten. Raised by a host read. Safe. -/
  | ibufUnwritten
  /-- R286 item 5: a write to OBUF. Raised by a host write. Safe. -/
  | writeToObuf
  /-- R286 item 6: DECODE with CXT_CAPS, IBUF_LEN or an octet of the message unwritten. Raised by DECODE. Safe. -/
  | decodeInputUnwritten
  /-- R286 item 7: ENCODE with CXT_CAPS or MSG_IN unwritten. Raised by ENCODE. Safe. -/
  | encodeInputUnwritten
  /-- R286 item 8: a read of MSG_OUT while it is invalid. Raised by a host read. Safe. -/
  | msgOutInvalid
  /-- R286 item 8: a read of OBUF at an index at or above OBUF_LEN. Raised by a host read. Safe. -/
  | obufIndex
  /-- R311: a read of a register that is unwritten (its reset value by R44) is REFUSED, and never reads as 0. Raised by a host
  read. Safe. -/
  | registerUnwritten
  /-- A wire form where the engine has no place for it: outside a command, or in a section of another kind. No run reaches
  this: inside a command the engine reads a form of the kind its section holds. Raised by the wire forms. Safe. -/
  | outOfPlace
deriving DecidableEq, Repr

/-! ### The engine inside one command -/

/-- `st`, the side state of the attribute section: the NEXT_HOP value and the MP groups (R130, R160). -/
structure Side where
  nh : Option Ipv4 := none
  mpReach : Option MpReachNlri := none
  mpUnreach : Option MpUnreachNlri := none
deriving DecidableEq, Repr

/-- What `decode_attr_section` builds: A, st and seen (R160). The defaults are its start. -/
structure RecState where
  attrs : Attrs := {}
  side : Side := {}
  seen : List Byte := []
deriving DecidableEq, Repr

/-- An UPDATE being decoded, its cursor in the attribute section: the withdrawn group already decoded, the section and
the cursor (R24), what the records so far built, and the NLRI section still to come (R130, R131). -/
structure UpdWork where
  unreach : Option UnreachNlri
  sec : Bytes
  cur : Nat
  recs : RecState
  nlri : Bytes
deriving DecidableEq, Repr

/-- Where the cursor of a DECODE stands: at the header of the message, at a record, at a segment of a path attribute, or at
the family of a multiprotocol attribute. -/
inductive DecPlace where
  | message (b : Bytes)
  | records (w : UpdWork)
  | segments (w : UpdWork) (k : PathKind) (sec : Bytes) (cur : Nat) (segs : List AsPathSegment)
  | family (w : UpdWork) (k : MpKind) (flags : Byte) (body : Bytes)
deriving DecidableEq, Repr

/-- A record slot of the emission order (R142): a recognized type, or one entry of `unknown`. -/
inductive Slot where
  | known (t : AttrType)
  | unknown (e : UnknownAttr)
deriving DecidableEq, Repr

/-- An UPDATE being encoded: the value and its attribute block, the withdrawn octets already built, the slots still to
emit, and the octets of the attribute section emitted so far (R141, R142). -/
structure EncWork where
  upd : UpdateMsg
  attrs : Attrs
  wd : Bytes
  todo : List Slot
  out : Bytes
deriving DecidableEq, Repr

/-- A multiprotocol group being encoded (R240, R241). -/
inductive MpGroup where
  | reach (g : MpReachNlri)
  | unreach (g : MpUnreachNlri)
deriving DecidableEq, Repr

/-- Where an ENCODE stands: at the message, at the next record, at the next segment of a path (with the segments to come and
the octets of the body so far), or at the family of a multiprotocol group. -/
inductive EncPlace where
  | message (m : Message)
  | records (w : EncWork)
  | segments (w : EncWork) (k : PathKind) (todo : List AsPathSegment) (out : Bytes)
  | family (w : EncWork) (g : MpGroup)
deriving DecidableEq, Repr

/-- The engine: idle between commands (R296), or inside a DECODE or an ENCODE with the context it latched at the start of
the command (R28). -/
inductive Engine where
  | idle
  | decoding (cx : Cxt) (place : DecPlace)
  | encoding (cx : Cxt) (place : EncPlace)
deriving DecidableEq, Repr

/-! ### The host's side -/

/-- The registers of R21 that hold a value; CMD, the eighth, holds nothing after a write (R22). -/
inductive Reg where
  | status
  | err
  | cxtCaps
  | cxtPeerType
  | cxtPeerAs
  | ibufLen
  | obufLen
deriving DecidableEq, Repr

/-- One access of the host (10_state.md R21, R26; 20_memory.md R53, R57), or the platform's reset (70_reset_and_hazards.md
R310). Register offsets have 12 bits and buffer indexes 16 (R57). -/
inductive HostOp where
  | writeReg (offset : BitVec 12) (value : Word)
  | readReg (offset : BitVec 12)
  | writeIbuf (index : Half) (value : Byte)
  | readIbuf (index : Half)
  | writeObuf (index : Half) (value : Byte)
  | readObuf (index : Half)
  | writeMsgIn (m : Message)
  | readMsgOut
  | reset
deriving DecidableEq, Repr

/-- What a read returned to the host. -/
inductive HostValue where
  | word (w : Word)
  | octet (b : Byte)
  | message (m : Message)
deriving DecidableEq, Repr

/-- The host: its accesses to come, in program order (R60), and what its reads have returned, oldest first (log entry 2). -/
structure HostSide where
  todo : List HostOp := []
  seen : List HostValue := []
deriving DecidableEq, Repr

/-! ### The state -/

/-- A buffer of octets: the written octets as (index, octet) pairs, indexes strictly rising. An index that is not listed
holds no octet (R44, R311). -/
abbrev Memory := List Host.Cell

/-- The state of the block. An unwritten register, an unwritten port and an invalid MSG_OUT are `none`, as R311 says a model
may have them (log entry 3). -/
structure State where
  /-- the implementation parameters (R6), no state of the block: no step changes them (log entry 1) -/
  par : Params
  /-- STATUS, offset 0x004 (R23) -/
  status : Word
  /-- ERR, offset 0x008 (R25) -/
  err : Word
  /-- CXT_CAPS, offset 0x00C (R27) -/
  cxtCaps : Option Word
  /-- CXT_PEER_TYPE, offset 0x010 (R27) -/
  cxtPeerType : Option Word
  /-- CXT_PEER_AS, offset 0x014 (R27) -/
  cxtPeerAs : Option Word
  /-- IBUF_LEN, offset 0x018 (R29) -/
  ibufLen : Option Word
  /-- OBUF_LEN, offset 0x01C (R40) -/
  obufLen : Word
  /-- IBUF (R29) -/
  ibuf : Memory
  /-- OBUF (R40) -/
  obuf : Memory
  /-- the port MSG_IN (R40) -/
  msgIn : Option Message
  /-- the port MSG_OUT (R40) -/
  msgOut : Option Message
  /-- what exists only inside a command (R24, R43) -/
  engine : Engine
  /-- the host's side of the interface (log entry 2) -/
  host : HostSide
deriving DecidableEq, Repr

/-- What the engine does next: run an instruction from a state (the word the host wrote to CMD, or the form at the cursor),
or an outcome reached without one (a host access, the end of a section, an error in reading the form). -/
inductive Fetched where
  | run (i : Instr) (s : State)
  | done (o : Host.Outcome State Fault Refusal)

/-- The state after reset (R44, R310), with the default parameters and no host access pending. -/
def State.reset : State where
  par := {}
  status := 0
  err := 0
  cxtCaps := none
  cxtPeerType := none
  cxtPeerAs := none
  ibufLen := none
  obufLen := 0
  ibuf := []
  obuf := []
  msgIn := none
  msgOut := none
  engine := .idle
  host := {}

end Sys2Proof.Machine
end

