-- ==== Sys2Proof/Machine/Ops.lean ====
section
/-! DEFINITION. The operations over the state: the octet buffers, the host's register, buffer and port accesses
(10_state.md R21 to R29, R40; 60_exceptions.md R286), the end of a command with a value or with an error (R283; the one
shared operation that is this block's taking of an exception), and the running of a wire form where the engine stands. -/

namespace Sys2Proof.Machine

open Sys2Proof

/-! ### Octet buffers -/

/-- One octet of a buffer; `none` where nothing is written there (R311). What an unlisted index reads as is decided here
and nowhere else (log entry 7). -/
def Memory.read : Memory → Nat → Option Byte
  | [], _ => none
  | (b, v) :: m, a => if a = b then some v else Memory.read m a

/-- Write one octet, keeping the indexes strictly rising. -/
def Memory.write : Memory → Nat → Byte → Memory
  | [], a, v => [(a, v)]
  | (b, u) :: m, a, v =>
    if a < b then (a, v) :: (b, u) :: m
    else if a = b then (a, v) :: m
    else (b, u) :: Memory.write m a v

/-- `MemWrite(a, |bs|, bs)` (R10). -/
def Memory.writeAll (m : Memory) (a : Nat) : Bytes → Memory
  | [] => m
  | b :: bs => Memory.writeAll (m.write a b) (a + 1) bs

/-- `MemRead(a, n)` (R10): the octets at `a` to `a + n - 1`, `none` when one of them is unwritten (R100). -/
def Memory.readRange (m : Memory) (a : Nat) : Nat → Option Bytes
  | 0 => some []
  | n + 1 =>
    match m.read a, Memory.readRange m (a + 1) n with
    | some b, some bs => some (b :: bs)
    | _, _ => none

/-- The canonical form: indexes strictly rising. -/
def Memory.wf : Memory → Bool
  | [] => true
  | [_] => true
  | (a, _) :: (b, v) :: m => decide (a < b) && Memory.wf ((b, v) :: m)

/-- Every listed index is below a capacity. -/
def Memory.below (m : Memory) (cap : Nat) : Bool :=
  m.all (fun c => decide (c.1 < cap))

/-! ### The end of a command -/

/-- An error ends the command (R283): STATE = ERR with LAST the command, ERR the error, OBUF_LEN 0, MSG_OUT invalid, and
nothing else changes. The command's own state is discarded (R24). -/
def raiseError (last : Nat) (e : CodecError) (s : State) : State :=
  { s with
    status := statusWord stateErr last
    err := errWord e
    obufLen := 0
    msgOut := none
    engine := .idle }

/-- A DECODE that returns a message (R100). -/
def deliverMessage (m : Message) (s : State) : State :=
  { s with
    status := statusWord stateOk lastDecode
    err := 0
    obufLen := 0
    msgOut := some m
    engine := .idle }

/-- An ENCODE that returns octets: they are written to OBUF from index 0 (R101). -/
def deliverOctets (bs : Bytes) (s : State) : State :=
  { s with
    status := statusWord stateOk lastEncode
    err := 0
    obufLen := BitVec.ofNat 32 bs.length
    obuf := s.obuf.writeAll 0 bs
    msgOut := none
    engine := .idle }

/-- CLR (R102): the results are cleared. -/
def clearResults (s : State) : State :=
  { s with
    status := 0
    err := 0
    obufLen := 0
    msgOut := none
    engine := .idle }

/-- The end of a DECODE (R100). -/
def endDecode (r : Except CodecError Message) (s : State) : State :=
  match r with
  | .ok m => deliverMessage m s
  | .error e => raiseError lastDecode e s

/-- The end of an ENCODE (R101). -/
def endEncode (r : Except CodecError Bytes) (s : State) : State :=
  match r with
  | .ok bs => deliverOctets bs s
  | .error e => raiseError lastEncode e s

/-- The engine moves on inside a command. -/
def setEngine (e : Engine) (s : State) : State :=
  { s with engine := e }

/-! ### Running a wire form where the engine stands -/

/-- A message form: in a DECODE it ends the command with its message or error; in an ENCODE it ends the command with its
octets or error, where the form has an encode half (R103, R115). -/
def runMessage (dec : Cxt → Except CodecError Message) (enc : Params → Option (Except CodecError Bytes)) (s : State) :
    Host.Outcome State Fault Refusal :=
  match s.engine with
  | .decoding cx (.message _) => .next (endDecode (dec cx) s)
  | .encoding _ (.message _) =>
    match enc s.par with
    | some r => .next (endEncode r s)
    | none => .refused .outOfPlace
  | _ => .refused .outOfPlace

/-- A record form: in a DECODE it acts on A, st and seen (R163); in an ENCODE it emits its octets (R142). -/
def runRecord (dec : Cxt → RecState → Except CodecError RecState) (enc : Except CodecError Bytes) (s : State) :
    Host.Outcome State Fault Refusal :=
  match s.engine with
  | .decoding cx (.records w) =>
    match dec cx w.recs with
    | .ok r => .next (setEngine (.decoding cx (.records { w with recs := r })) s)
    | .error e => .next (raiseError lastDecode e s)
  | .encoding cx (.records w) =>
    match enc with
    | .ok bs => .next (setEngine (.encoding cx (.records { w with out := w.out ++ bs })) s)
    | .error e => .next (raiseError lastEncode e s)
  | _ => .refused .outOfPlace

/-- A segment form: in a DECODE it extends the path (R214); in an ENCODE it emits its octets (R215), where it has an
encode half. -/
def runSegment (dec : PathKind → List AsPathSegment → Except CodecError (List AsPathSegment))
    (enc : Cxt → PathKind → Option (Except CodecError Bytes)) (s : State) : Host.Outcome State Fault Refusal :=
  match s.engine with
  | .decoding cx (.segments w k sec cur segs) =>
    match dec k segs with
    | .ok segs' => .next (setEngine (.decoding cx (.segments w k sec cur segs')) s)
    | .error e => .next (raiseError lastDecode e s)
  | .encoding cx (.segments w k todo out) =>
    match enc cx k with
    | some (.ok bs) => .next (setEngine (.encoding cx (.segments w k todo (out ++ bs))) s)
    | some (.error e) => .next (raiseError lastEncode e s)
    | none => .refused .outOfPlace
  | _ => .refused .outOfPlace

/-- Which multiprotocol attribute a group belongs to. -/
def groupKind : MpGroup → MpKind
  | .reach _ => .reach
  | .unreach _ => .unreach

/-- A family form: it completes its multiprotocol attribute, in a DECODE by storing the group or capturing the record
(R237, R239, R242), in an ENCODE by emitting the record (R240, R241). -/
def runFamily (dec : Cxt → MpKind → Byte → RecState → Except CodecError RecState)
    (enc : Cxt → MpKind → Except CodecError Bytes) (s : State) : Host.Outcome State Fault Refusal :=
  match s.engine with
  | .decoding cx (.family w k flags _) =>
    match dec cx k flags w.recs with
    | .ok r => .next (setEngine (.decoding cx (.records { w with recs := r })) s)
    | .error e => .next (raiseError lastDecode e s)
  | .encoding cx (.family w g) =>
    match enc cx (groupKind g) with
    | .ok bs => .next (setEngine (.encoding cx (.records { w with out := w.out ++ bs })) s)
    | .error e => .next (raiseError lastEncode e s)
  | _ => .refused .outOfPlace

/-! ### Host accesses -/

/-- The offset of CMD (R21, R22). -/
def cmdOffset : BitVec 12 := 0x000

/-- The offsets of the other registers (R21). -/
def regOffset : Reg → BitVec 12
  | .status => 0x004
  | .err => 0x008
  | .cxtCaps => 0x00C
  | .cxtPeerType => 0x010
  | .cxtPeerAs => 0x014
  | .ibufLen => 0x018
  | .obufLen => 0x01C

/-- The register at an offset; none at CMD's, at the reserved offsets, and at an offset that is no multiple of 4 (R58). -/
def regAt (offset : BitVec 12) : Option Reg :=
  [Reg.status, .err, .cxtCaps, .cxtPeerType, .cxtPeerAs, .ibufLen, .obufLen].find? (fun r => regOffset r == offset)

/-- What a register holds; `none` is unwritten (R311). -/
def regValue (r : Reg) (s : State) : Option Word :=
  match r with
  | .status => some s.status
  | .err => some s.err
  | .cxtCaps => s.cxtCaps
  | .cxtPeerType => s.cxtPeerType
  | .cxtPeerAs => s.cxtPeerAs
  | .ibufLen => s.ibufLen
  | .obufLen => some s.obufLen

/-- A read returns a value to the host and changes nothing of the block (R56). -/
def see (v : HostValue) (s : State) : State :=
  { s with host := { s.host with seen := s.host.seen ++ [v] } }

/-- A host read of a register (R21, R286 item 2, R311). -/
def hostReadReg (offset : BitVec 12) (s : State) : Host.Outcome State Fault Refusal :=
  if offset = cmdOffset then .refused .readOfCmd
  else
    match regAt offset with
    | none => .refused .reservedOffset
    | some r =>
      match regValue r s with
      | some w => .next (see (.word w) s)
      | none => .refused .registerUnwritten

/-- A host write to a register other than CMD (R26, R27, R29, R286 items 2 to 4). -/
def hostWriteReg (offset : BitVec 12) (v : Word) (s : State) : Host.Outcome State Fault Refusal :=
  match regAt offset with
  | none => .refused .reservedOffset
  | some .status => .refused .writeToReadOnly
  | some .err => .refused .writeToReadOnly
  | some .obufLen => .refused .writeToReadOnly
  | some .cxtCaps => if v.toNat < 16 then .next { s with cxtCaps := some v } else .refused .reservedBits
  | some .cxtPeerType => if v.toNat < 2 then .next { s with cxtPeerType := some v } else .refused .reservedBits
  | some .cxtPeerAs => .next { s with cxtPeerAs := some v }
  | some .ibufLen =>
    if 65536 ≤ v.toNat then .refused .reservedBits
    else if s.par.ibufCap < v.toNat then .refused .lengthAboveCapacity
    else .next { s with ibufLen := some v }

/-- A host write of an IBUF octet (R29, R53, R286 item 5). -/
def hostWriteIbuf (i : Half) (v : Byte) (s : State) : Host.Outcome State Fault Refusal :=
  if s.par.ibufCap ≤ i.toNat then .refused .ibufIndex
  else .next { s with ibuf := s.ibuf.write i.toNat v }

/-- A host read of an IBUF octet (R53, R286 item 5). -/
def hostReadIbuf (i : Half) (s : State) : Host.Outcome State Fault Refusal :=
  if s.par.ibufCap ≤ i.toNat then .refused .ibufIndex
  else
    match s.ibuf.read i.toNat with
    | some b => .next (see (.octet b) s)
    | none => .refused .ibufUnwritten

/-- A host write to OBUF has no meaning (R286 item 5). -/
def hostWriteObuf (_i : Half) (_v : Byte) (_s : State) : Host.Outcome State Fault Refusal :=
  .refused .writeToObuf

/-- A host read of an OBUF octet (R40, R66, R286 item 8). -/
def hostReadObuf (i : Half) (s : State) : Host.Outcome State Fault Refusal :=
  if s.obufLen.toNat ≤ i.toNat then .refused .obufIndex
  else
    match s.obuf.read i.toNat with
    | some b => .next (see (.octet b) s)
    | none => .refused .obufIndex

/-- A host write of the port MSG_IN (R26, R40). -/
def hostWriteMsgIn (m : Message) (s : State) : Host.Outcome State Fault Refusal :=
  .next { s with msgIn := some m }

/-- A host read of the port MSG_OUT (R40, R286 item 8). -/
def hostReadMsgOut (s : State) : Host.Outcome State Fault Refusal :=
  match s.msgOut with
  | some m => .next (see (.message m) s)
  | none => .refused .msgOutInvalid

/-- The platform's reset (R310): every piece of state at its reset value; the parameters are no state and stay, and the
host is another agent and keeps its program. -/
def platformReset (s : State) : State :=
  { State.reset with par := s.par, host := s.host }

/-- The host's next access is taken from its program. -/
def popHost (rest : List HostOp) (s : State) : State :=
  { s with host := { s.host with todo := rest } }

/-- Where a register, an IBUF octet and an OBUF octet stand in the platform's address map (R58): its base plus the offset,
where the platform gives the base. -/
def regAddress (par : Params) (offset : BitVec 12) : Option Nat := par.regBase.map (· + offset.toNat)
def ibufAddress (par : Params) (i : Half) : Option Nat := par.ibufBase.map (· + i.toNat)
def obufAddress (par : Params) (i : Half) : Option Nat := par.obufBase.map (· + i.toNat)

end Sys2Proof.Machine
end

