-- ==== Sys2Proof/Machine/Records.lean ====
section
/-! DEFINITION. What every attribute record shares (42_attributes.md): the duplicate check (R162), the flag check before
any body check (R163, R164), the storing of a value, the unrecognized types (R165), and the emission of a record (R175,
R176). -/

namespace Sys2Proof.Machine

open Sys2Proof

/-- `check_duplicate`, for every type code, recognized or not (R162). -/
def checkDuplicate (t : Byte) (w : RecState) : Except CodecError RecState := do
  raiseIf (w.seen.contains t) (err .duplicate t.toNat)
  .ok { w with seen := t :: w.seen }

/-- What precedes the body rule of a recognized type: the duplicate check, then the flag check (R160, R163). -/
def openRecord (t : AttrType) (flags : Byte) (w : RecState) : Except CodecError RecState := do
  let w' ← checkDuplicate (attrCode t) w
  checkFlags flags t
  .ok w'

/-- A value is stored in the base block of A. -/
def setBase (f : BaseAttrs → BaseAttrs) (w : RecState) : RecState :=
  { w with attrs := { w.attrs with base := f w.attrs.base } }

/-- A value is stored in A outside its base block. -/
def setAttrs (f : Attrs → Attrs) (w : RecState) : RecState :=
  { w with attrs := f w.attrs }

/-- A value is stored in the side state. -/
def setSide (f : Side → Side) (w : RecState) : RecState :=
  { w with side := f w.side }

/-- A record kept verbatim at the end of `unknown` (R165, R242). -/
def keepUnknown (flags t : Byte) (v : Bytes) (w : RecState) : RecState :=
  setAttrs (fun a => { a with unknown := a.unknown ++ [{ flags := flags, type := t, value := v }] }) w

/-- `unrecognized(f, t, v)` after the duplicate check (R162, R165). -/
def decodeUnrecognized (flags t : Byte) (v : Bytes) (w : RecState) : Except CodecError RecState := do
  let w' ← checkDuplicate t w
  raiseIf (!optionalBit flags) (err .unrecognizedWellKnown t.toNat)
  .ok (keepUnknown flags t v w')

/-- `encode_record(flags, t, v)`: E is forced on exactly for a body above 255 octets, and kept where it was set (R175,
R176). -/
def encodeRecord (flags t : Byte) (v : Bytes) : Except CodecError Bytes := do
  raiseIf (decide (65535 < v.length)) (err .attrTooLong t.toNat)
  .ok (recordOctets (if 255 < v.length then flags ||| 0x10 else flags) t v)

/-- The record of a recognized type: exactly the expected flags (R175). -/
def knownForm (t : AttrType) (body : Bytes) : RecForm :=
  { flags := expectedFlags t, type := attrCode t, body := body }

/-- The record of an optional field: none where the field is absent (R142), its body built where it is present. -/
def fieldForm {α : Type} (t : AttrType) (field : Option α) (body : α → Except CodecError Bytes) :
    Except CodecError (Option RecForm) :=
  match field with
  | none => .ok none
  | some a => do
    let v ← body a
    .ok (some (knownForm t v))

/-- ATTR_UNRECOGNIZED_OPTIONAL: kept whole on decode (R165), written with its stored flags on encode (R176). -/
def execAttrUnrecognizedOptional (flags t : Byte) (body : Bytes) (s : State) : Host.Outcome State Fault Refusal :=
  runRecord (fun _ w => decodeUnrecognized flags t body w) (encodeRecord flags t body) s

/-- ATTR_UNRECOGNIZED_WELL_KNOWN: UnrecognizedWellKnownAttribute on decode (R165), MissingWellKnownAttribute on encode
(R140, conflict C4). -/
def execAttrUnrecognizedWellKnown (flags t : Byte) (body : Bytes) (s : State) : Host.Outcome State Fault Refusal :=
  runRecord (fun _ w => decodeUnrecognized flags t body w) (.error (err .unknownNotOptional t.toNat)) s

end Sys2Proof.Machine
end

