-- ==== Sys2Proof/Machine/AsPath.lean ====
section
/-! DEFINITION. The AS-path codec (43_aspath.md R213 to R216): the segment loop, AS_PATH and AS4_PATH, and the segment
forms. -/

namespace Sys2Proof.Machine

open Sys2Proof

/-! ### Segments -/

/-- What a segment does to the path: a segment of either kind is appended, empty ones included, and a malformed type ends
the command (R214). -/
def applySegment (k : PathKind) (segs : List AsPathSegment) : SegForm → Except CodecError (List AsPathSegment)
  | .known seg => .ok (segs ++ [seg])
  | .other _ _ => .error (err .badSegmentType (attrCode (pathAttr k)).toNat)

/-- `decode_segments(v, w, t)` (R214); the width is W for AS_PATH and 4 for AS4_PATH (R212, R216). -/
def decodeSegments (cx : Cxt) (k : PathKind) (v : Bytes) : Except CodecError (List AsPathSegment) :=
  scan (fun segs s => do
    let (f, rest) ← readSegment (pathWidth cx k) (pathAttr k) s
    let segs' ← applySegment k segs f
    .ok (segs', rest)) [] v

/-- One round of `encode_segments`: COUNT must fit an octet, then the members are written in order (R215). -/
def encodeSegment (cx : Cxt) (k : PathKind) (seg : AsPathSegment) : Except CodecError Bytes := do
  raiseIf (decide (255 < seg.members.length)) (err .segmentTooLong (attrCode (pathAttr k)).toNat)
  let asns ← emitAll (writeAsn (pathWidth cx k) (pathAttr k)) seg.members
  .ok ([segCode seg.kind, BitVec.ofNat 8 seg.members.length] ++ asns)

/-- `encode_segments(segs, w, t)` (R215). -/
def encodeSegments (cx : Cxt) (k : PathKind) (segs : List AsPathSegment) : Except CodecError Bytes :=
  emitAll (encodeSegment cx k) segs

/-- SEG_AS_SET (R214, R215). -/
def execSegAsSet (members : List Asn) (s : State) : Host.Outcome State Fault Refusal :=
  runSegment (fun k segs => applySegment k segs (.known { kind := .set, members := members }))
    (fun cx k => some (encodeSegment cx k { kind := .set, members := members })) s

/-- SEG_AS_SEQUENCE (R214, R215). -/
def execSegAsSequence (members : List Asn) (s : State) : Host.Outcome State Fault Refusal :=
  runSegment (fun k segs => applySegment k segs (.known { kind := .sequence, members := members }))
    (fun cx k => some (encodeSegment cx k { kind := .sequence, members := members })) s

/-- SEG_OTHER: MalformedAsPath(BAD_SEGMENT_TYPE) (R214). A path value has no segment of another kind, so the form has no
encode half (10_state.md R37). -/
def execSegOther (stype count : Byte) (s : State) : Host.Outcome State Fault Refusal :=
  runSegment (fun k segs => applySegment k segs (.other stype count)) (fun _ _ => none) s

/-! ### The path attributes -/

/-- A decoded path goes to its own field; nothing is merged (R213, R216, R217). -/
def setPath (k : PathKind) (p : AsPath) (w : RecState) : RecState :=
  match k with
  | .asPath => setBase (fun b => { b with asPath := some p }) w
  | .as4Path => setBase (fun b => { b with as4Path := some p }) w

/-- AS_PATH and AS4_PATH, decode (R213, R216). -/
def decodePath (cx : Cxt) (k : PathKind) (flags : Byte) (v : Bytes) (w : RecState) : Except CodecError RecState := do
  let w' ← openRecord (pathAttr k) flags w
  let segs ← decodeSegments cx k v
  .ok (setPath k { segments := segs } w')

/-- The body of AS_PATH and AS4_PATH, encode (R215, R216). -/
def pathBody (cx : Cxt) (k : PathKind) (p : AsPath) : Except CodecError Bytes :=
  encodeSegments cx k p.segments

/-- ATTR_AS_PATH (R213, R215). -/
def execAttrAsPath (flags : Byte) (body : Bytes) (s : State) : Host.Outcome State Fault Refusal :=
  runRecord (fun cx w => decodePath cx .asPath flags body w) (encodeRecord flags (attrCode .asPath) body) s

/-- ATTR_AS4_PATH (R216). -/
def execAttrAs4Path (flags : Byte) (body : Bytes) (s : State) : Host.Outcome State Fault Refusal :=
  runRecord (fun cx w => decodePath cx .as4Path flags body w) (encodeRecord flags (attrCode .as4Path) body) s

end Sys2Proof.Machine
end

