-- ==== Sys2Proof/Machine/Attributes.lean ====
section
/-! DEFINITION. The attributes whose body is a fixed record (42_attributes.md R166 to R174): each has its decode half, the
body its encode half writes, and its meaning as a form. -/

namespace Sys2Proof.Machine

open Sys2Proof

/-! ### ORIGIN (R166) -/

def decodeOrigin (flags : Byte) (v : Bytes) (w : RecState) : Except CodecError RecState := do
  let w' ← openRecord .origin flags w
  fixedBody 1 .origin v
  match originOf (octet v) with
  | some o => .ok (setBase (fun b => { b with origin := some o }) w')
  | none => .error (err .originValue (octet v).toNat)

def originBody (o : Origin) : Except CodecError Bytes :=
  .ok [originCode o]

def execAttrOrigin (flags : Byte) (body : Bytes) (s : State) : Host.Outcome State Fault Refusal :=
  runRecord (fun _ w => decodeOrigin flags body w) (encodeRecord flags (attrCode .origin) body) s

/-! ### NEXT_HOP (R167); the value's final field is chosen at the end of the UPDATE (41_update.md R135) -/

def decodeNextHop (flags : Byte) (v : Bytes) (w : RecState) : Except CodecError RecState := do
  let w' ← openRecord .nextHop flags w
  fixedBody 4 .nextHop v
  .ok (setSide (fun st => { st with nh := some (be 32 v) }) w')

def addressBody (a : Ipv4) : Except CodecError Bytes :=
  .ok (toBe 4 a.toNat)

def execAttrNextHop (flags : Byte) (body : Bytes) (s : State) : Host.Outcome State Fault Refusal :=
  runRecord (fun _ w => decodeNextHop flags body w) (encodeRecord flags (attrCode .nextHop) body) s

/-! ### MULTI_EXIT_DISC (R168) -/

def decodeMultiExitDisc (flags : Byte) (v : Bytes) (w : RecState) : Except CodecError RecState := do
  let w' ← openRecord .multiExitDisc flags w
  fixedBody 4 .multiExitDisc v
  .ok (setBase (fun b => { b with med := some (be 32 v) }) w')

def execAttrMultiExitDisc (flags : Byte) (body : Bytes) (s : State) : Host.Outcome State Fault Refusal :=
  runRecord (fun _ w => decodeMultiExitDisc flags body w) (encodeRecord flags (attrCode .multiExitDisc) body) s

/-! ### LOCAL_PREF (R169), accepted whatever the peer type -/

def decodeLocalPref (flags : Byte) (v : Bytes) (w : RecState) : Except CodecError RecState := do
  let w' ← openRecord .localPref flags w
  fixedBody 4 .localPref v
  .ok (setBase (fun b => { b with localPref := some (be 32 v) }) w')

/-- The 4-octet body of MULTI_EXIT_DISC and LOCAL_PREF. -/
def wordBody (v : Word) : Except CodecError Bytes :=
  .ok (toBe 4 v.toNat)

def execAttrLocalPref (flags : Byte) (body : Bytes) (s : State) : Host.Outcome State Fault Refusal :=
  runRecord (fun _ w => decodeLocalPref flags body w) (encodeRecord flags (attrCode .localPref) body) s

/-! ### ATOMIC_AGGREGATE (R170) -/

def decodeAtomicAggregate (flags : Byte) (v : Bytes) (w : RecState) : Except CodecError RecState := do
  let w' ← openRecord .atomicAggregate flags w
  fixedBody 0 .atomicAggregate v
  .ok (setBase (fun b => { b with atomicAggregate := true }) w')

def execAttrAtomicAggregate (flags : Byte) (body : Bytes) (s : State) : Host.Outcome State Fault Refusal :=
  runRecord (fun _ w => decodeAtomicAggregate flags body w) (encodeRecord flags (attrCode .atomicAggregate) body) s

/-! ### AGGREGATOR (R171), its AS number W octets wide -/

def decodeAggregator (cx : Cxt) (flags : Byte) (v : Bytes) (w : RecState) : Except CodecError RecState := do
  let w' ← openRecord .aggregator flags w
  fixedBody (asnWidth cx + 4) .aggregator v
  let a : Aggregator := { asn := readAsn (v.take (asnWidth cx)), identifier := be 32 (slice v (asnWidth cx) 4) }
  .ok (setBase (fun b => { b with aggregator := some a }) w')

def aggregatorBody (cx : Cxt) (a : Aggregator) : Except CodecError Bytes := do
  let asn ← writeAsn (asnWidth cx) .aggregator a.asn
  .ok (asn ++ toBe 4 a.identifier.toNat)

def execAttrAggregator (flags : Byte) (body : Bytes) (s : State) : Host.Outcome State Fault Refusal :=
  runRecord (fun cx w => decodeAggregator cx flags body w) (encodeRecord flags (attrCode .aggregator) body) s

/-! ### ORIGINATOR_ID (R172) -/

def decodeOriginatorId (flags : Byte) (v : Bytes) (w : RecState) : Except CodecError RecState := do
  let w' ← openRecord .originatorId flags w
  fixedBody 4 .originatorId v
  .ok (setBase (fun b => { b with originatorId := some (be 32 v) }) w')

def execAttrOriginatorId (flags : Byte) (body : Bytes) (s : State) : Host.Outcome State Fault Refusal :=
  runRecord (fun _ w => decodeOriginatorId flags body w) (encodeRecord flags (attrCode .originatorId) body) s

/-! ### CLUSTER_LIST (R173) -/

def decodeClusterList (flags : Byte) (v : Bytes) (w : RecState) : Except CodecError RecState := do
  let w' ← openRecord .clusterList flags w
  let ids ← decodeRecords 4 .clusterList (be 32) v
  .ok (setBase (fun b => { b with clusterList := some ids }) w')

def clusterListBody (ids : List Ipv4) : Except CodecError Bytes :=
  .ok (ids.map (fun a => toBe 4 a.toNat)).flatten

def execAttrClusterList (flags : Byte) (body : Bytes) (s : State) : Host.Outcome State Fault Refusal :=
  runRecord (fun _ w => decodeClusterList flags body w) (encodeRecord flags (attrCode .clusterList) body) s

/-! ### AS4_AGGREGATOR (R174), always 4 octets wide -/

def decodeAs4Aggregator (flags : Byte) (v : Bytes) (w : RecState) : Except CodecError RecState := do
  let w' ← openRecord .as4Aggregator flags w
  fixedBody 8 .as4Aggregator v
  let a : Aggregator := { asn := readAsn (v.take 4), identifier := be 32 (slice v 4 4) }
  .ok (setBase (fun b => { b with as4Aggregator := some a }) w')

def as4AggregatorBody (a : Aggregator) : Except CodecError Bytes :=
  .ok (toBe 4 a.asn.toNat ++ toBe 4 a.identifier.toNat)

def execAttrAs4Aggregator (flags : Byte) (body : Bytes) (s : State) : Host.Outcome State Fault Refusal :=
  runRecord (fun _ w => decodeAs4Aggregator flags body w) (encodeRecord flags (attrCode .as4Aggregator) body) s

end Sys2Proof.Machine
end

