-- ==== Sys2Proof/Machine/Communities.lean ====
section
/-! DEFINITION. The four community attributes (45_communities.md R260 to R264): arrays of fixed-width records, order and
duplicates kept, no value interpreted (R265). The record layouts are in Operands.lean. -/

namespace Sys2Proof.Machine

open Sys2Proof

/-- The concatenation of the records in list order (R260). -/
def recordsBody {α : Type} (rec : α → Bytes) (rs : List α) : Except CodecError Bytes :=
  .ok (rs.map rec).flatten

/-- COMMUNITIES, k = 4 (R261). -/
def decodeCommunities (flags : Byte) (v : Bytes) (w : RecState) : Except CodecError RecState := do
  let w' ← openRecord .communities flags w
  let rs ← decodeRecords 4 .communities decodeComm v
  .ok (setAttrs (fun a => { a with comm := some rs }) w')

def execAttrCommunities (flags : Byte) (body : Bytes) (s : State) : Host.Outcome State Fault Refusal :=
  runRecord (fun _ w => decodeCommunities flags body w) (encodeRecord flags (attrCode .communities) body) s

/-- EXTENDED_COMMUNITIES, k = 8 (R262). -/
def decodeExtendedCommunities (flags : Byte) (v : Bytes) (w : RecState) : Except CodecError RecState := do
  let w' ← openRecord .extendedCommunities flags w
  let rs ← decodeRecords 8 .extendedCommunities decodeExtComm v
  .ok (setAttrs (fun a => { a with extComm := some rs }) w')

def execAttrExtendedCommunities (flags : Byte) (body : Bytes) (s : State) : Host.Outcome State Fault Refusal :=
  runRecord (fun _ w => decodeExtendedCommunities flags body w)
    (encodeRecord flags (attrCode .extendedCommunities) body) s

/-- LARGE_COMMUNITY, k = 12 (R263). -/
def decodeLargeCommunities (flags : Byte) (v : Bytes) (w : RecState) : Except CodecError RecState := do
  let w' ← openRecord .largeCommunity flags w
  let rs ← decodeRecords 12 .largeCommunity decodeLargeComm v
  .ok (setAttrs (fun a => { a with largeComm := some rs }) w')

def execAttrLargeCommunity (flags : Byte) (body : Bytes) (s : State) : Host.Outcome State Fault Refusal :=
  runRecord (fun _ w => decodeLargeCommunities flags body w) (encodeRecord flags (attrCode .largeCommunity) body) s

/-- IPV6_EXTENDED_COMMUNITIES, k = 20 (R264). -/
def decodeIpv6ExtendedCommunities (flags : Byte) (v : Bytes) (w : RecState) : Except CodecError RecState := do
  let w' ← openRecord .ipv6ExtendedCommunities flags w
  let rs ← decodeRecords 20 .ipv6ExtendedCommunities decodeExtv6Comm v
  .ok (setAttrs (fun a => { a with extv6Comm := some rs }) w')

def execAttrIpv6ExtendedCommunities (flags : Byte) (body : Bytes) (s : State) : Host.Outcome State Fault Refusal :=
  runRecord (fun _ w => decodeIpv6ExtendedCommunities flags body w)
    (encodeRecord flags (attrCode .ipv6ExtendedCommunities) body) s

end Sys2Proof.Machine
end

