-- ==== Sys2Proof/Machine/Nlri.lean ====
section
/-! DEFINITION. Multiprotocol NLRI (44_nlri.md R236 to R242): the two attributes and the family forms. The prefix codec is
in Operands.lean. -/

namespace Sys2Proof.Machine

open Sys2Proof

/-! ### Decode -/

/-- `nh_ok`: 4 for IPv4 unicast, 16 or 32 for IPv6 unicast (R238). -/
def nexthopOk (afi : Half) (n : Nat) : Bool :=
  if afi = 1 then n == 4 else n == 16 || n == 32

/-- MP_REACH_NLRI after the family, which is legal: the next-hop length and its legality, the reserved octet's presence,
the next hop, the ignored reserved octet, then the prefixes (R237, R238). -/
def reachGroup (fam : FamForm) : Except CodecError MpReachNlri := do
  let t := (attrCode .mpReachNlri).toNat
  raiseIf (decide (fam.rest.length < 1)) (err .bodyLength t)
  let nhl := (octet fam.rest).toNat
  raiseIf (!nexthopOk fam.afi nhl) (err .nexthopLength t)
  raiseIf (decide (fam.rest.length < 1 + nhl + 1)) (err .bodyLength t)
  let nh := slice fam.rest 1 nhl
  let nlri := fam.rest.drop (1 + nhl + 1)
  if fam.afi = 1 then do
    let ps ← decodePrefixList 32 nlri
    .ok (.ipv4Unicast ps (be 32 nh))
  else do
    let ps ← decodePrefixList 128 nlri
    .ok (.ipv6Unicast ps (be 128 (nh.take 16)) (if nhl = 32 then some (be 128 (nh.drop 16)) else none))

/-- MP_UNREACH_NLRI after the family, which is legal (R239). -/
def unreachGroup (fam : FamForm) : Except CodecError MpUnreachNlri :=
  if fam.afi = 1 then do
    let ps ← decodePrefixList 32 fam.rest
    .ok (.ipv4Unicast ps)
  else do
    let ps ← decodePrefixList 128 fam.rest
    .ok (.ipv6Unicast ps)

/-- `capture(f, t, v)`: the record of an illegal family is kept whole (R242). -/
def captureFamily (k : MpKind) (flags : Byte) (fam : FamForm) (w : RecState) : RecState :=
  keepUnknown flags (attrCode (mpAttr k)) (familyOctets fam.afi fam.safi fam.rest) w

/-- A multiprotocol body from its family on (R237, R239, R242). -/
def decodeFamily (cx : Cxt) (k : MpKind) (flags : Byte) (fam : FamForm) (w : RecState) : Except CodecError RecState :=
  if legalFamily cx fam.afi fam.safi then
    match k with
    | .reach => do
      let g ← reachGroup fam
      .ok (setSide (fun st => { st with mpReach := some g }) w)
    | .unreach => do
      let g ← unreachGroup fam
      .ok (setSide (fun st => { st with mpUnreach := some g }) w)
  else .ok (captureFamily k flags fam w)

/-- MP_REACH_NLRI and MP_UNREACH_NLRI, decode (R237, R239). -/
def decodeMp (cx : Cxt) (k : MpKind) (flags : Byte) (v : Bytes) (w : RecState) : Except CodecError RecState := do
  let w' ← openRecord (mpAttr k) flags w
  let fam ← readFamily k v
  decodeFamily cx k flags fam w'

/-! ### Encode -/

/-- The family of a group (R240, R241). -/
def groupAfi : MpGroup → Half
  | .reach (.ipv4Unicast _ _) => 1
  | .reach (.ipv6Unicast _ _ _) => 2
  | .unreach (.ipv4Unicast _) => 1
  | .unreach (.ipv6Unicast _) => 2

/-- What follows the family in a group's body: for MP_REACH_NLRI the next-hop length, the next hop, a zero reserved octet
and the prefixes (R240), for MP_UNREACH_NLRI the prefixes (R241). -/
def groupRest : MpGroup → Except CodecError Bytes
  | .reach (.ipv4Unicast ps nh) => do
    let nlri ← encodePrefixList ps
    .ok ([4] ++ toBe 4 nh.toNat ++ [0] ++ nlri)
  | .reach (.ipv6Unicast ps nh none) => do
    let nlri ← encodePrefixList ps
    .ok ([16] ++ toBe 16 nh.toNat ++ [0] ++ nlri)
  | .reach (.ipv6Unicast ps nh (some ll)) => do
    let nlri ← encodePrefixList ps
    .ok ([32] ++ toBe 16 nh.toNat ++ toBe 16 ll.toNat ++ [0] ++ nlri)
  | .unreach (.ipv4Unicast ps) => encodePrefixList ps
  | .unreach (.ipv6Unicast ps) => encodePrefixList ps

/-- The family form of a group: its rest is built only where the family is legal, since the family check comes first
(R240, R241, R287 item 5). -/
def groupForm (cx : Cxt) (g : MpGroup) : Except CodecError FamForm :=
  if legalFamily cx (groupAfi g) 1 then do
    let rest ← groupRest g
    .ok { afi := groupAfi g, safi := 1, rest := rest }
  else .ok { afi := groupAfi g, safi := 1, rest := [] }

/-- The body of a multiprotocol attribute; a typed group of an illegal family is never sent (R240 to R242). -/
def familyBody (cx : Cxt) (k : MpKind) (fam : FamForm) : Except CodecError Bytes := do
  raiseIf (!legalFamily cx fam.afi fam.safi) (err .family (attrCode (mpAttr k)).toNat)
  .ok (familyOctets fam.afi fam.safi fam.rest)

/-- The body of a group (R240, R241). -/
def groupBody (cx : Cxt) (g : MpGroup) : Except CodecError Bytes := do
  let fam ← groupForm cx g
  familyBody cx (groupKind g) fam

/-- The record a family form completes (R240, R241). -/
def encodeFamily (cx : Cxt) (k : MpKind) (fam : FamForm) : Except CodecError Bytes := do
  let body ← familyBody cx k fam
  encodeRecord (expectedFlags (mpAttr k)) (attrCode (mpAttr k)) body

/-! ### Meanings -/

/-- ATTR_MP_REACH_NLRI (R237, R240). -/
def execAttrMpReachNlri (flags : Byte) (body : Bytes) (s : State) : Host.Outcome State Fault Refusal :=
  runRecord (fun cx w => decodeMp cx .reach flags body w) (encodeRecord flags (attrCode .mpReachNlri) body) s

/-- ATTR_MP_UNREACH_NLRI (R239, R241). -/
def execAttrMpUnreachNlri (flags : Byte) (body : Bytes) (s : State) : Host.Outcome State Fault Refusal :=
  runRecord (fun cx w => decodeMp cx .unreach flags body w) (encodeRecord flags (attrCode .mpUnreachNlri) body) s

/-- FAMILY_IPV4_UNICAST (R236 to R241). -/
def execFamilyIpv4Unicast (rest : Bytes) (s : State) : Host.Outcome State Fault Refusal :=
  runFamily (fun cx k flags w => decodeFamily cx k flags { afi := 1, safi := 1, rest := rest } w)
    (fun cx k => encodeFamily cx k { afi := 1, safi := 1, rest := rest }) s

/-- FAMILY_IPV6_UNICAST (R236 to R241). -/
def execFamilyIpv6Unicast (rest : Bytes) (s : State) : Host.Outcome State Fault Refusal :=
  runFamily (fun cx k flags w => decodeFamily cx k flags { afi := 2, safi := 1, rest := rest } w)
    (fun cx k => encodeFamily cx k { afi := 2, safi := 1, rest := rest }) s

/-- FAMILY_OTHER: the record is captured on decode (R242); a typed group of the family is UnsupportedCapability(FAMILY) on
encode (R240, R241). -/
def execFamilyOther (afi : Half) (safi : Byte) (rest : Bytes) (s : State) : Host.Outcome State Fault Refusal :=
  runFamily (fun _ k flags w => .ok (captureFamily k flags { afi := afi, safi := safi, rest := rest } w))
    (fun _ k => .error (err .family (attrCode (mpAttr k)).toNat)) s

end Sys2Proof.Machine
end

