-- ==== Sys2Proof/Machine/Update.lean ====
section
/-! DEFINITION. The UPDATE body (41_update.md R130 to R143) and the record dispatch and section loop of 42_attributes.md
(R160, R163). -/

namespace Sys2Proof.Machine

open Sys2Proof

/-! ### The attribute section, decode -/

/-- `dispatch_attr` with the checks before it: duplicate, then for a recognized type the flags and its body rule (R160 to
R163). -/
def dispatchAttr (cx : Cxt) (f : RecForm) (w : RecState) : Except CodecError RecState :=
  match attrTypeOf f.type with
  | none => decodeUnrecognized f.flags f.type f.body w
  | some .origin => decodeOrigin f.flags f.body w
  | some .asPath => decodePath cx .asPath f.flags f.body w
  | some .nextHop => decodeNextHop f.flags f.body w
  | some .multiExitDisc => decodeMultiExitDisc f.flags f.body w
  | some .localPref => decodeLocalPref f.flags f.body w
  | some .atomicAggregate => decodeAtomicAggregate f.flags f.body w
  | some .aggregator => decodeAggregator cx f.flags f.body w
  | some .communities => decodeCommunities f.flags f.body w
  | some .originatorId => decodeOriginatorId f.flags f.body w
  | some .clusterList => decodeClusterList f.flags f.body w
  | some .mpReachNlri => decodeMp cx .reach f.flags f.body w
  | some .mpUnreachNlri => decodeMp cx .unreach f.flags f.body w
  | some .extendedCommunities => decodeExtendedCommunities f.flags f.body w
  | some .as4Path => decodePath cx .as4Path f.flags f.body w
  | some .as4Aggregator => decodeAs4Aggregator f.flags f.body w
  | some .ipv6ExtendedCommunities => decodeIpv6ExtendedCommunities f.flags f.body w
  | some .largeCommunity => decodeLargeCommunities f.flags f.body w

/-- The record loop from a given state of A, st and seen (R160). -/
def decodeRecordsFrom (cx : Cxt) (w : RecState) (s : Bytes) : Except CodecError RecState :=
  scan (fun w s => do
    let (f, rest) ← readRecord s
    let w' ← dispatchAttr cx f w
    .ok (w', rest)) w s

/-- `decode_attr_section` (R160). -/
def decodeAttrSection (cx : Cxt) (s : Bytes) : Except CodecError RecState :=
  decodeRecordsFrom cx {} s

/-! ### The body, decode -/

/-- `split_update`: the withdrawn, attribute and NLRI sections (R131). -/
def splitUpdate (b : Bytes) : Except CodecError (Bytes × Bytes × Bytes) := do
  raiseIf (decide (b.length < 4)) (err .bodyTooShort b.length)
  let wlen := beNat (slice b 0 2)
  raiseIf (decide (b.length < 2 + wlen + 2)) (err .withdrawnOverrun wlen)
  let alen := beNat (slice b (2 + wlen) 2)
  raiseIf (decide (b.length < 4 + wlen + alen)) (err .attrSectionOverrun alen)
  .ok (slice b 2 wlen, slice b (4 + wlen) alen, b.drop (4 + wlen + alen))

/-- The withdrawn group: absent where the list is empty (R132). -/
def unreachOf (ps : List Prefix4) : Option UnreachNlri :=
  if ps = [] then none else some { prefixes := ps }

/-- The base block, where the UPDATE has attributes. -/
def baseOf (attrs : Option Attrs) : BaseAttrs :=
  match attrs with
  | some a => a.base
  | none => {}

/-- `check_mandatory` (R136). -/
def checkMandatory (nl : List Prefix4) (st : Side) (attrs : Option Attrs) : Except CodecError Unit := do
  let advertises := nl != [] || st.mpReach.isSome
  raiseIf (advertises && (baseOf attrs).origin.isNone) (err .absent 1)
  raiseIf (advertises && (baseOf attrs).asPath.isNone) (err .absent 2)
  raiseIf (nl != [] && st.nh.isNone) (err .absent 3)

/-- `place_nexthop`: the NEXT_HOP value goes to exactly one of the two fields (R135). A list of legacy prefixes without a
next hop does not come here (R136). -/
def placeNexthop (nl : List Prefix4) (nh : Option Ipv4) (attrs : Option Attrs) : Option ReachNlri × Option Attrs :=
  match nh with
  | none => (none, attrs)
  | some h =>
    if nl = [] then (none, attrs.map (fun a => { a with base := { a.base with nexthop := some h } }))
    else (some { prefixes := nl, nexthop := h }, attrs)

/-- The end of `decode_update`, after the attribute section: the NLRI section, the mandatory check, the placing of the next
hop, the value (R130, R134 to R137). -/
def finishDecodeUpdate (unreach : Option UnreachNlri) (attrs : Option Attrs) (st : Side) (nsec : Bytes) :
    Except CodecError UpdateMsg := do
  let nl ← decodePrefixList 32 nsec
  checkMandatory nl st attrs
  let placed := placeNexthop nl st.nh attrs
  .ok { reach := placed.1, unreach := unreach, mpReach := st.mpReach, mpUnreach := st.mpUnreach, attrs := placed.2 }

/-- `decode_update` (R130): the sections in wire order; `attrs` is absent exactly when ALEN = 0 (R133). -/
def decodeUpdate (cx : Cxt) (b : Bytes) : Except CodecError UpdateMsg := do
  let (wsec, asec, nsec) ← splitUpdate b
  let wd ← decodePrefixList 32 wsec
  if asec = [] then finishDecodeUpdate (unreachOf wd) none {} nsec
  else do
    let w ← decodeAttrSection cx asec
    finishDecodeUpdate (unreachOf wd) (some w.attrs) w.side nsec

/-! ### Encode: the checks on the value -/

/-- `has_records(u)` (R138 check 2). -/
def hasRecords (u : UpdateMsg) : Bool :=
  u.reach.isSome || u.mpReach.isSome || u.mpUnreach.isSome ||
    match u.attrs with
    | none => false
    | some a =>
      a.base.atomicAggregate || !a.unknown.isEmpty || a.base.origin.isSome || a.base.asPath.isSome ||
        a.base.as4Path.isSome || a.base.nexthop.isSome || a.base.med.isSome || a.base.localPref.isSome ||
        a.base.aggregator.isSome || a.base.as4Aggregator.isSome || a.base.originatorId.isSome ||
        a.base.clusterList.isSome || a.comm.isSome || a.extComm.isSome || a.extv6Comm.isSome || a.largeComm.isSome

/-- Whether a legacy group is present and empty (R138 check 1). -/
def emptyLegacyGroup (u : UpdateMsg) : Bool :=
  (match u.reach with | some r => r.prefixes.isEmpty | none => false) ||
    match u.unreach with | some w => w.prefixes.isEmpty | none => false

/-- Whether `attrs` is absent though a group needs it, or present though no record would show it (R138 check 2). -/
def attrsPresenceBad (u : UpdateMsg) : Bool :=
  match u.attrs with
  | none => u.reach.isSome || u.mpReach.isSome || u.mpUnreach.isSome
  | some _ => !hasRecords u

/-- Whether an entry of type 14 or 15 could not come back as the captured record it stands for (R138 check 5): its flags,
its length, its family's legality, and the presence `present` of the typed group. -/
def captureCollides (cx : Cxt) (e : UnknownAttr) (present : Bool) : Bool :=
  e.flags &&& 0xE0 != 0x80 || decide (e.value.length < 3) ||
    legalFamily cx (be 16 (e.value.take 2)) (octet (e.value.drop 2)) || present

/-- Whether an entry of `unknown` collides with an earlier entry or with a typed field (R138 check 5). -/
def entryCollides (cx : Cxt) (u : UpdateMsg) (earlier : List Byte) (e : UnknownAttr) : Bool :=
  earlier.contains e.type ||
    match attrTypeOf e.type with
    | none => false
    | some .mpReachNlri => captureCollides cx e u.mpReach.isSome
    | some .mpUnreachNlri => captureCollides cx e u.mpUnreach.isSome
    | some _ => true

/-- Check 5 of R138 over `unknown`, in list order. -/
def checkUnknown (cx : Cxt) (u : UpdateMsg) : List Byte → List UnknownAttr → Except CodecError Unit
  | _, [] => .ok ()
  | earlier, e :: es => do
    raiseIf (entryCollides cx u earlier e) (err .unknownCollision e.type.toNat)
    checkUnknown cx u (e.type :: earlier) es

/-- The entries of `unknown`. -/
def unknownOf (u : UpdateMsg) : List UnknownAttr :=
  match u.attrs with
  | some a => a.unknown
  | none => []

/-- The five well-formedness checks of R138, in their order. -/
def checkValue (cx : Cxt) (u : UpdateMsg) : Except CodecError Unit := do
  raiseIf (emptyLegacyGroup u) (err .emptyLegacyGroup 0)
  raiseIf (attrsPresenceBad u) (err .attrsPresence 0)
  raiseIf (baseOf u.attrs).llNexthop.isSome (err .llNexthopSet 0)
  raiseIf (u.reach.isSome && (baseOf u.attrs).nexthop.isSome) (err .nexthopConflict 0)
  checkUnknown cx u [] (unknownOf u)

/-- The mandatory attributes on encode (R139). -/
def checkMandatoryEncode (u : UpdateMsg) : Except CodecError Unit := do
  let advertises := u.reach.isSome || u.mpReach.isSome
  raiseIf (advertises && (baseOf u.attrs).origin.isNone) (err .absent 1)
  raiseIf (advertises && (baseOf u.attrs).asPath.isNone) (err .absent 2)

/-- Unknown entries with O = 0 on encode, in list order (R140, conflict C4). -/
def checkUnknownOptional : List UnknownAttr → Except CodecError Unit
  | [] => .ok ()
  | e :: es => do
    raiseIf (!optionalBit e.flags) (err .unknownNotOptional e.type.toNat)
    checkUnknownOptional es

/-- `wf_checks(u, cx)` of R141: R138, then R139, then R140. -/
def checkUpdate (cx : Cxt) (u : UpdateMsg) : Except CodecError Unit := do
  checkValue cx u
  checkMandatoryEncode u
  checkUnknownOptional (unknownOf u)

/-! ### Encode: the attribute section -/

/-- `nexthop_value(u)` (R143). -/
def nexthopValue (u : UpdateMsg) (a : Attrs) : Option Ipv4 :=
  match u.reach with
  | some r => some r.nexthop
  | none => a.base.nexthop

/-- The slots in emission order: the recognized types in ascending type code, then `unknown` in list order (R142). -/
def slotsOf (a : Attrs) : List Slot :=
  recognizedTypes.map .known ++ a.unknown.map .unknown

/-- The record of a slot: none where its value is absent, its body built from the value where present (R142). -/
def slotForm (cx : Cxt) (u : UpdateMsg) (a : Attrs) : Slot → Except CodecError (Option RecForm)
  | .known .origin => fieldForm .origin a.base.origin originBody
  | .known .asPath => fieldForm .asPath a.base.asPath (pathBody cx .asPath)
  | .known .nextHop => fieldForm .nextHop (nexthopValue u a) addressBody
  | .known .multiExitDisc => fieldForm .multiExitDisc a.base.med wordBody
  | .known .localPref => fieldForm .localPref a.base.localPref wordBody
  | .known .atomicAggregate => .ok (if a.base.atomicAggregate then some (knownForm .atomicAggregate []) else none)
  | .known .aggregator => fieldForm .aggregator a.base.aggregator (aggregatorBody cx)
  | .known .communities => fieldForm .communities a.comm (recordsBody encodeComm)
  | .known .originatorId => fieldForm .originatorId a.base.originatorId addressBody
  | .known .clusterList => fieldForm .clusterList a.base.clusterList clusterListBody
  | .known .mpReachNlri => fieldForm .mpReachNlri u.mpReach (fun g => groupBody cx (.reach g))
  | .known .mpUnreachNlri => fieldForm .mpUnreachNlri u.mpUnreach (fun g => groupBody cx (.unreach g))
  | .known .extendedCommunities => fieldForm .extendedCommunities a.extComm (recordsBody encodeExtComm)
  | .known .as4Path => fieldForm .as4Path a.base.as4Path (pathBody cx .as4Path)
  | .known .as4Aggregator => fieldForm .as4Aggregator a.base.as4Aggregator as4AggregatorBody
  | .known .ipv6ExtendedCommunities => fieldForm .ipv6ExtendedCommunities a.extv6Comm (recordsBody encodeExtv6Comm)
  | .known .largeCommunity => fieldForm .largeCommunity a.largeComm (recordsBody encodeLargeComm)
  | .unknown e => .ok (some { flags := e.flags, type := e.type, body := e.value })

/-- The octets of a slot: the body is built first, the record's length is checked last (R175, R287 item 5). -/
def emitSlot (cx : Cxt) (u : UpdateMsg) (a : Attrs) (slot : Slot) : Except CodecError Bytes := do
  match (← slotForm cx u a slot) with
  | none => .ok []
  | some f => encodeRecord f.flags f.type f.body

/-- `encode_attr_section` (R142). -/
def encodeAttrSection (cx : Cxt) (u : UpdateMsg) (a : Attrs) : Except CodecError Bytes :=
  emitAll (emitSlot cx u a) (slotsOf a)

/-! ### Encode: the body -/

/-- The octets of the legacy withdrawn group (R234, R141). -/
def encodeUnreach (u : UpdateMsg) : Except CodecError Bytes :=
  match u.unreach with
  | some w => encodePrefixList w.prefixes
  | none => .ok []

/-- The octets of the legacy reachable group (R235, R141). -/
def encodeReach (u : UpdateMsg) : Except CodecError Bytes :=
  match u.reach with
  | some r => encodePrefixList r.prefixes
  | none => .ok []

/-- The end of `encode_update`, after the attribute section: the NLRI, the length check, the layout (R141). -/
def finishEncodeUpdate (par : Params) (u : UpdateMsg) (wd recs : Bytes) : Except CodecError Bytes := do
  let nl ← encodeReach u
  let l := 23 + wd.length + recs.length + nl.length
  raiseIf (decide (par.maxMsgLen < l)) (err .messageTooLong (min l 65535))
  .ok (toBe 2 wd.length ++ wd ++ toBe 2 recs.length ++ recs ++ nl)

/-- `encode_update(u, cx)` (R141). -/
def encodeUpdate (par : Params) (cx : Cxt) (u : UpdateMsg) : Except CodecError Bytes := do
  checkUpdate cx u
  let wd ← encodeUnreach u
  let recs ← match u.attrs with
    | some a => encodeAttrSection cx u a
    | none => .ok []
  finishEncodeUpdate par u wd recs

end Sys2Proof.Machine
end

