-- ==== Sys2Proof/Machine/Messages.lean ====
section
/-! DEFINITION. The message kinds (40_framer.md R103, R108 to R119): the decode and encode halves of each, and the two
pipelines `decode_message` and `encode_message`. -/

namespace Sys2Proof.Machine

open Sys2Proof

/-! ### Decode -/

/-- The per-type length check, on the total length (R109). -/
def checkTypeLength (k : MsgKind) (body : Bytes) : Except CodecError Unit :=
  raiseIf (!lenOk k (hdrLen + body.length)) (err .badLength (hdrLen + body.length))

/-- A message of an assigned kind: the length check, then the body rule (R109 to R114). OPEN, NOTIFICATION and
ROUTE-REFRESH bodies are copied verbatim. -/
def decodeKind (cx : Cxt) (k : MsgKind) (body : Bytes) : Except CodecError Message := do
  checkTypeLength k body
  match k with
  | .openMsg => .ok (.openMsg body)
  | .update => do
    let u ← decodeUpdate cx body
    .ok (.update u)
  | .notification => .ok (.notification body)
  | .keepalive => .ok .keepalive
  | .routeRefresh => .ok (.routeRefresh body)

/-- The type dispatch (R108). -/
def dispatchMessage (cx : Cxt) (f : MsgForm) : Except CodecError Message :=
  match msgKindOf f.type with
  | some k => decodeKind cx k f.body
  | none => .error (err .badType f.type.toNat)

/-- `decode_message(B, cx)` (R103). -/
def decodeMessage (par : Params) (cx : Cxt) (b : Bytes) : Except CodecError Message := do
  let f ← readHeader par b
  dispatchMessage cx f

/-! ### Encode -/

/-- The marker encode writes, always all-ones (R116). -/
def encodeMarker : Bytes :=
  List.replicate markerLen 0xFF

/-- The total length limit and the header, written over a finished body (R115, R116, R119). -/
def frameBody (par : Params) (k : MsgKind) (body : Bytes) : Except CodecError Bytes := do
  let l := hdrLen + body.length
  raiseIf (decide (par.maxMsgLen < l)) (err .messageTooLong (min l 65535))
  .ok (messageOctets encodeMarker (msgCode k) body)

/-- `check_pass(T, b)` (R118). -/
def checkPass (k : MsgKind) (body : Bytes) : Except CodecError Unit :=
  raiseIf (!lenOk k (hdrLen + body.length)) (err .passthroughLength (msgCode k).toNat)

/-- A pass-through kind: its length must be legal for its kind, then it is framed (R118). -/
def framePass (par : Params) (k : MsgKind) (body : Bytes) : Except CodecError Bytes := do
  checkPass k body
  frameBody par k body

/-- `encode_message(m, cx)` (R115). -/
def encodeMessage (par : Params) (cx : Cxt) (m : Message) : Except CodecError Bytes :=
  match m with
  | .keepalive => frameBody par .keepalive []
  | .update u => do
    let body ← encodeUpdate par cx u
    frameBody par .update body
  | .openMsg b => framePass par .openMsg b
  | .notification b => framePass par .notification b
  | .routeRefresh b => framePass par .routeRefresh b

/-- The form of a message value being encoded: its body built, the marker encode writes (R115). -/
def messageForm (par : Params) (cx : Cxt) (m : Message) : Except CodecError MsgForm :=
  match m with
  | .keepalive => .ok { type := msgCode .keepalive, marker := encodeMarker, body := [] }
  | .update u => do
    let body ← encodeUpdate par cx u
    .ok { type := msgCode .update, marker := encodeMarker, body := body }
  | .openMsg b => .ok { type := msgCode .openMsg, marker := encodeMarker, body := b }
  | .notification b => .ok { type := msgCode .notification, marker := encodeMarker, body := b }
  | .routeRefresh b => .ok { type := msgCode .routeRefresh, marker := encodeMarker, body := b }

/-! ### Meanings. The marker is no operand of either half: decode has checked it where it is checked at all (R105), and
encode computes it (R116). -/

/-- MSG_OPEN (R112, R118). -/
def execMsgOpen (_marker body : Bytes) (s : State) : Host.Outcome State Fault Refusal :=
  runMessage (fun cx => decodeKind cx .openMsg body) (fun par => some (framePass par .openMsg body)) s

/-- MSG_UPDATE (R111, R115). -/
def execMsgUpdate (_marker body : Bytes) (s : State) : Host.Outcome State Fault Refusal :=
  runMessage (fun cx => decodeKind cx .update body) (fun par => some (frameBody par .update body)) s

/-- MSG_NOTIFICATION (R113, R118). -/
def execMsgNotification (_marker body : Bytes) (s : State) : Host.Outcome State Fault Refusal :=
  runMessage (fun cx => decodeKind cx .notification body) (fun par => some (framePass par .notification body)) s

/-- MSG_KEEPALIVE (R110, R117): encode writes the 19 octets of the header whatever the operand. -/
def execMsgKeepalive (_marker body : Bytes) (s : State) : Host.Outcome State Fault Refusal :=
  runMessage (fun cx => decodeKind cx .keepalive body) (fun par => some (frameBody par .keepalive [])) s

/-- MSG_ROUTE_REFRESH (R114, R118). -/
def execMsgRouteRefresh (_marker body : Bytes) (s : State) : Host.Outcome State Fault Refusal :=
  runMessage (fun cx => decodeKind cx .routeRefresh body) (fun par => some (framePass par .routeRefresh body)) s

/-- MSG_UNASSIGNED: HeaderError(BAD_TYPE, T) (R108). A message value has no such kind (R30), so the form has no encode
half. -/
def execMsgUnassigned (type : Byte) (_marker _body : Bytes) (s : State) : Host.Outcome State Fault Refusal :=
  runMessage (fun _ => .error (err .badType type.toNat)) (fun _ => none) s

end Sys2Proof.Machine
end

