-- ==== Sys2Proof/Machine/Commands.lean ====
section
/-! DEFINITION. The host's commands (40_framer.md R100 to R102; 60_exceptions.md R286 items 1, 6 and 7), each one atomic
transition (20_memory.md R55). -/

namespace Sys2Proof.Machine

open Sys2Proof

/-- The message octets of a DECODE: IBUF[0..IBUF_LEN), all written (R29, R100). -/
def inputMessage (s : State) : Option Bytes :=
  match s.ibufLen with
  | some n => s.ibuf.readRange 0 n.toNat
  | none => none

/-- CLR (R102). -/
def execClr (s : State) : Host.Outcome State Fault Refusal :=
  .next (clearResults s)

/-- DECODE (R100): refused while CXT_CAPS, IBUF_LEN or an octet of the message is unwritten, else a message or an error. -/
def execDecode (s : State) : Host.Outcome State Fault Refusal :=
  match s.cxtCaps, inputMessage s with
  | some caps, some b => .next (endDecode (decodeMessage s.par (cxtOfCaps caps) b) s)
  | _, _ => .refused .decodeInputUnwritten

/-- ENCODE (R101): refused while CXT_CAPS or MSG_IN is unwritten, else octets or an error. -/
def execEncode (s : State) : Host.Outcome State Fault Refusal :=
  match s.cxtCaps, s.msgIn with
  | some caps, some m => .next (endEncode (encodeMessage s.par (cxtOfCaps caps) m) s)
  | _, _ => .refused .encodeInputUnwritten

/-- CMD_RESERVED: a word that is no command is REFUSED (R22, R70, R286 item 1). -/
def execCmdReserved (_word : Word) (_s : State) : Host.Outcome State Fault Refusal :=
  .refused .reservedCommand

end Sys2Proof.Machine
end

