-- ==== Sys2Proof/Machine/Dispatch.lean ====
section
/-! DEFINITION. The dispatch: one arm per constructor of Instr, each one call of its meaning. -/

namespace Sys2Proof.Machine

open Sys2Proof

/-- The meaning of every instruction. -/
def exec (i : Instr) (s : State) : Host.Outcome State Fault Refusal :=
  match i with
  | .clr => Sys2Proof.Machine.execClr s
  | .decode => Sys2Proof.Machine.execDecode s
  | .encode => Sys2Proof.Machine.execEncode s
  | .cmdReserved word => Sys2Proof.Machine.execCmdReserved word s
  | .msgOpen marker body => Sys2Proof.Machine.execMsgOpen marker body s
  | .msgUpdate marker body => Sys2Proof.Machine.execMsgUpdate marker body s
  | .msgNotification marker body => Sys2Proof.Machine.execMsgNotification marker body s
  | .msgKeepalive marker body => Sys2Proof.Machine.execMsgKeepalive marker body s
  | .msgRouteRefresh marker body => Sys2Proof.Machine.execMsgRouteRefresh marker body s
  | .msgUnassigned type marker body => Sys2Proof.Machine.execMsgUnassigned type marker body s
  | .attrOrigin flags body => Sys2Proof.Machine.execAttrOrigin flags body s
  | .attrAsPath flags body => Sys2Proof.Machine.execAttrAsPath flags body s
  | .attrNextHop flags body => Sys2Proof.Machine.execAttrNextHop flags body s
  | .attrMultiExitDisc flags body => Sys2Proof.Machine.execAttrMultiExitDisc flags body s
  | .attrLocalPref flags body => Sys2Proof.Machine.execAttrLocalPref flags body s
  | .attrAtomicAggregate flags body => Sys2Proof.Machine.execAttrAtomicAggregate flags body s
  | .attrAggregator flags body => Sys2Proof.Machine.execAttrAggregator flags body s
  | .attrCommunities flags body => Sys2Proof.Machine.execAttrCommunities flags body s
  | .attrOriginatorId flags body => Sys2Proof.Machine.execAttrOriginatorId flags body s
  | .attrClusterList flags body => Sys2Proof.Machine.execAttrClusterList flags body s
  | .attrMpReachNlri flags body => Sys2Proof.Machine.execAttrMpReachNlri flags body s
  | .attrMpUnreachNlri flags body => Sys2Proof.Machine.execAttrMpUnreachNlri flags body s
  | .attrExtendedCommunities flags body => Sys2Proof.Machine.execAttrExtendedCommunities flags body s
  | .attrAs4Path flags body => Sys2Proof.Machine.execAttrAs4Path flags body s
  | .attrAs4Aggregator flags body => Sys2Proof.Machine.execAttrAs4Aggregator flags body s
  | .attrIpv6ExtendedCommunities flags body => Sys2Proof.Machine.execAttrIpv6ExtendedCommunities flags body s
  | .attrLargeCommunity flags body => Sys2Proof.Machine.execAttrLargeCommunity flags body s
  | .attrUnrecognizedOptional flags type body => Sys2Proof.Machine.execAttrUnrecognizedOptional flags type body s
  | .attrUnrecognizedWellKnown flags type body => Sys2Proof.Machine.execAttrUnrecognizedWellKnown flags type body s
  | .segAsSet members => Sys2Proof.Machine.execSegAsSet members s
  | .segAsSequence members => Sys2Proof.Machine.execSegAsSequence members s
  | .segOther stype count => Sys2Proof.Machine.execSegOther stype count s
  | .familyIpv4Unicast rest => Sys2Proof.Machine.execFamilyIpv4Unicast rest s
  | .familyIpv6Unicast rest => Sys2Proof.Machine.execFamilyIpv6Unicast rest s
  | .familyOther afi safi rest => Sys2Proof.Machine.execFamilyOther afi safi rest s

end Sys2Proof.Machine
end

