-- ==== Sys2Proof/Machine/Fetch.lean ====
section
/-! DEFINITION. What comes next: between commands the host's next access (20_memory.md R60), inside a DECODE the form at the
cursor, inside an ENCODE the form of the next value to emit. -/

namespace Sys2Proof.Machine

open Sys2Proof

/-- The host's next access, in program order (R60). A write to CMD names a command (R22); with no access pending the block is
idle and nothing changes (R296, log entry 11). -/
def fetchHost (s : State) : Fetched :=
  match s.host.todo with
  | [] => .done (.next s)
  | op :: rest =>
    let s' := popHost rest s
    match op with
    | .writeReg offset v => if offset = cmdOffset then .run (decodeCommand v) s' else .done (hostWriteReg offset v s')
    | .readReg offset => .done (hostReadReg offset s')
    | .writeIbuf i v => .done (hostWriteIbuf i v s')
    | .readIbuf i => .done (hostReadIbuf i s')
    | .writeObuf i v => .done (hostWriteObuf i v s')
    | .readObuf i => .done (hostReadObuf i s')
    | .writeMsgIn m => .done (hostWriteMsgIn m s')
    | .readMsgOut => .done (hostReadMsgOut s')
    | .reset => .done (.next (platformReset s'))

/-- An error found in reading or building a form ends the command (R283). -/
def fetchError (last : Nat) (e : CodecError) (s : State) : Fetched :=
  .done (.next (raiseError last e s))

/-- Inside a DECODE: the header (R103), the record (R160, R161), the segment (R214) or the family (R237, R239) at the cursor,
which moves past it; at the end of a section, what the rule does after its loop (R130, R213, R216). -/
def fetchDecode (cx : Cxt) (place : DecPlace) (s : State) : Fetched :=
  match place with
  | .message b =>
    match readHeader s.par b with
    | .error e => fetchError lastDecode e s
    | .ok f => .run f.toInstr s
  | .records w =>
    if w.sec.length < w.cur then .done (.fault .cursorPastEnd)
    else if w.cur = w.sec.length then
      .done (.next (endDecode (do
        let u ← finishDecodeUpdate w.unreach (some w.recs.attrs) w.recs.side w.nlri
        .ok (.update u)) s))
    else
      match readRecord (w.sec.drop w.cur) with
      | .error e => fetchError lastDecode e s
      | .ok (f, rest) =>
        .run f.toInstr (setEngine (.decoding cx (.records { w with cur := w.sec.length - rest.length })) s)
  | .segments w k sec cur segs =>
    if sec.length < cur then .done (.fault .cursorPastEnd)
    else if cur = sec.length then
      .done (.next (setEngine (.decoding cx (.records { w with recs := setPath k { segments := segs } w.recs })) s))
    else
      match readSegment (pathWidth cx k) (pathAttr k) (sec.drop cur) with
      | .error e => fetchError lastDecode e s
      | .ok (f, rest) =>
        .run f.toInstr (setEngine (.decoding cx (.segments w k sec (sec.length - rest.length) segs)) s)
  | .family _ k _ body =>
    match readFamily k body with
    | .error e => fetchError lastDecode e s
    | .ok f => .run (f.toInstr cx) s

/-- Inside an ENCODE: the form of the message, of the next slot of the emission order (R142), of the next segment (R215) or
of the multiprotocol group (R240, R241); at the end of a list, what the rule does after its loop (R141, R175). -/
def fetchEncode (cx : Cxt) (place : EncPlace) (s : State) : Fetched :=
  match place with
  | .message m =>
    match messageForm s.par cx m with
    | .error e => fetchError lastEncode e s
    | .ok f => .run f.toInstr s
  | .records w =>
    match w.todo with
    | [] =>
      .done (.next (endEncode (do
        let body ← finishEncodeUpdate s.par w.upd w.wd w.out
        frameBody s.par .update body) s))
    | slot :: rest =>
      let s' := setEngine (.encoding cx (.records { w with todo := rest })) s
      match slotForm cx w.upd w.attrs slot with
      | .error e => fetchError lastEncode e s
      | .ok none => .done (.next s')
      | .ok (some f) => .run f.toInstr s'
  | .segments w k todo out =>
    match todo with
    | [] =>
      match encodeRecord (expectedFlags (pathAttr k)) (attrCode (pathAttr k)) out with
      | .error e => fetchError lastEncode e s
      | .ok bs => .done (.next (setEngine (.encoding cx (.records { w with out := w.out ++ bs })) s))
    | seg :: rest =>
      .run (SegForm.known seg).toInstr (setEngine (.encoding cx (.segments w k rest out)) s)
  | .family _ g =>
    match groupForm cx g with
    | .error e => fetchError lastEncode e s
    | .ok f => .run (f.toInstr cx) s

/-- What comes next. -/
def fetch (s : State) : Fetched :=
  match s.engine with
  | .idle => fetchHost s
  | .decoding cx place => fetchDecode cx place s
  | .encoding cx place => fetchEncode cx place s

/-- A DECODE stopped before the first record of an attribute section that holds the octets `sec` alone: nothing withdrawn,
nothing after the section (R130). -/
def recordsOnly (sec : Bytes) : UpdWork :=
  { unreach := none, sec := sec, cur := 0, recs := {}, nlri := [] }

end Sys2Proof.Machine
end

