-- ==== Sys2Proof/Machine/Step.lean ====
section
/-! DEFINITION. One step: what comes next is fetched and run. A command is one step (20_memory.md R55). -/

namespace Sys2Proof.Machine

open Sys2Proof

/-- One step of the machine. -/
def step (s : State) : Host.Outcome State Fault Refusal :=
  match fetch s with
  | .run i s' => exec i s'
  | .done o => o

/-- The state in which the words of an opcode-table row are what `step` fetches next. A command word stands as the host's
next access, a write of it to CMD. The wire forms are read inside a DECODE: a record stands at the cursor of an attribute
section, a family at the start of an MP_UNREACH_NLRI body, in the context in which the table's family rows select their own
forms (log entries 4 and 6). -/
def State.withFetchWord (s : State) (nbits w : Nat) : State :=
  match tableCode nbits w with
  | some (.word v) => { s with engine := .idle, host := { s.host with todo := .writeReg cmdOffset v :: s.host.todo } }
  | some (.record bs) => { s with engine := .decoding tableCtx.cx (.records (recordsOnly bs)) }
  | some (.family bs) => { s with engine := .decoding tableCtx.cx (.family (recordsOnly []) .unreach 0x80 bs) }
  | some (.message bs) => { s with engine := .decoding tableCtx.cx (.message bs) }
  | some (.segment bs) => { s with engine := .decoding tableCtx.cx (.segments (recordsOnly []) tableCtx.path bs 0 []) }
  | none => s

end Sys2Proof.Machine
end

