-- ==== Sys2Proof/Safety.lean ====
section
/-! DEFINITION. The terms claims are stated in: the invariant of a legal state, the values a decode builds, the canonical
form of a value (41_update.md R144), what a command leaves alone, and the entry points inside a command. -/

namespace Sys2Proof.Machine

open Sys2Proof

/-! ### Legal states -/

/-- What an ERR word holds where STATE = ERR: CLASS 1 to 11 and SUB not 0 (R25, R280). -/
def errFieldsLegal (w : Word) : Prop :=
  1 ≤ w.toNat % 256 ∧ w.toNat % 256 ≤ 11 ∧ 1 ≤ w.toNat / 256 % 256

/-- A cursor stands inside its section or at its end (R24, R54). -/
def Engine.cursorLegal : Engine → Prop
  | .decoding _ (.records w) => w.cur ≤ w.sec.length
  | .decoding _ (.segments w _ sec cur _) => w.cur ≤ w.sec.length ∧ cur ≤ sec.length
  | .decoding _ (.family w _ _ _) => w.cur ≤ w.sec.length
  | _ => True

/-- The invariant of the block: legal parameters (R6), buffers in canonical form and inside their capacity (R57), STATUS one
of its five words (R23), ERR 0 unless STATE = ERR and then a listed error (R25, R280), an OBUF_LEN above 0 and a valid
MSG_OUT only as the result of an ENCODE and of a DECODE (R40), every octet below OBUF_LEN written (R101), reserved bits of
the host's registers clear (R27, R29), and cursors inside their sections (R24). -/
structure State.Inv (s : State) : Prop where
  parLegal : s.par.legal = true
  ibufWf : s.ibuf.wf = true
  ibufBelow : s.ibuf.below s.par.ibufCap = true
  obufWf : s.obuf.wf = true
  obufBelow : s.obuf.below s.par.obufCap = true
  statusLegal : s.status ∈ [(0x0 : Word), 0x5, 0x6, 0x9, 0xA]
  errZero : statusState s.status ≠ stateErr → s.err = 0
  errLegal : statusState s.status = stateErr → errFieldsLegal s.err
  obufLenLegal : s.obufLen.toNat ≤ s.par.obufCap
  obufLenResult : s.obufLen ≠ 0 → s.status = 0x9
  obufWritten : (s.obuf.readRange 0 s.obufLen.toNat).isSome = true
  msgOutResult : s.msgOut.isSome = true ↔ s.status = 0x5
  capsLegal : ∀ w, s.cxtCaps = some w → w.toNat < 16
  peerTypeLegal : ∀ w, s.cxtPeerType = some w → w.toNat < 2
  ibufLenLegal : ∀ w, s.ibufLen = some w → w.toNat ≤ s.par.ibufCap
  cursorLegal : s.engine.cursorLegal

/-! ### Values -/

/-- A prefix is canonical: its length fits the width and no address bit lies past it (R34). -/
def canonicalPrefix {w : Nat} (p : Prefix w) : Prop :=
  p.len ≤ w ∧ p.addr.toNat % 2 ^ (w - p.len) = 0

/-- The prefixes of a group are canonical. -/
def canonicalReach : MpReachNlri → Prop
  | .ipv4Unicast ps _ => ∀ p ∈ ps, canonicalPrefix p
  | .ipv6Unicast ps _ _ => ∀ p ∈ ps, canonicalPrefix p

def canonicalUnreach : MpUnreachNlri → Prop
  | .ipv4Unicast ps => ∀ p ∈ ps, canonicalPrefix p
  | .ipv6Unicast ps => ∀ p ∈ ps, canonicalPrefix p

/-- The UPDATE values a decode builds: legacy groups present only with prefixes (R132, R134), every prefix canonical (R34,
R230), no link-local next hop in the base block (R36), and the NEXT_HOP value in at most one of its two fields (R135). -/
structure DecodedUpdate (u : UpdateMsg) : Prop where
  reachPrefixes : ∀ r, u.reach = some r → r.prefixes ≠ [] ∧ ∀ p ∈ r.prefixes, canonicalPrefix p
  unreachPrefixes : ∀ r, u.unreach = some r → r.prefixes ≠ [] ∧ ∀ p ∈ r.prefixes, canonicalPrefix p
  mpReachPrefixes : ∀ g, u.mpReach = some g → canonicalReach g
  mpUnreachPrefixes : ∀ g, u.mpUnreach = some g → canonicalUnreach g
  noLinkLocal : ∀ a, u.attrs = some a → a.base.llNexthop = none
  nexthopOnce : u.reach ≠ none → ∀ a, u.attrs = some a → a.base.nexthop = none

/-- `canon` on an entry of `unknown`: E is set where the value is longer than 255 octets (R144). -/
def canonUnknown (e : UnknownAttr) : UnknownAttr :=
  { e with flags := if 255 < e.value.length then e.flags ||| 0x10 else e.flags }

def canonReach : MpReachNlri → MpReachNlri
  | .ipv4Unicast ps nh => .ipv4Unicast (ps.map canonPrefix) nh
  | .ipv6Unicast ps nh ll => .ipv6Unicast (ps.map canonPrefix) nh ll

def canonUnreach : MpUnreachNlri → MpUnreachNlri
  | .ipv4Unicast ps => .ipv4Unicast (ps.map canonPrefix)
  | .ipv6Unicast ps => .ipv6Unicast (ps.map canonPrefix)

def canonUpdate (u : UpdateMsg) : UpdateMsg :=
  { reach := u.reach.map (fun r => { r with prefixes := r.prefixes.map canonPrefix })
    unreach := u.unreach.map (fun r => { r with prefixes := r.prefixes.map canonPrefix })
    mpReach := u.mpReach.map canonReach
    mpUnreach := u.mpUnreach.map canonUnreach
    attrs := u.attrs.map (fun a => { a with unknown := a.unknown.map canonUnknown }) }

/-- `canon m` (R144). -/
def canonMessage : Message → Message
  | .update u => .update (canonUpdate u)
  | .openMsg b => .openMsg b
  | .notification b => .notification b
  | .keepalive => .keepalive
  | .routeRefresh b => .routeRefresh b

/-! ### What a command leaves alone, and where a command stands -/

/-- The inputs of the block and the parameters, which no command and no wire form changes (R26, R56, R283). -/
def sameInputs (s t : State) : Prop :=
  t.par = s.par ∧ t.cxtCaps = s.cxtCaps ∧ t.cxtPeerType = s.cxtPeerType ∧ t.cxtPeerAs = s.cxtPeerAs ∧
    t.ibufLen = s.ibufLen ∧ t.msgIn = s.msgIn ∧ t.host = s.host ∧ ∀ a, t.ibuf.read a = s.ibuf.read a

/-- The results of the block, which change only at the end of a command (R55, R43). -/
def sameResults (s t : State) : Prop :=
  t.status = s.status ∧ t.err = s.err ∧ t.obufLen = s.obufLen ∧ t.msgOut = s.msgOut ∧
    ∀ a, t.obuf.read a = s.obuf.read a

/-- The state of a DECODE before its message `b` is read, in the context `cx`. -/
def atMessage (cx : Cxt) (b : Bytes) (s : State) : State :=
  setEngine (.decoding cx (.message b)) s

/-- The state of a DECODE in the attribute section. -/
def atRecords (cx : Cxt) (w : UpdWork) (s : State) : State :=
  setEngine (.decoding cx (.records w)) s

/-- The state of a DECODE in a path body. -/
def atSegments (cx : Cxt) (w : UpdWork) (k : PathKind) (sec : Bytes) (cur : Nat) (segs : List AsPathSegment)
    (s : State) : State :=
  setEngine (.decoding cx (.segments w k sec cur segs)) s

/-- The state of a DECODE at a multiprotocol body. -/
def atFamily (cx : Cxt) (w : UpdWork) (k : MpKind) (flags : Byte) (body : Bytes) (s : State) : State :=
  setEngine (.decoding cx (.family w k flags body)) s

/-- The state of an ENCODE before its message is framed. -/
def atEncode (cx : Cxt) (m : Message) (s : State) : State :=
  setEngine (.encoding cx (.message m)) s

/-- The state of an ENCODE in the attribute section. -/
def atEmission (cx : Cxt) (w : EncWork) (s : State) : State :=
  setEngine (.encoding cx (.records w)) s

/-- The state of an ENCODE in a path body. -/
def atPathEmission (cx : Cxt) (w : EncWork) (k : PathKind) (todo : List AsPathSegment) (out : Bytes) (s : State) :
    State :=
  setEngine (.encoding cx (.segments w k todo out)) s

/-- The state of an ENCODE at a multiprotocol group. -/
def atGroupEmission (cx : Cxt) (w : EncWork) (g : MpGroup) (s : State) : State :=
  setEngine (.encoding cx (.family w g)) s

/-- The reset values of R44: CMD is no field, and `cur` does not exist outside a command. -/
def resetValues (s : State) : Prop :=
  s.status = 0 ∧ s.err = 0 ∧ s.obufLen = 0 ∧ s.cxtCaps = none ∧ s.cxtPeerType = none ∧ s.cxtPeerAs = none ∧
    s.ibufLen = none ∧ (∀ i, s.ibuf.read i = none) ∧ (∀ i, s.obuf.read i = none) ∧ s.msgIn = none ∧
    s.msgOut = none ∧ s.engine = .idle

/-! ### The inputs of a command -/

/-- DECODE has its inputs: the context `cx` that CXT_CAPS gives, and the message `b` in IBUF[0..IBUF_LEN) (R100). -/
def decodeInputs (s : State) (cx : Cxt) (b : Bytes) : Prop :=
  (∃ caps, s.cxtCaps = some caps ∧ cx = cxtOfCaps caps) ∧
    ∃ n, s.ibufLen = some n ∧ s.ibuf.readRange 0 n.toNat = some b

/-- ENCODE has its inputs: the context `cx` that CXT_CAPS gives, and the value `m` in MSG_IN (R101). -/
def encodeInputs (s : State) (cx : Cxt) (m : Message) : Prop :=
  (∃ caps, s.cxtCaps = some caps ∧ cx = cxtOfCaps caps) ∧ s.msgIn = some m

/-! ### Wire layouts, octet by octet -/

/-- The high and the low octet of a 2-octet length (R50). -/
def twoOctets (n : Nat) : Bytes :=
  [BitVec.ofNat 8 (n / 256), BitVec.ofNat 8 (n % 256)]

/-- LENGTH of a message, octets 16 and 17 (R71). -/
def lengthField (b : Bytes) : Nat :=
  (b.getD 16 0).toNat * 256 + (b.getD 17 0).toNat

/-- TYPE of a message, octet 18 (R71). -/
def typeField (b : Bytes) : Byte :=
  b.getD 18 0

/-- The marker is all-ones, or the parameter does not ask (R105). -/
def markerOk (par : Params) (b : Bytes) : Prop :=
  par.markerCheck = true → b.take 16 = List.replicate 16 0xFF

/-- The header checks of R104 to R107 pass. -/
def headerOk (par : Params) (b : Bytes) : Prop :=
  19 ≤ b.length ∧ markerOk par b ∧ b.length ≤ par.maxMsgLen ∧ lengthField b = b.length

/-- The legal total lengths, by message type (R109). -/
def legalTotal (t : Byte) (l : Nat) : Prop :=
  (t = 1 ∧ 29 ≤ l) ∨ (t = 2 ∧ 23 ≤ l) ∨ (t = 3 ∧ 21 ≤ l) ∨ (t = 4 ∧ l = 19) ∨ (t = 5 ∧ l = 23)

/-- `encode_header(L, T)` (R116). -/
def wireHeader (t : Byte) (l : Nat) : Bytes :=
  List.replicate 16 0xFF ++ twoOctets l ++ [t]

/-- An UPDATE body of three sections (R73). -/
def wireUpdate (wd recs nl : Bytes) : Bytes :=
  twoOctets wd.length ++ wd ++ twoOctets recs.length ++ recs ++ nl

/-- The record that encode writes for flags whose E bit is clear: E and the 2-octet length exactly for a body above 255
octets (R175). -/
def wireRecord (flags t : Byte) (v : Bytes) : Bytes :=
  if v.length ≤ 255 then [flags, t, BitVec.ofNat 8 v.length] ++ v
  else [flags ||| 0x10, t] ++ twoOctets v.length ++ v

/-! ### One record of the attribute section -/

/-- A record with the type code `code` and flags `flags` passes what precedes its body rule, `expected` being the flags
pattern of its type: no record of its type came before, O and T are as expected, and P is clear unless the type is optional
transitive (R162, R164). -/
def recordOpens (code expected flags : Byte) (w : UpdWork) : Prop :=
  code ∉ w.recs.seen ∧ flags &&& 0xC0 = expected ∧ (expected = 0xC0 ∨ flags &&& 0x20 = 0)

/-- The section after a record of type `code` whose value went into the base block of A. -/
def storeBase (code : Byte) (f : BaseAttrs → BaseAttrs) (w : UpdWork) : UpdWork :=
  { w with recs := { w.recs with
      attrs := { w.recs.attrs with base := f w.recs.attrs.base }, seen := code :: w.recs.seen } }

/-- The section after a record of type `code` whose value went into A outside its base block. -/
def storeAttrs (code : Byte) (f : Attrs → Attrs) (w : UpdWork) : UpdWork :=
  { w with recs := { w.recs with attrs := f w.recs.attrs, seen := code :: w.recs.seen } }

/-- The section after a record of type `code` whose value went into the side state. -/
def storeSide (code : Byte) (f : Side → Side) (w : UpdWork) : UpdWork :=
  { w with recs := { w.recs with side := f w.recs.side, seen := code :: w.recs.seen } }

/-- A record at the end of `unknown`. -/
def appendUnknown (e : UnknownAttr) (a : Attrs) : Attrs :=
  { a with unknown := a.unknown ++ [e] }

/-- The emission after `bs` were appended to its output. -/
def appendOut (bs : Bytes) (w : EncWork) : EncWork :=
  { w with out := w.out ++ bs }

/-- A segment the wire can hold: COUNT fits an octet, every member fits `width` octets (R79, R211). -/
def segmentFits (width : Nat) (seg : AsPathSegment) : Prop :=
  seg.members.length ≤ 255 ∧ ∀ a ∈ seg.members, a.toNat < 256 ^ width

/-- The attribute block of a decoded UPDATE after `place_nexthop`: the NEXT_HOP value goes to the base block where the
UPDATE has no legacy prefix (R135). -/
def placedAttrs (ns : List Prefix4) (r : RecState) : Attrs :=
  match r.side.nh with
  | some h => if ns = [] then { r.attrs with base := { r.attrs.base with nexthop := some h } } else r.attrs
  | none => r.attrs

/-- An UPDATE advertises: it has legacy prefixes, or a decoded MP_REACH_NLRI (R136). -/
def advertises (ns : List Prefix4) (r : RecState) : Prop :=
  ns ≠ [] ∨ r.side.mpReach ≠ none

/-- The type codes of the path and multiprotocol attributes (R76), and of the message kinds (R72). -/
def pathCode : PathKind → Byte
  | .asPath => 2
  | .as4Path => 17

def mpCode : MpKind → Byte
  | .reach => 14
  | .unreach => 15

def messageCode : Message → Byte
  | .openMsg _ => 1
  | .update _ => 2
  | .notification _ => 3
  | .keepalive => 4
  | .routeRefresh _ => 5

/-- An entry of `unknown` fails check 5 of R138, `earlier` being the entries before it. -/
def collides (cx : Cxt) (u : UpdateMsg) (earlier : List UnknownAttr) (e : UnknownAttr) : Prop :=
  (∃ d ∈ earlier, d.type = e.type) ∨
    e.type ∈ [(1 : Byte), 2, 3, 4, 5, 6, 7, 8, 9, 10, 16, 17, 18, 25, 32] ∨
    (e.type = 14 ∨ e.type = 15) ∧
      (e.flags &&& 0xE0 ≠ 0x80 ∨ e.value.length < 3 ∨
        (cx.mpIpv4 = true ∧ e.value.take 3 = [0, 1, 1]) ∨ (cx.mpIpv6 = true ∧ e.value.take 3 = [0, 2, 1]) ∨
        (e.type = 14 ∧ u.mpReach ≠ none) ∨ (e.type = 15 ∧ u.mpUnreach ≠ none))

end Sys2Proof.Machine
end

