-- ==== Sys2Proof/WellFormed.lean ====
section
/-! DEFINITION. Which instructions have words: the checks under which `decode` reads `encode i` back (30_encoding.md
R70 to R83). -/

namespace Sys2Proof

open Sys2Proof.Machine

/-- A message's marker has 16 octets and passes the marker check where the parameter asks for it, and its total length is
one the header can hold and the bounds check accepts (R71, R105, R106). -/
def messageWf (par : Params) (marker body : Bytes) : Bool :=
  marker.length == markerLen && (!par.markerCheck || marker == List.replicate markerLen 0xFF) &&
    decide (hdrLen + body.length ≤ 65535) && decide (hdrLen + body.length ≤ par.maxMsgLen)

/-- The body's length fits the length field the E flag selects (R74). -/
def recordWf (flags : Byte) (body : Bytes) : Bool :=
  decide (body.length ≤ if extendedBit flags then 65535 else 255)

/-- COUNT fits an octet and every member fits the wire width (R79, R211). -/
def segmentWf (w : Nat) (members : List Asn) : Bool :=
  decide (members.length ≤ 255) && members.all (fun a => decide (a.toNat < 256 ^ w))

/-- The checks of every form. -/
def Instr.wf (c : FormCtx) : Instr → Bool
  | .clr => true
  | .decode => true
  | .encode => true
  | .cmdReserved w => decide (3 ≤ w.toNat)
  | .msgOpen m b => messageWf c.par m b
  | .msgUpdate m b => messageWf c.par m b
  | .msgNotification m b => messageWf c.par m b
  | .msgKeepalive m b => messageWf c.par m b
  | .msgRouteRefresh m b => messageWf c.par m b
  | .msgUnassigned t m b => (msgKindOf t).isNone && messageWf c.par m b
  | .attrOrigin f v => recordWf f v
  | .attrAsPath f v => recordWf f v
  | .attrNextHop f v => recordWf f v
  | .attrMultiExitDisc f v => recordWf f v
  | .attrLocalPref f v => recordWf f v
  | .attrAtomicAggregate f v => recordWf f v
  | .attrAggregator f v => recordWf f v
  | .attrCommunities f v => recordWf f v
  | .attrOriginatorId f v => recordWf f v
  | .attrClusterList f v => recordWf f v
  | .attrMpReachNlri f v => recordWf f v
  | .attrMpUnreachNlri f v => recordWf f v
  | .attrExtendedCommunities f v => recordWf f v
  | .attrAs4Path f v => recordWf f v
  | .attrAs4Aggregator f v => recordWf f v
  | .attrIpv6ExtendedCommunities f v => recordWf f v
  | .attrLargeCommunity f v => recordWf f v
  | .attrUnrecognizedOptional f t v => (attrTypeOf t).isNone && optionalBit f && recordWf f v
  | .attrUnrecognizedWellKnown f t v => (attrTypeOf t).isNone && !optionalBit f && recordWf f v
  | .segAsSet ms => segmentWf (pathWidth c.cx c.path) ms
  | .segAsSequence ms => segmentWf (pathWidth c.cx c.path) ms
  | .segOther st _ => (segKindOf st).isNone
  | .familyIpv4Unicast _ => legalFamily c.cx 1 1
  | .familyIpv6Unicast _ => legalFamily c.cx 2 1
  | .familyOther afi safi _ => !legalFamily c.cx afi safi

end Sys2Proof
end

