-- ==== Sys2Proof/Certificates/Slice0/Obligations.lean ====
section
/-! DEFINITION. The statements for the provers. Each docstring names the rule of spec/ that the statement formalises, or says
that it is the model's own. `1` as LAST is DECODE and `2` is ENCODE (10_state.md R23). -/

section

open Sys2Proof Sys2Proof.Machine

/-! ### Reset, the host's accesses, the machine as a whole -/

/-- R44, R310: the reset values; CMD holds nothing and `cur` does not exist outside a command. The same values follow the
platform's reset between commands, which leaves the parameters alone. The parameters of State.reset, its empty host program,
and that a reset leaves the host's program where it is, are the model's choice (log entries 1 and 2). -/
def Obligations.ResetValues : Prop :=
  resetValues State.reset ∧
    ∀ (s : State) (rest : List HostOp), s.engine = .idle → s.host.todo = .reset :: rest →
      ∃ t, step s = .next t ∧ resetValues t ∧ t.par = s.par ∧ t.host.todo = rest ∧ t.host.seen = s.host.seen

/-- The invariant holds of the state after reset. -/
def Obligations.InvariantAtReset : Prop :=
  State.reset.Inv

/-- Every step keeps the invariant: legal parameters, canonical buffers inside their capacity, a legal STATUS, ERR 0 or a
listed error, OBUF_LEN and MSG_OUT as the results they are, clear reserved bits, cursors inside their sections; and no step of a
legal state faults (R288, R24). -/
def Obligations.InvariantKept : Prop :=
  ∀ s : State, s.Inv → (∀ t, step s = .next t → t.Inv) ∧ ∀ r, step s ≠ .fault r

/-- R26, R55, R56, R6: a step inside a command changes none of the block's inputs; a host access other than a write to CMD or a
reset changes none of its results, and takes itself off the host's program; a step that starts between commands ends between
commands; no step changes the parameters. That an idle step without a host access changes nothing is the model's reading of R296
(log entry 11). -/
def Obligations.EngineAndHostKeepApart : Prop :=
  (∀ s : State, s.engine = .idle → s.host.todo = [] → step s = .next s) ∧
  ∀ s t : State, step s = .next t →
    t.par = s.par ∧ (s.engine ≠ .idle → sameInputs s t) ∧ (s.engine = .idle → t.engine = .idle) ∧
    ∀ (op : HostOp) (rest : List HostOp), s.engine = .idle → s.host.todo = op :: rest → op ≠ .reset →
      (∀ v, op ≠ .writeReg 0 v) → sameResults s t ∧ t.host.todo = rest

/-- R26, R27, R29, R286 items 2 to 4: a host write to a writable register stores the whole word where its reserved bits are
clear (and, for IBUF_LEN, the length fits IBUF), and is refused otherwise; a write to STATUS, ERR or OBUF_LEN, and to a reserved
or unaligned offset, is refused. -/
def Obligations.HostWritesRegisters : Prop :=
  ∀ (s : State) (offset : BitVec 12) (v : Word) (rest : List HostOp), s.engine = .idle →
    s.host.todo = .writeReg offset v :: rest →
    (offset = 0x00C → v.toNat < 16 → step s = .next { popHost rest s with cxtCaps := some v }) ∧
    (offset = 0x00C → 16 ≤ v.toNat → step s = .refused .reservedBits) ∧
    (offset = 0x010 → v.toNat < 2 → step s = .next { popHost rest s with cxtPeerType := some v }) ∧
    (offset = 0x010 → 2 ≤ v.toNat → step s = .refused .reservedBits) ∧
    (offset = 0x014 → step s = .next { popHost rest s with cxtPeerAs := some v }) ∧
    (offset = 0x018 → v.toNat < 65536 → v.toNat ≤ s.par.ibufCap →
      step s = .next { popHost rest s with ibufLen := some v }) ∧
    (offset = 0x018 → v.toNat < 65536 → s.par.ibufCap < v.toNat → step s = .refused .lengthAboveCapacity) ∧
    (offset = 0x018 → 65536 ≤ v.toNat → step s = .refused .reservedBits) ∧
    (offset ∈ [(0x004 : BitVec 12), 0x008, 0x01C] → step s = .refused .writeToReadOnly) ∧
    (0x020 ≤ offset.toNat ∨ offset.toNat % 4 ≠ 0 → step s = .refused .reservedOffset)

/-- R56, R311, R22, R58: a host read of a register returns what it holds and changes nothing of the block; a read of an
unwritten register, of CMD, or of a reserved or unaligned offset is refused. -/
def Obligations.HostReadsRegisters : Prop :=
  ∀ (s : State) (rest : List HostOp) (offset : BitVec 12), s.engine = .idle →
    s.host.todo = .readReg offset :: rest →
    (∀ held : Option Word, (offset, held) ∈ [((0x004 : BitVec 12), some s.status), (0x008, some s.err),
        (0x00C, s.cxtCaps), (0x010, s.cxtPeerType), (0x014, s.cxtPeerAs), (0x018, s.ibufLen),
        (0x01C, some s.obufLen)] →
      (∀ w, held = some w →
        step s = .next { s with host := { todo := rest, seen := s.host.seen ++ [.word w] } }) ∧
      (held = none → step s = .refused .registerUnwritten)) ∧
    (offset = 0 → step s = .refused .readOfCmd) ∧
    (0x020 ≤ offset.toNat ∨ offset.toNat % 4 ≠ 0 → step s = .refused .reservedOffset)

/-- R29, R40, R53, R57, R286 items 5 and 8: the host's accesses to the buffers and ports, in a legal state. A write to IBUF lands
on its octet and no other, a read returns what is there; an index at or past the capacity and an unwritten octet are refused. The
octets of OBUF below OBUF_LEN are read, and MSG_OUT while it is valid; every other read of them and every write to OBUF is
refused. A write of MSG_IN is stored. -/
def Obligations.HostAccessesBuffersAndPorts : Prop :=
  ∀ (s : State) (i : Half) (v : Byte) (m : Message) (rest : List HostOp), s.Inv → s.engine = .idle →
    let sees := fun (x : HostValue) => step s = .next { s with host := { todo := rest, seen := s.host.seen ++ [x] } }
    (s.host.todo = .writeIbuf i v :: rest → i.toNat < s.par.ibufCap →
      ∃ m, step s = .next { popHost rest s with ibuf := m } ∧ m.read i.toNat = some v ∧
        ∀ a, a ≠ i.toNat → m.read a = s.ibuf.read a) ∧
    (s.host.todo = .writeIbuf i v :: rest ∨ s.host.todo = .readIbuf i :: rest → s.par.ibufCap ≤ i.toNat →
      step s = .refused .ibufIndex) ∧
    (s.host.todo = .readIbuf i :: rest → i.toNat < s.par.ibufCap → s.ibuf.read i.toNat = some v → sees (.octet v)) ∧
    (s.host.todo = .readIbuf i :: rest → i.toNat < s.par.ibufCap → s.ibuf.read i.toNat = none →
      step s = .refused .ibufUnwritten) ∧
    (s.host.todo = .readObuf i :: rest → i.toNat < s.obufLen.toNat →
      ∃ x, s.obuf.read i.toNat = some x ∧ sees (.octet x)) ∧
    (s.host.todo = .readObuf i :: rest → s.obufLen.toNat ≤ i.toNat → step s = .refused .obufIndex) ∧
    (s.host.todo = .writeObuf i v :: rest → step s = .refused .writeToObuf) ∧
    (s.host.todo = .readMsgOut :: rest → s.msgOut = some m → sees (.message m)) ∧
    (s.host.todo = .readMsgOut :: rest → s.msgOut = none → step s = .refused .msgOutInvalid) ∧
    (s.host.todo = .writeMsgIn m :: rest → step s = .next { popHost rest s with msgIn := some m })

/-! ### Errors -/

/-- R282 and the table of R280: ERR = VALUE << 16 | SUB << 8 | CLASS, whose three fields read back; the CLASS and SUB of each of
the 36 rows of the table, no two of which share both, CLASS 1 to 11 and SUB not 0. -/
def Obligations.ErrorCodes : Prop :=
  let table : List (Nat × Nat × Reason) :=
    [(1, 1, .shortBuffer), (1, 2, .marker), (1, 3, .badLength), (1, 4, .lengthMismatch), (1, 5, .badType),
      (2, 1, .otMismatch), (2, 2, .partialSet), (3, 1, .bodyLength), (3, 2, .nexthopLength), (4, 1, .absent),
      (4, 2, .unknownNotOptional), (5, 1, .unrecognizedWellKnown), (6, 1, .originValue), (7, 1, .bitlenTooLong),
      (7, 2, .overrun), (7, 3, .trailingBits), (8, 1, .badSegmentType), (8, 2, .truncated), (9, 1, .bodyTooShort),
      (9, 2, .withdrawnOverrun), (9, 3, .attrSectionOverrun), (9, 4, .recordTruncated), (9, 5, .recordOverrun),
      (9, 6, .duplicate), (10, 1, .asnWidth), (10, 2, .family), (11, 1, .emptyLegacyGroup), (11, 2, .attrsPresence),
      (11, 3, .llNexthopSet), (11, 4, .nexthopConflict), (11, 5, .unknownCollision), (11, 6, .prefixLen),
      (11, 7, .segmentTooLong), (11, 8, .attrTooLong), (11, 9, .messageTooLong), (11, 10, .passthroughLength)]
  (∀ e : CodecError,
    errWord e = (e.value.setWidth 32 <<< 16) ||| (BitVec.ofNat 32 (reasonSub e.reason) <<< 8)
      ||| BitVec.ofNat 32 (reasonClass e.reason) ∧
    (errWord e).toNat % 256 = reasonClass e.reason ∧ (errWord e).toNat / 256 % 256 = reasonSub e.reason ∧
    (errWord e).toNat / 65536 = e.value.toNat) ∧
  table.length = 36 ∧ (∀ r : Reason, (reasonClass r, reasonSub r, r) ∈ table) ∧
  (∀ r r' : Reason, reasonClass r = reasonClass r' → reasonSub r = reasonSub r' → r = r') ∧
  ∀ r : Reason, 1 ≤ reasonClass r ∧ reasonClass r ≤ 11 ∧ 1 ≤ reasonSub r

/-- R283: what an error writes, and that no input changes. That every octet of OBUF is unchanged after an ENCODE that errs is the
model's choice (log entry 8): R101 lists OBUF among what ENCODE writes, and I13 of 93_implementation_defined.md lets a model hold
any value in the octets at and above OBUF_LEN, which no read can observe. -/
def Obligations.ErrorEndsCommand : Prop :=
  ∀ (s : State) (cx : Cxt) (e : CodecError),
    (∀ b, decodeInputs s cx b → decodeMessage s.par cx b = .error e →
      ∃ t, exec .decode s = .next t ∧ t.status = 0x6 ∧ t.err = errWord e ∧ t.obufLen = 0 ∧ t.msgOut = none ∧
        t.engine = .idle ∧ sameInputs s t ∧ ∀ a, t.obuf.read a = s.obuf.read a) ∧
    (∀ m, encodeInputs s cx m → encodeMessage s.par cx m = .error e →
      ∃ t, exec .encode s = .next t ∧ t.status = 0xA ∧ t.err = errWord e ∧ t.obufLen = 0 ∧ t.msgOut = none ∧
        t.engine = .idle ∧ sameInputs s t ∧ ∀ a, t.obuf.read a = s.obuf.read a)

/-! ### The commands -/

/-- R102: CLR clears STATUS, ERR and OBUF_LEN, makes MSG_OUT invalid, writes nothing else, cannot fail, and changes nothing
right after reset. -/
def Obligations.ClrClearsResults : Prop :=
  (∀ s : State, ∃ t, exec .clr s = .next t ∧ t.status = 0 ∧ t.err = 0 ∧ t.obufLen = 0 ∧ t.msgOut = none ∧
    t.engine = .idle ∧ sameInputs s t ∧ ∀ a, t.obuf.read a = s.obuf.read a) ∧
    decodeCommand 0 = .clr ∧ exec .clr State.reset = .next State.reset

/-- R100, R101: a DECODE that returns a message: MSG_OUT holds it, STATUS = 0x5, OBUF_LEN = 0, every octet of OBUF is unchanged.
An ENCODE that returns octets: they stand in OBUF from index 0 and every other octet of OBUF is unchanged, OBUF_LEN is their
number, STATUS = 0x9, MSG_OUT is invalid. Either way ERR = 0 and the inputs are unchanged. That
the octets of OBUF at and above the result's end are unchanged is the model's choice (log entry 8; I13 of
93_implementation_defined.md lets a model hold any value there). -/
def Obligations.CommandsReturnValues : Prop :=
  ∀ (s : State) (cx : Cxt) (m : Message) (bs : Bytes),
    (decodeInputs s cx bs → decodeMessage s.par cx bs = .ok m →
      ∃ t, exec .decode s = .next t ∧ t.status = 0x5 ∧ t.err = 0 ∧ t.obufLen = 0 ∧ t.msgOut = some m ∧
        t.engine = .idle ∧ sameInputs s t ∧ ∀ a, t.obuf.read a = s.obuf.read a) ∧
    (s.par.legal = true → encodeInputs s cx m → encodeMessage s.par cx m = .ok bs →
      ∃ t, exec .encode s = .next t ∧ t.status = 0x9 ∧ t.err = 0 ∧ t.obufLen.toNat = bs.length ∧ t.msgOut = none ∧
        t.engine = .idle ∧ sameInputs s t ∧ t.obuf.readRange 0 bs.length = some bs ∧
        ∀ a, bs.length ≤ a → t.obuf.read a = s.obuf.read a)

/-- R286 items 6 and 7, and its last paragraph: DECODE and ENCODE are refused exactly while an input of theirs is unwritten;
in every other state they end with a value or an error, whatever the content. -/
def Obligations.CommandsNeedTheirInputs : Prop :=
  ∀ s : State,
    (exec .decode s = .refused .decodeInputUnwritten ↔
      s.cxtCaps = none ∨ s.ibufLen = none ∨ ∃ n, s.ibufLen = some n ∧ ∃ i < n.toNat, s.ibuf.read i = none) ∧
    (exec .encode s = .refused .encodeInputUnwritten ↔ s.cxtCaps = none ∨ s.msgIn = none) ∧
    ((∃ t, exec .decode s = .next t) ∨ exec .decode s = .refused .decodeInputUnwritten) ∧
    ((∃ t, exec .encode s = .next t) ∨ exec .encode s = .refused .encodeInputUnwritten)

/-- R70 (and R22, R286 item 1): the whole word written to CMD must equal the command's value; any other word is CMD_RESERVED,
which is refused in every state. -/
def Obligations.CommandWordSelectsCommand : Prop :=
  (∀ (s : State) (w : Word) (rest : List HostOp), s.engine = .idle → s.host.todo = .writeReg 0 w :: rest →
    (w = 0 → step s = exec .clr (popHost rest s)) ∧ (w = 1 → step s = exec .decode (popHost rest s)) ∧
    (w = 2 → step s = exec .encode (popHost rest s)) ∧
    (w ≠ 0 → w ≠ 1 → w ≠ 2 → step s = .refused .reservedCommand)) ∧
  ∀ (s : State) (w : Word), exec (.cmdReserved w) s = .refused .reservedCommand

/-- R43, R28: the results of a DECODE depend on nothing but FOUR_OCTET_AS, the two family bits, IBUF_LEN and the octets of IBUF
below it, and those of an ENCODE on nothing but the same context bits and MSG_IN: the peer registers, the other context bits and
the earlier results are not read. -/
def Obligations.CommandsDependOnTheirInputs : Prop :=
  ∀ (s s' t : State) (caps caps' : Word), s'.par = s.par → s.cxtCaps = some caps → s'.cxtCaps = some caps' →
    (∀ i < 3, caps'.getLsbD i = caps.getLsbD i) →
    (s'.ibufLen = s.ibufLen → (∀ n, s.ibufLen = some n → ∀ i < n.toNat, s'.ibuf.read i = s.ibuf.read i) →
      exec .decode s = .next t →
      ∃ t', exec .decode s' = .next t' ∧ t'.status = t.status ∧ t'.err = t.err ∧ t'.obufLen = t.obufLen ∧
        t'.msgOut = t.msgOut) ∧
    (s.par.legal = true → s'.msgIn = s.msgIn → exec .encode s = .next t →
      ∃ t', exec .encode s' = .next t' ∧ t'.status = t.status ∧ t'.err = t.err ∧ t'.obufLen = t.obufLen ∧
        t'.msgOut = t.msgOut ∧ ∀ a < t.obufLen.toNat, t'.obuf.read a = t.obuf.read a)

/-! ### Framing, decode -/

/-- R104 to R107: the header checks, each reached where the ones before it pass. -/
def Obligations.HeaderChecks : Prop :=
  ∀ (s : State) (cx : Cxt) (b : Bytes), decodeInputs s cx b →
    (b.length < 19 → exec .decode s = .next (raiseError 1 (err .shortBuffer b.length) s)) ∧
    (19 ≤ b.length → ¬ markerOk s.par b → exec .decode s = .next (raiseError 1 (err .marker 0) s)) ∧
    (19 ≤ b.length → markerOk s.par b → (lengthField b < 19 ∨ s.par.maxMsgLen < lengthField b) →
      exec .decode s = .next (raiseError 1 (err .badLength (lengthField b)) s)) ∧
    (19 ≤ b.length → markerOk s.par b → 19 ≤ lengthField b → lengthField b ≤ s.par.maxMsgLen →
      lengthField b ≠ b.length → exec .decode s = .next (raiseError 1 (err .lengthMismatch (lengthField b)) s))

/-- R108 to R114: a message whose header passes: an unassigned type and a total length illegal for the type are errors;
KEEPALIVE decodes to its value, OPEN, NOTIFICATION and ROUTE-REFRESH to their body, octet for octet, and an UPDATE as the form
MSG_UPDATE decodes its body. -/
def Obligations.TypeDispatch : Prop :=
  ∀ (s : State) (cx : Cxt) (b : Bytes), decodeInputs s cx b → headerOk s.par b →
    (typeField b ∉ [(1 : Byte), 2, 3, 4, 5] →
      exec .decode s = .next (raiseError 1 (err .badType (typeField b).toNat) s)) ∧
    (typeField b ∈ [(1 : Byte), 2, 3, 4, 5] → ¬ legalTotal (typeField b) b.length →
      exec .decode s = .next (raiseError 1 (err .badLength b.length) s)) ∧
    (typeField b = 1 → 29 ≤ b.length → exec .decode s = .next (deliverMessage (.openMsg (b.drop 19)) s)) ∧
    (typeField b = 2 → 23 ≤ b.length →
      exec .decode s = exec (.msgUpdate (b.take 16) (b.drop 19)) (atMessage cx b s)) ∧
    (typeField b = 3 → 21 ≤ b.length → exec .decode s = .next (deliverMessage (.notification (b.drop 19)) s)) ∧
    (typeField b = 4 → b.length = 19 → exec .decode s = .next (deliverMessage .keepalive s)) ∧
    (typeField b = 5 → b.length = 23 → exec .decode s = .next (deliverMessage (.routeRefresh (b.drop 19)) s))

/-- R108 to R114: the message forms inside a DECODE: each kind whose total length is legal ends the command with its value,
an illegal length with BAD_LENGTH, and an unassigned type with BAD_TYPE, its own effect. -/
def Obligations.MessageFormsDecode : Prop :=
  ∀ (s : State) (cx : Cxt) (b marker body : Bytes) (t : Byte),
    (29 ≤ 19 + body.length →
      exec (.msgOpen marker body) (atMessage cx b s) = .next (deliverMessage (.openMsg body) s)) ∧
    (21 ≤ 19 + body.length →
      exec (.msgNotification marker body) (atMessage cx b s) = .next (deliverMessage (.notification body) s)) ∧
    (body = [] → exec (.msgKeepalive marker body) (atMessage cx b s) = .next (deliverMessage .keepalive s)) ∧
    (body.length = 4 →
      exec (.msgRouteRefresh marker body) (atMessage cx b s) = .next (deliverMessage (.routeRefresh body) s)) ∧
    (body = [0, 0, 0, 0] →
      exec (.msgUpdate marker body) (atMessage cx b s) = .next (deliverMessage (.update {}) s)) ∧
    exec (.msgUnassigned t marker body) (atMessage cx b s) = .next (raiseError 1 (err .badType t.toNat) s) ∧
    (∀ i : Instr, (i = .msgOpen marker body ∧ body.length < 10 ∨ i = .msgUpdate marker body ∧ body.length < 4 ∨
        i = .msgNotification marker body ∧ body.length < 2 ∨ i = .msgKeepalive marker body ∧ body ≠ [] ∨
        i = .msgRouteRefresh marker body ∧ body.length ≠ 4) →
      exec i (atMessage cx b s) = .next (raiseError 1 (err .badLength (19 + body.length)) s))

/-! ### The UPDATE body, decode -/

/-- R131: the section-length checks, on a body of at least 4 octets: the withdrawn budget, then the attribute budget, before
any prefix or attribute is read. -/
def Obligations.SectionOverruns : Prop :=
  ∀ (s : State) (cx : Cxt) (b marker rest : Bytes) (w1 w2 : Byte), 2 ≤ rest.length →
    let wlen := w1.toNat * 256 + w2.toNat
    (rest.length < wlen + 2 →
      exec (.msgUpdate marker (w1 :: w2 :: rest)) (atMessage cx b s)
        = .next (raiseError 1 (err .withdrawnOverrun wlen) s)) ∧
    ∀ (wd tail : Bytes) (a1 a2 : Byte), rest = wd ++ a1 :: a2 :: tail → wd.length = wlen →
      tail.length < a1.toNat * 256 + a2.toNat →
      exec (.msgUpdate marker (w1 :: w2 :: rest)) (atMessage cx b s)
        = .next (raiseError 1 (err .attrSectionOverrun (a1.toNat * 256 + a2.toNat)) s)

/-- R132, R134, R135 (and R130, R133): a body whose three sections decode and whose mandatory attributes are there gives the
UPDATE value of its sections: an empty list of legacy prefixes is an absent group, `attrs` is absent exactly when the
attribute section is empty, and the NEXT_HOP value goes to exactly one of its two fields. -/
def Obligations.UpdateDecodes : Prop :=
  ∀ (s : State) (cx : Cxt) (b marker wd recs nl : Bytes) (ps ns : List Prefix4) (r : RecState),
    wd.length < 65536 → recs.length < 65536 → decodePrefixList 32 wd = .ok ps → decodeAttrSection cx recs = .ok r →
    decodePrefixList 32 nl = .ok ns →
    (advertises ns r → r.attrs.base.origin ≠ none ∧ r.attrs.base.asPath ≠ none) → (ns ≠ [] → r.side.nh ≠ none) →
    exec (.msgUpdate marker (wireUpdate wd recs nl)) (atMessage cx b s) = .next (deliverMessage (.update
      { reach := if ns = [] then none else r.side.nh.map (fun h => { prefixes := ns, nexthop := h })
        unreach := if ps = [] then none else some { prefixes := ps }
        mpReach := r.side.mpReach
        mpUnreach := r.side.mpUnreach
        attrs := if recs = [] then none else some (placedAttrs ns r) }) s)

/-- R136, and R285 steps 8 to 11: the first section that fails gives the error of the command, in the order withdrawn prefixes,
attribute records, NLRI prefixes; after all three, the mandatory attributes of an UPDATE that advertises: ORIGIN, AS_PATH, then
NEXT_HOP for legacy prefixes. -/
def Obligations.UpdateErrors : Prop :=
  ∀ (s : State) (cx : Cxt) (b marker wd recs nl : Bytes) (ps ns : List Prefix4) (r : RecState) (e : CodecError),
    wd.length < 65536 → recs.length < 65536 →
    let raises := fun e =>
      exec (.msgUpdate marker (wireUpdate wd recs nl)) (atMessage cx b s) = .next (raiseError 1 e s)
    (decodePrefixList 32 wd = .error e → raises e) ∧
    (decodePrefixList 32 wd = .ok ps → decodeAttrSection cx recs = .error e → raises e) ∧
    (decodePrefixList 32 wd = .ok ps → decodeAttrSection cx recs = .ok r → decodePrefixList 32 nl = .error e →
      raises e) ∧
    (decodePrefixList 32 wd = .ok ps → decodeAttrSection cx recs = .ok r → decodePrefixList 32 nl = .ok ns →
      (advertises ns r → r.attrs.base.origin = none → raises (err .absent 1)) ∧
      (advertises ns r → r.attrs.base.origin ≠ none → r.attrs.base.asPath = none → raises (err .absent 2)) ∧
      (ns ≠ [] → r.attrs.base.origin ≠ none → r.attrs.base.asPath ≠ none → r.side.nh = none →
        raises (err .absent 3)))

/-- R34, R36, R132, R134, R135: what every UPDATE value that DECODE returns is: canonical prefixes, no empty legacy group, no
link-local next hop in the base block, one place for NEXT_HOP. -/
def Obligations.DecodedValuesCanonical : Prop :=
  ∀ (s t : State) (u : UpdateMsg), exec .decode s = .next t → t.msgOut = some (.update u) → DecodedUpdate u

/-! ### Attribute records -/

/-- R161: the envelope of the record at the cursor: what is left of the section must hold FLAGS and TYPE, then LEN (2 octets
where E is set), then LEN octets of body. -/
def Obligations.RecordEnvelope : Prop :=
  ∀ (s : State) (cx : Cxt) (w : UpdWork) (f t l1 l2 : Byte) (v : Bytes), w.cur < w.sec.length →
    (w.sec.drop w.cur = [f] → step (atRecords cx w s) = .next (raiseError 1 (err .recordTruncated 0) s)) ∧
    (w.sec.drop w.cur = [f, t] ∨ f &&& 0x10 ≠ 0 ∧ w.sec.drop w.cur = [f, t, l1] →
      step (atRecords cx w s) = .next (raiseError 1 (err .recordTruncated t.toNat) s)) ∧
    (f &&& 0x10 = 0 → w.sec.drop w.cur = f :: t :: l1 :: v → v.length < l1.toNat →
      step (atRecords cx w s) = .next (raiseError 1 (err .recordOverrun t.toNat) s)) ∧
    (f &&& 0x10 ≠ 0 → w.sec.drop w.cur = f :: t :: l1 :: l2 :: v → v.length < l1.toNat * 256 + l2.toNat →
      step (atRecords cx w s) = .next (raiseError 1 (err .recordOverrun t.toNat) s)) ∧
    (∀ rest, f &&& 0x10 = 0 → w.sec.drop w.cur = f :: t :: l1 :: (v ++ rest) → v.length = l1.toNat →
      step (atRecords cx w s) = exec (RecForm.toInstr { flags := f, type := t, body := v })
        (atRecords cx { w with cur := w.cur + 3 + v.length } s)) ∧
    (∀ rest, f &&& 0x10 ≠ 0 → w.sec.drop w.cur = f :: t :: l1 :: l2 :: (v ++ rest) →
      v.length = l1.toNat * 256 + l2.toNat →
      step (atRecords cx w s) = exec (RecForm.toInstr { flags := f, type := t, body := v })
        (atRecords cx { w with cur := w.cur + 4 + v.length } s))

/-- R162: a type code seen before, recognized or not, ends the command, before any other check of the record; every record
that does not end the command adds its type code to those seen. -/
def Obligations.DuplicateTypesRejected : Prop :=
  ∀ (s t : State) (cx : Cxt) (w : UpdWork) (f : RecForm),
    (f.type ∈ w.recs.seen →
      exec f.toInstr (atRecords cx w s) = .next (raiseError 1 (err .duplicate f.type.toNat) s)) ∧
    (exec f.toInstr (atRecords cx w s) = .next t → t.engine ≠ .idle →
      ∃ w', t = atRecords cx w' s ∧ w'.recs.seen = f.type :: w.recs.seen ∧ w'.unreach = w.unreach ∧
        w'.sec = w.sec ∧ w'.cur = w.cur ∧ w'.nlri = w.nlri)

/-- R164: the flag check of the recognized types, before any body check: O and T against the expected pattern, then P. -/
def Obligations.FlagChecks : Prop :=
  ∀ (s : State) (cx : Cxt) (w : UpdWork) (code expected flags : Byte) (v : Bytes),
    (code, expected) ∈ [((1 : Byte), (0x40 : Byte)), (2, 0x40), (3, 0x40), (4, 0x80), (5, 0x40), (6, 0x40), (7, 0xC0),
      (8, 0xC0), (9, 0x80), (10, 0x80), (14, 0x80), (15, 0x80), (16, 0xC0), (17, 0xC0), (18, 0xC0), (25, 0xC0),
      (32, 0xC0)] → code ∉ w.recs.seen →
    (flags &&& 0xC0 ≠ expected →
      exec (RecForm.toInstr { flags := flags, type := code, body := v }) (atRecords cx w s)
        = .next (raiseError 1 (err .otMismatch code.toNat) s)) ∧
    (flags &&& 0xC0 = expected → expected ≠ 0xC0 → flags &&& 0x20 ≠ 0 →
      exec (RecForm.toInstr { flags := flags, type := code, body := v }) (atRecords cx w s)
        = .next (raiseError 1 (err .partialSet code.toNat) s))

/-- R166: ORIGIN, its length before its value, and its record on encode. -/
def Obligations.OriginAttribute : Prop :=
  ∀ (s : State) (cx : Cxt) (w : UpdWork) (flags x : Byte) (v : Bytes) (e : EncWork) (rest : List Slot),
    (recordOpens 1 0x40 flags w → v.length ≠ 1 →
      exec (.attrOrigin flags v) (atRecords cx w s) = .next (raiseError 1 (err .bodyLength 1) s)) ∧
    (recordOpens 1 0x40 flags w → 2 < x.toNat →
      exec (.attrOrigin flags [x]) (atRecords cx w s) = .next (raiseError 1 (err .originValue x.toNat) s)) ∧
    ∀ o, (x, o) ∈ [((0 : Byte), Origin.igp), (1, .egp), (2, .incomplete)] →
      (recordOpens 1 0x40 flags w → exec (.attrOrigin flags [x]) (atRecords cx w s)
        = .next (atRecords cx (storeBase 1 (fun b => { b with origin := some o }) w) s)) ∧
      (e.todo = .known .origin :: rest → e.attrs.base.origin = some o →
        step (atEmission cx e s) = .next (atEmission cx (appendOut [0x40, 1, 1, x] { e with todo := rest }) s))

/-- R167, R168, R169, R172 (and R143): NEXT_HOP, MULTI_EXIT_DISC, LOCAL_PREF and ORIGINATOR_ID take exactly 4 octets,
big-endian, and accept every value; encode writes the 4 octets back, NEXT_HOP from the legacy group where it is present, else
from the base block. -/
def Obligations.FourOctetAttributes : Prop :=
  ∀ (s : State) (cx : Cxt) (w : UpdWork) (flags x0 x1 x2 x3 : Byte) (v : Bytes) (e : EncWork) (rest : List Slot),
    let value : BitVec 32 := x0 ++ x1 ++ x2 ++ x3
    let emits := fun (f t : Byte) =>
      step (atEmission cx e s) = .next (atEmission cx (appendOut [f, t, 4, x0, x1, x2, x3] { e with todo := rest }) s)
    (recordOpens 3 0x40 flags w →
      exec (.attrNextHop flags [x0, x1, x2, x3]) (atRecords cx w s)
        = .next (atRecords cx (storeSide 3 (fun st => { st with nh := some value }) w) s) ∧
      (v.length ≠ 4 →
        exec (.attrNextHop flags v) (atRecords cx w s) = .next (raiseError 1 (err .bodyLength 3) s))) ∧
    (recordOpens 4 0x80 flags w →
      exec (.attrMultiExitDisc flags [x0, x1, x2, x3]) (atRecords cx w s)
        = .next (atRecords cx (storeBase 4 (fun b => { b with med := some value }) w) s) ∧
      (v.length ≠ 4 →
        exec (.attrMultiExitDisc flags v) (atRecords cx w s) = .next (raiseError 1 (err .bodyLength 4) s))) ∧
    (recordOpens 5 0x40 flags w →
      exec (.attrLocalPref flags [x0, x1, x2, x3]) (atRecords cx w s)
        = .next (atRecords cx (storeBase 5 (fun b => { b with localPref := some value }) w) s) ∧
      (v.length ≠ 4 →
        exec (.attrLocalPref flags v) (atRecords cx w s) = .next (raiseError 1 (err .bodyLength 5) s))) ∧
    (recordOpens 9 0x80 flags w →
      exec (.attrOriginatorId flags [x0, x1, x2, x3]) (atRecords cx w s)
        = .next (atRecords cx (storeBase 9 (fun b => { b with originatorId := some value }) w) s) ∧
      (v.length ≠ 4 →
        exec (.attrOriginatorId flags v) (atRecords cx w s) = .next (raiseError 1 (err .bodyLength 9) s))) ∧
    (e.todo = .known .nextHop :: rest → (∃ ps, e.upd.reach = some { prefixes := ps, nexthop := value }) → emits 0x40 3) ∧
    (e.todo = .known .nextHop :: rest → e.upd.reach = none → e.attrs.base.nexthop = some value → emits 0x40 3) ∧
    (e.todo = .known .multiExitDisc :: rest → e.attrs.base.med = some value → emits 0x80 4) ∧
    (e.todo = .known .localPref :: rest → e.attrs.base.localPref = some value → emits 0x40 5) ∧
    (e.todo = .known .originatorId :: rest → e.attrs.base.originatorId = some value → emits 0x80 9)

/-- R170: ATOMIC_AGGREGATE is an empty body that sets the flag; encode emits it exactly when the flag is set. -/
def Obligations.AtomicAggregateAttribute : Prop :=
  ∀ (s : State) (cx : Cxt) (w : UpdWork) (flags : Byte) (v : Bytes) (e : EncWork) (rest : List Slot),
    (recordOpens 6 0x40 flags w →
      exec (.attrAtomicAggregate flags []) (atRecords cx w s)
        = .next (atRecords cx (storeBase 6 (fun b => { b with atomicAggregate := true }) w) s) ∧
      (v ≠ [] →
        exec (.attrAtomicAggregate flags v) (atRecords cx w s) = .next (raiseError 1 (err .bodyLength 6) s))) ∧
    (e.todo = .known .atomicAggregate :: rest →
      step (atEmission cx e s) = .next (atEmission cx
        (appendOut (if e.attrs.base.atomicAggregate then [0x40, 6, 0] else []) { e with todo := rest }) s))

/-- R171, R174 (and R211): AGGREGATOR takes an AS number of the width the context gives and an identifier, AS4_AGGREGATOR always
4 and 4 octets; encode writes them back, and refuses an AGGREGATOR whose AS number does not fit the 2-octet width. -/
def Obligations.AggregatorAttributes : Prop :=
  ∀ (s : State) (cx : Cxt) (w : UpdWork) (flags a0 a1 a2 a3 x0 x1 x2 x3 : Byte) (v : Bytes) (e : EncWork)
    (rest : List Slot),
    let wide : Aggregator := { asn := a0 ++ a1 ++ a2 ++ a3, identifier := x0 ++ x1 ++ x2 ++ x3 }
    let narrow : Aggregator := { asn := (a0 ++ a1).setWidth 32, identifier := x0 ++ x1 ++ x2 ++ x3 }
    let emits := fun (bs : Bytes) =>
      step (atEmission cx e s) = .next (atEmission cx (appendOut bs { e with todo := rest }) s)
    (recordOpens 7 0xC0 flags w → cx.as4 = true →
      exec (.attrAggregator flags [a0, a1, a2, a3, x0, x1, x2, x3]) (atRecords cx w s)
        = .next (atRecords cx (storeBase 7 (fun b => { b with aggregator := some wide }) w) s) ∧
      (v.length ≠ 8 →
        exec (.attrAggregator flags v) (atRecords cx w s) = .next (raiseError 1 (err .bodyLength 7) s))) ∧
    (recordOpens 7 0xC0 flags w → cx.as4 = false →
      exec (.attrAggregator flags [a0, a1, x0, x1, x2, x3]) (atRecords cx w s)
        = .next (atRecords cx (storeBase 7 (fun b => { b with aggregator := some narrow }) w) s) ∧
      (v.length ≠ 6 →
        exec (.attrAggregator flags v) (atRecords cx w s) = .next (raiseError 1 (err .bodyLength 7) s))) ∧
    (recordOpens 18 0xC0 flags w →
      exec (.attrAs4Aggregator flags [a0, a1, a2, a3, x0, x1, x2, x3]) (atRecords cx w s)
        = .next (atRecords cx (storeBase 18 (fun b => { b with as4Aggregator := some wide }) w) s) ∧
      (v.length ≠ 8 →
        exec (.attrAs4Aggregator flags v) (atRecords cx w s) = .next (raiseError 1 (err .bodyLength 18) s))) ∧
    (e.todo = .known .aggregator :: rest → e.attrs.base.aggregator = some wide →
      (cx.as4 = true → emits [0xC0, 7, 8, a0, a1, a2, a3, x0, x1, x2, x3]) ∧
      (cx.as4 = false → a0 = 0 → a1 = 0 → emits [0xC0, 7, 6, a2, a3, x0, x1, x2, x3]) ∧
      (cx.as4 = false → a0 ≠ 0 ∨ a1 ≠ 0 →
        step (atEmission cx e s) = .next (raiseError 2 (err .asnWidth 7) s))) ∧
    (e.todo = .known .as4Aggregator :: rest → e.attrs.base.as4Aggregator = some wide →
      emits [0xC0, 18, 8, a0, a1, a2, a3, x0, x1, x2, x3])

/-- R173: CLUSTER_LIST is identifiers of 4 octets back to back, none included; any other length is refused. -/
def Obligations.ClusterListAttribute : Prop :=
  ∀ (s : State) (cx : Cxt) (w : UpdWork) (flags : Byte) (v : Bytes) (ids : List Ipv4) (e : EncWork)
    (rest : List Slot), ids.length ≤ 16383 →
    let body := (ids.map (fun a => [a.extractLsb' 24 8, a.extractLsb' 16 8, a.extractLsb' 8 8, a.extractLsb' 0 8])).flatten
    (recordOpens 10 0x80 flags w →
      exec (.attrClusterList flags body) (atRecords cx w s)
        = .next (atRecords cx (storeBase 10 (fun b => { b with clusterList := some ids }) w) s) ∧
      (v.length % 4 ≠ 0 →
        exec (.attrClusterList flags v) (atRecords cx w s) = .next (raiseError 1 (err .bodyLength 10) s))) ∧
    (e.todo = .known .clusterList :: rest → e.attrs.base.clusterList = some ids →
      step (atEmission cx e s)
        = .next (atEmission cx (appendOut (wireRecord 0x80 10 body) { e with todo := rest }) s))

/-- R261, R262 (and R260): COMMUNITIES is records of two 2-octet fields, EXTENDED_COMMUNITIES records of 8 octets as they are,
back to back, order and duplicates kept; a body that is no whole number of records is refused; encode writes the records back. -/
def Obligations.NarrowCommunities : Prop :=
  ∀ (s : State) (cx : Cxt) (w : UpdWork) (flags : Byte) (v : Bytes) (cs : List Comm) (xs : List ExtComm) (e : EncWork)
    (rest : List Slot), cs.length ≤ 16383 → xs.length ≤ 8191 →
    let commBody := (cs.map (fun c => [c.global.extractLsb' 8 8, c.global.extractLsb' 0 8, c.loc.extractLsb' 8 8,
      c.loc.extractLsb' 0 8])).flatten
    let extBody := (xs.map (fun c => [c.o0, c.o1, c.o2, c.o3, c.o4, c.o5, c.o6, c.o7])).flatten
    let emits := fun (t : Byte) (body : Bytes) =>
      step (atEmission cx e s) = .next (atEmission cx (appendOut (wireRecord 0xC0 t body) { e with todo := rest }) s)
    (recordOpens 8 0xC0 flags w →
      exec (.attrCommunities flags commBody) (atRecords cx w s)
        = .next (atRecords cx (storeAttrs 8 (fun a => { a with comm := some cs }) w) s) ∧
      (v.length % 4 ≠ 0 →
        exec (.attrCommunities flags v) (atRecords cx w s) = .next (raiseError 1 (err .bodyLength 8) s))) ∧
    (recordOpens 16 0xC0 flags w →
      exec (.attrExtendedCommunities flags extBody) (atRecords cx w s)
        = .next (atRecords cx (storeAttrs 16 (fun a => { a with extComm := some xs }) w) s) ∧
      (v.length % 8 ≠ 0 →
        exec (.attrExtendedCommunities flags v) (atRecords cx w s)
          = .next (raiseError 1 (err .bodyLength 16) s))) ∧
    (e.todo = .known .communities :: rest → e.attrs.comm = some cs → emits 8 commBody) ∧
    (e.todo = .known .extendedCommunities :: rest → e.attrs.extComm = some xs → emits 16 extBody)

/-- R263, R264 (and R260): LARGE_COMMUNITY is records of three 4-octet fields, IPV6_EXTENDED_COMMUNITIES records of a 16-octet
address and a 4-octet local administrator, back to back; a body that is no whole number of records is refused; encode writes the
records back. -/
def Obligations.WideCommunities : Prop :=
  ∀ (s : State) (cx : Cxt) (w : UpdWork) (flags : Byte) (v : Bytes) (cs : List LargeComm) (xs : List Extv6Comm)
    (e : EncWork) (rest : List Slot), cs.length ≤ 5461 → xs.length ≤ 3276 →
    let field : Word → Bytes :=
      fun x => [x.extractLsb' 24 8, x.extractLsb' 16 8, x.extractLsb' 8 8, x.extractLsb' 0 8]
    let largeBody := (cs.map (fun c => field c.global ++ field c.local1 ++ field c.local2)).flatten
    let v6Body := (xs.map (fun c =>
      (List.range 16).map (fun k => c.addr.extractLsb' (8 * (15 - k)) 8) ++ field c.localAdmin)).flatten
    let emits := fun (t : Byte) (body : Bytes) =>
      step (atEmission cx e s) = .next (atEmission cx (appendOut (wireRecord 0xC0 t body) { e with todo := rest }) s)
    (recordOpens 32 0xC0 flags w →
      exec (.attrLargeCommunity flags largeBody) (atRecords cx w s)
        = .next (atRecords cx (storeAttrs 32 (fun a => { a with largeComm := some cs }) w) s) ∧
      (v.length % 12 ≠ 0 →
        exec (.attrLargeCommunity flags v) (atRecords cx w s) = .next (raiseError 1 (err .bodyLength 32) s))) ∧
    (recordOpens 25 0xC0 flags w →
      exec (.attrIpv6ExtendedCommunities flags v6Body) (atRecords cx w s)
        = .next (atRecords cx (storeAttrs 25 (fun a => { a with extv6Comm := some xs }) w) s) ∧
      (v.length % 20 ≠ 0 →
        exec (.attrIpv6ExtendedCommunities flags v) (atRecords cx w s)
          = .next (raiseError 1 (err .bodyLength 25) s))) ∧
    (e.todo = .known .largeCommunity :: rest → e.attrs.largeComm = some cs → emits 32 largeBody) ∧
    (e.todo = .known .ipv6ExtendedCommunities :: rest → e.attrs.extv6Comm = some xs → emits 25 v6Body)

/-- R165, R140: an unrecognized type with O = 1 is kept whole at the end of `unknown`, with O = 0 it ends a DECODE with
UnrecognizedWellKnownAttribute (its own effect) and an ENCODE with MissingWellKnownAttribute(UNKNOWN_NOT_OPTIONAL). -/
def Obligations.UnrecognizedAttributes : Prop :=
  ∀ (s : State) (cx : Cxt) (w : UpdWork) (e : EncWork) (flags t : Byte) (v : Bytes),
    (t ∉ w.recs.seen → flags &&& 0x80 ≠ 0 →
      exec (.attrUnrecognizedOptional flags t v) (atRecords cx w s)
        = .next (atRecords cx (storeAttrs t (appendUnknown { flags := flags, type := t, value := v }) w) s)) ∧
    (t ∉ w.recs.seen → flags &&& 0x80 = 0 →
      exec (.attrUnrecognizedWellKnown flags t v) (atRecords cx w s)
        = .next (raiseError 1 (err .unrecognizedWellKnown t.toNat) s)) ∧
    exec (.attrUnrecognizedWellKnown flags t v) (atEmission cx e s)
      = .next (raiseError 2 (err .unknownNotOptional t.toNat) s)

/-- R175, R176: the record form of a recognized type, and of an unrecognized optional one, inside an ENCODE appends its
record: E is set exactly where the body is longer than 255 octets or the flags have it, and then the length has 2 octets; a
body above 65535 octets ends the command. -/
def Obligations.RecordEmission : Prop :=
  ∀ (s : State) (cx : Cxt) (e : EncWork) (f : RecForm),
    f.type ∈ [(1 : Byte), 2, 3, 4, 5, 6, 7, 8, 9, 10, 14, 15, 16, 17, 18, 25, 32] ∨ f.flags &&& 0x80 ≠ 0 →
    (f.body.length ≤ 255 → f.flags &&& 0x10 = 0 → exec f.toInstr (atEmission cx e s) = .next (atEmission cx
      (appendOut ([f.flags, f.type, BitVec.ofNat 8 f.body.length] ++ f.body) e) s)) ∧
    (f.body.length ≤ 65535 → 255 < f.body.length ∨ f.flags &&& 0x10 ≠ 0 →
      exec f.toInstr (atEmission cx e s) = .next (atEmission cx
        (appendOut ([f.flags ||| 0x10, f.type] ++ twoOctets f.body.length ++ f.body) e) s)) ∧
    (65535 < f.body.length →
      exec f.toInstr (atEmission cx e s) = .next (raiseError 2 (err .attrTooLong f.type.toNat) s))

/-! ### AS paths -/

/-- R212, R236 (and R27): the width of an AS number is 4 where CXT_CAPS.FOUR_OCTET_AS is 1 and 2 otherwise, AS4_PATH is always 4
wide, and the spec's own example reads the same octets at both widths; a family is legal exactly when it is one of the two
supported pairs and its bit of CXT_CAPS is 1. -/
def Obligations.ContextSelectsForms : Prop :=
  (∀ caps : Word, asnWidth (cxtOfCaps caps) = (if caps.getLsbD 0 then 4 else 2)) ∧
    (∀ cx : Cxt, pathWidth cx .asPath = asnWidth cx ∧ pathWidth cx .as4Path = 4) ∧
    (∀ cx : Cxt, cx.as4 = false → decodeSegments cx .asPath [2, 1, 0, 7, 2, 1, 2, 0]
      = .ok [⟨.sequence, [7]⟩, ⟨.sequence, [512]⟩]) ∧
    (∀ cx : Cxt, cx.as4 = true → decodeSegments cx .asPath [2, 1, 0, 7, 2, 1, 2, 0]
      = .ok [⟨.sequence, [459265]⟩, ⟨.sequence, []⟩]) ∧
    ∀ (caps : Word) (afi : Half) (safi : Byte),
      legalFamily (cxtOfCaps caps) afi safi = true ↔
        (afi = 1 ∧ safi = 1 ∧ caps.getLsbD 1 = true) ∨ (afi = 2 ∧ safi = 1 ∧ caps.getLsbD 2 = true)

/-- R213, R214, R216: AS_PATH and AS4_PATH whose bodies are whole segments give the path of those segments, empty segments and
an empty path included, nothing merged. -/
def Obligations.PathsDecode : Prop :=
  ∀ (s : State) (cx : Cxt) (w : UpdWork) (flags : Byte) (segs : List AsPathSegment),
    (recordOpens 2 0x40 flags w → (∀ g ∈ segs, segmentFits (asnWidth cx) g) →
      exec (.attrAsPath flags (segs.map (segmentOctets (asnWidth cx))).flatten) (atRecords cx w s)
        = .next (atRecords cx (storeBase 2 (fun b => { b with asPath := some { segments := segs } }) w) s)) ∧
    (recordOpens 17 0xC0 flags w → (∀ g ∈ segs, segmentFits 4 g) →
      exec (.attrAs4Path flags (segs.map (segmentOctets 4)).flatten) (atRecords cx w s)
        = .next (atRecords cx (storeBase 17 (fun b => { b with as4Path := some { segments := segs } }) w) s))

/-- R214: after whole segments, a lone octet and a segment that its body cuts short are TRUNCATED; a type other than 1 and 2 is
BAD_SEGMENT_TYPE, whatever its count. -/
def Obligations.MalformedPaths : Prop :=
  ∀ (s : State) (cx : Cxt) (w : UpdWork) (flags st c : Byte) (segs : List AsPathSegment) (tail : Bytes) (k : PathKind)
    (i : Bytes → Instr) (code : Byte),
    k = .asPath ∧ i = Instr.attrAsPath flags ∧ code = 2 ∧ recordOpens 2 0x40 flags w ∨
      k = .as4Path ∧ i = Instr.attrAs4Path flags ∧ code = 17 ∧ recordOpens 17 0xC0 flags w →
    (∀ g ∈ segs, segmentFits (pathWidth cx k) g) →
    let whole := (segs.map (segmentOctets (pathWidth cx k))).flatten
    exec (i (whole ++ [st])) (atRecords cx w s) = .next (raiseError 1 (err .truncated code.toNat) s) ∧
    (st ≠ 1 → st ≠ 2 → exec (i (whole ++ st :: c :: tail)) (atRecords cx w s)
      = .next (raiseError 1 (err .badSegmentType code.toNat) s)) ∧
    (st = 1 ∨ st = 2 → tail.length < c.toNat * pathWidth cx k →
      exec (i (whole ++ st :: c :: tail)) (atRecords cx w s) = .next (raiseError 1 (err .truncated code.toNat) s))

/-- R215, R216 (and R211): the path attributes on encode: their segments in order, in a record; the first segment that the wire
cannot hold ends the command: more than 255 members, or an AS number above 0xFFFF at width 2. -/
def Obligations.PathsEncode : Prop :=
  ∀ (s : State) (cx : Cxt) (e : EncWork) (rest : List Slot) (segs more : List AsPathSegment) (bad : AsPathSegment)
    (k : PathKind) (path : AsPath),
    k = .asPath ∧ e.todo = .known .asPath :: rest ∧ e.attrs.base.asPath = some path ∨
      k = .as4Path ∧ e.todo = .known .as4Path :: rest ∧ e.attrs.base.as4Path = some path →
    (∀ g ∈ segs, segmentFits (pathWidth cx k) g) →
    let body := (segs.map (segmentOctets (pathWidth cx k))).flatten
    let flags : Byte := match k with | .asPath => 0x40 | .as4Path => 0xC0
    (path.segments = segs → body.length ≤ 65535 →
      step (atEmission cx e s)
        = .next (atEmission cx (appendOut (wireRecord flags (pathCode k) body) { e with todo := rest }) s)) ∧
    (path.segments = segs → 65535 < body.length →
      step (atEmission cx e s) = .next (raiseError 2 (err .attrTooLong (pathCode k).toNat) s)) ∧
    (path.segments = segs ++ bad :: more → 255 < bad.members.length →
      step (atEmission cx e s) = .next (raiseError 2 (err .segmentTooLong (pathCode k).toNat) s)) ∧
    (path.segments = segs ++ bad :: more → bad.members.length ≤ 255 → pathWidth cx k = 2 →
      (∃ a ∈ bad.members, 0xFFFF < a.toNat) →
      step (atEmission cx e s) = .next (raiseError 2 (err .asnWidth (pathCode k).toNat) s))

/-- R214, R215: the segment forms: in a DECODE each of the two kinds is appended to the path, and SEG_OTHER ends the command
(its own effect); in an ENCODE the segment's octets are appended to the body. -/
def Obligations.SegmentForms : Prop :=
  ∀ (s : State) (cx : Cxt) (w : UpdWork) (e : EncWork) (k : PathKind) (sec out : Bytes) (cur : Nat)
    (segs todo : List AsPathSegment) (members : List Asn) (st c : Byte),
    exec (.segAsSet members) (atSegments cx w k sec cur segs s)
      = .next (atSegments cx w k sec cur (segs ++ [⟨.set, members⟩]) s) ∧
    exec (.segAsSequence members) (atSegments cx w k sec cur segs s)
      = .next (atSegments cx w k sec cur (segs ++ [⟨.sequence, members⟩]) s) ∧
    exec (.segOther st c) (atSegments cx w k sec cur segs s)
      = .next (raiseError 1 (err .badSegmentType (pathCode k).toNat) s) ∧
    (segmentFits (pathWidth cx k) ⟨.set, members⟩ →
      exec (.segAsSet members) (atPathEmission cx e k todo out s)
        = .next (atPathEmission cx e k todo (out ++ segmentOctets (pathWidth cx k) ⟨.set, members⟩) s) ∧
      exec (.segAsSequence members) (atPathEmission cx e k todo out s)
        = .next (atPathEmission cx e k todo (out ++ segmentOctets (pathWidth cx k) ⟨.sequence, members⟩) s))

/-! ### Prefixes and multiprotocol NLRI -/

/-- R230, R231: decode of one prefix at the two address widths: the width check, the section boundary, the trailing bits, then
the address, zero past the octets the prefix has. A list is its prefixes in wire order up to the end of the section, and the
first prefix that fails gives its error, however many whole ones stand before it. -/
def Obligations.PrefixDecodes : Prop :=
  ∀ w : Nat, w = 32 ∨ w = 128 →
    (∀ (l : Byte) (rest : Bytes),
      let n := (l.toNat + 7) / 8
      (w < l.toNat → decodePrefix w (l :: rest) = .error (err .bitlenTooLong l.toNat)) ∧
      (l.toNat ≤ w → rest.length < n → decodePrefix w (l :: rest) = .error (err .overrun l.toNat)) ∧
      (l.toNat ≤ w → n ≤ rest.length → l.toNat % 8 ≠ 0 → rest.getD (n - 1) 0 &&& ((0xFF : Byte) >>> (l.toNat % 8)) ≠ 0 →
        decodePrefix w (l :: rest) = .error (err .trailingBits l.toNat)) ∧
      (l.toNat ≤ w → n ≤ rest.length →
        (l.toNat % 8 ≠ 0 → rest.getD (n - 1) 0 &&& ((0xFF : Byte) >>> (l.toNat % 8)) = 0) →
        ∃ p : Prefix w, decodePrefix w (l :: rest) = .ok (p, rest.drop n) ∧ p.len = l.toNat ∧ canonicalPrefix p ∧
          ∀ k < w / 8, p.addr.extractLsb' (w - 8 * (k + 1)) 8 = if k < n then rest.getD k 0 else 0)) ∧
    decodePrefixList w [] = .ok [] ∧
    ∀ (bs tail : Bytes) (p : Prefix w) (ps : List (Prefix w)) (e : CodecError),
      (decodePrefix w bs = .ok (p, tail) → decodePrefixList w tail = .ok ps → decodePrefixList w bs = .ok (p :: ps)) ∧
      (decodePrefix w bs = .ok (p, tail) → decodePrefixList w tail = .error e → decodePrefixList w bs = .error e) ∧
      (bs ≠ [] → decodePrefix w bs = .error e → decodePrefixList w bs = .error e) ∧
      (decodePrefixList w bs = .ok ps → tail ≠ [] → decodePrefix w tail = .error e →
        decodePrefixList w (bs ++ tail) = .error e)

/-- R232, R233 (and R230, R231): encode of one prefix: a length above the width is refused; else the length and the leading
octets of the address with every bit past the length cleared. A list of prefixes of legal length encodes, to octets that decode to
its canonical prefixes in order, duplicates kept; in any other list the first prefix that fails raises, whatever follows it. -/
def Obligations.PrefixEncodes : Prop :=
  ∀ (w : Nat) (p : Prefix w) (ps more : List (Prefix w)), w = 32 ∨ w = 128 →
    (w < p.len → encodePrefix p = .error (err .prefixLen (min p.len 65535))) ∧
    (p.len ≤ w → encodePrefix p = .ok (BitVec.ofNat 8 p.len :: (List.range ((p.len + 7) / 8)).map (fun k =>
      (BitVec.ofNat w (p.addr.toNat / 2 ^ (w - p.len) * 2 ^ (w - p.len))).extractLsb' (w - 8 * (k + 1)) 8))) ∧
    ((∀ q ∈ ps, q.len ≤ w) → ∃ bs, encodePrefixList ps = .ok bs ∧
      decodePrefixList w bs = .ok (ps.map canonPrefix) ∧
      (w < p.len → encodePrefixList (ps ++ p :: more) = .error (err .prefixLen (min p.len 65535))))

/-- R237, R238: MP_REACH_NLRI of a legal family: the next hop by its length, the reserved octet ignored, the prefixes after it.
An IPv6 next hop of 32 octets is the global address, then the link-local one. -/
def Obligations.MpReachDecodes : Prop :=
  ∀ (s : State) (cx : Cxt) (w : UpdWork) (flags x0 x1 x2 x3 r : Byte) (nh ll nl : Bytes) (ps4 : List Prefix4)
    (ps6 : List Prefix6), recordOpens 14 0x80 flags w →
    (cx.mpIpv4 = true → decodePrefixList 32 nl = .ok ps4 →
      exec (.attrMpReachNlri flags ([0, 1, 1, 4, x0, x1, x2, x3, r] ++ nl)) (atRecords cx w s)
        = .next (atRecords cx (storeSide 14 (fun st =>
            { st with mpReach := some (.ipv4Unicast ps4 (x0 ++ x1 ++ x2 ++ x3)) }) w) s)) ∧
    (cx.mpIpv6 = true → nh.length = 16 → decodePrefixList 128 nl = .ok ps6 →
      exec (.attrMpReachNlri flags ([0, 2, 1, 16] ++ nh ++ [r] ++ nl)) (atRecords cx w s)
        = .next (atRecords cx (storeSide 14 (fun st =>
            { st with mpReach := some (.ipv6Unicast ps6 (be 128 nh) none) }) w) s)) ∧
    (cx.mpIpv6 = true → nh.length = 16 → ll.length = 16 → decodePrefixList 128 nl = .ok ps6 →
      exec (.attrMpReachNlri flags ([0, 2, 1, 32] ++ nh ++ ll ++ [r] ++ nl)) (atRecords cx w s)
        = .next (atRecords cx (storeSide 14 (fun st =>
            { st with mpReach := some (.ipv6Unicast ps6 (be 128 nh) (some (be 128 ll))) }) w) s))

/-- R237, R238: the errors of MP_REACH_NLRI in their order: no family, no next-hop length, an illegal one, no room for the next
hop and the reserved octet, then the prefixes. -/
def Obligations.MpReachErrors : Prop :=
  ∀ (s : State) (cx : Cxt) (w : UpdWork) (flags afi nhl : Byte) (v rest : Bytes) (e : CodecError),
    recordOpens 14 0x80 flags w →
    let raises := fun (v : Bytes) (e : CodecError) =>
      exec (.attrMpReachNlri flags v) (atRecords cx w s) = .next (raiseError 1 e s)
    let fits := afi = 1 ∧ nhl = 4 ∨ afi = 2 ∧ (nhl = 16 ∨ nhl = 32)
    (v.length < 3 → raises v (err .bodyLength 14)) ∧
    (afi = 1 ∧ cx.mpIpv4 = true ∨ afi = 2 ∧ cx.mpIpv6 = true →
      raises [0, afi, 1] (err .bodyLength 14) ∧
      (¬ fits → raises ([0, afi, 1, nhl] ++ rest) (err .nexthopLength 14)) ∧
      (fits → rest.length < nhl.toNat + 1 → raises ([0, afi, 1, nhl] ++ rest) (err .bodyLength 14)) ∧
      (fits → nhl.toNat + 1 ≤ rest.length → afi = 1 → decodePrefixList 32 (rest.drop (nhl.toNat + 1)) = .error e →
        raises ([0, afi, 1, nhl] ++ rest) e) ∧
      (fits → nhl.toNat + 1 ≤ rest.length → afi = 2 → decodePrefixList 128 (rest.drop (nhl.toNat + 1)) = .error e →
        raises ([0, afi, 1, nhl] ++ rest) e))

/-- R239: MP_UNREACH_NLRI of a legal family, its prefixes possibly none, and its errors. -/
def Obligations.MpUnreachAttribute : Prop :=
  ∀ (s : State) (cx : Cxt) (w : UpdWork) (flags : Byte) (v nl : Bytes) (ps4 : List Prefix4) (ps6 : List Prefix6)
    (e : CodecError), recordOpens 15 0x80 flags w →
    (v.length < 3 → exec (.attrMpUnreachNlri flags v) (atRecords cx w s)
      = .next (raiseError 1 (err .bodyLength 15) s)) ∧
    (cx.mpIpv4 = true → decodePrefixList 32 nl = .ok ps4 →
      exec (.attrMpUnreachNlri flags ([0, 1, 1] ++ nl)) (atRecords cx w s)
        = .next (atRecords cx (storeSide 15 (fun st => { st with mpUnreach := some (.ipv4Unicast ps4) }) w) s)) ∧
    (cx.mpIpv6 = true → decodePrefixList 128 nl = .ok ps6 →
      exec (.attrMpUnreachNlri flags ([0, 2, 1] ++ nl)) (atRecords cx w s)
        = .next (atRecords cx (storeSide 15 (fun st => { st with mpUnreach := some (.ipv6Unicast ps6) }) w) s)) ∧
    (cx.mpIpv4 = true → decodePrefixList 32 nl = .error e →
      exec (.attrMpUnreachNlri flags ([0, 1, 1] ++ nl)) (atRecords cx w s) = .next (raiseError 1 e s)) ∧
    (cx.mpIpv6 = true → decodePrefixList 128 nl = .error e →
      exec (.attrMpUnreachNlri flags ([0, 2, 1] ++ nl)) (atRecords cx w s) = .next (raiseError 1 e s))

/-- R242: a multiprotocol record of a family that is not legal is kept whole in `unknown`, whatever follows the family. -/
def Obligations.IllegalFamiliesCaptured : Prop :=
  ∀ (s : State) (cx : Cxt) (w : UpdWork) (flags a1 a2 safi : Byte) (rest : Bytes),
    ¬ (a1 = 0 ∧ a2 = 1 ∧ safi = 1 ∧ cx.mpIpv4 = true) → ¬ (a1 = 0 ∧ a2 = 2 ∧ safi = 1 ∧ cx.mpIpv6 = true) →
    (recordOpens 14 0x80 flags w →
      exec (.attrMpReachNlri flags (a1 :: a2 :: safi :: rest)) (atRecords cx w s)
        = .next (atRecords cx (storeAttrs 14
            (appendUnknown { flags := flags, type := 14, value := a1 :: a2 :: safi :: rest }) w) s)) ∧
    (recordOpens 15 0x80 flags w →
      exec (.attrMpUnreachNlri flags (a1 :: a2 :: safi :: rest)) (atRecords cx w s)
        = .next (atRecords cx (storeAttrs 15
            (appendUnknown { flags := flags, type := 15, value := a1 :: a2 :: safi :: rest }) w) s))

/-- R237, R239, R242: the family forms inside a DECODE complete their multiprotocol attribute: a legal family stores its group,
an IPv6 next hop with its link-local address included, and FAMILY_OTHER keeps the record. -/
def Obligations.FamilyFormsDecode : Prop :=
  ∀ (s : State) (cx : Cxt) (w : UpdWork) (flags safi x0 x1 x2 x3 r : Byte) (afi : Half) (body nh ll nl rest : Bytes)
    (ps4 : List Prefix4) (ps6 : List Prefix6),
    let stored := fun (f : Side → Side) =>
      atRecords cx { w with recs := { w.recs with side := f w.recs.side } } s
    (cx.mpIpv4 = true → decodePrefixList 32 nl = .ok ps4 →
      exec (.familyIpv4Unicast ([4, x0, x1, x2, x3, r] ++ nl)) (atFamily cx w .reach flags body s)
        = .next (stored (fun st => { st with mpReach := some (.ipv4Unicast ps4 (x0 ++ x1 ++ x2 ++ x3)) })) ∧
      exec (.familyIpv4Unicast nl) (atFamily cx w .unreach flags body s)
        = .next (stored (fun st => { st with mpUnreach := some (.ipv4Unicast ps4) }))) ∧
    (cx.mpIpv6 = true → nh.length = 16 → decodePrefixList 128 nl = .ok ps6 →
      exec (.familyIpv6Unicast ([16] ++ nh ++ [r] ++ nl)) (atFamily cx w .reach flags body s)
        = .next (stored (fun st => { st with mpReach := some (.ipv6Unicast ps6 (be 128 nh) none) })) ∧
      (ll.length = 16 → exec (.familyIpv6Unicast ([32] ++ nh ++ ll ++ [r] ++ nl)) (atFamily cx w .reach flags body s)
        = .next (stored (fun st => { st with mpReach := some (.ipv6Unicast ps6 (be 128 nh) (some (be 128 ll))) }))) ∧
      exec (.familyIpv6Unicast nl) (atFamily cx w .unreach flags body s)
        = .next (stored (fun st => { st with mpUnreach := some (.ipv6Unicast ps6) }))) ∧
    ∀ k,
      let captured : UnknownAttr :=
        { flags := flags, type := mpCode k, value := [afi.extractLsb' 8 8, afi.extractLsb' 0 8, safi] ++ rest }
      exec (.familyOther afi safi rest) (atFamily cx w k flags body s)
        = .next (atRecords cx { w with recs := { w.recs with attrs := appendUnknown captured w.recs.attrs } } s)

/-- R240, R241 (and R242): the multiprotocol records on encode: a legal family's group is emitted with a zero reserved octet, or
raises the error of its first prefix that fails, or ATTR_TOO_LONG; a group of any other family ends the command, before its
prefixes are looked at. -/
def Obligations.MpGroupsEncode : Prop :=
  ∀ (s : State) (cx : Cxt) (e : EncWork) (rest : List Slot) (ps4 : List Prefix4) (ps6 : List Prefix6) (nl : Bytes)
    (nh4 : Ipv4) (nh6 : Ipv6) (ll : Option Ipv6) (x : CodecError),
    let octets := fun (a : Ipv6) => (List.range 16).map (fun k => a.extractLsb' (8 * (15 - k)) 8)
    let nh4Octets := (List.range 4).map (fun k => nh4.extractLsb' (8 * (3 - k)) 8)
    let nh6Octets := octets nh6 ++ (match ll with | some a => octets a | none => [])
    let raises := fun (x : CodecError) => step (atEmission cx e s) = .next (raiseError 2 x s)
    let emits := fun (t : Byte) (v : Bytes) =>
      (v.length ≤ 65535 → step (atEmission cx e s)
        = .next (atEmission cx (appendOut (wireRecord 0x80 t v) { e with todo := rest }) s)) ∧
      (65535 < v.length → raises (err .attrTooLong t.toNat))
    (e.todo = .known .mpReachNlri :: rest → e.upd.mpReach = some (.ipv4Unicast ps4 nh4) →
      (cx.mpIpv4 = true → encodePrefixList ps4 = .ok nl → emits 14 ([0, 1, 1, 4] ++ nh4Octets ++ [0] ++ nl)) ∧
      (cx.mpIpv4 = true → encodePrefixList ps4 = .error x → raises x) ∧
      (cx.mpIpv4 = false → raises (err .family 14))) ∧
    (e.todo = .known .mpReachNlri :: rest → e.upd.mpReach = some (.ipv6Unicast ps6 nh6 ll) →
      (cx.mpIpv6 = true → encodePrefixList ps6 = .ok nl →
        emits 14 ([0, 2, 1, BitVec.ofNat 8 nh6Octets.length] ++ nh6Octets ++ [0] ++ nl)) ∧
      (cx.mpIpv6 = true → encodePrefixList ps6 = .error x → raises x) ∧
      (cx.mpIpv6 = false → raises (err .family 14))) ∧
    (e.todo = .known .mpUnreachNlri :: rest → e.upd.mpUnreach = some (.ipv4Unicast ps4) →
      (cx.mpIpv4 = true → encodePrefixList ps4 = .ok nl → emits 15 ([0, 1, 1] ++ nl)) ∧
      (cx.mpIpv4 = true → encodePrefixList ps4 = .error x → raises x) ∧
      (cx.mpIpv4 = false → raises (err .family 15))) ∧
    (e.todo = .known .mpUnreachNlri :: rest → e.upd.mpUnreach = some (.ipv6Unicast ps6) →
      (cx.mpIpv6 = true → encodePrefixList ps6 = .ok nl → emits 15 ([0, 2, 1] ++ nl)) ∧
      (cx.mpIpv6 = true → encodePrefixList ps6 = .error x → raises x) ∧
      (cx.mpIpv6 = false → raises (err .family 15)))

/-! ### Encode of a message -/

/-- R117, R118, R119 (and R115, R116): encode of the kinds with no structured body: a KEEPALIVE is its 19 octets; a
pass-through body whose length is illegal for its kind is refused, then a message too long for the block; else the header
and the body. -/
def Obligations.PassThroughEncodes : Prop :=
  ∀ (s : State) (cx : Cxt) (t : Byte) (m : Message) (body : Bytes), s.par.legal = true → encodeInputs s cx m →
    t = 1 ∧ m = .openMsg body ∨ t = 3 ∧ m = .notification body ∨ t = 5 ∧ m = .routeRefresh body ∨
      t = 4 ∧ m = .keepalive ∧ body = [] →
    (¬ legalTotal t (19 + body.length) →
      exec .encode s = .next (raiseError 2 (err .passthroughLength t.toNat) s)) ∧
    (legalTotal t (19 + body.length) → s.par.maxMsgLen < 19 + body.length →
      exec .encode s = .next (raiseError 2 (err .messageTooLong (min (19 + body.length) 65535)) s)) ∧
    (legalTotal t (19 + body.length) → 19 + body.length ≤ s.par.maxMsgLen →
      exec .encode s = .next (deliverOctets (wireHeader t (19 + body.length) ++ body) s))

/-- R116, R119: every octet string an ENCODE returns is one message of at most MAX_MSG_LEN octets: an all-ones marker, its own
length, and the type of its value. -/
def Obligations.EncodedMessagesAreFramed : Prop :=
  ∀ (s t : State) (m : Message), s.par.legal = true → s.msgIn = some m → exec .encode s = .next t → t.status = 0x9 →
    ∃ bs, t.obuf.readRange 0 t.obufLen.toNat = some bs ∧ bs.length = t.obufLen.toNat ∧ 19 ≤ bs.length ∧
      bs.length ≤ s.par.maxMsgLen ∧
      bs.take 19 = wireHeader (messageCode m) bs.length

/-- R138 checks 1 to 4: the checks on a value, each reached where the ones before it pass; an UPDATE whose attributes are
present only where a record would show them. -/
def Obligations.UpdateValueChecks : Prop :=
  ∀ (s : State) (cx : Cxt) (u : UpdateMsg), encodeInputs s cx (.update u) →
    let empty := (∃ r, u.reach = some r ∧ r.prefixes = []) ∨ ∃ r, u.unreach = some r ∧ r.prefixes = []
    let grouped := u.reach ≠ none ∨ u.mpReach ≠ none ∨ u.mpUnreach ≠ none
    let shown := ∃ a, u.attrs = some a ∧ (a.base.atomicAggregate = true ∨ a.unknown ≠ [] ∨ a.base.origin ≠ none ∨
      a.base.asPath ≠ none ∨ a.base.as4Path ≠ none ∨ a.base.nexthop ≠ none ∨ a.base.med ≠ none ∨
      a.base.localPref ≠ none ∨ a.base.aggregator ≠ none ∨ a.base.as4Aggregator ≠ none ∨
      a.base.originatorId ≠ none ∨ a.base.clusterList ≠ none ∨ a.comm ≠ none ∨ a.extComm ≠ none ∨
      a.extv6Comm ≠ none ∨ a.largeComm ≠ none)
    let presence := (u.attrs = none ∧ grouped) ∨ (u.attrs ≠ none ∧ ¬ grouped ∧ ¬ shown)
    let linkLocal := ∃ a, u.attrs = some a ∧ a.base.llNexthop ≠ none
    let conflict := u.reach ≠ none ∧ ∃ a, u.attrs = some a ∧ a.base.nexthop ≠ none
    (empty → exec .encode s = .next (raiseError 2 (err .emptyLegacyGroup 0) s)) ∧
    (¬ empty → presence → exec .encode s = .next (raiseError 2 (err .attrsPresence 0) s)) ∧
    (¬ empty → ¬ presence → linkLocal → exec .encode s = .next (raiseError 2 (err .llNexthopSet 0) s)) ∧
    (¬ empty → ¬ presence → ¬ linkLocal → conflict →
      exec .encode s = .next (raiseError 2 (err .nexthopConflict 0) s))

/-- R138 check 5, R139, R140: an UPDATE whose value passes checks 1 to 4: the first colliding entry of `unknown`, then a
missing ORIGIN or AS_PATH where the UPDATE advertises, then the first entry of `unknown` with O = 0. -/
def Obligations.UnknownAndMandatoryChecks : Prop :=
  ∀ (s : State) (cx : Cxt) (u : UpdateMsg) (a : Attrs), encodeInputs s cx (.update u) → u.attrs = some a →
    emptyLegacyGroup u = false → hasRecords u = true → a.base.llNexthop = none →
    (u.reach = none ∨ a.base.nexthop = none) →
    (∀ before e after, a.unknown = before ++ e :: after →
      (∀ b1 d b2, before = b1 ++ d :: b2 → ¬ collides cx u b1 d) → collides cx u before e →
      exec .encode s = .next (raiseError 2 (err .unknownCollision e.type.toNat) s)) ∧
    ((∀ b1 d b2, a.unknown = b1 ++ d :: b2 → ¬ collides cx u b1 d) →
      (u.reach ≠ none ∨ u.mpReach ≠ none → a.base.origin = none →
        exec .encode s = .next (raiseError 2 (err .absent 1) s)) ∧
      (u.reach ≠ none ∨ u.mpReach ≠ none → a.base.origin ≠ none → a.base.asPath = none →
        exec .encode s = .next (raiseError 2 (err .absent 2) s)) ∧
      ((u.reach ≠ none ∨ u.mpReach ≠ none → a.base.origin ≠ none ∧ a.base.asPath ≠ none) →
        ∀ before e after, a.unknown = before ++ e :: after → (∀ d ∈ before, d.flags &&& 0x80 ≠ 0) →
        e.flags &&& 0x80 = 0 →
        exec .encode s = .next (raiseError 2 (err .unknownNotOptional e.type.toNat) s)))

/-- R141, R142, and R287 items 4 to 7: an UPDATE whose value passes the checks: the first of its three sections that fails, in the
order withdrawn prefixes, attribute records, NLRI prefixes, gives the error of the command; where all three encode, the UPDATE is
framed from them, or refused where its total length is above MAX_MSG_LEN. The records stand in ascending type code. -/
def Obligations.UpdateEncodes : Prop :=
  (recognizedTypes.map (fun t => (attrCode t).toNat) = [1, 2, 3, 4, 5, 6, 7, 8, 9, 10, 14, 15, 16, 17, 18, 25, 32]) ∧
  ∀ (s : State) (cx : Cxt) (u : UpdateMsg) (wd recs nl : Bytes) (e : CodecError), s.par.legal = true →
    encodeInputs s cx (.update u) → checkUpdate cx u = .ok () →
    let withdrawn : Except CodecError Bytes :=
      match u.unreach with | some r => encodePrefixList r.prefixes | none => .ok []
    let records : Except CodecError Bytes :=
      match u.attrs with
      | some a => emitAll (emitSlot cx u a) (recognizedTypes.map .known ++ a.unknown.map .unknown)
      | none => .ok []
    let reachable : Except CodecError Bytes :=
      match u.reach with | some r => encodePrefixList r.prefixes | none => .ok []
    let raises := fun (e : CodecError) => exec .encode s = .next (raiseError 2 e s)
    (withdrawn = .error e → raises e) ∧
    (withdrawn = .ok wd → records = .error e → raises e) ∧
    (withdrawn = .ok wd → records = .ok recs → reachable = .error e → raises e) ∧
    (withdrawn = .ok wd → records = .ok recs → reachable = .ok nl →
      (23 + wd.length + recs.length + nl.length ≤ s.par.maxMsgLen →
        exec .encode s = .next (deliverOctets (wireHeader 2 (23 + wd.length + recs.length + nl.length) ++
          wireUpdate wd recs nl) s)) ∧
      (s.par.maxMsgLen < 23 + wd.length + recs.length + nl.length →
        raises (err .messageTooLong (min (23 + wd.length + recs.length + nl.length) 65535))))

/-! ### Laws of the two commands -/

/-- R144: what ENCODE returns decodes, in the same context, to the canonical form of the value. -/
def Obligations.RoundTrip : Prop :=
  ∀ (par : Params) (cx : Cxt) (m : Message) (bs : Bytes), par.legal = true → encodeMessage par cx m = .ok bs →
    decodeMessage par cx bs = .ok (canonMessage m)

/-- R145: what DECODE returns encodes, in the same context, to a message that decodes to the same value. -/
def Obligations.ReEncode : Prop :=
  ∀ (par : Params) (cx : Cxt) (b : Bytes) (m : Message), par.legal = true → decodeMessage par cx b = .ok m →
    ∃ bs, encodeMessage par cx m = .ok bs ∧ decodeMessage par cx bs = .ok m

/-! ### The engine step by step -/

/-- The word the host wrote to CMD, or the form at the cursor, is decoded and run: a step is the meaning of the instruction the
decoder reads (the model's own way of stepping, log entry 5). -/
def Obligations.StepRunsDecoded : Prop :=
  ∀ (s : State) (c : FormCtx) (i : Instr) (rest : Bytes),
    (∀ v todo, s.engine = .idle → s.host.todo = .writeReg 0 v :: todo → Sys2Proof.decode c (.word v) = .ok (i, rest) →
      step s = exec i (popHost todo s)) ∧
    (∀ b, c.par = s.par → Sys2Proof.decode c (.message b) = .ok (i, rest) →
      step (atMessage c.cx b s) = exec i (atMessage c.cx b s)) ∧
    (∀ w : UpdWork, w.cur < w.sec.length → Sys2Proof.decode c (.record (w.sec.drop w.cur)) = .ok (i, rest) →
      step (atRecords c.cx w s) = exec i (atRecords c.cx { w with cur := w.sec.length - rest.length } s)) ∧
    (∀ (w : UpdWork) sec cur segs, cur < sec.length → Sys2Proof.decode c (.segment (sec.drop cur)) = .ok (i, rest) →
      step (atSegments c.cx w c.path sec cur segs s)
        = exec i (atSegments c.cx w c.path sec (sec.length - rest.length) segs s)) ∧
    (∀ (w : UpdWork) flags body, Sys2Proof.decode c (.family body) = .ok (i, rest) →
      step (atFamily c.cx w c.mp flags body s) = exec i (atFamily c.cx w c.mp flags body s))

/-- The engine's run record by record, and segment by segment, inside a DECODE ends where the rules end it (R160, R214): with
the value of the rest of the UPDATE or its first error, and with the path or its first error. That a DECODE can be run so is the
model's own (log entry 5). -/
def Obligations.DecodeStepsAgree : Prop :=
  ∀ (s : State) (cx : Cxt) (w : UpdWork), w.cur ≤ w.sec.length →
    (∃ j, Sys2Proof.core.run j (atRecords cx w s) = .next (endDecode (do
      let r ← decodeRecordsFrom cx w.recs (w.sec.drop w.cur)
      let u ← finishDecodeUpdate w.unreach (some r.attrs) r.side w.nlri
      .ok (.update u)) s)) ∧
    ∀ (k : PathKind) (sec : Bytes) (cur : Nat) (segs : List AsPathSegment), cur ≤ sec.length →
      ∃ j, Sys2Proof.core.run j (atSegments cx w k sec cur segs s) = .next (
        match decodeSegments cx k (sec.drop cur) with
        | .ok more => atRecords cx { w with recs := setPath k { segments := segs ++ more } w.recs } s
        | .error e => raiseError 1 e s)

/-- The engine's run record by record inside an ENCODE ends where the rules end it (R141, R142), for a value whose unknown
entries are optional (R140). That an ENCODE can be run so is the model's own (log entry 5). -/
def Obligations.EncodeStepsAgree : Prop :=
  ∀ (s : State) (cx : Cxt) (w : EncWork), (∀ e, Slot.unknown e ∈ w.todo → e.flags &&& 0x80 ≠ 0) →
    ∃ k, Sys2Proof.core.run k (atEmission cx w s) = .next (endEncode (do
      let more ← emitAll (emitSlot cx w.upd w.attrs) w.todo
      let body ← finishEncodeUpdate s.par w.upd w.wd (w.out ++ more)
      frameBody s.par .update body) s)

/-! ### Encodings -/

/-- Words written out from the spec's encodings: the commands (R70), the example messages of R110 and R113, the records of
R161, R165 and R166, the segment of R214, the families of R83. -/
def Obligations.DecodingWords : Prop :=
  let c : FormCtx := { par := {}, cx := { as4 := true, mpIpv4 := true, mpIpv6 := true }, path := .asPath, mp := .unreach }
  Sys2Proof.decode c (.word 1) = .ok (.decode, []) ∧
    Sys2Proof.decode c (.word 0x10) = .ok (.cmdReserved 0x10, []) ∧
    Sys2Proof.decode c (.message (List.replicate 16 0xFF ++ [0x00, 0x13, 0x04]))
      = .ok (.msgKeepalive (List.replicate 16 0xFF) [], []) ∧
    Sys2Proof.decode c (.message (List.replicate 16 0xFF ++ [0x00, 0x15, 0x03, 0x06, 0x02]))
      = .ok (.msgNotification (List.replicate 16 0xFF) [0x06, 0x02], []) ∧
    Sys2Proof.decode c (.record [0x50, 0x01, 0x00, 0x01, 0x00, 0xAA]) = .ok (.attrOrigin 0x50 [0x00], [0xAA]) ∧
    Sys2Proof.decode c (.record [0xC0, 0x63, 0x02, 0xAB, 0xCD])
      = .ok (.attrUnrecognizedOptional 0xC0 0x63 [0xAB, 0xCD], []) ∧
    Sys2Proof.decode c (.segment [0x02, 0x01, 0x00, 0x01, 0x00, 0x00]) = .ok (.segAsSequence [65536], []) ∧
    Sys2Proof.decode c (.segment [0x03, 0x01, 0x00]) = .ok (.segOther 3 1, [0x00]) ∧
    Sys2Proof.decode c (.family [0x00, 0x02, 0x01, 0x00]) = .ok (.familyIpv6Unicast [0x00], []) ∧
    Sys2Proof.decode c (.family [0x00, 0x02, 0x02]) = .ok (.familyOther 2 2 [], [])

/-- Decode reads back every well-formed instruction from the words encode writes, with every operand at every value its
encoding admits (R70 to R83). -/
def Obligations.DecodeEncodeAgree : Prop :=
  ∀ (c : FormCtx) (i : Instr), i.wf c = true → Sys2Proof.decode c (encode c i) = .ok (i, [])

/-- What the decoder reads is well formed, and its words are those encode writes for it, up to a message's place in its buffer:
every octet of a record, a segment or a family is accounted for (R74, R79, R81). -/
def Obligations.DecodedIsWellFormed : Prop :=
  ∀ (c : FormCtx) (code : Code) (i : Instr) (rest : Bytes), c.par.legal = true →
    Sys2Proof.decode c code = .ok (i, rest) →
    i.wf c = true ∧
      match code, encode c i with
      | .word w, .word w' => w' = w
      | .message bs, .message bs' => bs' = bs ∧ rest = []
      | .record bs, .record bs' => bs' ++ rest = bs
      | .segment bs, .segment bs' => bs' ++ rest = bs
      | .family bs, .family bs' => bs' = bs ∧ rest = []
      | _, _ => False

/-! ### The places of an ENCODE -/

/-- R115 to R119, R215, R240, R241: the encode halves of the message and family forms, and the steps at the message, family and
path places of an ENCODE. A message form is framed, or refused for its length; a family form of a legal family emits the record of
its attribute, of any other ends the command; the step at a message is the whole encode of it; the family place, and the run of the
path place segment by segment, come to what the step of their attribute's record comes to. That these places exist, and that
MSG_UNASSIGNED, which no message value encodes to, is refused there, is the model's own (log entries 5 and 14). -/
def Obligations.EncodePlaces : Prop :=
  ∀ (s : State) (cx : Cxt) (m : Message) (e : EncWork) (todo : List Slot) (marker body : Bytes) (t : Byte),
    s.par.legal = true →
    let runs := fun (i : Instr) => exec i (atEncode cx m s)
    let framed : Byte → Host.Outcome State Fault Refusal := fun code =>
      if 19 + body.length ≤ s.par.maxMsgLen then .next (deliverOctets (wireHeader code (19 + body.length) ++ body) s)
      else .next (raiseError 2 (err .messageTooLong (min (19 + body.length) 65535)) s)
    (∀ (code : Byte) (i : Instr), (code, i) ∈ [((1 : Byte), Instr.msgOpen marker body), (3, .msgNotification marker body),
        (5, .msgRouteRefresh marker body)] →
      (legalTotal code (19 + body.length) → runs i = framed code) ∧
      (¬ legalTotal code (19 + body.length) → runs i = .next (raiseError 2 (err .passthroughLength code.toNat) s))) ∧
    runs (.msgUpdate marker body) = framed 2 ∧
    runs (.msgKeepalive marker body) = .next (deliverOctets (wireHeader 4 19) s) ∧
    runs (.msgUnassigned t marker body) = .refused .outOfPlace ∧
    step (atEncode cx m s) = .next (endEncode (encodeMessage s.par cx m) s) ∧
    (∀ (g : MpGroup) (afi : Half) (safi : Byte) (rest : Bytes),
      let code := mpCode (groupKind g)
      let place := atGroupEmission cx e g s
      let emitted : Bytes → Host.Outcome State Fault Refusal := fun v =>
        if v.length ≤ 65535 then .next (atEmission cx (appendOut (wireRecord 0x80 code v) e) s)
        else .next (raiseError 2 (err .attrTooLong code.toNat) s)
      (cx.mpIpv4 = true → exec (.familyIpv4Unicast rest) place = emitted ([0, 1, 1] ++ rest)) ∧
      (cx.mpIpv6 = true → exec (.familyIpv6Unicast rest) place = emitted ([0, 2, 1] ++ rest)) ∧
      exec (.familyOther afi safi rest) place = .next (raiseError 2 (err .family code.toNat) s)) ∧
    (∀ g, e.todo = .known .mpReachNlri :: todo → e.upd.mpReach = some g →
      step (atGroupEmission cx { e with todo := todo } (.reach g) s) = step (atEmission cx e s)) ∧
    (∀ g, e.todo = .known .mpUnreachNlri :: todo → e.upd.mpUnreach = some g →
      step (atGroupEmission cx { e with todo := todo } (.unreach g) s) = step (atEmission cx e s)) ∧
    ∀ (k : PathKind) (path : AsPath),
      k = .asPath ∧ e.todo = .known .asPath :: todo ∧ e.attrs.base.asPath = some path ∨
        k = .as4Path ∧ e.todo = .known .as4Path :: todo ∧ e.attrs.base.as4Path = some path →
      ∃ j, Sys2Proof.core.run j (atPathEmission cx { e with todo := todo } k path.segments [] s) = step (atEmission cx e s)

end
end

