-- ==== Sys2Proof/Laws/Memory.lean ====
section
/-! SUPPORT. The octet buffers: a read after a write, the canonical form kept by every write, the capacity kept, a range
read back after it is written. -/

namespace Sys2Proof.Machine

open Sys2Proof

/-! ### One octet -/

/-- A read at the written index gives the octet written. -/
@[simp] theorem Memory.read_write_same (m : Memory) (a : Nat) (v : Byte) : (m.write a v).read a = some v := by
  induction m with
  | nil => simp [write, read]
  | cons c m ih =>
    obtain ⟨b, u⟩ := c
    simp only [write]
    split
    · simp [read]
    · split
      · simp [read]
      · next h => simp [read, h, ih]

/-- A read at any other index gives what it gave before. -/
theorem Memory.read_write_other (m : Memory) {a b : Nat} (v : Byte) (h : b ≠ a) : (m.write a v).read b = m.read b := by
  induction m with
  | nil => simp [write, read, h]
  | cons c m ih =>
    obtain ⟨c, u⟩ := c
    simp only [write]
    split
    · simp [read, h]
    · split
      · next hc => simp [read, h, show b ≠ c by omega]
      · simp only [read, ih]

/-! ### A run of octets -/

/-- A write of a run leaves every index outside the run alone. -/
theorem Memory.read_writeAll_outside (m : Memory) (a b : Nat) (bs : Bytes) (h : b < a ∨ a + bs.length ≤ b) :
    (m.writeAll a bs).read b = m.read b := by
  induction bs generalizing m a with
  | nil => rfl
  | cons x bs ih =>
    simp only [List.length_cons] at h
    rw [writeAll, ih _ _ (by omega), read_write_other _ _ (by omega)]

/-- A write of a run puts each octet at its place. -/
theorem Memory.read_writeAll_inside (m : Memory) (a i : Nat) (bs : Bytes) (h : i < bs.length) :
    (m.writeAll a bs).read (a + i) = bs[i]? := by
  induction bs generalizing m a i with
  | nil => simp at h
  | cons x bs ih =>
    cases i with
    | zero => rw [writeAll, read_writeAll_outside _ _ _ _ (by omega)]; simp
    | succ i =>
      simp only [List.length_cons] at h
      have := ih (m.write a x) (a + 1) i (by omega)
      rw [writeAll, show a + (i + 1) = a + 1 + i by omega, this]; simp

/-- A range is read where every octet of it is written. -/
theorem Memory.readRange_eq_some {m : Memory} {a n : Nat} {bs : Bytes} :
    m.readRange a n = some bs ↔ bs.length = n ∧ ∀ i, i < n → m.read (a + i) = bs[i]? := by
  induction n generalizing a bs with
  | zero =>
    simp only [readRange, Option.some.injEq]
    constructor
    · rintro rfl; simp
    · rintro ⟨h, -⟩; exact (List.length_eq_zero_iff.mp h).symm
  | succ n ih =>
    simp only [readRange]
    constructor
    · intro h
      split at h
      · next b bs' hb hbs =>
        obtain rfl := Option.some.inj h
        obtain ⟨hl, hr⟩ := ih.mp hbs
        refine ⟨by simp [hl], fun i hi => ?_⟩
        cases i with
        | zero => simpa using hb
        | succ i =>
          have := hr i (by omega)
          rw [show a + (i + 1) = a + 1 + i by omega, this]; simp
      · cases h
    · rintro ⟨hl, hr⟩
      cases bs with
      | nil => simp at hl
      | cons b bs =>
        have h0 : m.read a = some b := by simpa using hr 0 (by omega)
        have h1 : m.readRange (a + 1) n = some bs := by
          refine ih.mpr ⟨by simpa using hl, fun i hi => ?_⟩
          have := hr (i + 1) (by omega)
          rw [show a + 1 + i = a + (i + 1) by omega, this]; simp
        rw [h0, h1]

/-- A range written is read back. -/
theorem Memory.readRange_writeAll (m : Memory) (a : Nat) (bs : Bytes) :
    (m.writeAll a bs).readRange a bs.length = some bs :=
  readRange_eq_some.mpr ⟨rfl, fun i hi => read_writeAll_inside m a i bs hi⟩

/-! ### The canonical form and the capacity -/

/-- A cell put in front keeps the form where every index behind it is larger. -/
theorem Memory.wf_cons {a : Nat} {v : Byte} {m : Memory} :
    Memory.wf ((a, v) :: m) = true ↔ (∀ c ∈ m, a < c.1) ∧ m.wf = true := by
  induction m generalizing a v with
  | nil => simp [wf]
  | cons c m ih =>
    obtain ⟨b, u⟩ := c
    rw [wf, Bool.and_eq_true, decide_eq_true_eq]
    constructor
    · rintro ⟨hab, hm⟩
      refine ⟨fun c hc => ?_, hm⟩
      rcases List.mem_cons.mp hc with rfl | hc
      · exact hab
      · exact lt_trans hab ((ih.mp hm).1 c hc)
    · rintro ⟨hall, hm⟩
      exact ⟨hall (b, u) (by simp), hm⟩

theorem Memory.mem_write {m : Memory} {a : Nat} {v : Byte} {c : Host.Cell} (h : c ∈ m.write a v) : c = (a, v) ∨ c ∈ m := by
  induction m with
  | nil => simpa [write] using h
  | cons d m ih =>
    obtain ⟨b, u⟩ := d
    simp only [write] at h
    split at h
    · simpa using h
    · split at h
      · rcases List.mem_cons.mp h with h | h
        · exact .inl h
        · exact .inr (List.mem_cons_of_mem _ h)
      · rcases List.mem_cons.mp h with h | h
        · exact .inr (h ▸ List.mem_cons_self)
        · rcases ih h with h | h
          · exact .inl h
          · exact .inr (List.mem_cons_of_mem _ h)

/-- A write keeps the canonical form. -/
theorem Memory.wf_write {m : Memory} (a : Nat) (v : Byte) (h : m.wf = true) : (m.write a v).wf = true := by
  induction m with
  | nil => rfl
  | cons c m ih =>
    obtain ⟨b, u⟩ := c
    obtain ⟨hb, hm⟩ := wf_cons.mp h
    simp only [write]
    split
    · next hab =>
      refine wf_cons.mpr ⟨fun c hc => ?_, h⟩
      rcases List.mem_cons.mp hc with rfl | hc
      · exact hab
      · exact lt_trans hab (hb c hc)
    · split
      · next hab => subst hab; exact wf_cons.mpr ⟨hb, hm⟩
      · next h1 h2 =>
        refine wf_cons.mpr ⟨fun c hc => ?_, ih hm⟩
        rcases mem_write hc with rfl | hc
        · show b < a; omega
        · exact hb c hc

/-- A write of a run keeps the canonical form. -/
theorem Memory.wf_writeAll {m : Memory} (a : Nat) (bs : Bytes) (h : m.wf = true) : (m.writeAll a bs).wf = true := by
  induction bs generalizing m a with
  | nil => exact h
  | cons b bs ih => exact ih _ (wf_write _ _ h)

/-- A write below the capacity stays below it. -/
theorem Memory.below_write {m : Memory} {cap a : Nat} (v : Byte) (h : m.below cap = true) (ha : a < cap) :
    (m.write a v).below cap = true := by
  simp only [below, List.all_eq_true, decide_eq_true_eq] at h ⊢
  intro c hc
  rcases mem_write hc with rfl | hc
  · exact ha
  · exact h c hc

/-- A write of a run that ends at the capacity or below it stays below it. -/
theorem Memory.below_writeAll {m : Memory} {cap a : Nat} (bs : Bytes) (h : m.below cap = true) (ha : a + bs.length ≤ cap) :
    (m.writeAll a bs).below cap = true := by
  induction bs generalizing m a with
  | nil => exact h
  | cons b bs ih =>
    simp only [List.length_cons] at ha
    exact ih (below_write b h (by omega)) (by omega)

/-- Reset lists nothing (R44). -/
theorem reset_memory_wf : State.reset.ibuf.wf = true ∧ State.reset.obuf.wf = true := ⟨rfl, rfl⟩

end Sys2Proof.Machine
end

