-- ==== Sys2Proof/Laws/Octets.lean ====
section
/-! SUPPORT. What the octet-string primitives do, said once: the error primitives, the bounds-checked read, big-endian
values, the section loop and the emission loop. -/

namespace Sys2Proof.Machine

open Sys2Proof

/-! ### The error primitives -/

@[simp] theorem raiseIf_true (e : CodecError) : raiseIf true e = .error e := rfl
@[simp] theorem raiseIf_false (e : CodecError) : raiseIf false e = .ok () := rfl

/-- `raiseIf` answers a value exactly where its condition fails. -/
theorem raiseIf_eq_ok {c : Bool} {e : CodecError} {u : Unit} : raiseIf c e = .ok u ↔ c = false := by
  cases c <;> simp

/-- A check followed by the rest of a rule: the rest runs exactly where the check passes. -/
theorem raiseIf_bind {α : Type} (c : Bool) (e : CodecError) (k : Unit → Except CodecError α) :
    (raiseIf c e >>= k) = if c then .error e else k () := by
  cases c <;> rfl

/-- A sequence of two computations answers a value exactly where both do. -/
theorem bind_eq_ok {α β : Type} {x : Except CodecError α} {k : α → Except CodecError β} {b : β} :
    (x >>= k) = .ok b ↔ ∃ a, x = .ok a ∧ k a = .ok b := by
  cases x with
  | error e => simp [bind, Except.bind]
  | ok a => simp [bind, Except.bind]

/-- A sequence of two computations fails exactly where the first does, or the second after it. -/
theorem bind_eq_error {α β : Type} {x : Except CodecError α} {k : α → Except CodecError β} {e : CodecError} :
    (x >>= k) = .error e ↔ x = .error e ∨ ∃ a, x = .ok a ∧ k a = .error e := by
  cases x with
  | error e' => simp [bind, Except.bind]
  | ok a => simp [bind, Except.bind]

@[simp] theorem ok_bind {α β : Type} (a : α) (k : α → Except CodecError β) :
    ((Except.ok a : Except CodecError α) >>= k) = k a := rfl

@[simp] theorem error_bind {α β : Type} (e : CodecError) (k : α → Except CodecError β) :
    ((Except.error e : Except CodecError α) >>= k) = .error e := rfl

/-! ### Reading octets -/

/-- The bounds-checked read (R54): it answers exactly where the octets are there. -/
theorem readOctets_eq_ok {n : Nat} {e : CodecError} {bs v rest : Bytes} :
    readOctets n e bs = .ok (v, rest) ↔ bs = v ++ rest ∧ v.length = n := by
  unfold readOctets
  split
  · next h =>
    simp only [reduceCtorEq, false_iff, not_and]
    rintro rfl h'
    simp at h; omega
  · next h =>
    simp only [Except.ok.injEq, Prod.mk.injEq]
    constructor
    · rintro ⟨rfl, rfl⟩
      exact ⟨(List.take_append_drop n bs).symm, by simp; omega⟩
    · rintro ⟨rfl, rfl⟩
      simp

/-- Reading a string that is there. -/
@[simp] theorem readOctets_append (e : CodecError) (v rest : Bytes) :
    readOctets v.length e (v ++ rest) = .ok (v, rest) :=
  readOctets_eq_ok.mpr ⟨rfl, rfl⟩

@[simp] theorem slice_length_le (bs : Bytes) (i n : Nat) : (slice bs i n).length ≤ n := by
  simp [slice]

/-! ### Big-endian values -/

@[simp] theorem toBe_length (n v : Nat) : (toBe n v).length = n := by
  induction n generalizing v with
  | zero => rfl
  | succ n ih => simp [toBe, ih]

@[simp] theorem beNat_nil : beNat [] = 0 := rfl

theorem beNat_foldl (bs : Bytes) (acc : Nat) :
    bs.foldl (fun n b => n * 256 + b.toNat) acc = acc * 256 ^ bs.length + beNat bs := by
  induction bs generalizing acc with
  | nil => simp
  | cons b bs ih =>
    have h1 := ih (acc * 256 + b.toNat)
    have h2 := ih (0 * 256 + b.toNat)
    simp only [beNat, List.foldl_cons, List.length_cons] at h1 h2 ⊢
    rw [h1, h2, pow_succ, Nat.zero_mul, Nat.zero_add, Nat.add_mul, Nat.mul_comm (256 ^ bs.length) 256,
      ← Nat.mul_assoc, Nat.add_assoc]

/-- The first octet is the most significant (R50). -/
theorem beNat_cons (b : Byte) (bs : Bytes) : beNat (b :: bs) = b.toNat * 256 ^ bs.length + beNat bs := by
  have h := beNat_foldl bs (0 * 256 + b.toNat)
  simpa [beNat] using h

theorem beNat_append (as bs : Bytes) : beNat (as ++ bs) = beNat as * 256 ^ bs.length + beNat bs := by
  unfold beNat
  rw [List.foldl_append, beNat_foldl]
  rfl

theorem beNat_lt (bs : Bytes) : beNat bs < 256 ^ bs.length := by
  induction bs with
  | nil => simp
  | cons b bs ih =>
    rw [beNat_cons, List.length_cons, pow_succ]
    have hb := b.isLt
    have : b.toNat * 256 ^ bs.length ≤ 255 * 256 ^ bs.length := Nat.mul_le_mul_right _ (by omega)
    omega

/-- `be_N` reads back what `to_be_N` wrote (R9). -/
theorem beNat_toBe (n v : Nat) : beNat (toBe n v) = v % 256 ^ n := by
  induction n with
  | zero => simp [toBe, Nat.mod_one]
  | succ n ih =>
    have h8 : (BitVec.ofNat 8 (v / 256 ^ n)).toNat = v / 256 ^ n % 256 := BitVec.toNat_ofNat _ _
    rw [toBe, beNat_cons, toBe_length, ih, h8, pow_succ, Nat.mod_mul, Nat.mul_comm (v / 256 ^ n % 256), Nat.add_comm]

theorem beNat_toBe_of_lt {n v : Nat} (h : v < 256 ^ n) : beNat (toBe n v) = v := by
  rw [beNat_toBe, Nat.mod_eq_of_lt h]

theorem toBe_add_mul (n k v : Nat) (h : n ≤ k) (c : Nat) : toBe n (c * 256 ^ k + v) = toBe n v := by
  induction n with
  | zero => rfl
  | succ n ih =>
    rw [toBe, toBe, ih (by omega)]
    congr 1
    apply BitVec.eq_of_toNat_eq
    simp only [BitVec.toNat_ofNat]
    obtain ⟨d, rfl⟩ : ∃ d, k = n + 1 + d := ⟨k - (n + 1), by omega⟩
    have : c * 256 ^ (n + 1 + d) + v = v + 256 ^ n * (256 * (c * 256 ^ d)) := by ring
    rw [this, Nat.add_mul_div_left _ _ (by positivity)]
    norm_num [Nat.add_mul_mod_self_left]

/-- `to_be_N` writes back the octets `be_N` read (R9). -/
theorem toBe_beNat (bs : Bytes) : toBe bs.length (beNat bs) = bs := by
  induction bs with
  | nil => rfl
  | cons b bs ih =>
    rw [List.length_cons, toBe, beNat_cons]
    have hlt := beNat_lt bs
    have hp : 0 < 256 ^ bs.length := by positivity
    congr 1
    · apply BitVec.eq_of_toNat_eq
      rw [BitVec.toNat_ofNat, Nat.mul_comm, Nat.mul_add_div hp, Nat.div_eq_of_lt hlt]
      have := b.isLt
      omega
    · rw [toBe_add_mul _ _ _ (le_refl _), ih]

/-- A field of `w` bits read from its own octets (R86). -/
theorem be_toBe {w n : Nat} (h : 2 ^ w = 256 ^ n) (v : BitVec w) : be w (toBe n v.toNat) = v := by
  apply BitVec.eq_of_toNat_eq
  rw [be, BitVec.toNat_ofNat, beNat_toBe_of_lt (by rw [← h]; exact v.isLt)]
  exact Nat.mod_eq_of_lt v.isLt

/-- A field's octets written from its own value. -/
theorem toBe_be {w : Nat} (bs : Bytes) (h : 256 ^ bs.length ≤ 2 ^ w) : toBe bs.length (be w bs).toNat = bs := by
  have hlt := beNat_lt bs
  rw [be, BitVec.toNat_ofNat, Nat.mod_eq_of_lt (by omega), toBe_beNat]

/-! ### The section loop -/

/-- Every round of a loop consumes at least one octet of a section that has one. -/
def Consumes {σ : Type} (item : σ → Bytes → Except CodecError (σ × Bytes)) : Prop :=
  ∀ acc b bs acc' rest, item acc (b :: bs) = .ok (acc', rest) → rest.length ≤ bs.length

theorem scanFor_more {σ : Type} {item : σ → Bytes → Except CodecError (σ × Bytes)} (hc : Consumes item) (n : Nat) :
    ∀ (m : Nat) (acc : σ) (bs : Bytes), bs.length ≤ n → n ≤ m → scanFor item m acc bs = scanFor item n acc bs := by
  induction n with
  | zero =>
    intro m acc bs h _
    have : bs = [] := List.length_eq_zero_iff.mp (by omega)
    subst this
    cases m <;> rfl
  | succ n ih =>
    intro m acc bs h hm
    obtain ⟨m, rfl⟩ : ∃ k, m = k + 1 := ⟨m - 1, by omega⟩
    cases bs with
    | nil => rfl
    | cons b bs =>
      simp only [scanFor]
      cases hi : item acc (b :: bs) with
      | error e => rfl
      | ok p =>
        have := hc acc b bs p.1 p.2 hi
        simp only [List.length_cons] at h
        exact ih m p.1 p.2 (by omega) (by omega)

@[simp] theorem scan_nil {σ : Type} (item : σ → Bytes → Except CodecError (σ × Bytes)) (acc : σ) :
    scan item acc [] = .ok acc := rfl

/-- One round of the loop and the rest of it: all the loop can do on a section that is not exhausted. -/
theorem scan_cons {σ : Type} {item : σ → Bytes → Except CodecError (σ × Bytes)} (hc : Consumes item) (acc : σ)
    (b : Byte) (bs : Bytes) :
    scan item acc (b :: bs) = (item acc (b :: bs) >>= fun p => scan item p.1 p.2) := by
  show scanFor item (bs.length + 1) acc (b :: bs) = _
  simp only [scanFor]
  cases hi : item acc (b :: bs) with
  | error e => rfl
  | ok p =>
    have := hc acc b bs p.1 p.2 hi
    show scanFor item bs.length p.1 p.2 = scanFor item p.2.length p.1 p.2
    exact scanFor_more hc _ _ _ _ (le_refl _) this

/-- The same, where the section is known to hold an octet. -/
theorem scan_step {σ : Type} {item : σ → Bytes → Except CodecError (σ × Bytes)} (hc : Consumes item) (acc : σ)
    {bs : Bytes} (h : bs ≠ []) : scan item acc bs = (item acc bs >>= fun p => scan item p.1 p.2) := by
  cases bs with
  | nil => exact absurd rfl h
  | cons b bs => exact scan_cons hc acc b bs

/-! ### The emission loop -/

@[simp] theorem emitAll_nil {α : Type} (f : α → Except CodecError Bytes) : emitAll f [] = .ok [] := rfl

theorem emitAll_cons {α : Type} (f : α → Except CodecError Bytes) (x : α) (xs : List α) :
    emitAll f (x :: xs) = (f x >>= fun a => emitAll f xs >>= fun b => .ok (a ++ b)) := rfl

theorem emitAll_append {α : Type} (f : α → Except CodecError Bytes) (xs ys : List α) :
    emitAll f (xs ++ ys) = (emitAll f xs >>= fun a => emitAll f ys >>= fun b => .ok (a ++ b)) := by
  induction xs with
  | nil => cases h : emitAll f ys <;> simp [h]
  | cons x xs ih =>
    rw [List.cons_append, emitAll_cons, emitAll_cons, ih]
    cases f x with
    | error e => rfl
    | ok a =>
      cases emitAll f xs with
      | error e => rfl
      | ok b => cases emitAll f ys <;> simp

/-! ### Records of one width -/

@[simp] theorem chunks_length (k n : Nat) (bs : Bytes) : (chunks k n bs).length = n := by
  induction n generalizing bs with
  | zero => rfl
  | succ n ih => simp [chunks, ih]

/-- Records written one after the other are read back one by one. -/
theorem chunks_flatten (k : Nat) (rs : List Bytes) (rest : Bytes) (h : ∀ r ∈ rs, r.length = k) :
    chunks k rs.length (rs.flatten ++ rest) = rs := by
  induction rs with
  | nil => rfl
  | cons r rs ih =>
    have hr : r.length = k := h r (by simp)
    simp only [List.length_cons, List.flatten_cons, chunks, List.append_assoc]
    rw [List.take_append_of_le_length (by omega), List.take_of_length_le (by omega), ← hr, List.drop_left, hr,
      ih (fun x hx => h x (by simp [hx]))]

/-- Records read one by one are the octets themselves. -/
theorem flatten_chunks (k n : Nat) (bs : Bytes) (h : bs.length = n * k) : (chunks k n bs).flatten = bs := by
  induction n generalizing bs with
  | zero =>
    have : bs = [] := List.length_eq_zero_iff.mp (by omega)
    subst this; rfl
  | succ n ih =>
    rw [chunks, List.flatten_cons, ih (bs.drop k) (by rw [List.length_drop, h]; ring_nf; omega), List.take_append_drop]

end Sys2Proof.Machine
end

