-- ==== Sys2Proof/Laws/State.lean ====
section
/-! SUPPORT. The named updates of the state, field by field: no later proof unfolds a record update. -/

namespace Sys2Proof.Machine

open Sys2Proof

/-! ### setEngine -/

@[simp] theorem setEngine_par (e : Engine) (s : State) : (setEngine e s).par = s.par := rfl
@[simp] theorem setEngine_status (e : Engine) (s : State) : (setEngine e s).status = s.status := rfl
@[simp] theorem setEngine_err (e : Engine) (s : State) : (setEngine e s).err = s.err := rfl
@[simp] theorem setEngine_cxtCaps (e : Engine) (s : State) : (setEngine e s).cxtCaps = s.cxtCaps := rfl
@[simp] theorem setEngine_cxtPeerType (e : Engine) (s : State) : (setEngine e s).cxtPeerType = s.cxtPeerType := rfl
@[simp] theorem setEngine_cxtPeerAs (e : Engine) (s : State) : (setEngine e s).cxtPeerAs = s.cxtPeerAs := rfl
@[simp] theorem setEngine_ibufLen (e : Engine) (s : State) : (setEngine e s).ibufLen = s.ibufLen := rfl
@[simp] theorem setEngine_obufLen (e : Engine) (s : State) : (setEngine e s).obufLen = s.obufLen := rfl
@[simp] theorem setEngine_ibuf (e : Engine) (s : State) : (setEngine e s).ibuf = s.ibuf := rfl
@[simp] theorem setEngine_obuf (e : Engine) (s : State) : (setEngine e s).obuf = s.obuf := rfl
@[simp] theorem setEngine_msgIn (e : Engine) (s : State) : (setEngine e s).msgIn = s.msgIn := rfl
@[simp] theorem setEngine_msgOut (e : Engine) (s : State) : (setEngine e s).msgOut = s.msgOut := rfl
@[simp] theorem setEngine_engine (e : Engine) (s : State) : (setEngine e s).engine = e := rfl
@[simp] theorem setEngine_host (e : Engine) (s : State) : (setEngine e s).host = s.host := rfl

/-! ### raiseError -/

@[simp] theorem raiseError_par (last : Nat) (e : CodecError) (s : State) : (raiseError last e s).par = s.par := rfl
@[simp] theorem raiseError_status (last : Nat) (e : CodecError) (s : State) : (raiseError last e s).status = statusWord stateErr last := rfl
@[simp] theorem raiseError_err (last : Nat) (e : CodecError) (s : State) : (raiseError last e s).err = errWord e := rfl
@[simp] theorem raiseError_cxtCaps (last : Nat) (e : CodecError) (s : State) : (raiseError last e s).cxtCaps = s.cxtCaps := rfl
@[simp] theorem raiseError_cxtPeerType (last : Nat) (e : CodecError) (s : State) : (raiseError last e s).cxtPeerType = s.cxtPeerType := rfl
@[simp] theorem raiseError_cxtPeerAs (last : Nat) (e : CodecError) (s : State) : (raiseError last e s).cxtPeerAs = s.cxtPeerAs := rfl
@[simp] theorem raiseError_ibufLen (last : Nat) (e : CodecError) (s : State) : (raiseError last e s).ibufLen = s.ibufLen := rfl
@[simp] theorem raiseError_obufLen (last : Nat) (e : CodecError) (s : State) : (raiseError last e s).obufLen = 0 := rfl
@[simp] theorem raiseError_ibuf (last : Nat) (e : CodecError) (s : State) : (raiseError last e s).ibuf = s.ibuf := rfl
@[simp] theorem raiseError_obuf (last : Nat) (e : CodecError) (s : State) : (raiseError last e s).obuf = s.obuf := rfl
@[simp] theorem raiseError_msgIn (last : Nat) (e : CodecError) (s : State) : (raiseError last e s).msgIn = s.msgIn := rfl
@[simp] theorem raiseError_msgOut (last : Nat) (e : CodecError) (s : State) : (raiseError last e s).msgOut = none := rfl
@[simp] theorem raiseError_engine (last : Nat) (e : CodecError) (s : State) : (raiseError last e s).engine = .idle := rfl
@[simp] theorem raiseError_host (last : Nat) (e : CodecError) (s : State) : (raiseError last e s).host = s.host := rfl

/-! ### deliverMessage -/

@[simp] theorem deliverMessage_par (m : Message) (s : State) : (deliverMessage m s).par = s.par := rfl
@[simp] theorem deliverMessage_status (m : Message) (s : State) : (deliverMessage m s).status = statusWord stateOk lastDecode := rfl
@[simp] theorem deliverMessage_err (m : Message) (s : State) : (deliverMessage m s).err = 0 := rfl
@[simp] theorem deliverMessage_cxtCaps (m : Message) (s : State) : (deliverMessage m s).cxtCaps = s.cxtCaps := rfl
@[simp] theorem deliverMessage_cxtPeerType (m : Message) (s : State) : (deliverMessage m s).cxtPeerType = s.cxtPeerType := rfl
@[simp] theorem deliverMessage_cxtPeerAs (m : Message) (s : State) : (deliverMessage m s).cxtPeerAs = s.cxtPeerAs := rfl
@[simp] theorem deliverMessage_ibufLen (m : Message) (s : State) : (deliverMessage m s).ibufLen = s.ibufLen := rfl
@[simp] theorem deliverMessage_obufLen (m : Message) (s : State) : (deliverMessage m s).obufLen = 0 := rfl
@[simp] theorem deliverMessage_ibuf (m : Message) (s : State) : (deliverMessage m s).ibuf = s.ibuf := rfl
@[simp] theorem deliverMessage_obuf (m : Message) (s : State) : (deliverMessage m s).obuf = s.obuf := rfl
@[simp] theorem deliverMessage_msgIn (m : Message) (s : State) : (deliverMessage m s).msgIn = s.msgIn := rfl
@[simp] theorem deliverMessage_msgOut (m : Message) (s : State) : (deliverMessage m s).msgOut = some m := rfl
@[simp] theorem deliverMessage_engine (m : Message) (s : State) : (deliverMessage m s).engine = .idle := rfl
@[simp] theorem deliverMessage_host (m : Message) (s : State) : (deliverMessage m s).host = s.host := rfl

/-! ### deliverOctets -/

@[simp] theorem deliverOctets_par (bs : Bytes) (s : State) : (deliverOctets bs s).par = s.par := rfl
@[simp] theorem deliverOctets_status (bs : Bytes) (s : State) : (deliverOctets bs s).status = statusWord stateOk lastEncode := rfl
@[simp] theorem deliverOctets_err (bs : Bytes) (s : State) : (deliverOctets bs s).err = 0 := rfl
@[simp] theorem deliverOctets_cxtCaps (bs : Bytes) (s : State) : (deliverOctets bs s).cxtCaps = s.cxtCaps := rfl
@[simp] theorem deliverOctets_cxtPeerType (bs : Bytes) (s : State) : (deliverOctets bs s).cxtPeerType = s.cxtPeerType := rfl
@[simp] theorem deliverOctets_cxtPeerAs (bs : Bytes) (s : State) : (deliverOctets bs s).cxtPeerAs = s.cxtPeerAs := rfl
@[simp] theorem deliverOctets_ibufLen (bs : Bytes) (s : State) : (deliverOctets bs s).ibufLen = s.ibufLen := rfl
@[simp] theorem deliverOctets_obufLen (bs : Bytes) (s : State) : (deliverOctets bs s).obufLen = BitVec.ofNat 32 bs.length := rfl
@[simp] theorem deliverOctets_ibuf (bs : Bytes) (s : State) : (deliverOctets bs s).ibuf = s.ibuf := rfl
@[simp] theorem deliverOctets_obuf (bs : Bytes) (s : State) : (deliverOctets bs s).obuf = s.obuf.writeAll 0 bs := rfl
@[simp] theorem deliverOctets_msgIn (bs : Bytes) (s : State) : (deliverOctets bs s).msgIn = s.msgIn := rfl
@[simp] theorem deliverOctets_msgOut (bs : Bytes) (s : State) : (deliverOctets bs s).msgOut = none := rfl
@[simp] theorem deliverOctets_engine (bs : Bytes) (s : State) : (deliverOctets bs s).engine = .idle := rfl
@[simp] theorem deliverOctets_host (bs : Bytes) (s : State) : (deliverOctets bs s).host = s.host := rfl

/-! ### clearResults -/

@[simp] theorem clearResults_par (s : State) : (clearResults s).par = s.par := rfl
@[simp] theorem clearResults_status (s : State) : (clearResults s).status = 0 := rfl
@[simp] theorem clearResults_err (s : State) : (clearResults s).err = 0 := rfl
@[simp] theorem clearResults_cxtCaps (s : State) : (clearResults s).cxtCaps = s.cxtCaps := rfl
@[simp] theorem clearResults_cxtPeerType (s : State) : (clearResults s).cxtPeerType = s.cxtPeerType := rfl
@[simp] theorem clearResults_cxtPeerAs (s : State) : (clearResults s).cxtPeerAs = s.cxtPeerAs := rfl
@[simp] theorem clearResults_ibufLen (s : State) : (clearResults s).ibufLen = s.ibufLen := rfl
@[simp] theorem clearResults_obufLen (s : State) : (clearResults s).obufLen = 0 := rfl
@[simp] theorem clearResults_ibuf (s : State) : (clearResults s).ibuf = s.ibuf := rfl
@[simp] theorem clearResults_obuf (s : State) : (clearResults s).obuf = s.obuf := rfl
@[simp] theorem clearResults_msgIn (s : State) : (clearResults s).msgIn = s.msgIn := rfl
@[simp] theorem clearResults_msgOut (s : State) : (clearResults s).msgOut = none := rfl
@[simp] theorem clearResults_engine (s : State) : (clearResults s).engine = .idle := rfl
@[simp] theorem clearResults_host (s : State) : (clearResults s).host = s.host := rfl

/-! ### see -/

@[simp] theorem see_par (v : HostValue) (s : State) : (see v s).par = s.par := rfl
@[simp] theorem see_status (v : HostValue) (s : State) : (see v s).status = s.status := rfl
@[simp] theorem see_err (v : HostValue) (s : State) : (see v s).err = s.err := rfl
@[simp] theorem see_cxtCaps (v : HostValue) (s : State) : (see v s).cxtCaps = s.cxtCaps := rfl
@[simp] theorem see_cxtPeerType (v : HostValue) (s : State) : (see v s).cxtPeerType = s.cxtPeerType := rfl
@[simp] theorem see_cxtPeerAs (v : HostValue) (s : State) : (see v s).cxtPeerAs = s.cxtPeerAs := rfl
@[simp] theorem see_ibufLen (v : HostValue) (s : State) : (see v s).ibufLen = s.ibufLen := rfl
@[simp] theorem see_obufLen (v : HostValue) (s : State) : (see v s).obufLen = s.obufLen := rfl
@[simp] theorem see_ibuf (v : HostValue) (s : State) : (see v s).ibuf = s.ibuf := rfl
@[simp] theorem see_obuf (v : HostValue) (s : State) : (see v s).obuf = s.obuf := rfl
@[simp] theorem see_msgIn (v : HostValue) (s : State) : (see v s).msgIn = s.msgIn := rfl
@[simp] theorem see_msgOut (v : HostValue) (s : State) : (see v s).msgOut = s.msgOut := rfl
@[simp] theorem see_engine (v : HostValue) (s : State) : (see v s).engine = s.engine := rfl
@[simp] theorem see_host (v : HostValue) (s : State) : (see v s).host = { s.host with seen := s.host.seen ++ [v] } := rfl

/-! ### popHost -/

@[simp] theorem popHost_par (rest : List HostOp) (s : State) : (popHost rest s).par = s.par := rfl
@[simp] theorem popHost_status (rest : List HostOp) (s : State) : (popHost rest s).status = s.status := rfl
@[simp] theorem popHost_err (rest : List HostOp) (s : State) : (popHost rest s).err = s.err := rfl
@[simp] theorem popHost_cxtCaps (rest : List HostOp) (s : State) : (popHost rest s).cxtCaps = s.cxtCaps := rfl
@[simp] theorem popHost_cxtPeerType (rest : List HostOp) (s : State) : (popHost rest s).cxtPeerType = s.cxtPeerType := rfl
@[simp] theorem popHost_cxtPeerAs (rest : List HostOp) (s : State) : (popHost rest s).cxtPeerAs = s.cxtPeerAs := rfl
@[simp] theorem popHost_ibufLen (rest : List HostOp) (s : State) : (popHost rest s).ibufLen = s.ibufLen := rfl
@[simp] theorem popHost_obufLen (rest : List HostOp) (s : State) : (popHost rest s).obufLen = s.obufLen := rfl
@[simp] theorem popHost_ibuf (rest : List HostOp) (s : State) : (popHost rest s).ibuf = s.ibuf := rfl
@[simp] theorem popHost_obuf (rest : List HostOp) (s : State) : (popHost rest s).obuf = s.obuf := rfl
@[simp] theorem popHost_msgIn (rest : List HostOp) (s : State) : (popHost rest s).msgIn = s.msgIn := rfl
@[simp] theorem popHost_msgOut (rest : List HostOp) (s : State) : (popHost rest s).msgOut = s.msgOut := rfl
@[simp] theorem popHost_engine (rest : List HostOp) (s : State) : (popHost rest s).engine = s.engine := rfl
@[simp] theorem popHost_host (rest : List HostOp) (s : State) : (popHost rest s).host = { s.host with todo := rest } := rfl

/-! ### platformReset -/

@[simp] theorem platformReset_par (s : State) : (platformReset s).par = s.par := rfl
@[simp] theorem platformReset_status (s : State) : (platformReset s).status = State.reset.status := rfl
@[simp] theorem platformReset_err (s : State) : (platformReset s).err = State.reset.err := rfl
@[simp] theorem platformReset_cxtCaps (s : State) : (platformReset s).cxtCaps = State.reset.cxtCaps := rfl
@[simp] theorem platformReset_cxtPeerType (s : State) : (platformReset s).cxtPeerType = State.reset.cxtPeerType := rfl
@[simp] theorem platformReset_cxtPeerAs (s : State) : (platformReset s).cxtPeerAs = State.reset.cxtPeerAs := rfl
@[simp] theorem platformReset_ibufLen (s : State) : (platformReset s).ibufLen = State.reset.ibufLen := rfl
@[simp] theorem platformReset_obufLen (s : State) : (platformReset s).obufLen = State.reset.obufLen := rfl
@[simp] theorem platformReset_ibuf (s : State) : (platformReset s).ibuf = State.reset.ibuf := rfl
@[simp] theorem platformReset_obuf (s : State) : (platformReset s).obuf = State.reset.obuf := rfl
@[simp] theorem platformReset_msgIn (s : State) : (platformReset s).msgIn = State.reset.msgIn := rfl
@[simp] theorem platformReset_msgOut (s : State) : (platformReset s).msgOut = State.reset.msgOut := rfl
@[simp] theorem platformReset_engine (s : State) : (platformReset s).engine = State.reset.engine := rfl
@[simp] theorem platformReset_host (s : State) : (platformReset s).host = s.host := rfl

/-! ### Updates of one another -/

@[simp] theorem setEngine_setEngine (e e' : Engine) (s : State) : setEngine e (setEngine e' s) = setEngine e s := rfl
@[simp] theorem raiseError_setEngine (last : Nat) (e : CodecError) (g : Engine) (s : State) :
    raiseError last e (setEngine g s) = raiseError last e s := rfl
@[simp] theorem deliverMessage_setEngine (m : Message) (g : Engine) (s : State) :
    deliverMessage m (setEngine g s) = deliverMessage m s := rfl
@[simp] theorem deliverOctets_setEngine (bs : Bytes) (g : Engine) (s : State) :
    deliverOctets bs (setEngine g s) = deliverOctets bs s := rfl
@[simp] theorem clearResults_setEngine (g : Engine) (s : State) : clearResults (setEngine g s) = clearResults s := rfl
theorem setEngine_self (s : State) : setEngine s.engine s = s := rfl

end Sys2Proof.Machine
end

