-- ==== Sys2Proof/Laws/Run.lean ====
section
/-! SUPPORT. What the shared operations over the state can do, said once: the running of a wire form where the engine stands,
the end of a command, the inputs of the commands, and what each leaves alone. -/

namespace Sys2Proof.Machine

open Sys2Proof

/-! ### The end of a command forgets where the engine stood -/

@[simp] theorem endDecode_setEngine (r : Except CodecError Message) (g : Engine) (s : State) :
    endDecode r (setEngine g s) = endDecode r s := by
  cases r <;> rfl

@[simp] theorem endEncode_setEngine (r : Except CodecError Bytes) (g : Engine) (s : State) :
    endEncode r (setEngine g s) = endEncode r s := by
  cases r <;> rfl

@[simp] theorem endDecode_ok (m : Message) (s : State) : endDecode (.ok m) s = deliverMessage m s := rfl
@[simp] theorem endDecode_error (e : CodecError) (s : State) : endDecode (.error e) s = raiseError lastDecode e s := rfl
@[simp] theorem endEncode_ok (bs : Bytes) (s : State) : endEncode (.ok bs) s = deliverOctets bs s := rfl
@[simp] theorem endEncode_error (e : CodecError) (s : State) : endEncode (.error e) s = raiseError lastEncode e s := rfl

/-! ### A wire form at its place -/

@[simp] theorem runMessage_atMessage (dec : Cxt → Except CodecError Message)
    (enc : Params → Option (Except CodecError Bytes)) (cx : Cxt) (b : Bytes) (s : State) :
    runMessage dec enc (atMessage cx b s) = .next (endDecode (dec cx) s) := by
  show Host.Outcome.next (endDecode (dec cx) (setEngine _ s)) = _
  rw [endDecode_setEngine]

theorem runMessage_atEncode (dec : Cxt → Except CodecError Message) (enc : Params → Option (Except CodecError Bytes))
    (cx : Cxt) (m : Message) (s : State) {r : Except CodecError Bytes} (h : enc s.par = some r) :
    runMessage dec enc (atEncode cx m s) = .next (endEncode r s) := by
  unfold runMessage atEncode
  simp [h]

theorem runRecord_atRecords_ok {dec : Cxt → RecState → Except CodecError RecState} {enc : Except CodecError Bytes}
    {cx : Cxt} {w : UpdWork} {s : State} {r : RecState} (h : dec cx w.recs = .ok r) :
    runRecord dec enc (atRecords cx w s) = .next (atRecords cx { w with recs := r } s) := by
  unfold runRecord atRecords
  simp only [setEngine_engine, h]
  rfl

theorem runRecord_atRecords_error {dec : Cxt → RecState → Except CodecError RecState} {enc : Except CodecError Bytes}
    {cx : Cxt} {w : UpdWork} {s : State} {e : CodecError} (h : dec cx w.recs = .error e) :
    runRecord dec enc (atRecords cx w s) = .next (raiseError lastDecode e s) := by
  unfold runRecord atRecords
  simp only [setEngine_engine, h]
  rfl

theorem runRecord_atEmission_ok {dec : Cxt → RecState → Except CodecError RecState} {enc : Except CodecError Bytes}
    {cx : Cxt} {w : EncWork} {s : State} {bs : Bytes} (h : enc = .ok bs) :
    runRecord dec enc (atEmission cx w s) = .next (atEmission cx (appendOut bs w) s) := by
  subst h; rfl

theorem runRecord_atEmission_error {dec : Cxt → RecState → Except CodecError RecState} {enc : Except CodecError Bytes}
    {cx : Cxt} {w : EncWork} {s : State} {e : CodecError} (h : enc = .error e) :
    runRecord dec enc (atEmission cx w s) = .next (raiseError lastEncode e s) := by
  subst h; rfl

theorem runSegment_atSegments {dec : PathKind → List AsPathSegment → Except CodecError (List AsPathSegment)}
    {enc : Cxt → PathKind → Option (Except CodecError Bytes)} {cx : Cxt} {w : UpdWork} {k : PathKind} {sec : Bytes}
    {cur : Nat} {segs : List AsPathSegment} {s : State} :
    runSegment dec enc (atSegments cx w k sec cur segs s) =
      match dec k segs with
      | .ok segs' => .next (atSegments cx w k sec cur segs' s)
      | .error e => .next (raiseError lastDecode e s) := by
  unfold runSegment atSegments
  simp only [setEngine_engine]
  cases dec k segs <;> rfl

theorem runSegment_atPathEmission {dec : PathKind → List AsPathSegment → Except CodecError (List AsPathSegment)}
    {enc : Cxt → PathKind → Option (Except CodecError Bytes)} {cx : Cxt} {w : EncWork} {k : PathKind}
    {todo : List AsPathSegment} {out : Bytes} {s : State} :
    runSegment dec enc (atPathEmission cx w k todo out s) =
      match enc cx k with
      | some (.ok bs) => .next (atPathEmission cx w k todo (out ++ bs) s)
      | some (.error e) => .next (raiseError lastEncode e s)
      | none => .refused .outOfPlace := by
  unfold runSegment atPathEmission
  simp only [setEngine_engine]
  cases enc cx k with
  | none => rfl
  | some r => cases r <;> rfl

theorem runFamily_atFamily {dec : Cxt → MpKind → Byte → RecState → Except CodecError RecState}
    {enc : Cxt → MpKind → Except CodecError Bytes} {cx : Cxt} {w : UpdWork} {k : MpKind} {flags : Byte} {body : Bytes}
    {s : State} :
    runFamily dec enc (atFamily cx w k flags body s) =
      match dec cx k flags w.recs with
      | .ok r => .next (atRecords cx { w with recs := r } s)
      | .error e => .next (raiseError lastDecode e s) := by
  unfold runFamily atFamily
  simp only [setEngine_engine]
  cases dec cx k flags w.recs <;> rfl

theorem runFamily_atGroupEmission {dec : Cxt → MpKind → Byte → RecState → Except CodecError RecState}
    {enc : Cxt → MpKind → Except CodecError Bytes} {cx : Cxt} {w : EncWork} {g : MpGroup} {s : State} :
    runFamily dec enc (atGroupEmission cx w g s) =
      match enc cx (groupKind g) with
      | .ok bs => .next (atEmission cx (appendOut bs w) s)
      | .error e => .next (raiseError lastEncode e s) := by
  unfold runFamily atGroupEmission
  simp only [setEngine_engine]
  cases enc cx (groupKind g) <;> rfl

/-! ### All a wire form can do -/

/-- A message form that answers a next state ended the command, with a value of its own half. -/
theorem runMessage_next {dec : Cxt → Except CodecError Message} {enc : Params → Option (Except CodecError Bytes)}
    {s t : State} (h : runMessage dec enc s = .next t) :
    (∃ cx b, s.engine = .decoding cx (.message b) ∧ t = endDecode (dec cx) s) ∨
      ∃ cx m r, s.engine = .encoding cx (.message m) ∧ enc s.par = some r ∧ t = endEncode r s := by
  unfold runMessage at h
  split at h
  · next cx b hs => cases h; exact .inl ⟨cx, b, hs, rfl⟩
  · next cx m hs =>
    split at h
    · next r hr => cases h; exact .inr ⟨cx, m, r, hs, hr, rfl⟩
    · cases h
  · cases h

/-- A record form that answers a next state acted on A, st and seen, or appended its octets, or ended the command. -/
theorem runRecord_next {dec : Cxt → RecState → Except CodecError RecState} {enc : Except CodecError Bytes}
    {s t : State} (h : runRecord dec enc s = .next t) :
    (∃ cx w, s.engine = .decoding cx (.records w) ∧
      ((∃ r, dec cx w.recs = .ok r ∧ t = atRecords cx { w with recs := r } s) ∨
        ∃ e, dec cx w.recs = .error e ∧ t = raiseError lastDecode e s)) ∨
      ∃ cx w, s.engine = .encoding cx (.records w) ∧
        ((∃ bs, enc = .ok bs ∧ t = atEmission cx (appendOut bs w) s) ∨
          ∃ e, enc = .error e ∧ t = raiseError lastEncode e s) := by
  unfold runRecord at h
  split at h
  · next cx w hs =>
    refine .inl ⟨cx, w, hs, ?_⟩
    split at h
    · next r hr => cases h; exact .inl ⟨r, hr, rfl⟩
    · next e he => cases h; exact .inr ⟨e, he, rfl⟩
  · next cx w hs =>
    refine .inr ⟨cx, w, hs, ?_⟩
    split at h
    · next bs => cases h; exact .inl ⟨bs, rfl, rfl⟩
    · next e => cases h; exact .inr ⟨e, rfl, rfl⟩
  · cases h

/-- A segment form that answers a next state extended the path, or appended its octets, or ended the command. -/
theorem runSegment_next {dec : PathKind → List AsPathSegment → Except CodecError (List AsPathSegment)}
    {enc : Cxt → PathKind → Option (Except CodecError Bytes)} {s t : State} (h : runSegment dec enc s = .next t) :
    (∃ cx w k sec cur segs, s.engine = .decoding cx (.segments w k sec cur segs) ∧
      ((∃ segs', dec k segs = .ok segs' ∧ t = atSegments cx w k sec cur segs' s) ∨
        ∃ e, dec k segs = .error e ∧ t = raiseError lastDecode e s)) ∨
      ∃ cx w k todo out, s.engine = .encoding cx (.segments w k todo out) ∧
        ((∃ bs, enc cx k = some (.ok bs) ∧ t = atPathEmission cx w k todo (out ++ bs) s) ∨
          ∃ e, enc cx k = some (.error e) ∧ t = raiseError lastEncode e s) := by
  unfold runSegment at h
  split at h
  · next cx w k sec cur segs hs =>
    refine .inl ⟨cx, w, k, sec, cur, segs, hs, ?_⟩
    split at h
    · next r hr => cases h; exact .inl ⟨r, hr, rfl⟩
    · next e he => cases h; exact .inr ⟨e, he, rfl⟩
  · next cx w k todo out hs =>
    refine .inr ⟨cx, w, k, todo, out, hs, ?_⟩
    split at h
    · next bs hb => cases h; exact .inl ⟨bs, hb, rfl⟩
    · next e he => cases h; exact .inr ⟨e, he, rfl⟩
    · cases h
  · cases h

/-- A family form that answers a next state completed its attribute, or ended the command. -/
theorem runFamily_next {dec : Cxt → MpKind → Byte → RecState → Except CodecError RecState}
    {enc : Cxt → MpKind → Except CodecError Bytes} {s t : State} (h : runFamily dec enc s = .next t) :
    (∃ cx w k flags body, s.engine = .decoding cx (.family w k flags body) ∧
      ((∃ r, dec cx k flags w.recs = .ok r ∧ t = atRecords cx { w with recs := r } s) ∨
        ∃ e, dec cx k flags w.recs = .error e ∧ t = raiseError lastDecode e s)) ∨
      ∃ cx w g, s.engine = .encoding cx (.family w g) ∧
        ((∃ bs, enc cx (groupKind g) = .ok bs ∧ t = atEmission cx (appendOut bs w) s) ∨
          ∃ e, enc cx (groupKind g) = .error e ∧ t = raiseError lastEncode e s) := by
  unfold runFamily at h
  split at h
  · next cx w k flags body hs =>
    refine .inl ⟨cx, w, k, flags, body, hs, ?_⟩
    split at h
    · next r hr => cases h; exact .inl ⟨r, hr, rfl⟩
    · next e he => cases h; exact .inr ⟨e, he, rfl⟩
  · next cx w g hs =>
    refine .inr ⟨cx, w, g, hs, ?_⟩
    split at h
    · next bs hb => cases h; exact .inl ⟨bs, hb, rfl⟩
    · next e he => cases h; exact .inr ⟨e, he, rfl⟩
  · cases h

/-! ### What each update leaves alone -/

theorem sameInputs_setEngine (e : Engine) (s : State) : sameInputs s (setEngine e s) :=
  ⟨rfl, rfl, rfl, rfl, rfl, rfl, rfl, fun _ => rfl⟩

theorem sameResults_setEngine (e : Engine) (s : State) : sameResults s (setEngine e s) :=
  ⟨rfl, rfl, rfl, rfl, fun _ => rfl⟩

theorem sameInputs_raiseError (last : Nat) (e : CodecError) (s : State) : sameInputs s (raiseError last e s) :=
  ⟨rfl, rfl, rfl, rfl, rfl, rfl, rfl, fun _ => rfl⟩

theorem sameInputs_clearResults (s : State) : sameInputs s (clearResults s) :=
  ⟨rfl, rfl, rfl, rfl, rfl, rfl, rfl, fun _ => rfl⟩

theorem sameInputs_endDecode (r : Except CodecError Message) (s : State) : sameInputs s (endDecode r s) := by
  cases r <;> exact ⟨rfl, rfl, rfl, rfl, rfl, rfl, rfl, fun _ => rfl⟩

theorem sameInputs_endEncode (r : Except CodecError Bytes) (s : State) : sameInputs s (endEncode r s) := by
  cases r <;> exact ⟨rfl, rfl, rfl, rfl, rfl, rfl, rfl, fun _ => rfl⟩

/-- The end of a DECODE leaves OBUF as it was. -/
theorem endDecode_obuf (r : Except CodecError Message) (s : State) : (endDecode r s).obuf = s.obuf := by
  cases r <;> rfl

/-! ### The inputs of the commands -/

/-- A DECODE with its inputs ends with the result of `decode_message` (R100). -/
theorem execDecode_of_inputs {s : State} {cx : Cxt} {b : Bytes} (h : decodeInputs s cx b) :
    execDecode s = .next (endDecode (decodeMessage s.par cx b) s) := by
  obtain ⟨⟨caps, hc, rfl⟩, n, hn, hb⟩ := h
  unfold execDecode inputMessage
  simp only [hc, hn, hb]

/-- A DECODE that answers a next state had its inputs. -/
theorem execDecode_next {s t : State} (h : execDecode s = .next t) :
    ∃ cx b, decodeInputs s cx b ∧ t = endDecode (decodeMessage s.par cx b) s := by
  unfold execDecode inputMessage at h
  split at h
  · next caps b hc hb =>
    split at hb
    · next n hn => cases h; exact ⟨_, b, ⟨⟨caps, hc, rfl⟩, n, hn, hb⟩, rfl⟩
    · cases hb
  · cases h

/-- An ENCODE with its inputs ends with the result of `encode_message` (R101). -/
theorem execEncode_of_inputs {s : State} {cx : Cxt} {m : Message} (h : encodeInputs s cx m) :
    execEncode s = .next (endEncode (encodeMessage s.par cx m) s) := by
  obtain ⟨⟨caps, hc, rfl⟩, hm⟩ := h
  unfold execEncode
  simp only [hc, hm]

/-- An ENCODE that answers a next state had its inputs. -/
theorem execEncode_next {s t : State} (h : execEncode s = .next t) :
    ∃ cx m, encodeInputs s cx m ∧ t = endEncode (encodeMessage s.par cx m) s := by
  unfold execEncode at h
  split at h
  · next caps m hc hm => cases h; exact ⟨_, m, ⟨⟨caps, hc, rfl⟩, hm⟩, rfl⟩
  · cases h

end Sys2Proof.Machine
end

