-- ==== Sys2Proof/Laws/Codec.lean ====
section
/-! SUPPORT. What the shared codec operations can do, said once: fields of two and four octets, the checks before a body rule,
fixed-width records, the record envelope, segments and prefixes. -/

namespace Sys2Proof.Machine

open Sys2Proof

/-! ### Fields of fixed width -/

theorem beNat_two (a b : Byte) : beNat [a, b] = a.toNat * 256 + b.toNat := by
  simp [beNat]

theorem beNat_four (a b c d : Byte) :
    beNat [a, b, c, d] = ((a.toNat * 256 + b.toNat) * 256 + c.toNat) * 256 + d.toNat := by
  simp [beNat]

theorem append_two_toNat (a b : Byte) : (a ++ b).toNat = a.toNat * 256 + b.toNat := by
  rw [BitVec.toNat_append, ← Nat.shiftLeft_add_eq_or_of_lt b.isLt, Nat.shiftLeft_eq]

theorem append_four_toNat (a b c d : Byte) :
    (a ++ b ++ c ++ d).toNat = ((a.toNat * 256 + b.toNat) * 256 + c.toNat) * 256 + d.toNat := by
  rw [BitVec.toNat_append, ← Nat.shiftLeft_add_eq_or_of_lt d.isLt, Nat.shiftLeft_eq, BitVec.toNat_append,
    ← Nat.shiftLeft_add_eq_or_of_lt c.isLt, Nat.shiftLeft_eq, append_two_toNat]

/-- `be_2` of two octets is the field they make (R50). -/
theorem be_two (a b : Byte) : be 16 [a, b] = a ++ b := by
  apply BitVec.eq_of_toNat_eq
  rw [be, BitVec.toNat_ofNat, beNat_two, append_two_toNat]
  have := a.isLt; have := b.isLt
  exact Nat.mod_eq_of_lt (by omega)

/-- `be_2` zero-extended to 32 bits (R210). -/
theorem be_two_wide (a b : Byte) : be 32 [a, b] = (a ++ b).setWidth 32 := by
  apply BitVec.eq_of_toNat_eq
  rw [be, BitVec.toNat_ofNat, beNat_two, BitVec.toNat_setWidth, append_two_toNat]

/-- `be_4` of four octets is the field they make (R50). -/
theorem be_four (a b c d : Byte) : be 32 [a, b, c, d] = a ++ b ++ c ++ d := by
  apply BitVec.eq_of_toNat_eq
  rw [be, BitVec.toNat_ofNat, beNat_four, append_four_toNat]
  have := a.isLt; have := b.isLt; have := c.isLt; have := d.isLt
  exact Nat.mod_eq_of_lt (by omega)

theorem toBe_four (a b c d : Byte) : toBe 4 (a ++ b ++ c ++ d).toNat = [a, b, c, d] := by
  have h := toBe_beNat [a, b, c, d]
  rw [beNat_four, ← append_four_toNat] at h
  exact h

theorem toBe_two_of_four (a b c d : Byte) (ha : a = 0) (hb : b = 0) : toBe 2 (a ++ b ++ c ++ d).toNat = [c, d] := by
  subst ha; subst hb
  have h := toBe_beNat [c, d]
  rw [append_four_toNat, ← h, beNat_two]
  simp

/-- The two octets of a length are its big-endian form. -/
theorem toBe_two (n : Nat) : toBe 2 n = twoOctets n := by
  simp only [toBe, twoOctets, Nat.pow_one, Nat.pow_zero, Nat.div_one]
  congr 2
  apply BitVec.eq_of_toNat_eq
  simp

@[simp] theorem twoOctets_length (n : Nat) : (twoOctets n).length = 2 := rfl

theorem toBe_one (n : Nat) : toBe 1 n = [BitVec.ofNat 8 n] := by simp [toBe]

/-- Octet `k` of a big-endian field (R50). -/
theorem toBe_eq_range {w : Nat} (n : Nat) (v : BitVec w) (h : 8 * n ≤ w) :
    toBe n v.toNat = (List.range n).map (fun k => v.extractLsb' (8 * (n - 1 - k)) 8) := by
  induction n with
  | zero => rfl
  | succ n ih =>
    rw [toBe, ih (by omega), List.range_succ_eq_map, List.map_cons, List.map_map]
    congr 1
    · apply BitVec.eq_of_toNat_eq
      rw [BitVec.toNat_ofNat, BitVec.extractLsb'_toNat, Nat.shiftRight_eq_div_pow]
      congr 2
      rw [show 8 * (n + 1 - 1 - 0) = 8 * n by omega, Nat.pow_mul]
    · apply List.map_congr_left
      intro k hk
      simp only [List.mem_range] at hk
      simp only [Function.comp]
      congr 1
      omega

/-- The four octets of a 32-bit field, and the two of a 16-bit field. -/
theorem toBe_word (a : BitVec 32) :
    toBe 4 a.toNat = [a.extractLsb' 24 8, a.extractLsb' 16 8, a.extractLsb' 8 8, a.extractLsb' 0 8] := by
  rw [toBe_eq_range 4 a (by norm_num)]; rfl

theorem toBe_half (a : BitVec 16) : toBe 2 a.toNat = [a.extractLsb' 8 8, a.extractLsb' 0 8] := by
  rw [toBe_eq_range 2 a (by norm_num)]; rfl

/-! ### Bits of the flags octet -/

theorem optionalBit_eq_true {f : Byte} : optionalBit f = true ↔ f &&& 0x80 ≠ 0 := by
  simp [optionalBit]

theorem extendedBit_eq_true {f : Byte} : extendedBit f = true ↔ f &&& 0x10 ≠ 0 := by
  simp [extendedBit]

theorem partialBit_eq_false {f : Byte} : partialBit f = false ↔ f &&& 0x20 = 0 := by
  simp [partialBit]

/-! ### Type codes -/

/-- The recognized type of a recognized type's code is that type (R76). -/
@[simp] theorem attrTypeOf_attrCode (t : AttrType) : attrTypeOf (attrCode t) = some t := by
  cases t <;> rfl

/-- A code names a type exactly where it is the type's code. -/
theorem attrTypeOf_eq_some {c : Byte} {t : AttrType} : attrTypeOf c = some t ↔ c = attrCode t := by
  constructor
  · intro h
    have := List.find?_some h
    exact (beq_iff_eq.mp this).symm
  · rintro rfl; simp

@[simp] theorem msgKindOf_msgCode (k : MsgKind) : msgKindOf (msgCode k) = some k := by
  cases k <;> rfl

theorem msgKindOf_eq_some {c : Byte} {k : MsgKind} : msgKindOf c = some k ↔ c = msgCode k := by
  constructor
  · intro h
    have := List.find?_some h
    exact (beq_iff_eq.mp this).symm
  · rintro rfl; simp

@[simp] theorem segKindOf_segCode (k : SegKind) : segKindOf (segCode k) = some k := by
  cases k <;> rfl

theorem segKindOf_eq_some {c : Byte} {k : SegKind} : segKindOf c = some k ↔ c = segCode k := by
  constructor
  · intro h
    have := List.find?_some h
    exact (beq_iff_eq.mp this).symm
  · rintro rfl; simp

/-! ### The checks before a body rule -/

/-- The duplicate check (R162): all it can do. -/
theorem checkDuplicate_eq (t : Byte) (w : RecState) :
    checkDuplicate t w = if t ∈ w.seen then .error (err .duplicate t.toNat)
      else .ok { w with seen := t :: w.seen } := by
  unfold checkDuplicate
  rw [raiseIf_bind]
  simp only [List.contains_iff_mem]

/-- The flag check (R164): all it can do. -/
theorem checkFlags_eq (flags : Byte) (t : AttrType) :
    checkFlags flags t =
      if flags &&& 0xC0 ≠ expectedFlags t then .error (err .otMismatch (attrCode t).toNat)
      else if expectedFlags t ≠ 0xC0 ∧ flags &&& 0x20 ≠ 0 then .error (err .partialSet (attrCode t).toNat)
      else .ok () := by
  unfold checkFlags
  rw [raiseIf_bind]
  simp only [bne_iff_ne, raiseIf, partialBit, Bool.and_eq_true, ne_eq, ite_not]

/-- A record that passes the duplicate and the flag check reaches its body rule with its type noted (R160, R163). -/
theorem openRecord_of_opens {t : AttrType} {flags : Byte} {w : UpdWork}
    (h : recordOpens (attrCode t) (expectedFlags t) flags w) :
    openRecord t flags w.recs = .ok { w.recs with seen := attrCode t :: w.recs.seen } := by
  obtain ⟨h1, h2, h3⟩ := h
  unfold openRecord
  rw [checkDuplicate_eq, if_neg h1, ok_bind, checkFlags_eq, if_neg (not_not.mpr h2),
    if_neg (by rintro ⟨h4, h5⟩; exact h3.elim h4 h5)]
  rfl

/-- A record that reaches its body rule passed both checks. -/
theorem openRecord_eq_ok {t : AttrType} {flags : Byte} {r r' : RecState} (h : openRecord t flags r = .ok r') :
    attrCode t ∉ r.seen ∧ flags &&& 0xC0 = expectedFlags t ∧ (expectedFlags t = 0xC0 ∨ flags &&& 0x20 = 0) ∧
      r' = { r with seen := attrCode t :: r.seen } := by
  unfold openRecord at h
  rw [checkDuplicate_eq] at h
  split at h
  · cases h
  · next h1 =>
    rw [ok_bind, checkFlags_eq] at h
    split at h
    · cases h
    · next h2 =>
      split at h
      · cases h
      · next h3 =>
        cases h
        refine ⟨h1, not_not.mp h2, ?_, rfl⟩
        by_contra h4
        push Not at h4
        exact h3 h4

/-! ### Records of one width -/

/-- The octets of records of one width. -/
theorem length_flatten_of_length (rs : List Bytes) (k : Nat) (h : ∀ r ∈ rs, r.length = k) :
    rs.flatten.length = rs.length * k := by
  induction rs with
  | nil => simp
  | cons r rs ih =>
    rw [List.flatten_cons, List.length_append, ih (fun x hx => h x (by simp [hx])), h r (by simp), List.length_cons]
    ring

/-- A body of whole records decodes to them (R260). -/
theorem decodeRecords_flatten {α : Type} (k : Nat) (t : AttrType) (rec : Bytes → α) (rs : List Bytes) (hk : 0 < k)
    (h : ∀ r ∈ rs, r.length = k) : decodeRecords k t rec rs.flatten = .ok (rs.map rec) := by
  have hl : rs.flatten.length = rs.length * k := by
    exact length_flatten_of_length rs k h
  unfold decodeRecords
  rw [hl, Nat.mul_mod_left, Nat.mul_div_cancel _ hk]
  have := chunks_flatten k rs [] h
  rw [List.append_nil] at this
  rw [this]
  rfl

/-- Records written one after the other decode to what was written (R260). -/
theorem decodeRecords_map {α : Type} {k : Nat} {t : AttrType} {rec : Bytes → α} {f : α → Bytes} {xs : List α} (hk : 0 < k)
    (h1 : ∀ x, (f x).length = k) (h2 : ∀ x, rec (f x) = x) : decodeRecords k t rec (xs.map f).flatten = .ok xs := by
  rw [decodeRecords_flatten k t rec _ hk (by simp only [List.mem_map]; rintro r ⟨x, -, rfl⟩; exact h1 x)]
  simp [Function.comp_def, h2]

/-- A body that is no whole number of records is refused (R260). -/
theorem decodeRecords_error {α : Type} (k : Nat) (t : AttrType) (rec : Bytes → α) (v : Bytes) (h : v.length % k ≠ 0) :
    decodeRecords k t rec v = .error (err .bodyLength (attrCode t).toNat) := by
  unfold decodeRecords
  rw [raiseIf_bind, if_pos (by simpa using h)]

/-- A fixed body (R166 to R174): all the length check can do. -/
theorem fixedBody_eq (k : Nat) (t : AttrType) (v : Bytes) :
    fixedBody k t v = if v.length = k then .ok () else .error (err .bodyLength (attrCode t).toNat) := by
  unfold fixedBody
  by_cases h : v.length = k <;> simp [h, raiseIf]

/-! ### Record emission -/

/-- The record of flags whose E bit is clear (R175). -/
theorem encodeRecord_eq {flags t : Byte} {v : Bytes} (he : flags &&& 0x10 = 0) (h : v.length ≤ 65535) :
    encodeRecord flags t v = .ok (wireRecord flags t v) := by
  unfold encodeRecord
  rw [raiseIf_bind, if_neg (by simpa using h)]
  unfold wireRecord
  by_cases hv : v.length ≤ 255
  · rw [if_neg (by omega), if_pos hv, recordOctets]
    have : extendedBit flags = false := Bool.eq_false_iff.mpr (fun h => extendedBit_eq_true.mp h he)
    rw [this]
    simp [toBe_one]
  · rw [if_pos (by omega), if_neg hv, recordOctets]
    have : extendedBit (flags ||| 0x10) = true := by
      rw [extendedBit_eq_true]
      revert flags; decide
    rw [this, if_pos rfl, toBe_two]

/-- A body too long for any record (R175). -/
theorem encodeRecord_too_long {flags t : Byte} {v : Bytes} (h : 65535 < v.length) :
    encodeRecord flags t v = .error (err .attrTooLong t.toNat) := by
  unfold encodeRecord
  rw [raiseIf_bind, if_pos (by simpa using h)]

theorem expectedFlags_not_extended (t : AttrType) : expectedFlags t &&& 0x10 = 0 := by
  cases t <;> decide

/-! ### The record envelope, the segment and the prefix at the cursor -/

/-- What `read_record` answers is the record its octets make, and what follows it (R161). -/
theorem readRecord_eq_ok {s rest : Bytes} {f : RecForm} (h : readRecord s = .ok (f, rest)) :
    s = recordOctets f.flags f.type f.body ++ rest ∧ recordOctets f.flags f.type f.body ≠ [] := by
  match s with
  | [] => cases h
  | [_] => cases h
  | fl :: t :: afterType =>
    simp only [readRecord] at h
    obtain ⟨⟨lenOctets, afterLen⟩, h1, g⟩ := bind_eq_ok.mp h
    clear h
    rename' g => h
    obtain ⟨⟨v, rest'⟩, h2, g⟩ := bind_eq_ok.mp h
    clear h
    rename' g => h
    obtain ⟨rfl, hl⟩ := readOctets_eq_ok.mp h1
    obtain ⟨rfl, hv⟩ := readOctets_eq_ok.mp h2
    cases h
    refine ⟨?_, by simp [recordOctets]⟩
    simp only [recordOctets]
    have : toBe (if extendedBit fl then 2 else 1) v.length = lenOctets := by rw [hv, ← hl]; exact toBe_beNat _
    rw [this]
    simp

/-- A record whose body fits its length field reads back (R161). -/
theorem readRecord_recordOctets (flags t : Byte) (v rest : Bytes)
    (h : v.length ≤ if extendedBit flags then 65535 else 255) :
    readRecord (recordOctets flags t v ++ rest) = .ok ({ flags := flags, type := t, body := v }, rest) := by
  simp only [recordOctets, List.cons_append, List.nil_append, List.append_assoc, readRecord]
  set n := if extendedBit flags then 2 else 1 with hn
  have h1 : readOctets n (err .recordTruncated t.toNat) (toBe n v.length ++ (v ++ rest))
      = .ok (toBe n v.length, v ++ rest) := readOctets_eq_ok.mpr ⟨rfl, toBe_length _ _⟩
  rw [h1, ok_bind]
  have h2 : beNat (toBe n v.length) = v.length := by
    apply beNat_toBe_of_lt
    rw [hn]
    split at h <;> simp_all <;> omega
  simp only [h2, readOctets_append, ok_bind]

/-- What `decode_segments` reads in one round is the segment its octets make, or a malformed type (R214). -/
theorem readSegment_eq_ok {w : Nat} {t : AttrType} {s rest : Bytes} {f : SegForm} (hw : w = 2 ∨ w = 4)
    (h : readSegment w t s = .ok (f, rest)) :
    (∃ seg, f = .known seg ∧ segmentFits w seg ∧ s = segmentOctets w seg ++ rest) ∨
      ∃ st c, f = .other st c ∧ segKindOf st = none ∧ s = st :: c :: rest := by
  match s with
  | [] => cases h
  | [_] => cases h
  | st :: c :: r =>
    simp only [readSegment] at h
    split at h
    · next hk => cases h; exact .inr ⟨st, c, rfl, hk, rfl⟩
    · next kind hk =>
      obtain ⟨⟨asns, rest'⟩, h1, g⟩ := bind_eq_ok.mp h
      clear h
      rename' g => h
      obtain ⟨rfl, hl⟩ := readOctets_eq_ok.mp h1
      cases h
      have hc := c.isLt
      have hlen : ∀ n (bs : Bytes), bs.length = n * w → ∀ x ∈ chunks w n bs, x.length = w := by
        intro n
        induction n with
        | zero => intro bs _ x hx; simp [chunks] at hx
        | succ n ih =>
          intro bs hbs x hx
          rw [Nat.succ_mul] at hbs
          rcases List.mem_cons.mp hx with rfl | hx
          · rw [List.length_take]; omega
          · exact ih (bs.drop w) (by rw [List.length_drop]; omega) x hx
      have hlen := hlen c.toNat asns hl
      refine .inl ⟨_, rfl, ⟨by simp; omega, ?_⟩, ?_⟩
      · intro a ha
        simp only [List.mem_map] at ha
        obtain ⟨x, hx, rfl⟩ := ha
        have := beNat_lt x
        rw [hlen x hx] at this
        calc (readAsn x).toNat ≤ beNat x := by rw [readAsn, be, BitVec.toNat_ofNat]; exact Nat.mod_le _ _
          _ < 256 ^ w := this
      · simp only [segmentOctets, List.map_map, chunks_length, List.length_map]
        rw [(segKindOf_eq_some.mp hk), BitVec.ofNat_toNat, BitVec.setWidth_eq]
        have : (chunks w c.toNat asns).map ((fun a : Asn => toBe w a.toNat) ∘ readAsn) = chunks w c.toNat asns := by
          conv => rhs; rw [← List.map_id (chunks w c.toNat asns)]
          apply List.map_congr_left
          intro x hx
          simp only [Function.comp, id, readAsn]
          have := toBe_be (w := 32) x (by rw [hlen x hx]; rcases hw with rfl | rfl <;> norm_num)
          rwa [hlen x hx] at this
        rw [this, flatten_chunks _ _ _ hl]
        simp

/-- A segment that the wire can hold reads back (R214). -/
theorem readSegment_segmentOctets {w : Nat} (t : AttrType) (seg : AsPathSegment) (rest : Bytes)
    (h : segmentFits w seg) : readSegment w t (segmentOctets w seg ++ rest) = .ok (.known seg, rest) := by
  obtain ⟨hc, hm⟩ := h
  have hcount : (BitVec.ofNat 8 seg.members.length).toNat = seg.members.length := by
    rw [BitVec.toNat_ofNat]; exact Nat.mod_eq_of_lt (by omega)
  simp only [segmentOctets, List.cons_append, List.nil_append, readSegment, segKindOf_segCode, hcount]
  have hlen : ∀ r ∈ seg.members.map (fun a : Asn => toBe w a.toNat), r.length = w := by
    intro r hr
    simp only [List.mem_map] at hr
    obtain ⟨a, -, rfl⟩ := hr
    simp
  have hl : (seg.members.map (fun a : Asn => toBe w a.toNat)).flatten.length = seg.members.length * w := by
    rw [length_flatten_of_length _ w hlen, List.length_map]
  have h1 := readOctets_eq_ok (n := seg.members.length * w) (e := err .truncated (attrCode t).toNat)
    (bs := (seg.members.map (fun a : Asn => toBe w a.toNat)).flatten ++ rest) (rest := rest)
    (v := (seg.members.map (fun a : Asn => toBe w a.toNat)).flatten) |>.mpr ⟨rfl, hl⟩
  rw [h1, ok_bind]
  have h2 := chunks_flatten w _ [] hlen
  rw [List.append_nil, List.length_map] at h2
  simp only [h2, List.map_map]
  have h3 : seg.members.map (readAsn ∘ fun a : Asn => toBe w a.toNat) = seg.members := by
    conv => rhs; rw [← List.map_id seg.members]
    apply List.map_congr_left
    intro a ha
    apply BitVec.eq_of_toNat_eq
    simp only [Function.comp, readAsn, be, id, BitVec.toNat_ofNat]
    rw [beNat_toBe_of_lt (hm a ha)]
    exact Nat.mod_eq_of_lt a.isLt
  rw [h3]

/-- One round of the record loop consumes at least one octet. -/
theorem consumes_record {σ : Type} (f : σ → RecForm → Except CodecError σ) :
    Consumes (fun w s => do
      let (r, rest) ← readRecord s
      let w' ← f w r
      .ok (w', rest)) := by
  intro acc b bs acc' rest h
  obtain ⟨⟨r, rest'⟩, h1, g⟩ := bind_eq_ok.mp h
  clear h
  rename' g => h
  obtain ⟨w', -, g⟩ := bind_eq_ok.mp h
  clear h
  rename' g => h
  cases h
  obtain ⟨h2, h3⟩ := readRecord_eq_ok h1
  have h4 := congrArg List.length h2
  have h5 : 0 < (recordOctets r.flags r.type r.body).length := List.length_pos_iff.mpr h3
  simp only [List.length_cons, List.length_append] at h4
  omega

/-- One round of the segment loop consumes at least one octet. -/
theorem consumes_segment {σ : Type} (w : Nat) (t : AttrType) (hw : w = 2 ∨ w = 4)
    (f : σ → SegForm → Except CodecError σ) :
    Consumes (fun acc s => do
      let (r, rest) ← readSegment w t s
      let acc' ← f acc r
      .ok (acc', rest)) := by
  intro acc b bs acc' rest h
  obtain ⟨⟨r, rest'⟩, h1, g⟩ := bind_eq_ok.mp h
  clear h
  rename' g => h
  obtain ⟨w', -, g⟩ := bind_eq_ok.mp h
  clear h
  rename' g => h
  cases h
  rcases readSegment_eq_ok hw h1 with ⟨seg, -, -, h2⟩ | ⟨st, c, -, -, h2⟩
  · have := congrArg List.length h2
    simp [segmentOctets] at this
    omega
  · have := congrArg List.length h2
    simp at this
    omega

/-- What `decode_prefix` answers is a canonical prefix of at most `w` bits, and the octets after the ones it has (R230). -/
theorem decodePrefix_consumes {w : Nat} {b : Byte} {bs rest : Bytes} {p : Prefix w}
    (h : decodePrefix w (b :: bs) = .ok (p, rest)) :
    p.len = b.toNat ∧ p.len ≤ w ∧ ∃ raw, raw.length = ceil8 b.toNat ∧ bs = raw ++ rest ∧
      hasTrailingBits b.toNat raw = false ∧
      p.addr = be w (raw ++ List.replicate (w / 8 - ceil8 b.toNat) 0) := by
  simp only [decodePrefix] at h
  rw [raiseIf_bind] at h
  split at h
  · cases h
  · next h1 =>
    obtain ⟨⟨raw, rest'⟩, h2, g⟩ := bind_eq_ok.mp h
    clear h
    rename' g => h
    obtain ⟨rfl, hl⟩ := readOctets_eq_ok.mp h2
    rw [raiseIf_bind] at h
    split at h
    · cases h
    · next h3 =>
      cases h
      exact ⟨rfl, by simpa using h1, raw, hl, rfl, by simpa using h3, rfl⟩

/-- One round of the prefix loop consumes at least one octet. -/
theorem consumes_prefix (w : Nat) :
    Consumes (fun (ps : List (Prefix w)) s => do
      let (p, rest) ← decodePrefix w s
      .ok (ps ++ [p], rest)) := by
  intro acc b bs acc' rest h
  obtain ⟨⟨p, rest'⟩, h1, g⟩ := bind_eq_ok.mp h
  clear h
  rename' g => h
  cases h
  obtain ⟨-, -, raw, -, rfl, -⟩ := decodePrefix_consumes h1
  simp

/-- The width of a path's members is 2 or 4 (R212). -/
theorem pathWidth_two_or_four (cx : Cxt) (k : PathKind) : pathWidth cx k = 2 ∨ pathWidth cx k = 4 := by
  cases k
  · unfold pathWidth asnWidth; cases cx.as4 <;> simp
  · exact .inr rfl

end Sys2Proof.Machine
end

