-- ==== Sys2Proof/Laws/Forms.lean ====
section
/-! SUPPORT. What the wire forms and the steps over them do, said once for all forms of a kind: a record at the cursor, a record
emitted, a segment, a family, a message. -/

namespace Sys2Proof.Machine

open Sys2Proof

/-! ### Records -/

/-- Every record form inside a DECODE does what `dispatch_attr` does with its record (R160 to R163). -/
theorem exec_record_atRecords (f : RecForm) (cx : Cxt) (w : UpdWork) (s : State) :
    exec f.toInstr (atRecords cx w s) =
      match dispatchAttr cx f w.recs with
      | .ok r => .next (atRecords cx { w with recs := r } s)
      | .error e => .next (raiseError lastDecode e s) := by
  have key : ∀ dec enc, runRecord dec enc (atRecords cx w s) =
      match dec cx w.recs with
      | .ok r => .next (atRecords cx { w with recs := r } s)
      | .error e => .next (raiseError lastDecode e s) := by
    intro dec enc
    cases h : dec cx w.recs with
    | ok r => exact runRecord_atRecords_ok h
    | error e => exact runRecord_atRecords_error h
  unfold RecForm.toInstr dispatchAttr
  cases attrTypeOf f.type with
  | none =>
    show exec (if optionalBit f.flags then _ else _) _ = _
    split
    · simp only [exec, execAttrUnrecognizedOptional, key]
    · simp only [exec, execAttrUnrecognizedWellKnown, key]
  | some t => cases t <;> simp only [exec, execAttrOrigin, execAttrAsPath, execAttrNextHop, execAttrMultiExitDisc, execAttrLocalPref,
      execAttrAtomicAggregate, execAttrAggregator, execAttrCommunities, execAttrOriginatorId, execAttrClusterList,
      execAttrMpReachNlri, execAttrMpUnreachNlri, execAttrExtendedCommunities, execAttrAs4Path, execAttrAs4Aggregator,
      execAttrIpv6ExtendedCommunities, execAttrLargeCommunity, key]

/-- The record form of a recognized type inside an ENCODE appends its record (R175). -/
theorem exec_record_atEmission (t : AttrType) (flags : Byte) (v : Bytes) (cx : Cxt) (w : EncWork) (s : State) :
    exec (RecForm.toInstr { flags := flags, type := attrCode t, body := v }) (atEmission cx w s) =
      match encodeRecord flags (attrCode t) v with
      | .ok bs => .next (atEmission cx (appendOut bs w) s)
      | .error e => .next (raiseError lastEncode e s) := by
  have key : ∀ dec, runRecord dec (encodeRecord flags (attrCode t) v) (atEmission cx w s) =
      match encodeRecord flags (attrCode t) v with
      | .ok bs => .next (atEmission cx (appendOut bs w) s)
      | .error e => .next (raiseError lastEncode e s) := by
    intro dec
    cases h : encodeRecord flags (attrCode t) v with
    | ok bs => exact runRecord_atEmission_ok rfl
    | error e => exact runRecord_atEmission_error rfl
  unfold RecForm.toInstr
  rw [attrTypeOf_attrCode]
  cases t <;> simp only [exec, execAttrOrigin, execAttrAsPath, execAttrNextHop, execAttrMultiExitDisc, execAttrLocalPref,
      execAttrAtomicAggregate, execAttrAggregator, execAttrCommunities, execAttrOriginatorId, execAttrClusterList,
      execAttrMpReachNlri, execAttrMpUnreachNlri, execAttrExtendedCommunities, execAttrAs4Path, execAttrAs4Aggregator,
      execAttrIpv6ExtendedCommunities, execAttrLargeCommunity] <;> exact key _

/-- The form of an unrecognized optional record inside an ENCODE appends its record (R176). -/
theorem exec_unrecognized_atEmission (flags t : Byte) (v : Bytes) (cx : Cxt) (w : EncWork) (s : State) :
    exec (.attrUnrecognizedOptional flags t v) (atEmission cx w s) =
      match encodeRecord flags t v with
      | .ok bs => .next (atEmission cx (appendOut bs w) s)
      | .error e => .next (raiseError lastEncode e s) := by
  simp only [exec, execAttrUnrecognizedOptional]
  cases h : encodeRecord flags t v with
  | ok bs => exact runRecord_atEmission_ok rfl
  | error e => exact runRecord_atEmission_error rfl

/-- A record the engine can emit: a recognized type, or O = 1 (R140). -/
theorem exec_form_atEmission (f : RecForm) (h : (∃ t, f.type = attrCode t) ∨ f.flags &&& 0x80 ≠ 0) (cx : Cxt) (w : EncWork)
    (s : State) :
    exec f.toInstr (atEmission cx w s) =
      match encodeRecord f.flags f.type f.body with
      | .ok bs => .next (atEmission cx (appendOut bs w) s)
      | .error e => .next (raiseError lastEncode e s) := by
  obtain ⟨fl, t, v⟩ := f
  cases ht : attrTypeOf t with
  | some a =>
    obtain rfl := attrTypeOf_eq_some.mp ht
    exact exec_record_atEmission a fl v cx w s
  | none =>
    have ho : optionalBit fl = true := by
      rcases h with ⟨a, ha⟩ | h
      · simp only at ha; subst ha; simp at ht
      · exact optionalBit_eq_true.mpr h
    have : RecForm.toInstr { flags := fl, type := t, body := v } = .attrUnrecognizedOptional fl t v := by
      unfold RecForm.toInstr
      simp only [ht, ho, if_pos]
    rw [this]
    exact exec_unrecognized_atEmission fl t v cx w s

/-! ### Steps inside a command -/

/-- A step in an attribute section that is not exhausted: the envelope, then the record's form (R160). -/
theorem step_atRecords {cx : Cxt} {w : UpdWork} {s : State} (h : w.cur < w.sec.length) :
    step (atRecords cx w s) =
      match readRecord (w.sec.drop w.cur) with
      | .error e => .next (raiseError lastDecode e s)
      | .ok (f, rest) => exec f.toInstr (atRecords cx { w with cur := w.sec.length - rest.length } s) := by
  unfold step fetch atRecords
  simp only [setEngine_engine, fetchDecode]
  rw [if_neg (by omega), if_neg (by omega)]
  cases readRecord (w.sec.drop w.cur) with
  | error e => rfl
  | ok p => rfl

/-- A step at the end of an attribute section: the rest of the UPDATE (R130). -/
theorem step_atRecords_end {cx : Cxt} {w : UpdWork} {s : State} (h : w.cur = w.sec.length) :
    step (atRecords cx w s) = .next (endDecode (do
      let u ← finishDecodeUpdate w.unreach (some w.recs.attrs) w.recs.side w.nlri
      .ok (.update u)) s) := by
  unfold step fetch atRecords
  simp only [setEngine_engine, fetchDecode]
  rw [if_neg (by omega), if_pos h]
  simp only [endDecode_setEngine]

/-- A step at the next slot of an emission: its record is built and appended, an absent one is skipped (R142). -/
theorem step_atEmission {cx : Cxt} {e : EncWork} {rest : List Slot} {slot : Slot} {s : State}
    (h : e.todo = slot :: rest) :
    step (atEmission cx e s) =
      match slotForm cx e.upd e.attrs slot with
      | .error x => .next (raiseError lastEncode x s)
      | .ok none => .next (atEmission cx { e with todo := rest } s)
      | .ok (some f) => exec f.toInstr (atEmission cx { e with todo := rest } s) := by
  unfold step fetch atEmission
  simp only [setEngine_engine, fetchEncode, h]
  cases slotForm cx e.upd e.attrs slot with
  | error x => rfl
  | ok o => cases o <;> rfl

/-- A step that emits the record of a recognized type whose body is built (R142, R175). -/
theorem step_emits_known {cx : Cxt} {e : EncWork} {rest : List Slot} {t : AttrType} {v : Bytes} {s : State}
    (h : e.todo = .known t :: rest) (hf : slotForm cx e.upd e.attrs (.known t) = .ok (some (knownForm t v)))
    (hv : v.length ≤ 65535) :
    step (atEmission cx e s) = .next
      (atEmission cx (appendOut (wireRecord (expectedFlags t) (attrCode t) v) { e with todo := rest }) s) := by
  rw [step_atEmission h, hf]
  show exec (RecForm.toInstr { flags := expectedFlags t, type := attrCode t, body := v }) _ = _
  rw [exec_record_atEmission, encodeRecord_eq (expectedFlags_not_extended t) hv]

/-- A step that finds an error in building the record ends the command (R283). -/
theorem step_emission_error {cx : Cxt} {e : EncWork} {rest : List Slot} {slot : Slot} {x : CodecError} {s : State}
    (h : e.todo = slot :: rest) (hf : slotForm cx e.upd e.attrs slot = .error x) :
    step (atEmission cx e s) = .next (raiseError lastEncode x s) := by
  rw [step_atEmission h, hf]

/-! ### Segments -/

/-- The loop of `decode_segments` over whole segments: each is appended, then the rest of the body (R214). -/
theorem scan_segments (cx : Cxt) (k : PathKind) (segs : List AsPathSegment) (tail : Bytes) (acc : List AsPathSegment)
    (h : ∀ g ∈ segs, segmentFits (pathWidth cx k) g) :
    scan (fun segs s => readSegment (pathWidth cx k) (pathAttr k) s >>= fun p =>
        applySegment k segs p.1 >>= fun segs' => .ok (segs', p.2)) acc
      ((segs.map (segmentOctets (pathWidth cx k))).flatten ++ tail) =
    scan (fun segs s => readSegment (pathWidth cx k) (pathAttr k) s >>= fun p =>
        applySegment k segs p.1 >>= fun segs' => .ok (segs', p.2)) (acc ++ segs) tail := by
  induction segs generalizing acc with
  | nil => simp
  | cons g gs ih =>
    simp only [List.map_cons, List.flatten_cons, List.append_assoc]
    rw [scan_step (consumes_segment _ _ (pathWidth_two_or_four cx k) _) _ (by simp [segmentOctets]),
      readSegment_segmentOctets _ _ _ (h g (by simp)), ok_bind]
    show scan _ (acc ++ [g]) _ = _
    rw [ih _ (fun x hx => h x (by simp [hx])), List.append_assoc, List.singleton_append]

/-- `decode_segments` of whole segments, then a rest (R214). -/
theorem decodeSegments_append (cx : Cxt) (k : PathKind) (segs : List AsPathSegment) (tail : Bytes)
    (h : ∀ g ∈ segs, segmentFits (pathWidth cx k) g) :
    decodeSegments cx k ((segs.map (segmentOctets (pathWidth cx k))).flatten ++ tail) =
      scan (fun segs s => readSegment (pathWidth cx k) (pathAttr k) s >>= fun p =>
        applySegment k segs p.1 >>= fun segs' => .ok (segs', p.2)) segs tail := by
  have := scan_segments cx k segs tail [] h
  rw [List.nil_append] at this
  exact this

/-- `write_asn` of an AS number that fits (R211). -/
theorem writeAsn_fits {w : Nat} (t : AttrType) (hw : w = 2 ∨ w = 4) {a : Asn} (h : a.toNat < 256 ^ w) :
    writeAsn w t a = .ok (toBe w a.toNat) := by
  unfold writeAsn
  rw [raiseIf_bind, if_neg]
  rcases hw with rfl | rfl <;> simp <;> omega

/-- One round of `encode_segments` on a segment the wire can hold (R215). -/
theorem encodeSegment_fits (cx : Cxt) (k : PathKind) (g : AsPathSegment) (h : segmentFits (pathWidth cx k) g) :
    encodeSegment cx k g = .ok (segmentOctets (pathWidth cx k) g) := by
  have key : ∀ ms : List Asn, (∀ a ∈ ms, a.toNat < 256 ^ pathWidth cx k) →
      emitAll (writeAsn (pathWidth cx k) (pathAttr k)) ms
        = .ok (ms.map (fun a => toBe (pathWidth cx k) a.toNat)).flatten := by
    intro ms
    induction ms with
    | nil => intro _; rfl
    | cons a ms ih =>
      intro hm
      rw [emitAll_cons, writeAsn_fits _ (pathWidth_two_or_four cx k) (hm a (by simp)), ok_bind,
        ih (fun x hx => hm x (by simp [hx]))]
      rfl
  unfold encodeSegment
  rw [raiseIf_bind, if_neg (by have := h.1; simp; omega), key _ h.2]
  rfl

/-- `encode_segments` of segments the wire can hold (R215). -/
theorem encodeSegments_fits (cx : Cxt) (k : PathKind) (segs : List AsPathSegment)
    (h : ∀ g ∈ segs, segmentFits (pathWidth cx k) g) :
    encodeSegments cx k segs = .ok (segs.map (segmentOctets (pathWidth cx k))).flatten := by
  unfold encodeSegments
  induction segs with
  | nil => rfl
  | cons g gs ih =>
    rw [emitAll_cons, encodeSegment_fits _ _ _ (h g (by simp)), ok_bind, ih (fun x hx => h x (by simp [hx]))]
    rfl

end Sys2Proof.Machine
end

