-- ==== Sys2Proof/Laws/Host.lean ====
section
/-! SUPPORT. What each host access can do: where it answers a next state, which one (10_state.md R21 to R29, R40;
60_exceptions.md R286). -/

namespace Sys2Proof.Machine

open Sys2Proof

@[simp] theorem regAt_regOffset (r : Reg) : regAt (regOffset r) = some r := by cases r <;> decide

theorem regAt_eq_some {offset : BitVec 12} {r : Reg} : regAt offset = some r ↔ offset = regOffset r := by
  constructor
  · intro h
    have := List.find?_some h
    exact (beq_iff_eq.mp this).symm
  · rintro rfl
    exact regAt_regOffset r

theorem hostReadReg_next {offset : BitVec 12} {s t : State} (h : hostReadReg offset s = .next t) :
    ∃ r w, offset = regOffset r ∧ regValue r s = some w ∧ t = see (.word w) s := by
  unfold hostReadReg at h
  split at h
  · cases h
  · split at h
    · cases h
    · rename_i r hr
      split at h
      · rename_i w hw
        cases h
        exact ⟨r, w, regAt_eq_some.mp hr, hw, rfl⟩
      · cases h

theorem hostWriteReg_next {offset : BitVec 12} {v : Word} {s t : State} (h : hostWriteReg offset v s = .next t) :
    (offset = regOffset .cxtCaps ∧ v.toNat < 16 ∧ t = { s with cxtCaps := some v }) ∨
    (offset = regOffset .cxtPeerType ∧ v.toNat < 2 ∧ t = { s with cxtPeerType := some v }) ∨
    (offset = regOffset .cxtPeerAs ∧ t = { s with cxtPeerAs := some v }) ∨
    (offset = regOffset .ibufLen ∧ v.toNat < 65536 ∧ v.toNat ≤ s.par.ibufCap ∧ t = { s with ibufLen := some v }) := by
  unfold hostWriteReg at h
  split at h
  · cases h
  · cases h
  · cases h
  · cases h
  · rename_i hr
    split at h
    · rename_i hv
      cases h
      exact .inl ⟨regAt_eq_some.mp hr, hv, rfl⟩
    · cases h
  · rename_i hr
    split at h
    · rename_i hv
      cases h
      exact .inr (.inl ⟨regAt_eq_some.mp hr, hv, rfl⟩)
    · cases h
  · rename_i hr
    cases h
    exact .inr (.inr (.inl ⟨regAt_eq_some.mp hr, rfl⟩))
  · rename_i hr
    split at h
    · cases h
    · split at h
      · cases h
      · rename_i h1 h2
        cases h
        exact .inr (.inr (.inr ⟨regAt_eq_some.mp hr, Nat.lt_of_not_le h1, Nat.le_of_not_lt h2, rfl⟩))

theorem hostWriteIbuf_next {i : Half} {v : Byte} {s t : State} (h : hostWriteIbuf i v s = .next t) :
    i.toNat < s.par.ibufCap ∧ t = { s with ibuf := s.ibuf.write i.toNat v } := by
  unfold hostWriteIbuf at h
  split at h
  · cases h
  · rename_i hi
    cases h
    exact ⟨Nat.lt_of_not_le hi, rfl⟩

theorem hostReadIbuf_next {i : Half} {s t : State} (h : hostReadIbuf i s = .next t) :
    i.toNat < s.par.ibufCap ∧ ∃ b, s.ibuf.read i.toNat = some b ∧ t = see (.octet b) s := by
  unfold hostReadIbuf at h
  split at h
  · cases h
  · rename_i hi
    split at h
    · rename_i b hb
      cases h
      exact ⟨Nat.lt_of_not_le hi, b, hb, rfl⟩
    · cases h

theorem hostReadObuf_next {i : Half} {s t : State} (h : hostReadObuf i s = .next t) :
    i.toNat < s.obufLen.toNat ∧ ∃ b, s.obuf.read i.toNat = some b ∧ t = see (.octet b) s := by
  unfold hostReadObuf at h
  split at h
  · cases h
  · rename_i hi
    split at h
    · rename_i b hb
      cases h
      exact ⟨Nat.lt_of_not_le hi, b, hb, rfl⟩
    · cases h

theorem hostReadMsgOut_next {s t : State} (h : hostReadMsgOut s = .next t) :
    ∃ m, s.msgOut = some m ∧ t = see (.message m) s := by
  unfold hostReadMsgOut at h
  split at h
  · rename_i m hm
    cases h
    exact ⟨m, hm, rfl⟩
  · cases h

/-- A step between commands is the host's next access. -/
theorem fetch_idle {s : State} (h : s.engine = .idle) : fetch s = fetchHost s := by
  simp only [fetch, h]

theorem step_run {s s' : State} {i : Instr} (h : fetch s = .run i s') : step s = exec i s' := by
  simp only [step, h]

theorem step_done {s : State} {o : Host.Outcome State Fault Refusal} (h : fetch s = .done o) : step s = o := by
  simp only [step, h]

/-- A write to CMD runs the command it names (R22). -/
theorem step_command {s : State} {v : Word} {rest : List HostOp} (h : s.engine = .idle)
    (ht : s.host.todo = .writeReg cmdOffset v :: rest) : step s = exec (decodeCommand v) (popHost rest s) := by
  refine step_run ?_
  rw [fetch_idle h]
  simp only [fetchHost, ht, if_true]

/-- A write to another register. -/
theorem step_writeReg {s : State} {offset : BitVec 12} {v : Word} {rest : List HostOp} (h : s.engine = .idle)
    (ht : s.host.todo = .writeReg offset v :: rest) (ho : offset ≠ cmdOffset) :
    step s = hostWriteReg offset v (popHost rest s) := by
  refine step_done ?_
  rw [fetch_idle h]
  simp only [fetchHost, ht, if_neg ho]

end Sys2Proof.Machine
end

