-- ==== Sys2Proof/Laws/Prefixes.lean ====
section
/-! SUPPORT. The prefix operations as equations (44_nlri.md R230 to R233), and the family at the start of a multiprotocol body
(R236, R237, R239). -/

namespace Sys2Proof.Machine

open Sys2Proof

/-- `decode_prefix` on a section that has a length octet: its three checks in order, then the prefix. -/
theorem decodePrefix_cons (w : Nat) (l : Byte) (rest : Bytes) : decodePrefix w (l :: rest) =
    if w < l.toNat then .error (err .bitlenTooLong l.toNat)
    else if rest.length < ceil8 l.toNat then .error (err .overrun l.toNat)
    else if hasTrailingBits l.toNat (rest.take (ceil8 l.toNat)) = true then .error (err .trailingBits l.toNat)
    else .ok ({ addr := be w (rest.take (ceil8 l.toNat) ++ List.replicate (w / 8 - ceil8 l.toNat) 0), len := l.toNat },
      rest.drop (ceil8 l.toNat)) := by
  by_cases h1 : w < l.toNat
  · simp [decodePrefix, h1]
  · by_cases h2 : rest.length < ceil8 l.toNat
    · simp [decodePrefix, readOctets, h1, h2]
    · by_cases h3 : hasTrailingBits l.toNat (rest.take (ceil8 l.toNat)) = true
      · simp [decodePrefix, readOctets, h1, h2, h3]
      · simp [decodePrefix, readOctets, h1, h2, h3]

/-- The masked address as a number (R232). -/
theorem maskedAddr_toNat {w : Nat} (p : Prefix w) :
    (maskedAddr p).toNat = p.addr.toNat - p.addr.toNat % 2 ^ (w - p.len) := by
  unfold maskedAddr
  rw [BitVec.toNat_ofNat]
  exact Nat.mod_eq_of_lt (Nat.lt_of_le_of_lt (Nat.sub_le _ _) p.addr.isLt)

theorem encodePrefix_too_long {w : Nat} {p : Prefix w} (h : w < p.len) :
    encodePrefix p = .error (err .prefixLen (min p.len 65535)) := by
  simp [encodePrefix, h]

theorem encodePrefix_ok {w : Nat} {p : Prefix w} (h : p.len ≤ w) :
    encodePrefix p = .ok (BitVec.ofNat 8 p.len :: (toBe (w / 8) (maskedAddr p).toNat).take (ceil8 p.len)) := by
  simp [encodePrefix, Nat.not_lt.mpr h]

@[simp] theorem decodePrefixList_nil (w : Nat) : decodePrefixList w [] = .ok [] := rfl

@[simp] theorem encodePrefixList_nil (w : Nat) : encodePrefixList ([] : List (Prefix w)) = .ok [] := rfl

theorem encodePrefixList_cons {w : Nat} (p : Prefix w) (ps : List (Prefix w)) : encodePrefixList (p :: ps) = (do
    let a ← encodePrefix p
    let b ← encodePrefixList ps
    .ok (a ++ b)) := rfl

/-- The family at the start of a multiprotocol body of at least 3 octets. -/
theorem readFamily_cons (k : MpKind) (a1 a2 safi : Byte) (rest : Bytes) :
    readFamily k (a1 :: a2 :: safi :: rest) = .ok { afi := a1 ++ a2, safi := safi, rest := rest } := by
  have h : ¬ (a1 :: a2 :: safi :: rest).length < 3 := by simp
  simp only [readFamily, decide_eq_false h, raiseIf_false, ok_bind]
  simp [octet, be_two]

theorem readFamily_short (k : MpKind) {v : Bytes} (h : v.length < 3) :
    readFamily k v = .error (err .bodyLength (attrCode (mpAttr k)).toNat) := by
  simp [readFamily, h]

theorem legalFamily_eq_true {cx : Cxt} {afi : Half} {safi : Byte} : legalFamily cx afi safi = true ↔
    (afi = 1 ∧ safi = 1 ∧ cx.mpIpv4 = true) ∨ (afi = 2 ∧ safi = 1 ∧ cx.mpIpv6 = true) := by
  simp [legalFamily, and_assoc]

end Sys2Proof.Machine
end

