-- ==== Sys2Proof/Machine/Program.lean ====
section
/-! DEFINITION. Host programs: the lines of the host assembly syntax and the accesses each stands for (30_encoding.md R89). The
text itself (R90) is no part of the machine (log entry 19). -/

namespace Sys2Proof.Machine

open Sys2Proof

/-- What a `WR` or `RD` line names: a register of R21 by its name, CMD among them, or an offset of the register space written as
a number, whether or not a register stands there (`RD 0x020` of vector CMD6). -/
inductive HostReg where
  | cmd
  | other (r : Reg)
  | offset (o : BitVec 12)
deriving DecidableEq, Repr

/-- A line of a host program (R89). `WR` and `RD` also name one octet of a buffer and the port MSG_OUT (programs P1, P3 and P4 of
95_test_vectors.md); MSG_IN is written by `PUT`. -/
inductive HostLine where
  | wr (reg : HostReg) (value : Word)
  | rd (reg : HostReg)
  | wrIbuf (i : Half) (value : Byte)
  | rdIbuf (i : Half)
  | wrObuf (i : Half) (value : Byte)
  | rdObuf (i : Half)
  | rdMsgOut
  | ctx (as4 v4 v6 : Bool) (peer : Option (Bool × Asn))
  | load (octets : Bytes)
  | put (m : Message)
  | decode
  | encode
  | clr
deriving DecidableEq, Repr

/-- The offset a line's register stands at (R21). -/
def hostRegOffset : HostReg → BitVec 12
  | .cmd => cmdOffset
  | .other r => regOffset r
  | .offset o => o

/-- The word of CXT_CAPS that a CTX line writes: `as4 | v4<<1 | v6<<2` (R89). -/
def capsWord (as4 v4 v6 : Bool) : Word :=
  BitVec.ofNat 32 (as4.toNat + v4.toNat * 2 + v6.toNat * 4)

/-- The writes of CXT_PEER_TYPE (0 Internal, 1 External, R27) and CXT_PEER_AS, where a CTX line has them. -/
def peerWrites : Option (Bool × Asn) → List HostOp
  | none => []
  | some (external, asn) =>
    [.writeReg (regOffset .cxtPeerType) (BitVec.ofNat 32 external.toNat), .writeReg (regOffset .cxtPeerAs) asn]

/-- The octet writes of a LOAD line, from an index of IBUF on. -/
def loadWrites : Nat → Bytes → List HostOp
  | _, [] => []
  | i, b :: bs => .writeIbuf (BitVec.ofNat 16 i) b :: loadWrites (i + 1) bs

/-- The accesses a line stands for, in order (R89). -/
def HostLine.expand : HostLine → List HostOp
  | .wr r v => [.writeReg (hostRegOffset r) v]
  | .rd r => [.readReg (hostRegOffset r)]
  | .wrIbuf i v => [.writeIbuf i v]
  | .rdIbuf i => [.readIbuf i]
  | .wrObuf i v => [.writeObuf i v]
  | .rdObuf i => [.readObuf i]
  | .rdMsgOut => [.readMsgOut]
  | .ctx as4 v4 v6 peer => .writeReg (regOffset .cxtCaps) (capsWord as4 v4 v6) :: peerWrites peer
  | .load bs => loadWrites 0 bs ++ [.writeReg (regOffset .ibufLen) (BitVec.ofNat 32 bs.length)]
  | .put m => [.writeMsgIn m]
  | .decode => [.writeReg cmdOffset 1]
  | .encode => [.writeReg cmdOffset 2]
  | .clr => [.writeReg cmdOffset 0]

/-- `for i in 0..n: RD OBUF[i]; WR IBUF[i]` (program P3, line 6): each octet is read and the same octet is written, `octets` being
what the reads return. -/
def copyLines : Nat → Bytes → List HostLine
  | _, [] => []
  | i, b :: bs => .rdObuf (BitVec.ofNat 16 i) :: .wrIbuf (BitVec.ofNat 16 i) b :: copyLines (i + 1) bs

/-- The accesses of a host program, line by line. -/
def programOps (lines : List HostLine) : List HostOp :=
  (lines.map HostLine.expand).flatten

/-- The state in which a host program stands to be run (log entry 6). -/
def State.withProgram (s : State) (lines : List HostLine) : State :=
  { s with host := { s.host with todo := programOps lines } }

end Sys2Proof.Machine
end

