-- ==== Sys2Proof/Tests/Slice0.lean ====
section
/-! SUPPORT. Tests. Expected words, values and errors are written out from the spec: from its encoding rules (30_encoding.md),
its rules' own examples, or the named vector of 95_test_vectors.md. -/

namespace Sys2Proof.Tests

open Sys2Proof Sys2Proof.Machine

/-! ### Well-formedness: each check refuses an ill-formed term -/

/-- Both families negotiated, 4-octet AS numbers. -/
def wideCxt : Cxt := { as4 := true, mpIpv4 := true, mpIpv6 := true }

/-- No family negotiated, 2-octet AS numbers. -/
def narrowCxt : Cxt := { as4 := false, mpIpv4 := false, mpIpv6 := false }

def wideForm : FormCtx := { par := {}, cx := wideCxt, path := .asPath, mp := .reach }

def narrowForm : FormCtx := { par := { maxMsgLen := 29, markerCheck := true }, cx := narrowCxt, path := .asPath, mp := .reach }

/-- The all-ones marker (R71). -/
def ones : Bytes := List.replicate 16 0xFF

theorem test_wf_command_word : (Instr.cmdReserved 2).wf wideForm = false ∧ (Instr.cmdReserved 3).wf wideForm = true := by
  decide

theorem test_wf_marker_length : (Instr.msgKeepalive [0xFF] []).wf wideForm = false ∧
    (Instr.msgKeepalive ones []).wf wideForm = true := by decide

theorem test_wf_marker_checked : (Instr.msgKeepalive (List.replicate 16 0) []).wf narrowForm = false ∧
    (Instr.msgKeepalive (List.replicate 16 0) []).wf wideForm = true := by decide

theorem test_wf_message_length : (Instr.msgOpen ones (List.replicate 11 0)).wf narrowForm = false ∧
    (Instr.msgOpen ones (List.replicate 10 0)).wf narrowForm = true := by decide

theorem test_wf_message_type : (Instr.msgUnassigned 5 ones []).wf wideForm = false ∧
    (Instr.msgUnassigned 6 ones []).wf wideForm = true := by decide

theorem test_wf_record_length (v : Bytes) (h : v.length = 256) : (Instr.attrClusterList 0x80 v).wf wideForm = false ∧
    (Instr.attrClusterList 0x90 v).wf wideForm = true := by
  simp [Instr.wf, recordWf, extendedBit, h]

theorem test_wf_record_type : (Instr.attrUnrecognizedOptional 0x80 1 []).wf wideForm = false ∧
    (Instr.attrUnrecognizedOptional 0x40 99 []).wf wideForm = false ∧
    (Instr.attrUnrecognizedWellKnown 0x80 99 []).wf wideForm = false ∧
    (Instr.attrUnrecognizedWellKnown 0x40 99 []).wf wideForm = true := by decide

theorem test_wf_segment_count (ms : List Asn) (h : ms.length = 256) : (Instr.segAsSet ms).wf wideForm = false ∧
    (Instr.segAsSet (List.replicate 3 0)).wf wideForm = true := by
  refine ⟨?_, by decide⟩
  simp [Instr.wf, segmentWf, h]

theorem test_wf_segment_members : (Instr.segAsSequence [65536]).wf narrowForm = false ∧
    (Instr.segAsSequence [65535]).wf narrowForm = true ∧ (Instr.segOther 2 0).wf wideForm = false := by decide

theorem test_wf_family : (Instr.familyIpv4Unicast []).wf narrowForm = false ∧
    (Instr.familyIpv4Unicast []).wf wideForm = true ∧ (Instr.familyOther 2 1 []).wf wideForm = false ∧
    (Instr.familyOther 2 1 []).wf narrowForm = true := by decide

/-! ### Decoding: every constructor from a word written out from its encoding (R70 to R83) -/

theorem test_decode_commands : decode wideForm (.word 0x00000000) = .ok (.clr, []) ∧
    decode wideForm (.word 0x00000001) = .ok (.decode, []) ∧ decode wideForm (.word 0x00000002) = .ok (.encode, []) ∧
    decode wideForm (.word 0x00000003) = .ok (.cmdReserved 3, []) ∧
    decode wideForm (.word 0x80000001) = .ok (.cmdReserved 0x80000001, []) := by decide

/-- HDR17: a 29-octet OPEN. -/
theorem test_decode_open : decode wideForm (.message (ones ++ [0x00, 0x1D, 0x01, 4, 253, 232, 0, 180, 1, 1, 1, 1, 0]))
    = .ok (.msgOpen ones [4, 253, 232, 0, 180, 1, 1, 1, 1, 0], []) := by decide

/-- L1.1: the empty UPDATE. -/
theorem test_decode_update : decode wideForm (.message (ones ++ [0x00, 0x17, 0x02, 0, 0, 0, 0]))
    = .ok (.msgUpdate ones [0, 0, 0, 0], []) := by decide

/-- HDR19, L1.2 and the ROUTE-REFRESH of R114. -/
theorem test_decode_short_kinds :
    decode wideForm (.message (ones ++ [0x00, 0x15, 0x03, 6, 2])) = .ok (.msgNotification ones [6, 2], []) ∧
    decode wideForm (.message (ones ++ [0x00, 0x13, 0x04])) = .ok (.msgKeepalive ones [], []) ∧
    decode wideForm (.message (ones ++ [0x00, 0x17, 0x05, 0, 1, 0, 1]))
      = .ok (.msgRouteRefresh ones [0, 1, 0, 1], []) ∧
    decode wideForm (.message (ones ++ [0x00, 0x13, 0x06])) = .ok (.msgUnassigned 6 ones [], []) := by decide

theorem test_decode_records_low :
    decode wideForm (.record [0x40, 1, 1, 0]) = .ok (.attrOrigin 0x40 [0], []) ∧
    decode wideForm (.record [0x40, 2, 0, 9]) = .ok (.attrAsPath 0x40 [], [9]) ∧
    decode wideForm (.record [0x40, 3, 4, 1, 2, 3, 4]) = .ok (.attrNextHop 0x40 [1, 2, 3, 4], []) ∧
    decode wideForm (.record [0x80, 4, 4, 0, 0, 1, 0xF4]) = .ok (.attrMultiExitDisc 0x80 [0, 0, 1, 0xF4], []) ∧
    decode wideForm (.record [0x40, 5, 4, 0, 0, 1, 0xF4]) = .ok (.attrLocalPref 0x40 [0, 0, 1, 0xF4], []) ∧
    decode wideForm (.record [0x40, 6, 0]) = .ok (.attrAtomicAggregate 0x40 [], []) ∧
    decode wideForm (.record [0xC0, 7, 1, 5]) = .ok (.attrAggregator 0xC0 [5], []) := by decide

theorem test_decode_records_middle :
    decode wideForm (.record [0xC0, 8, 4, 0xFD, 0xE8, 0, 100]) = .ok (.attrCommunities 0xC0 [0xFD, 0xE8, 0, 100], []) ∧
    decode wideForm (.record [0x80, 9, 4, 1, 1, 1, 1]) = .ok (.attrOriginatorId 0x80 [1, 1, 1, 1], []) ∧
    decode wideForm (.record [0x80, 10, 4, 3, 3, 3, 3]) = .ok (.attrClusterList 0x80 [3, 3, 3, 3], []) ∧
    decode wideForm (.record [0x80, 14, 3, 0, 1, 1]) = .ok (.attrMpReachNlri 0x80 [0, 1, 1], []) ∧
    decode wideForm (.record [0x90, 15, 0, 3, 0, 2, 1]) = .ok (.attrMpUnreachNlri 0x90 [0, 2, 1], []) := by decide

theorem test_decode_records_high :
    decode wideForm (.record [0xC0, 16, 0]) = .ok (.attrExtendedCommunities 0xC0 [], []) ∧
    decode wideForm (.record [0xC0, 17, 0]) = .ok (.attrAs4Path 0xC0 [], []) ∧
    decode wideForm (.record [0xC0, 18, 0]) = .ok (.attrAs4Aggregator 0xC0 [], []) ∧
    decode wideForm (.record [0xC0, 25, 0]) = .ok (.attrIpv6ExtendedCommunities 0xC0 [], []) ∧
    decode wideForm (.record [0xC0, 32, 0]) = .ok (.attrLargeCommunity 0xC0 [], []) ∧
    decode wideForm (.record [0x80, 11, 1, 7]) = .ok (.attrUnrecognizedOptional 0x80 11 [7], []) ∧
    decode wideForm (.record [0x40, 11, 1, 7]) = .ok (.attrUnrecognizedWellKnown 0x40 11 [7], []) := by decide

theorem test_decode_segments :
    decode wideForm (.segment [0x01, 0x02, 0, 0, 0, 1, 0, 1, 0, 0]) = .ok (.segAsSet [1, 65536], []) ∧
    decode narrowForm (.segment [0x02, 0x02, 0, 1, 0xFF, 0xFF]) = .ok (.segAsSequence [1, 65535], []) ∧
    decode narrowForm (.segment [0x00, 0xFF, 9]) = .ok (.segOther 0 255, [9]) := by decide

theorem test_decode_families :
    decode wideForm (.family [0x00, 0x01, 0x01, 9]) = .ok (.familyIpv4Unicast [9], []) ∧
    decode wideForm (.family [0x00, 0x02, 0x01]) = .ok (.familyIpv6Unicast [], []) ∧
    decode narrowForm (.family [0x00, 0x02, 0x01]) = .ok (.familyOther 2 1 [], []) ∧
    decode wideForm (.family [0x01, 0x01, 0x80, 9]) = .ok (.familyOther 257 128 [9], []) := by decide

/-- What the decoder rejects, by the spec's error: R104, R106, R161, R214, R237. -/
theorem test_decode_rejects :
    decode wideForm (.message ones) = .error (err .shortBuffer 16) ∧
    decode wideForm (.message (ones ++ [0x00, 0x12, 0x04])) = .error (err .badLength 18) ∧
    decode wideForm (.record [0x40]) = .error (err .recordTruncated 0) ∧
    decode wideForm (.record [0x40, 1, 2, 0]) = .error (err .recordOverrun 1) ∧
    decode wideForm (.segment [2]) = .error (err .truncated 2) ∧
    decode wideForm (.family [0, 1]) = .error (err .bodyLength 14) := by decide

theorem test_table_words : decodeTableWord 32 1 = some .decode ∧ decodeTableWord 8 0x0E = some (.attrMpReachNlri 0 []) ∧
    decodeTableWord 24 0x000201 = some (.familyIpv6Unicast []) ∧ decodeTableWord 16 0 = none := by decide

/-! ### States the tests run from -/

/-- The written octets of a buffer. -/
def cells (bs : Bytes) : Memory := Memory.writeAll [] 0 bs

/-- Reset, then CXT_CAPS and a message written. -/
def loaded (caps : Word) (bs : Bytes) : State :=
  { State.reset with cxtCaps := some caps, ibufLen := some (BitVec.ofNat 32 bs.length), ibuf := cells bs }

/-- Reset, then CXT_CAPS and MSG_IN written. -/
def holding (caps : Word) (m : Message) : State :=
  { State.reset with cxtCaps := some caps, msgIn := some m }

/-- Reset, then a host program placed. -/
def asked (ops : List HostOp) : State :=
  { State.reset with host := { todo := ops } }

/-- The ERR word after a run of one instruction; `none` where it stops. -/
def errAfter (o : Host.Outcome State Fault Refusal) : Option Word :=
  match o with
  | .next t => some t.err
  | _ => none

/-- The STATUS word after a run of one instruction. -/
def statusAfter (o : Host.Outcome State Fault Refusal) : Option Word :=
  match o with
  | .next t => some t.status
  | _ => none

/-- MSG_OUT after a run of one instruction. -/
def messageAfter (o : Host.Outcome State Fault Refusal) : Option Message :=
  match o with
  | .next t => t.msgOut
  | _ => none

/-- OBUF[0..OBUF_LEN) after a run of one instruction. -/
def octetsAfter (o : Host.Outcome State Fault Refusal) : Option Bytes :=
  match o with
  | .next t => t.obuf.readRange 0 t.obufLen.toNat
  | _ => none

/-- The record state of a DECODE in the attribute section after a run of one instruction. -/
def recordsAfter (o : Host.Outcome State Fault Refusal) : Option RecState :=
  match o with
  | .next t =>
    match t.engine with
    | .decoding _ (.records w) => some w.recs
    | _ => none
  | _ => none

/-- The octets an ENCODE has emitted after a run of one instruction. -/
def emittedAfter (o : Host.Outcome State Fault Refusal) : Option Bytes :=
  match o with
  | .next t =>
    match t.engine with
    | .encoding _ (.records w) => some w.out
    | .encoding _ (.segments _ _ _ out) => some out
    | _ => none
  | _ => none

/-- A DECODE in an attribute section with nothing read yet. -/
def inRecords (cx : Cxt) : State := atRecords cx (recordsOnly []) State.reset

/-- An ENCODE of an UPDATE with nothing emitted yet. -/
def emission (u : UpdateMsg) (a : Attrs) (todo : List Slot) : EncWork :=
  { upd := u, attrs := a, wd := [], todo := todo, out := [] }

def inEmission (cx : Cxt) : State := atEmission cx (emission {} {} []) State.reset

/-! ### The commands, one step each -/

theorem test_clr : exec .clr { State.reset with status := 0x6, err := 0x109, obufLen := 1 } = .next State.reset := rfl

/-- L1.2: DECODE of a KEEPALIVE; HDR11: type 0 is BAD_TYPE. -/
theorem test_decode_command :
    messageAfter (exec .decode (loaded 0 (ones ++ [0, 19, 4]))) = some .keepalive ∧
    errAfter (exec .decode (loaded 1 (ones ++ [0, 19, 0]))) = some 0x00000501 := by decide

/-- L1.1 and L1.2: ENCODE of the empty UPDATE and of a KEEPALIVE. -/
theorem test_encode_command :
    octetsAfter (exec .encode (holding 0 (.update {}))) = some (ones ++ [0, 23, 2, 0, 0, 0, 0]) ∧
    octetsAfter (exec .encode (holding 0 .keepalive)) = some (ones ++ [0, 19, 4]) := by decide

/-- R286 item 1: a reserved OP value, and a command's OP with another bit set. -/
theorem test_reserved_commands : step (asked [.writeReg 0 3]) = .refused .reservedCommand ∧
    step (asked [.writeReg 0 0x11]) = .refused .reservedCommand := ⟨rfl, rfl⟩

/-- A command word runs through `step` (R22). -/
theorem test_step_runs_command :
    statusAfter (step { loaded 0 (ones ++ [0, 19, 4]) with host := { todo := [.writeReg 0 1] } }) = some 0x5 := by decide

/-- R89: the lines CTX and LOAD, and the register writes they stand for. -/
theorem test_host_lines :
    HostLine.expand (.ctx true false true (some (true, 65000)))
      = [.writeReg 0x00C 0x5, .writeReg 0x010 1, .writeReg 0x014 65000] ∧
    HostLine.expand (.load [0xAB, 0xCD]) = [.writeIbuf 0 0xAB, .writeIbuf 1 0xCD, .writeReg 0x018 2] ∧
    (State.reset.withProgram [.put .keepalive, .encode]).host.todo = [.writeMsgIn .keepalive, .writeReg 0x000 2] := by
  decide

/-- Line 5 of program P1, line 6 of P3, one line of line 10 of P4, vector CMD6, and a write of OBUF. -/
theorem test_host_access_lines :
    programOps [.rdMsgOut] = [.readMsgOut] ∧
    programOps (copyLines 0 [0xFF, 4]) = [.readObuf 0, .writeIbuf 0 0xFF, .readObuf 1, .writeIbuf 1 4] ∧
    programOps [.rdObuf 18] = [.readObuf 18] ∧
    programOps [.rd (.offset 0x020), .wr (.offset 0xFFC) 0, .rd (.offset 0x006)]
      = [.readReg 0x020, .writeReg 0xFFC 0, .readReg 0x006] ∧
    programOps [.rdIbuf 0, .wrObuf 0 1] = [.readIbuf 0, .writeObuf 0 1] := by
  decide

/-! ### The message forms inside a command -/

def inMessage : State := atMessage wideCxt [] State.reset

/-- HDR16 and HDR17: 28 octets are too few for an OPEN, 29 are enough. -/
theorem test_open_form : errAfter (exec (.msgOpen ones (List.replicate 9 0)) inMessage) = some 0x001C0301 ∧
    messageAfter (exec (.msgOpen ones (List.replicate 10 0)) inMessage) = some (.openMsg (List.replicate 10 0)) := by
  decide

/-- HDR15: 22 octets are too few for an UPDATE; L1.1. -/
theorem test_update_form : errAfter (exec (.msgUpdate ones [0, 0, 0]) inMessage) = some 0x00160301 ∧
    messageAfter (exec (.msgUpdate ones [0, 0, 0, 0]) inMessage) = some (.update {}) := by decide

/-- HDR18 and HDR19. -/
theorem test_notification_form : errAfter (exec (.msgNotification ones [6]) inMessage) = some 0x00140301 ∧
    messageAfter (exec (.msgNotification ones [6, 2]) inMessage) = some (.notification [6, 2]) := by decide

/-- HDR14. -/
theorem test_keepalive_form : errAfter (exec (.msgKeepalive ones [0]) inMessage) = some 0x00140301 ∧
    messageAfter (exec (.msgKeepalive ones []) inMessage) = some .keepalive := by decide

/-- HDR20 and HDR21. -/
theorem test_route_refresh_form : errAfter (exec (.msgRouteRefresh ones [0, 1, 0]) inMessage) = some 0x00160301 ∧
    errAfter (exec (.msgRouteRefresh ones [0, 1, 0, 1, 0]) inMessage) = some 0x00180301 := by decide

/-- HDR12 and HDR13. -/
theorem test_unassigned_form : errAfter (exec (.msgUnassigned 6 ones []) inMessage) = some 0x00060501 ∧
    errAfter (exec (.msgUnassigned 255 ones []) inMessage) = some 0x00FF0501 := by decide

/-! ### The record forms inside a command -/

/-- R166: INCOMPLETE is 2, 3 is no ORIGIN. -/
theorem test_origin : (recordsAfter (exec (.attrOrigin 0x40 [2]) (inRecords wideCxt))).map (·.attrs.base.origin)
      = some (some .incomplete) ∧
    errAfter (exec (.attrOrigin 0x40 [3]) (inRecords wideCxt)) = some 0x00030106 := by decide

/-- R212's example: the same octets at both widths. -/
theorem test_as_path :
    (recordsAfter (exec (.attrAsPath 0x40 [2, 1, 0, 7, 2, 1, 2, 0]) (inRecords narrowCxt))).map (·.attrs.base.asPath)
      = some (some ⟨[⟨.sequence, [7]⟩, ⟨.sequence, [512]⟩]⟩) ∧
    (recordsAfter (exec (.attrAsPath 0x40 [2, 1, 0, 7, 2, 1, 2, 0]) (inRecords wideCxt))).map (·.attrs.base.asPath)
      = some (some ⟨[⟨.sequence, [459265]⟩, ⟨.sequence, []⟩]⟩) := by decide

theorem test_next_hop : (recordsAfter (exec (.attrNextHop 0x40 [1, 2, 3, 4]) (inRecords wideCxt))).map (·.side.nh)
      = some (some 0x01020304) ∧
    errAfter (exec (.attrNextHop 0x40 [1, 2, 3]) (inRecords wideCxt)) = some 0x00030103 := by decide

/-- R164: MULTI_EXIT_DISC with the transitive bit is an O and T mismatch. -/
theorem test_med : (recordsAfter (exec (.attrMultiExitDisc 0x80 [0, 0, 1, 0xF4]) (inRecords wideCxt))).map
      (·.attrs.base.med) = some (some 500) ∧
    errAfter (exec (.attrMultiExitDisc 0xC0 []) (inRecords wideCxt)) = some 0x00040102 := by decide

/-- R164: the Partial bit on a well-known attribute. -/
theorem test_local_pref : (recordsAfter (exec (.attrLocalPref 0x40 [0, 0, 1, 0xF4]) (inRecords wideCxt))).map
      (·.attrs.base.localPref) = some (some 500) ∧
    errAfter (exec (.attrLocalPref 0x60 []) (inRecords wideCxt)) = some 0x00050202 := by decide

theorem test_atomic_aggregate : (recordsAfter (exec (.attrAtomicAggregate 0x40 []) (inRecords wideCxt))).map
      (·.attrs.base.atomicAggregate) = some true ∧
    errAfter (exec (.attrAtomicAggregate 0x40 [0]) (inRecords wideCxt)) = some 0x00060103 := by decide

theorem test_aggregator : (recordsAfter (exec (.attrAggregator 0xE0 [0, 0, 3, 0xE8, 2, 2, 2, 2]) (inRecords wideCxt))).map
      (·.attrs.base.aggregator) = some (some ⟨1000, 0x02020202⟩) ∧
    errAfter (exec (.attrAggregator 0xC0 [0, 0, 3, 0xE8, 2, 2, 2, 2]) (inRecords narrowCxt)) = some 0x00070103 := by decide

theorem test_communities : (recordsAfter (exec (.attrCommunities 0xC0 [0xFD, 0xE8, 0, 100]) (inRecords wideCxt))).map
      (·.attrs.comm) = some (some [⟨65000, 100⟩]) ∧
    errAfter (exec (.attrCommunities 0xC0 [1, 2, 3]) (inRecords wideCxt)) = some 0x00080103 := by decide

theorem test_originator_id : (recordsAfter (exec (.attrOriginatorId 0x80 [1, 1, 1, 1]) (inRecords wideCxt))).map
      (·.attrs.base.originatorId) = some (some 0x01010101) ∧
    errAfter (exec (.attrOriginatorId 0x80 []) (inRecords wideCxt)) = some 0x00090103 := by decide

theorem test_cluster_list : (recordsAfter (exec (.attrClusterList 0x80 [3, 3, 3, 3, 0, 0, 0, 1]) (inRecords wideCxt))).map
      (·.attrs.base.clusterList) = some (some [0x03030303, 1]) ∧
    errAfter (exec (.attrClusterList 0x80 [1]) (inRecords wideCxt)) = some 0x000A0103 := by decide

/-- R237: an IPv6 next hop of 16 octets, then the reserved octet, ignored, then ::/0; R238: 20 is no next-hop length. -/
theorem test_mp_reach :
    (recordsAfter (exec (.attrMpReachNlri 0x80 ([0, 2, 1, 16] ++ List.replicate 15 0 ++ [1, 7, 0])) (inRecords wideCxt))).map
      (·.side.mpReach) = some (some (.ipv6Unicast [⟨0, 0⟩] 1 none)) ∧
    errAfter (exec (.attrMpReachNlri 0x80 ([0, 2, 1, 20])) (inRecords wideCxt)) = some 0x000E0203 := by decide

/-- R239: 10.0.0.0/8 withdrawn; R242: the same record is kept whole where the family is not negotiated. -/
theorem test_mp_unreach : (recordsAfter (exec (.attrMpUnreachNlri 0x80 [0, 1, 1, 8, 10]) (inRecords wideCxt))).map
      (·.side.mpUnreach) = some (some (.ipv4Unicast [⟨0x0A000000, 8⟩])) ∧
    (recordsAfter (exec (.attrMpUnreachNlri 0x80 [0, 1, 1, 8, 10]) (inRecords narrowCxt))).map (·.attrs.unknown)
      = some [⟨0x80, 15, [0, 1, 1, 8, 10]⟩] := by decide

theorem test_extended_communities :
    (recordsAfter (exec (.attrExtendedCommunities 0xC0 [0, 2, 0xFD, 0xE8, 0, 0, 0, 100]) (inRecords wideCxt))).map
      (·.attrs.extComm) = some (some [⟨0, 2, 0xFD, 0xE8, 0, 0, 0, 100⟩]) ∧
    errAfter (exec (.attrExtendedCommunities 0xC0 [1, 2, 3, 4]) (inRecords wideCxt)) = some 0x00100103 := by decide

/-- R216: AS4_PATH is 4 octets wide whatever the context. -/
theorem test_as4_path : (recordsAfter (exec (.attrAs4Path 0xC0 [1, 1, 0, 1, 0, 0]) (inRecords narrowCxt))).map
      (·.attrs.base.as4Path) = some (some ⟨[⟨.set, [65536]⟩]⟩) ∧
    errAfter (exec (.attrAs4Path 0xC0 [2, 1, 0, 1]) (inRecords narrowCxt)) = some 0x00110208 := by decide

theorem test_as4_aggregator :
    (recordsAfter (exec (.attrAs4Aggregator 0xC0 [0, 1, 0, 0, 9, 9, 9, 9]) (inRecords narrowCxt))).map
      (·.attrs.base.as4Aggregator) = some (some ⟨65536, 0x09090909⟩) ∧
    errAfter (exec (.attrAs4Aggregator 0xC0 [0, 1, 9, 9, 9, 9]) (inRecords narrowCxt)) = some 0x00120103 := by decide

theorem test_ipv6_extended_communities :
    (recordsAfter (exec (.attrIpv6ExtendedCommunities 0xC0 (List.replicate 15 0 ++ [1, 0, 0, 0, 100]))
      (inRecords wideCxt))).map (·.attrs.extv6Comm) = some (some [⟨1, 100⟩]) ∧
    errAfter (exec (.attrIpv6ExtendedCommunities 0xC0 (List.replicate 16 0)) (inRecords wideCxt)) = some 0x00190103 := by
  decide

theorem test_large_community :
    (recordsAfter (exec (.attrLargeCommunity 0xC0 [0, 0, 0xFD, 0xE8, 0, 0, 0, 1, 0, 0, 0, 2]) (inRecords wideCxt))).map
      (·.attrs.largeComm) = some (some [⟨65000, 1, 2⟩]) ∧
    errAfter (exec (.attrLargeCommunity 0xC0 [0]) (inRecords wideCxt)) = some 0x00200103 := by decide

/-- R165's example record on decode; R175: its octets on encode. -/
theorem test_unrecognized_optional :
    (recordsAfter (exec (.attrUnrecognizedOptional 0xC0 0x63 [0xAB, 0xCD]) (inRecords wideCxt))).map (·.attrs.unknown)
      = some [⟨0xC0, 0x63, [0xAB, 0xCD]⟩] ∧
    emittedAfter (exec (.attrUnrecognizedOptional 0xC0 0x63 [0xAB, 0xCD]) (inEmission wideCxt))
      = some [0xC0, 0x63, 2, 0xAB, 0xCD] := by decide

/-- R165 on decode, R140 on encode. -/
theorem test_unrecognized_well_known :
    errAfter (exec (.attrUnrecognizedWellKnown 0x40 0x63 []) (inRecords wideCxt)) = some 0x00630105 ∧
    errAfter (exec (.attrUnrecognizedWellKnown 0x40 0x63 []) (inEmission wideCxt)) = some 0x00630204 := by decide

/-! ### The segment and family forms inside a command -/

def inPath (cx : Cxt) : State := atPathEmission cx (emission {} {} []) .asPath [] [] State.reset

theorem test_segment_forms_encode :
    emittedAfter (exec (.segAsSet [1, 2]) (inPath narrowCxt)) = some [1, 2, 0, 1, 0, 2] ∧
    emittedAfter (exec (.segAsSequence [65536]) (inPath wideCxt)) = some [2, 1, 0, 1, 0, 0] ∧
    errAfter (exec (.segAsSequence [65536]) (inPath narrowCxt)) = some 0x0002010A := by decide

theorem test_segment_other :
    errAfter (exec (.segOther 3 0) (atSegments wideCxt (recordsOnly []) .as4Path [] 0 [] State.reset))
      = some 0x00110108 := by decide

theorem test_family_ipv4 :
    (recordsAfter (exec (.familyIpv4Unicast [4, 1, 2, 3, 4, 0, 0])
      (atFamily wideCxt (recordsOnly []) .reach 0x80 [] State.reset))).map (·.side.mpReach)
      = some (some (.ipv4Unicast [⟨0, 0⟩] 0x01020304)) ∧
    errAfter (exec (.familyIpv4Unicast [33]) (atFamily wideCxt (recordsOnly []) .unreach 0x80 [] State.reset))
      = some 0x00210107 := by decide

theorem test_family_ipv6 :
    errAfter (exec (.familyIpv6Unicast [129]) (atFamily wideCxt (recordsOnly []) .unreach 0x80 [] State.reset))
      = some 0x00810107 ∧
    emittedAfter (exec (.familyIpv6Unicast [3, 0x20]) (atGroupEmission wideCxt (emission {} {} [])
      (.unreach (.ipv6Unicast [⟨0x20000000000000000000000000000000, 3⟩])) State.reset))
      = some [0x80, 15, 5, 0, 2, 1, 3, 0x20] := by decide

theorem test_family_other :
    (recordsAfter (exec (.familyOther 2 2 [1]) (atFamily wideCxt (recordsOnly []) .reach 0x90 [] State.reset))).map
      (·.attrs.unknown) = some [⟨0x90, 14, [0, 2, 2, 1]⟩] ∧
    errAfter (exec (.familyOther 2 1 []) (atGroupEmission narrowCxt (emission {} {} [])
      (.reach (.ipv6Unicast [] 0 none)) State.reset)) = some 0x000E020A := by decide

/-- `withFetchWord`: a command word, a record and a family are what `step` runs next. -/
theorem test_fetch_words :
    step (State.reset.withFetchWord 32 1) = .refused .decodeInputUnwritten ∧
    step (State.reset.withFetchWord 8 0x0E) = .next (raiseError 1 (err .otMismatch 14) State.reset) ∧
    recordsAfter (step (State.reset.withFetchWord 24 0x000101))
      = some { side := { mpUnreach := some (.ipv4Unicast []) } } := ⟨rfl, rfl, rfl⟩

/-! ### Witnesses: for every statement of Certificates/Slice0/Obligations.lean that has hypotheses, values that meet them,
clause by clause, at the boundary of the clause's range -/

/-- A host program of one access, on a small legal machine: the smallest MAX_MSG_LEN and IBUF_CAP of R6. -/
def smallAsked (op : HostOp) : State :=
  { State.reset with par := { maxMsgLen := 29, ibufCap := 29 }, host := { todo := [op] } }

theorem witness_ResetValues : (asked [.reset]).engine = .idle ∧ (asked [.reset]).host.todo = .reset :: [] := by decide

/-- A loaded block about to decode a KEEPALIVE. -/
def aboutToDecode : State := { loaded 0xF (ones ++ [0, 19, 4]) with host := { todo := [.writeReg 0 1] } }

/-! Legal states: between commands, after an ENCODE, after a DECODE, after an error, and inside a command. -/

theorem inv_aboutToDecode : aboutToDecode.Inv :=
  { parLegal := by decide, ibufWf := by decide, ibufBelow := by decide, obufWf := by decide, obufBelow := by decide,
    statusLegal := by decide, errZero := by decide, errLegal := fun h => absurd h (by decide),
    obufLenLegal := by decide, obufLenResult := by decide, obufWritten := by decide, msgOutResult := by decide,
    capsLegal := (by intro w h; cases h; decide), peerTypeLegal := (by intro w h; cases h),
    ibufLenLegal := (by intro w h; cases h; decide), cursorLegal := trivial }

theorem inv_afterError : (raiseError 2 (err .family 14) State.reset).Inv :=
  { parLegal := by decide, ibufWf := by decide, ibufBelow := by decide, obufWf := by decide, obufBelow := by decide,
    statusLegal := by decide, errZero := by decide, errLegal := by intro _; unfold errFieldsLegal; decide,
    obufLenLegal := by decide, obufLenResult := by decide, obufWritten := by decide, msgOutResult := by decide,
    capsLegal := (by intro w h; cases h), peerTypeLegal := (by intro w h; cases h),
    ibufLenLegal := (by intro w h; cases h), cursorLegal := trivial }

theorem inv_midDecode : (atRecords wideCxt (recordsOnly [0x40, 1, 1, 0]) State.reset).Inv :=
  { parLegal := by decide, ibufWf := by decide, ibufBelow := by decide, obufWf := by decide, obufBelow := by decide,
    statusLegal := by decide, errZero := by decide, errLegal := fun h => absurd h (by decide),
    obufLenLegal := by decide, obufLenResult := by decide, obufWritten := by decide, msgOutResult := by decide,
    capsLegal := (by intro w h; cases h), peerTypeLegal := (by intro w h; cases h),
    ibufLenLegal := (by intro w h; cases h), cursorLegal := Nat.zero_le _ }

theorem witness_InvariantKept : aboutToDecode.Inv ∧ ∃ t, step aboutToDecode = .next t :=
  ⟨inv_aboutToDecode, _, rfl⟩

theorem witness_EngineAndHostKeepApart :
    (State.reset.engine = .idle ∧ State.reset.host.todo = []) ∧
    (∃ t, step (asked [.writeMsgIn .keepalive]) = .next t) ∧
    (inRecords wideCxt).engine ≠ .idle ∧ ∃ t, step (inRecords wideCxt) = .next t :=
  ⟨⟨rfl, rfl⟩, ⟨_, rfl⟩, by decide, ⟨_, rfl⟩⟩

theorem witness_HostWritesRegisters : (smallAsked (.writeReg 0x00C 15)).engine = .idle ∧
    step (smallAsked (.writeReg 0x00C 15)) = .next { smallAsked (.writeReg 0x00C 15) with cxtCaps := some 15, host := {} } ∧
    step (smallAsked (.writeReg 0x00C 16)) = .refused .reservedBits ∧
    step (smallAsked (.writeReg 0x010 1)) = .next { smallAsked (.writeReg 0x010 1) with cxtPeerType := some 1, host := {} } ∧
    step (smallAsked (.writeReg 0x010 2)) = .refused .reservedBits ∧
    step (smallAsked (.writeReg 0x014 0xFFFFFFFF))
      = .next { smallAsked (.writeReg 0x014 0) with cxtPeerAs := some 0xFFFFFFFF, host := {} } ∧
    step (smallAsked (.writeReg 0x018 29)) = .next { smallAsked (.writeReg 0x018 29) with ibufLen := some 29, host := {} } ∧
    step (smallAsked (.writeReg 0x018 30)) = .refused .lengthAboveCapacity ∧
    step (smallAsked (.writeReg 0x018 65536)) = .refused .reservedBits ∧
    step (smallAsked (.writeReg 0x004 0)) = .refused .writeToReadOnly ∧
    step (smallAsked (.writeReg 0x020 0)) = .refused .reservedOffset ∧
    step (smallAsked (.writeReg 0xFFF 0)) = .refused .reservedOffset ∧
    step (smallAsked (.writeReg 0x001 0)) = .refused .reservedOffset :=
  ⟨rfl, rfl, rfl, rfl, rfl, rfl, rfl, rfl, rfl, rfl, rfl, rfl, rfl⟩

theorem witness_HostReadsRegisters : (asked [.readReg 0x004]).engine = .idle ∧
    step (asked [.readReg 0x004]) = .next { asked [] with host := { seen := [.word 0] } } ∧
    step (asked [.readReg 0x00C]) = .refused .registerUnwritten ∧
    step (asked [.readReg 0x000]) = .refused .readOfCmd ∧ step (asked [.readReg 0x020]) = .refused .reservedOffset :=
  ⟨rfl, rfl, rfl, rfl, rfl⟩

/-- A block that holds a message in IBUF and the octets of an ENCODE in OBUF, and one that holds a MSG_OUT. -/
def withOctets (op : HostOp) : State :=
  { deliverOctets (ones ++ [0, 19, 4]) (loaded 7 [0xAA]) with host := { todo := [op] } }

def withMessage (op : HostOp) : State :=
  { deliverMessage .keepalive (loaded 7 [0xAA]) with host := { todo := [op] } }

theorem inv_withOctets : (withOctets (.readObuf 18)).Inv :=
  { parLegal := by decide, ibufWf := by decide, ibufBelow := by decide, obufWf := by decide, obufBelow := by decide,
    statusLegal := by decide, errZero := by decide, errLegal := fun h => absurd h (by decide),
    obufLenLegal := by decide, obufLenResult := by decide, obufWritten := by decide, msgOutResult := by decide,
    capsLegal := (by intro w h; cases h; decide), peerTypeLegal := (by intro w h; cases h),
    ibufLenLegal := (by intro w h; cases h; decide), cursorLegal := trivial }

theorem inv_withMessage : (withMessage .readMsgOut).Inv :=
  { parLegal := by decide, ibufWf := by decide, ibufBelow := by decide, obufWf := by decide, obufBelow := by decide,
    statusLegal := by decide, errZero := by decide, errLegal := fun h => absurd h (by decide),
    obufLenLegal := by decide, obufLenResult := by decide, obufWritten := by decide, msgOutResult := by decide,
    capsLegal := (by intro w h; cases h; decide), peerTypeLegal := (by intro w h; cases h),
    ibufLenLegal := (by intro w h; cases h; decide), cursorLegal := trivial }

theorem witness_HostAccessesBuffersAndPorts : (withOctets (.readObuf 18)).Inv ∧ (withMessage .readMsgOut).Inv ∧
    (withOctets (.readObuf 18)).engine = .idle ∧ (withOctets (.readObuf 18)).obufLen.toNat = 19 ∧
    (withOctets (.readObuf 18)).obuf.read 18 = some 4 ∧ (withOctets (.readIbuf 0)).ibuf.read 0 = some 0xAA ∧
    (withOctets (.readIbuf 65534)).ibuf.read 65534 = none ∧ (withOctets (.readIbuf 65535)).par.ibufCap = 65535 ∧
    (withMessage .readMsgOut).msgOut = some .keepalive ∧ (withOctets .readMsgOut).msgOut = none :=
  ⟨inv_withOctets, inv_withMessage, by decide, by decide, by decide, by decide, by decide, by decide, by decide, by decide⟩

/-- A loaded block has the inputs of a DECODE, a block that holds a value those of an ENCODE. -/
theorem witness_decodeInputs (caps : Word) : decodeInputs (loaded caps (ones ++ [0, 19, 4])) (cxtOfCaps caps) (ones ++ [0, 19, 4]) :=
  ⟨⟨caps, rfl, rfl⟩, _, rfl, rfl⟩

theorem witness_encodeInputs (caps : Word) (m : Message) : encodeInputs (holding caps m) (cxtOfCaps caps) m :=
  ⟨⟨caps, rfl, rfl⟩, rfl⟩

theorem witness_ErrorCodes : reasonClass .duplicate = reasonClass .duplicate ∧ reasonSub .duplicate = reasonSub .duplicate ∧
    reasonClass .shortBuffer = reasonClass .marker ∧ reasonSub .shortBuffer ≠ reasonSub .marker := by decide

theorem witness_ErrorEndsCommand :
    (decodeInputs (loaded 7 ones) wideCxt ones ∧ decodeMessage {} wideCxt ones = .error (err .shortBuffer 16)) ∧
    encodeInputs (holding 7 (.openMsg [])) wideCxt (.openMsg []) ∧
    encodeMessage {} wideCxt (.openMsg []) = .error (err .passthroughLength 1) :=
  ⟨⟨⟨⟨7, rfl, rfl⟩, _, rfl, by decide⟩, by decide⟩, ⟨⟨7, rfl, rfl⟩, rfl⟩, by decide⟩

theorem witness_CommandsReturnValues :
    decodeInputs (loaded 7 (ones ++ [0, 19, 4])) (cxtOfCaps 7) (ones ++ [0, 19, 4]) ∧
    decodeMessage {} (cxtOfCaps 7) (ones ++ [0, 19, 4]) = .ok .keepalive ∧
    encodeInputs (holding 7 .keepalive) (cxtOfCaps 7) .keepalive ∧ (holding 7 .keepalive).par.legal = true ∧
    encodeMessage {} (cxtOfCaps 7) .keepalive = .ok (ones ++ [0, 19, 4]) :=
  ⟨witness_decodeInputs 7, by decide, witness_encodeInputs 7 _, by decide, by decide⟩

theorem witness_CommandWordSelectsCommand : (asked [.writeReg 0 3]).engine = .idle ∧
    (asked [.writeReg 0 3]).host.todo = .writeReg 0 3 :: [] := by decide

/-- Context words that agree on the three bits a command reads. -/
theorem witness_CommandsDependOnTheirInputs :
    (∀ i < 3, (0xF : Word).getLsbD i = (0x7 : Word).getLsbD i) ∧
    (∃ t, exec .decode (loaded 0x7 (ones ++ [0, 19, 4])) = .next t) ∧ (loaded 0x7 []).par.legal = true ∧
    ∃ t, exec .encode (holding 0x7 .keepalive) = .next t :=
  ⟨by decide, ⟨_, rfl⟩, by decide, ⟨_, rfl⟩⟩

/-! The buffers of R104 to R109: 18 octets, a marker that is not all-ones under MARKER_CHECK, LENGTH 18 and 19, a length that
is not the buffer's, and each type. -/

theorem witness_HeaderChecks : (ones ++ [0, 19]).length = 18 ∧ (ones ++ [0, 18, 4]).length = 19 ∧
    markerOk {} (List.replicate 16 0 ++ [0, 19, 4]) ∧ ¬ markerOk { markerCheck := true } (List.replicate 16 0 ++ [0, 19, 4]) ∧
    lengthField (ones ++ [0, 18, 4]) = 18 ∧ lengthField (ones ++ [0x10, 1, 4]) = 4097 ∧
    lengthField (ones ++ [0, 20, 4]) = 20 ∧
    decodeInputs (loaded 7 (ones ++ [0, 19])) wideCxt (ones ++ [0, 19]) ∧
    decodeInputs (loaded 7 (ones ++ [0, 20, 4])) wideCxt (ones ++ [0, 20, 4]) := by
  refine ⟨by decide, by decide, by unfold markerOk; decide, by unfold markerOk; decide, by decide, by decide, by decide,
    ⟨⟨7, rfl, rfl⟩, _, rfl, by decide⟩, ⟨⟨7, rfl, rfl⟩, _, rfl, by decide⟩⟩

theorem witness_TypeDispatch : headerOk {} (ones ++ [0, 23, 2, 0, 0, 0, 0]) ∧ typeField (ones ++ [0, 19, 0]) = 0 ∧
    headerOk {} (ones ++ [0, 19, 6]) ∧ headerOk {} (ones ++ [0, 20, 4, 0]) ∧ ¬ legalTotal 4 20 ∧ ¬ legalTotal 1 28 ∧
    legalTotal 1 29 ∧ legalTotal 3 21 ∧ ¬ legalTotal 3 20 ∧ ¬ legalTotal 2 22 ∧ legalTotal 5 23 ∧ ¬ legalTotal 5 24 := by
  refine ⟨?_, by decide, ?_, ?_, ?_, ?_, ?_, ?_, ?_, ?_, ?_, ?_⟩ <;>
    first
    | (unfold legalTotal; decide)
    | (unfold headerOk markerOk; decide)

theorem witness_MessageFormsDecode : 29 ≤ 19 + (List.replicate 10 (0 : Byte)).length ∧
    21 ≤ 19 + [(6 : Byte), 2].length ∧ [(0 : Byte), 1, 0, 1].length = 4 ∧ (List.replicate 9 (0 : Byte)).length < 10 ∧
    [(0 : Byte), 0, 0].length < 4 ∧ [(6 : Byte)].length < 2 ∧ [(0 : Byte)] ≠ [] ∧ [(0 : Byte), 1, 0].length ≠ 4 := by
  decide

theorem witness_SectionOverruns : (2 : Nat) ≤ [(0 : Byte), 0].length ∧
    [(0 : Byte), 0].length < (0 : Byte).toNat * 256 + (1 : Byte).toNat + 2 ∧
    [(9 : Byte), 0, 1] = [9] ++ 0 :: 1 :: [] ∧ [(9 : Byte)].length = (0 : Byte).toNat * 256 + (1 : Byte).toNat ∧
    ([] : Bytes).length < (0 : Byte).toNat * 256 + (1 : Byte).toNat := by decide

/-- ORIGIN, an empty AS_PATH and NEXT_HOP; the same without ORIGIN; the same without NEXT_HOP. -/
def mandatory : Bytes := [0x40, 1, 1, 0, 0x40, 2, 0, 0x40, 3, 4, 1, 1, 1, 1]

theorem witness_UpdateDecodes :
    decodePrefixList 32 [8, 10] = .ok [⟨0x0A000000, 8⟩] ∧
    decodeAttrSection wideCxt mandatory
      = .ok ⟨{ base := { origin := some .igp, asPath := some ⟨[]⟩ } }, { nh := some 0x01010101 }, [3, 2, 1]⟩ ∧
    decodePrefixList 32 [] = .ok [] ∧ decodeAttrSection wideCxt [] = .ok {} := by decide

theorem witness_UpdateErrors :
    decodePrefixList 32 [33] = .error (err .bitlenTooLong 33) ∧
    decodeAttrSection wideCxt [0x40] = .error (err .recordTruncated 0) ∧
    decodeAttrSection wideCxt [0x40, 2, 0] = .ok { attrs := { base := { asPath := some ⟨[]⟩ } }, seen := [2] } ∧
    decodeAttrSection wideCxt [0x40, 1, 1, 0] = .ok { attrs := { base := { origin := some .igp } }, seen := [1] } ∧
    advertises [⟨0x0A000000, 8⟩] {} ∧
    advertises [] { side := { mpReach := some (.ipv4Unicast [] 0) } } := by
  refine ⟨by decide, by decide, by decide, by decide, ?_, ?_⟩ <;> unfold advertises <;> decide

/-- A DECODE that returns an UPDATE. -/
theorem witness_DecodedValuesCanonical :
    messageAfter (exec .decode (loaded 7 (ones ++ [0, 23, 2, 0, 0, 0, 0]))) = some (.update {}) := by decide

/-! ### Witnesses, attribute records -/

/-- A section of one record, cut short at each point (R161). -/
theorem witness_RecordEnvelope :
    (recordsOnly [0x40]).cur < (recordsOnly [0x40]).sec.length ∧
    (recordsOnly [0x50, 1, 0]).sec.drop 0 = [0x50, 1, 0] ∧ (0x50 : Byte) &&& 0x10 ≠ 0 ∧ (0x40 : Byte) &&& 0x10 = 0 ∧
    ([] : Bytes).length < (1 : Byte).toNat ∧ ([] : Bytes).length < (1 : Byte).toNat * 256 + (0 : Byte).toNat ∧
    (recordsOnly [0x40, 1, 1, 0]).sec.drop 0 = 0x40 :: 1 :: 1 :: ([0] ++ []) ∧ [(0 : Byte)].length = (1 : Byte).toNat ∧
    (recordsOnly [0x50, 1, 0, 1, 0]).sec.drop 0 = 0x50 :: 1 :: 0 :: 1 :: ([0] ++ []) := by decide

theorem witness_DuplicateTypesRejected :
    (1 : Byte) ∈ ({ recordsOnly [] with recs := { seen := [1] } } : UpdWork).recs.seen ∧
    ∃ t, exec (RecForm.toInstr { flags := 0x40, type := 1, body := [0] }) (inRecords wideCxt) = .next t ∧ t.engine ≠ .idle :=
  ⟨by decide, _, rfl, by decide⟩

theorem witness_FlagChecks : (1 : Byte) ∉ (recordsOnly []).recs.seen ∧ (0xC0 : Byte) &&& 0xC0 ≠ 0x40 ∧
    (0x60 : Byte) &&& 0xC0 = 0x40 ∧ (0x40 : Byte) ≠ 0xC0 ∧ (0x60 : Byte) &&& 0x20 ≠ 0 := by decide

/-- The first record of a section passes what precedes its body rule, for every expected pattern; the Partial bit is allowed on an
optional transitive type (R164). -/
theorem witness_recordOpens (code : Byte) : recordOpens code 0x40 0x40 (recordsOnly []) ∧
    recordOpens code 0x80 0x90 (recordsOnly []) ∧ recordOpens code 0xC0 0xE0 (recordsOnly []) := by
  simp [recordOpens, recordsOnly]

theorem witness_OriginAttribute : recordOpens 1 0x40 0x40 (recordsOnly []) ∧ ([] : Bytes).length ≠ 1 ∧
    2 < (3 : Byte).toNat ∧ ((2 : Byte), Origin.incomplete) ∈ [((0 : Byte), Origin.igp), (1, .egp), (2, .incomplete)] ∧
    (emission {} { base := { origin := some .incomplete } } [.known .origin]).todo = .known .origin :: [] := by
  refine ⟨(witness_recordOpens 1).1, ?_⟩
  decide

theorem witness_FourOctetAttributes : recordOpens 3 0x40 0x40 (recordsOnly []) ∧ recordOpens 4 0x80 0x90 (recordsOnly []) ∧
    recordOpens 5 0x40 0x40 (recordsOnly []) ∧ recordOpens 9 0x80 0x90 (recordsOnly []) ∧ [(1 : Byte), 2, 3].length ≠ 4 ∧
    (emission { reach := some ⟨[], 0x01020304⟩ } {} [.known .nextHop]).todo = .known .nextHop :: [] ∧
    (emission {} { base := { nexthop := some 0x01020304 } } [.known .nextHop]).upd.reach = none ∧
    (0x01020304 : BitVec 32) = (1 : Byte) ++ (2 : Byte) ++ (3 : Byte) ++ (4 : Byte) :=
  ⟨(witness_recordOpens 3).1, (witness_recordOpens 4).2.1, (witness_recordOpens 5).1, (witness_recordOpens 9).2.1, by decide,
    by decide, by decide, by decide⟩

theorem witness_AtomicAggregateAttribute : recordOpens 6 0x40 0x40 (recordsOnly []) ∧ [(0 : Byte)] ≠ [] ∧
    (emission {} {} [.known .atomicAggregate]).todo = .known .atomicAggregate :: [] :=
  ⟨(witness_recordOpens 6).1, by decide, by decide⟩

theorem witness_AggregatorAttributes : recordOpens 7 0xC0 0xE0 (recordsOnly []) ∧ recordOpens 18 0xC0 0xE0 (recordsOnly []) ∧
    wideCxt.as4 = true ∧ narrowCxt.as4 = false ∧
    (emission {} { base := { aggregator := some ⟨0x00010000, 0x01010101⟩ } } [.known .aggregator]).attrs.base.aggregator
      = some { asn := (0 : Byte) ++ (1 : Byte) ++ (0 : Byte) ++ (0 : Byte), identifier := (1 : Byte) ++ (1 : Byte) ++ (1 : Byte) ++ (1 : Byte) } :=
  ⟨(witness_recordOpens 7).2.2, (witness_recordOpens 18).2.2, by decide, by decide, by decide⟩

theorem witness_ClusterListAttribute : ([] : List Ipv4).length ≤ 16383 ∧ recordOpens 10 0x80 0x90 (recordsOnly []) ∧
    [(1 : Byte), 2, 3].length % 4 ≠ 0 ∧
    (emission {} { base := { clusterList := some [1] } } [.known .clusterList]).attrs.base.clusterList = some [1] :=
  ⟨by decide, (witness_recordOpens 10).2.1, by decide, by decide⟩

theorem witness_NarrowCommunities : ([] : List Comm).length ≤ 16383 ∧ ([] : List ExtComm).length ≤ 8191 ∧
    recordOpens 8 0xC0 0xE0 (recordsOnly []) ∧ recordOpens 16 0xC0 0xE0 (recordsOnly []) ∧
    [(1 : Byte)].length % 4 ≠ 0 ∧ [(1 : Byte), 2, 3, 4].length % 8 ≠ 0 ∧
    (emission {} { comm := some [⟨1, 2⟩] } [.known .communities]).attrs.comm = some [⟨1, 2⟩] ∧
    (emission {} { extComm := some [] } [.known .extendedCommunities]).attrs.extComm = some [] :=
  ⟨by decide, by decide, (witness_recordOpens 8).2.2, (witness_recordOpens 16).2.2, by decide, by decide, by decide, by decide⟩

theorem witness_WideCommunities : ([] : List LargeComm).length ≤ 5461 ∧ ([] : List Extv6Comm).length ≤ 3276 ∧
    recordOpens 32 0xC0 0xE0 (recordsOnly []) ∧ recordOpens 25 0xC0 0xE0 (recordsOnly []) ∧
    [(1 : Byte)].length % 12 ≠ 0 ∧ [(1 : Byte)].length % 20 ≠ 0 ∧
    (emission {} { largeComm := some [⟨1, 2, 3⟩] } [.known .largeCommunity]).attrs.largeComm = some [⟨1, 2, 3⟩] ∧
    (emission {} { extv6Comm := some [] } [.known .ipv6ExtendedCommunities]).attrs.extv6Comm = some [] :=
  ⟨by decide, by decide, (witness_recordOpens 32).2.2, (witness_recordOpens 25).2.2, by decide, by decide, by decide, by decide⟩

theorem witness_UnrecognizedAttributes : (99 : Byte) ∉ (recordsOnly []).recs.seen ∧ (0x80 : Byte) &&& 0x80 ≠ 0 ∧
    (0x7F : Byte) &&& 0x80 = 0 := by decide

/-- Bodies of 255, 256, 65535 and 65536 octets (R175). -/
theorem witness_RecordEmission : (List.replicate 255 (0 : Byte)).length ≤ 255 ∧
    (255 < (List.replicate 256 (0 : Byte)).length ∧ (List.replicate 65535 (0 : Byte)).length ≤ 65535) ∧
    65535 < (List.replicate 65536 (0 : Byte)).length ∧ (0x90 : Byte) &&& 0x10 ≠ 0 ∧ (0x80 : Byte) &&& 0x10 = 0 ∧
    (32 : Byte) ∈ [(1 : Byte), 2, 3, 4, 5, 6, 7, 8, 9, 10, 14, 15, 16, 17, 18, 25, 32] := by
  simp only [List.length_replicate]
  refine ⟨by omega, by omega, by omega, by decide, by decide, by decide⟩

/-! ### Witnesses, paths -/

theorem witness_ContextSelectsForms : narrowCxt.as4 = false ∧ wideCxt.as4 = true := by decide

theorem witness_PathsDecode : recordOpens 2 0x40 0x40 (recordsOnly []) ∧ recordOpens 17 0xC0 0xE0 (recordsOnly []) ∧
    (∀ g ∈ [AsPathSegment.mk .set [65535], ⟨.sequence, []⟩], segmentFits (asnWidth narrowCxt) g) ∧
    ∀ g ∈ [AsPathSegment.mk .set [4294967295]], segmentFits 4 g := by
  refine ⟨(witness_recordOpens 2).1, (witness_recordOpens 17).2.2, ?_, ?_⟩ <;>
    simp [segmentFits, asnWidth, narrowCxt]

theorem witness_MalformedPaths : recordOpens 2 0x40 0x40 (recordsOnly []) ∧
    (∀ g ∈ [AsPathSegment.mk .set []], segmentFits (pathWidth narrowCxt .asPath) g) ∧ (3 : Byte) ≠ 1 ∧ (3 : Byte) ≠ 2 ∧
    [(0 : Byte)].length < (1 : Byte).toNat * pathWidth narrowCxt .asPath := by
  exact ⟨(witness_recordOpens 2).1, by simp [segmentFits], by decide, by decide, by decide⟩

theorem witness_PathsEncode :
    (emission {} { base := { asPath := some ⟨[⟨.set, [65536]⟩]⟩ } } [.known .asPath]).attrs.base.asPath
      = some ⟨[] ++ ⟨.set, [65536]⟩ :: []⟩ ∧ pathWidth narrowCxt .asPath = 2 ∧
    (∃ a ∈ [(65536 : Asn)], 0xFFFF < a.toNat) ∧ 255 < (List.replicate 256 (0 : Asn)).length ∧
    (∀ g ∈ [AsPathSegment.mk .set [65535]], segmentFits (pathWidth narrowCxt .asPath) g) := by
  refine ⟨by decide, by decide, ⟨65536, by simp, by decide⟩, ?_, ?_⟩
  · rw [List.length_replicate]
    omega
  · simp [segmentFits, pathWidth, asnWidth, narrowCxt]

/-- A path of 129 full segments of width 2 is above 65535 octets (R215, R175). -/
theorem witness_PathsEncode_too_long (f : AsPathSegment → Bytes) (h : ∀ g, (f g).length = 512) :
    65535 < ((List.replicate 129 (AsPathSegment.mk .set (List.replicate 255 0))).map f).flatten.length := by
  simp [List.map_replicate, List.length_flatten, h, -List.reduceReplicate]

theorem witness_SegmentForms : segmentFits (pathWidth narrowCxt .asPath) ⟨.set, [65535]⟩ := by
  simp [segmentFits, pathWidth, asnWidth, narrowCxt]

/-! ### Witnesses, prefixes and multiprotocol attributes -/

theorem witness_PrefixDecodes : 32 < (33 : Byte).toNat ∧ (32 : Byte).toNat ≤ 32 ∧
    [(1 : Byte), 2, 3].length < ((32 : Byte).toNat + 7) / 8 ∧
    (9 : Byte).toNat % 8 ≠ 0 ∧ ([(10 : Byte), 0x81].getD 1 0 &&& ((0xFF : Byte) >>> 1)) ≠ 0 ∧
    ([(10 : Byte), 0x80].getD 1 0 &&& ((0xFF : Byte) >>> 1)) = 0 ∧ ((0 : Byte).toNat + 7) / 8 ≤ ([] : Bytes).length := by
  decide

/-- `0.0.0.0/0` before `10.0.0.0/8`, and a bit length of 33 alone and after a whole prefix (R230, R231). -/
theorem witness_PrefixDecodes_list : decodePrefix 32 [0, 8, 10] = .ok (⟨0, 0⟩, [8, 10]) ∧
    decodePrefixList 32 [8, 10] = .ok [⟨0x0A000000, 8⟩] ∧ decodePrefixList 32 [33] = .error (err .bitlenTooLong 33) ∧
    decodePrefix 32 [33] = .error (err .bitlenTooLong 33) ∧ decodePrefix 128 [0, 129] = .ok (⟨0, 0⟩, [129]) ∧
    decodePrefixList 128 [129] = .error (err .bitlenTooLong 129) := by decide

theorem witness_PrefixEncodes : 32 < (Prefix.mk (w := 32) 0 33).len ∧ (Prefix.mk (w := 128) 0 128).len ≤ 128 ∧
    ∀ q ∈ [Prefix.mk (w := 32) 0 32, ⟨1, 0⟩], q.len ≤ 32 := by decide

theorem witness_MpReachDecodes : recordOpens 14 0x80 0x90 (recordsOnly []) ∧ wideCxt.mpIpv4 = true ∧ wideCxt.mpIpv6 = true ∧
    decodePrefixList 32 [] = .ok [] ∧ (List.replicate 16 (0 : Byte)).length = 16 ∧
    decodePrefixList 128 [128, 0x20, 1, 0, 0, 0, 0, 0, 0, 0, 0, 0, 0, 0, 0, 0, 1]
      = .ok [⟨0x20010000000000000000000000000001, 128⟩] :=
  ⟨(witness_recordOpens 14).2.1, by decide, by decide, by decide, by decide, by decide⟩

theorem witness_MpReachErrors : recordOpens 14 0x80 0x90 (recordsOnly []) ∧ [(0 : Byte), 1].length < 3 ∧
    ((1 : Byte) = 1 ∧ wideCxt.mpIpv4 = true) ∧ ¬ ((2 : Byte) = 1 ∧ (4 : Byte) = 4 ∨ (2 : Byte) = 2 ∧ ((4 : Byte) = 16 ∨ (4 : Byte) = 32)) ∧
    (List.replicate 4 (0 : Byte)).length < (4 : Byte).toNat + 1 ∧ (4 : Byte).toNat + 1 ≤ (List.replicate 5 (0 : Byte)).length ∧
    decodePrefixList 32 ((List.replicate 5 (0 : Byte) ++ [33]).drop ((4 : Byte).toNat + 1)) = .error (err .bitlenTooLong 33) ∧
    decodePrefixList 128 ((List.replicate 17 (0 : Byte) ++ [129]).drop ((16 : Byte).toNat + 1)) = .error (err .bitlenTooLong 129) :=
  ⟨(witness_recordOpens 14).2.1, by decide, by decide, by decide, by decide, by decide, by decide, by decide⟩

theorem witness_MpUnreachAttribute : recordOpens 15 0x80 0x90 (recordsOnly []) ∧ [(0 : Byte), 1].length < 3 ∧
    decodePrefixList 32 [0] = .ok [⟨0, 0⟩] ∧ decodePrefixList 128 [8, 0x20] = .ok [⟨0x20000000000000000000000000000000, 8⟩] ∧
    decodePrefixList 32 [8] = .error (err .overrun 8) ∧ decodePrefixList 128 [7, 1] = .error (err .trailingBits 7) :=
  ⟨(witness_recordOpens 15).2.1, by decide, by decide, by decide, by decide, by decide⟩

theorem witness_IllegalFamiliesCaptured : recordOpens 14 0x80 0x90 (recordsOnly []) ∧ recordOpens 15 0x80 0x90 (recordsOnly []) ∧
    ¬ ((0 : Byte) = 0 ∧ (1 : Byte) = 1 ∧ (1 : Byte) = 1 ∧ narrowCxt.mpIpv4 = true) ∧
    ¬ ((0 : Byte) = 0 ∧ (1 : Byte) = 2 ∧ (1 : Byte) = 1 ∧ narrowCxt.mpIpv6 = true) ∧
    ¬ ((0 : Byte) = 0 ∧ (2 : Byte) = 2 ∧ (2 : Byte) = 1 ∧ wideCxt.mpIpv6 = true) :=
  ⟨(witness_recordOpens 14).2.1, (witness_recordOpens 15).2.1, by decide, by decide, by decide⟩

theorem witness_FamilyFormsDecode : wideCxt.mpIpv4 = true ∧ wideCxt.mpIpv6 = true ∧ decodePrefixList 32 [0] = .ok [⟨0, 0⟩] ∧
    decodePrefixList 128 [0] = .ok [⟨0, 0⟩] ∧ (List.replicate 16 (0 : Byte)).length = 16 ∧
    (List.replicate 16 (1 : Byte)).length = 16 := by decide

theorem witness_MpGroupsEncode : encodePrefixList [Prefix.mk (w := 32) 0 0] = .ok [0] ∧
    encodePrefixList [Prefix.mk (w := 128) 0 0] = .ok [0] ∧
    encodePrefixList [Prefix.mk (w := 32) 0 33] = .error (err .prefixLen 33) ∧
    encodePrefixList [Prefix.mk (w := 128) 0 129] = .error (err .prefixLen 129) ∧ narrowCxt.mpIpv4 = false ∧ narrowCxt.mpIpv6 = false ∧
    (emission { mpReach := some (.ipv6Unicast [⟨0, 0⟩] 1 (some 2)) } {} [.known .mpReachNlri]).upd.mpReach
      = some (.ipv6Unicast [⟨0, 0⟩] 1 (some 2)) ∧
    (emission { mpUnreach := some (.ipv4Unicast []) } {} [.known .mpUnreachNlri]).todo = .known .mpUnreachNlri :: [] := by
  decide

/-- A list of `n` prefixes `::/0` takes `n` octets, so that a multiprotocol body can have 65535 octets, and 65536 (R175). -/
theorem witness_MpGroupsEncode_lengths (n : Nat) :
    encodePrefixList (List.replicate n (Prefix.mk (w := 128) 0 0)) = .ok (List.replicate n 0) ∧
    ([0, 2, 1] ++ List.replicate n (0 : Byte)).length = n + 3 := by
  refine ⟨?_, by simp⟩
  induction n with
  | zero => rfl
  | succ n ih =>
    rw [List.replicate_succ, encodePrefixList_cons, ih]
    rfl

/-! ### Witnesses, encode -/

theorem witness_PassThroughEncodes : (holding 7 (.openMsg [])).par.legal = true ∧
    encodeInputs (holding 7 (.openMsg [])) (cxtOfCaps 7) (.openMsg []) ∧ ¬ legalTotal 1 (19 + 9) ∧ legalTotal 1 (19 + 10) ∧
    19 + 10 ≤ (Params.mk 29 false 29 none none none).maxMsgLen ∧ (Params.mk 29 false 29 none none none).maxMsgLen < 19 + 11 ∧
    (Params.mk 29 false 29 none none none).legal = true := by
  refine ⟨by decide, witness_encodeInputs 7 _, ?_⟩
  simp only [legalTotal]
  decide

theorem witness_EncodedMessagesAreFramed :
    (holding 7 .keepalive).par.legal = true ∧ (holding 7 .keepalive).msgIn = some .keepalive ∧
    statusAfter (exec .encode (holding 7 .keepalive)) = some 0x9 := by decide

/-- An empty group, absent attributes, attributes that no record shows, a link-local next hop, and two next hops; the value
checks of R138 give each its own error. -/
theorem witness_UpdateValueChecks :
    errAfter (exec .encode (holding 7 (.update { reach := some ⟨[], 0⟩ }))) = some 0x0000010B ∧
    errAfter (exec .encode (holding 7 (.update { mpUnreach := some (.ipv4Unicast []) }))) = some 0x0000020B ∧
    errAfter (exec .encode (holding 7 (.update { attrs := some {} }))) = some 0x0000020B ∧
    errAfter (exec .encode (holding 7 (.update { attrs := some { base := { llNexthop := some 1, med := some 0 } } })))
      = some 0x0000030B ∧
    errAfter (exec .encode (holding 7 (.update
      { reach := some ⟨[⟨0, 0⟩], 0⟩, attrs := some { base := { nexthop := some 0 } } }))) = some 0x0000040B := by decide

/-- An entry of a recognized type, a repeated entry, a missing ORIGIN, a missing AS_PATH, and an entry with O = 0. -/
theorem witness_UnknownAndMandatoryChecks :
    collides wideCxt {} [] ⟨0x80, 1, []⟩ ∧ collides wideCxt {} [⟨0x80, 99, []⟩] ⟨0x80, 99, []⟩ ∧
    collides wideCxt {} [] ⟨0x80, 14, [0, 2, 1]⟩ ∧ ¬ collides narrowCxt {} [] ⟨0x90, 14, [0, 2, 1]⟩ ∧
    errAfter (exec .encode (holding 7 (.update { attrs := some { unknown := [⟨0x80, 1, []⟩] } }))) = some 0x0001050B ∧
    errAfter (exec .encode (holding 7 (.update { reach := some ⟨[⟨0, 0⟩], 0⟩, attrs := some {} }))) = some 0x00010104 ∧
    errAfter (exec .encode (holding 7 (.update { attrs := some { unknown := [⟨0x40, 99, []⟩] } }))) = some 0x00630204 := by
  refine ⟨?_, ?_, ?_, ?_, by decide, by decide, by decide⟩ <;> unfold collides <;> decide

theorem witness_UpdateEncodes : checkUpdate wideCxt { unreach := some ⟨[⟨0, 0⟩]⟩ } = .ok () ∧
    encodePrefixList [Prefix.mk (w := 32) 0 0] = .ok [0] ∧
    encodeInputs (holding 7 (.update { unreach := some ⟨[⟨0, 0⟩]⟩ })) (cxtOfCaps 7) (.update { unreach := some ⟨[⟨0, 0⟩]⟩ }) ∧
    checkUpdate wideCxt { attrs := some { base := { med := some 1 } } } = .ok () ∧
    emitAll (emitSlot wideCxt {} { base := { med := some 1 } }) (recognizedTypes.map .known) = .ok [0x80, 4, 4, 0, 0, 0, 1] ∧
    (Params.mk 29 false 29 none none none).maxMsgLen < 23 + 0 + 7 + 0 :=
  ⟨by decide, by decide, witness_encodeInputs 7 _, by decide, by decide, by decide⟩

/-- ORIGIN, and an AS_PATH of one sequence of one AS. -/
def sequenceAttrs (a : Asn) : Attrs := { base := { origin := some .igp, asPath := some ⟨[⟨.sequence, [a]⟩]⟩ } }

/-- A section of each kind that fails: the first to fail is reported (R287), as in vector ENC44. -/
theorem witness_UpdateEncodes_errors :
    checkUpdate wideCxt { unreach := some ⟨[⟨0, 33⟩]⟩ } = .ok () ∧
    errAfter (exec .encode (holding 0 (.update
      { unreach := some ⟨[⟨0x0A000000, 33⟩]⟩, attrs := some (sequenceAttrs 70000) }))) = some 0x0021060B ∧
    checkUpdate narrowCxt { attrs := some (sequenceAttrs 70000) } = .ok () ∧
    emitAll (emitSlot narrowCxt {} (sequenceAttrs 70000)) (recognizedTypes.map .known) = .error (err .asnWidth 2) ∧
    errAfter (exec .encode (holding 0 (.update
      { reach := some ⟨[⟨0, 34⟩], 0⟩, attrs := some (sequenceAttrs 70000) }))) = some 0x0002010A ∧
    errAfter (exec .encode (holding 0 (.update
      { reach := some ⟨[⟨0, 34⟩], 0⟩, attrs := some (sequenceAttrs 7) }))) = some 0x0022060B := by decide

theorem witness_RoundTrip : ({} : Params).legal = true ∧
    encodeMessage {} wideCxt (.update { unreach := some ⟨[⟨0x0A0000FF, 8⟩]⟩ })
      = .ok (ones ++ [0, 25, 2, 0, 2, 8, 10, 0, 0]) := by decide

theorem witness_ReEncode : ({} : Params).legal = true ∧
    decodeMessage {} wideCxt (ones ++ [0, 25, 2, 0, 2, 8, 10, 0, 0]) = .ok (.update { unreach := some ⟨[⟨0x0A000000, 8⟩]⟩ }) := by
  decide

/-! ### Witnesses, the engine and the encodings -/

theorem witness_StepRunsDecoded : decode wideForm (.word 1) = .ok (.decode, []) ∧ wideForm.par = State.reset.par ∧
    decode wideForm (.message (ones ++ [0, 19, 4])) = .ok (.msgKeepalive ones [], []) ∧
    (recordsOnly [0x40, 6, 0]).cur < (recordsOnly [0x40, 6, 0]).sec.length ∧
    decode wideForm (.record ((recordsOnly [0x40, 6, 0]).sec.drop 0)) = .ok (.attrAtomicAggregate 0x40 [], []) ∧
    decode wideForm (.segment [2, 0]) = .ok (.segAsSequence [], []) ∧
    decode wideForm (.family [0, 1, 1]) = .ok (.familyIpv4Unicast [], []) := by decide

theorem witness_DecodeStepsAgree : (recordsOnly []).cur ≤ (recordsOnly []).sec.length ∧ (0 : Nat) ≤ ([2, 0] : Bytes).length := by
  decide

theorem witness_EncodeStepsAgree (e : UnknownAttr)
    (h : Slot.unknown e ∈ (emission {} {} [.known .origin, .unknown ⟨0xC0, 99, []⟩]).todo) : e.flags &&& 0x80 ≠ 0 := by
  simp only [emission, List.mem_cons, List.not_mem_nil, reduceCtorEq, Slot.unknown.injEq, false_or, or_false] at h
  rw [h]
  decide

/-- Both sides of each bound on a message of 29 octets at most, a group and a path at the head of an emission. -/
theorem witness_EncodePlaces : (Params.mk 29 false 29 none none none).legal = true ∧ legalTotal 1 (19 + 10) ∧
    ¬ legalTotal 1 (19 + 9) ∧ legalTotal 3 (19 + 2) ∧ ¬ legalTotal 5 (19 + 5) ∧
    19 + 10 ≤ (Params.mk 29 false 29 none none none).maxMsgLen ∧ (Params.mk 29 false 29 none none none).maxMsgLen < 19 + 11 ∧
    wideCxt.mpIpv4 = true ∧ wideCxt.mpIpv6 = true ∧
    (emission { mpReach := some (.ipv4Unicast [] 0) } {} [.known .mpReachNlri]).upd.mpReach = some (.ipv4Unicast [] 0) ∧
    (emission { mpUnreach := some (.ipv6Unicast []) } {} [.known .mpUnreachNlri]).todo = .known .mpUnreachNlri :: [] ∧
    (emission {} { base := { as4Path := some ⟨[⟨.set, [7]⟩]⟩ } } [.known .as4Path]).attrs.base.as4Path
      = some ⟨[⟨.set, [7]⟩]⟩ := by
  simp only [legalTotal]
  decide

theorem witness_DecodeEncodeAgree : (Instr.segAsSequence [4294967295]).wf wideForm = true ∧
    encode wideForm (.segAsSequence [4294967295]) = .segment [2, 1, 0xFF, 0xFF, 0xFF, 0xFF] := by decide

theorem witness_DecodedIsWellFormed : wideForm.par.legal = true ∧
    decode wideForm (.record [0x50, 1, 0, 1, 0, 0xAA]) = .ok (.attrOrigin 0x50 [0], [0xAA]) := by decide

end Sys2Proof.Tests
end

/-! ### Proofs: the invariant at reset and over every step (00_scope.md R6, 10_state.md R23 to R29 and R40,
60_exceptions.md R280 and R288) -/

namespace Sys2Proof.Machine

open Sys2Proof

/-! ### The words the end of a command writes -/

theorem reasonClass_range (r : Reason) : 1 ≤ reasonClass r ∧ reasonClass r ≤ 11 := by
  cases r <;> decide

theorem reasonSub_range (r : Reason) : 1 ≤ reasonSub r ∧ reasonSub r ≤ 10 := by
  cases r <;> decide

/-- The three fields of ERR do not run into each other (R282). -/
theorem errWord_toNat (e : CodecError) :
    (errWord e).toNat = e.value.toNat * 65536 + reasonSub e.reason * 256 + reasonClass e.reason := by
  have hv := e.value.isLt
  have hs := reasonSub_range e.reason
  have hc := reasonClass_range e.reason
  rw [errWord, BitVec.toNat_ofNat]
  exact Nat.mod_eq_of_lt (by omega)

theorem errWord_fieldsLegal (e : CodecError) : errFieldsLegal (errWord e) := by
  have hs := reasonSub_range e.reason
  have hc := reasonClass_range e.reason
  unfold errFieldsLegal
  rw [errWord_toNat]
  omega

/-- STATUS after a DECODE that returns a message and after an ENCODE that returns octets (R23). -/
theorem statusWord_ok_decode : statusWord stateOk lastDecode = 0x5 := rfl
theorem statusWord_ok_encode : statusWord stateOk lastEncode = 0x9 := rfl

/-- STATUS after an error is 0x6 or 0xA (R23, R283). -/
theorem statusWord_err {last : Nat} (hl : last = lastDecode ∨ last = lastEncode) :
    statusWord stateErr last = 0x6 ∨ statusWord stateErr last = 0xA := by
  rcases hl with rfl | rfl <;> decide

theorem statusState_err {last : Nat} (hl : last = lastDecode ∨ last = lastEncode) :
    statusState (statusWord stateErr last) = stateErr := by
  rcases hl with rfl | rfl <;> rfl

/-! ### The octets an ENCODE returns fit OBUF (R115, R116) -/

theorem params_legal_iff (p : Params) : p.legal = true ↔
    29 ≤ p.maxMsgLen ∧ p.maxMsgLen ≤ 65535 ∧ p.maxMsgLen ≤ p.ibufCap ∧ p.ibufCap ≤ 65535 := by
  simp [Params.legal, and_assoc]

theorem messageOctets_encodeMarker_length (t : Byte) (body : Bytes) :
    (messageOctets encodeMarker t body).length = hdrLen + body.length := by
  simp [messageOctets, encodeMarker, markerLen, hdrLen]
  omega

theorem frameBody_length {par : Params} {k : MsgKind} {body bs : Bytes} (h : frameBody par k body = .ok bs) :
    bs.length ≤ par.maxMsgLen := by
  obtain ⟨_, hfits, hbs⟩ := bind_eq_ok.mp h
  have hle : hdrLen + body.length ≤ par.maxMsgLen := by simpa using raiseIf_eq_ok.mp hfits
  cases hbs
  rwa [messageOctets_encodeMarker_length]

theorem framePass_length {par : Params} {k : MsgKind} {body bs : Bytes} (h : framePass par k body = .ok bs) :
    bs.length ≤ par.maxMsgLen := by
  obtain ⟨_, -, hframe⟩ := bind_eq_ok.mp h
  exact frameBody_length hframe

theorem encodeMessage_length {par : Params} {cx : Cxt} {m : Message} {bs : Bytes} (h : encodeMessage par cx m = .ok bs) :
    bs.length ≤ par.maxMsgLen := by
  cases m with
  | keepalive => exact frameBody_length h
  | update u =>
    obtain ⟨_, -, hframe⟩ := bind_eq_ok.mp h
    exact frameBody_length hframe
  | openMsg _ | notification _ | routeRefresh _ => exact framePass_length h

/-! ### Every update of the state keeps the invariant -/

section Updates

variable {s : State}

theorem reset_inv : State.reset.Inv where
  parLegal := by decide
  ibufWf := rfl
  ibufBelow := rfl
  obufWf := rfl
  obufBelow := rfl
  statusLegal := by decide
  errZero := fun _ => rfl
  errLegal := fun h => absurd h (by decide)
  obufLenLegal := by decide
  obufLenResult := by decide
  obufWritten := rfl
  msgOutResult := by decide
  capsLegal := nofun
  peerTypeLegal := nofun
  ibufLenLegal := nofun
  cursorLegal := trivial

/-- Only the cursors of the new engine state are left to check. -/
theorem setEngine_inv {e : Engine} (hs : s.Inv) (he : e.cursorLegal) : (setEngine e s).Inv :=
  { hs with cursorLegal := he }

theorem popHost_inv (rest : List HostOp) (hs : s.Inv) : (popHost rest s).Inv :=
  { hs with }

theorem see_inv (v : HostValue) (hs : s.Inv) : (see v s).Inv :=
  { hs with }

theorem platformReset_inv (hs : s.Inv) : (platformReset s).Inv :=
  { reset_inv with
    parLegal := hs.parLegal
    obufLenLegal := Nat.zero_le _
    ibufLenLegal := nofun }

theorem clearResults_inv (hs : s.Inv) : (clearResults s).Inv :=
  { hs with
    statusLegal := by simp
    errZero := fun _ => rfl
    errLegal := fun h => absurd h (by simp [statusState, stateErr])
    obufLenLegal := Nat.zero_le _
    obufLenResult := fun h => absurd rfl h
    obufWritten := rfl
    msgOutResult := by simp
    cursorLegal := trivial }

/-- ERR has to hold a listed error, since STATE = ERR (R283). -/
theorem raiseError_inv {last : Nat} (e : CodecError) (hl : last = lastDecode ∨ last = lastEncode) (hs : s.Inv) :
    (raiseError last e s).Inv :=
  { hs with
    statusLegal := by rcases statusWord_err hl with h | h <;> simp [h]
    errZero := fun h => absurd (statusState_err hl) h
    errLegal := fun _ => errWord_fieldsLegal e
    obufLenLegal := Nat.zero_le _
    obufLenResult := fun h => absurd rfl h
    obufWritten := rfl
    msgOutResult := by rcases statusWord_err hl with h | h <;> simp [h]
    cursorLegal := trivial }

theorem deliverMessage_inv (m : Message) (hs : s.Inv) : (deliverMessage m s).Inv :=
  { hs with
    statusLegal := by simp [statusWord_ok_decode]
    errZero := fun _ => rfl
    errLegal := fun h => absurd h (by simp [statusWord_ok_decode, statusState, stateErr])
    obufLenLegal := Nat.zero_le _
    obufLenResult := fun h => absurd rfl h
    obufWritten := rfl
    msgOutResult := ⟨fun _ => rfl, fun _ => rfl⟩
    cursorLegal := trivial }

/-- OBUF_LEN holds the length uncut, since a legal MAX_MSG_LEN is below 2^32 (R6). -/
theorem deliverOctets_obufLen_toNat {bs : Bytes} (hs : s.Inv) (hb : bs.length ≤ s.par.maxMsgLen) :
    (deliverOctets bs s).obufLen.toNat = bs.length := by
  have hmax := ((params_legal_iff _).mp hs.parLegal).2.1
  rw [deliverOctets_obufLen, BitVec.toNat_ofNat]
  exact Nat.mod_eq_of_lt (by omega)

theorem deliverOctets_inv {bs : Bytes} (hs : s.Inv) (hb : bs.length ≤ s.par.maxMsgLen) : (deliverOctets bs s).Inv :=
  { hs with
    obufWf := Memory.wf_writeAll 0 bs hs.obufWf
    obufBelow := Memory.below_writeAll bs hs.obufBelow (by rwa [Nat.zero_add])
    statusLegal := by simp [statusWord_ok_encode]
    errZero := fun _ => rfl
    errLegal := fun h => absurd h (by simp [statusWord_ok_encode, statusState, stateErr])
    obufLenLegal := by rw [deliverOctets_obufLen_toNat hs hb]; exact hb
    obufLenResult := fun _ => rfl
    obufWritten := by
      rw [deliverOctets_obufLen_toNat hs hb, deliverOctets_obuf, Memory.readRange_writeAll]
      rfl
    msgOutResult := by simp [statusWord_ok_encode]
    cursorLegal := trivial }

theorem endDecode_inv (r : Except CodecError Message) (hs : s.Inv) : (endDecode r s).Inv := by
  cases r with
  | ok m => exact deliverMessage_inv m hs
  | error e => exact raiseError_inv e (.inl rfl) hs

theorem endEncode_inv {r : Except CodecError Bytes} (hs : s.Inv) (hr : ∀ bs, r = .ok bs → bs.length ≤ s.par.maxMsgLen) :
    (endEncode r s).Inv := by
  cases r with
  | ok bs => exact deliverOctets_inv hs (hr bs rfl)
  | error e => exact raiseError_inv e (.inr rfl) hs

end Updates

/-! ### Legal outcomes -/

/-- What a step of a legal state may answer: a legal next state or a refusal, never the fault. -/
def LegalOutcome : Host.Outcome State Fault Refusal → Prop
  | .next t => t.Inv
  | .fault _ => False
  | .refused _ => True

@[simp] theorem legalOutcome_next (t : State) : LegalOutcome (.next t) ↔ t.Inv := .rfl
@[simp] theorem legalOutcome_fault (r : Fault) : ¬ LegalOutcome (.fault r) := id
@[simp] theorem legalOutcome_refused (r : Refusal) : LegalOutcome (.refused r) := trivial

theorem legalOutcome_iff {o : Host.Outcome State Fault Refusal} :
    LegalOutcome o ↔ (∀ t, o = .next t → t.Inv) ∧ ∀ r, o ≠ .fault r := by
  cases o with
  | next t => simp
  | fault r => exact iff_of_false (legalOutcome_fault r) (fun h => h.2 r rfl)
  | refused r => simp

/-- What may come next in a legal state: an instruction to run from a legal state, or a legal outcome. -/
def LegalFetch : Fetched → Prop
  | .run _ s => s.Inv
  | .done o => LegalOutcome o

/-! ### The wire forms and the commands -/

section Exec

variable {s : State}

/-- A message form ends the command; its encode half has to return octets that fit OBUF. -/
theorem runMessage_legal {dec : Cxt → Except CodecError Message} {enc : Params → Option (Except CodecError Bytes)}
    (hs : s.Inv) (henc : ∀ bs, enc s.par = some (.ok bs) → bs.length ≤ s.par.maxMsgLen) :
    LegalOutcome (runMessage dec enc s) := by
  unfold runMessage
  split
  · exact endDecode_inv _ hs
  · split
    · next r hr => exact endEncode_inv hs (fun bs hb => henc bs (hb ▸ hr))
    · trivial
  · trivial

/-- A record form moves no cursor. -/
theorem runRecord_legal {dec : Cxt → RecState → Except CodecError RecState} {enc : Except CodecError Bytes} (hs : s.Inv) :
    LegalOutcome (runRecord dec enc s) := by
  have hcur := hs.cursorLegal
  unfold runRecord
  split
  · next cx w he =>
    rw [he] at hcur
    split
    · exact setEngine_inv hs hcur
    · exact raiseError_inv _ (.inl rfl) hs
  · split
    · exact setEngine_inv hs trivial
    · exact raiseError_inv _ (.inr rfl) hs
  · trivial

/-- A segment form moves no cursor. -/
theorem runSegment_legal {dec : PathKind → List AsPathSegment → Except CodecError (List AsPathSegment)}
    {enc : Cxt → PathKind → Option (Except CodecError Bytes)} (hs : s.Inv) : LegalOutcome (runSegment dec enc s) := by
  have hcur := hs.cursorLegal
  unfold runSegment
  split
  · next cx w k sec cur segs he =>
    rw [he] at hcur
    split
    · exact setEngine_inv hs hcur
    · exact raiseError_inv _ (.inl rfl) hs
  · split
    · exact setEngine_inv hs trivial
    · exact raiseError_inv _ (.inr rfl) hs
    · trivial
  · trivial

/-- A family form goes back to the record section, whose cursor stayed where it was. -/
theorem runFamily_legal {dec : Cxt → MpKind → Byte → RecState → Except CodecError RecState}
    {enc : Cxt → MpKind → Except CodecError Bytes} (hs : s.Inv) : LegalOutcome (runFamily dec enc s) := by
  have hcur := hs.cursorLegal
  unfold runFamily
  split
  · next cx w k flags body he =>
    rw [he] at hcur
    split
    · exact setEngine_inv hs hcur
    · exact raiseError_inv _ (.inl rfl) hs
  · split
    · exact setEngine_inv hs trivial
    · exact raiseError_inv _ (.inr rfl) hs
  · trivial

theorem execDecode_legal (hs : s.Inv) : LegalOutcome (execDecode s) := by
  unfold execDecode
  split
  · exact endDecode_inv _ hs
  · trivial

theorem execEncode_legal (hs : s.Inv) : LegalOutcome (execEncode s) := by
  unfold execEncode
  split
  · exact endEncode_inv hs (fun _ h => encodeMessage_length h)
  · trivial

/-- Every instruction answers a legal outcome in a legal state, wherever the engine stands. -/
theorem exec_legal (i : Instr) (hs : s.Inv) : LegalOutcome (exec i s) := by
  unfold exec
  cases i with
  | clr => exact clearResults_inv hs
  | decode => exact execDecode_legal hs
  | encode => exact execEncode_legal hs
  | cmdReserved _ => trivial
  | msgOpen _ _ | msgNotification _ _ | msgRouteRefresh _ _ =>
    exact runMessage_legal hs (fun _ h => framePass_length (Option.some.inj h))
  | msgUpdate _ _ | msgKeepalive _ _ =>
    exact runMessage_legal hs (fun _ h => frameBody_length (Option.some.inj h))
  | msgUnassigned _ _ _ => exact runMessage_legal hs nofun
  | attrOrigin _ _ | attrAsPath _ _ | attrNextHop _ _ | attrMultiExitDisc _ _ | attrLocalPref _ _
  | attrAtomicAggregate _ _ | attrAggregator _ _ | attrCommunities _ _ | attrOriginatorId _ _ | attrClusterList _ _
  | attrMpReachNlri _ _ | attrMpUnreachNlri _ _ | attrExtendedCommunities _ _ | attrAs4Path _ _ | attrAs4Aggregator _ _
  | attrIpv6ExtendedCommunities _ _ | attrLargeCommunity _ _ | attrUnrecognizedOptional _ _ _
  | attrUnrecognizedWellKnown _ _ _ => exact runRecord_legal hs
  | segAsSet _ | segAsSequence _ | segOther _ _ => exact runSegment_legal hs
  | familyIpv4Unicast _ | familyIpv6Unicast _ | familyOther _ _ _ => exact runFamily_legal hs

end Exec

/-! ### The host's accesses -/

section HostAccesses

variable {s : State}

theorem hostReadReg_legal (offset : BitVec 12) (hs : s.Inv) : LegalOutcome (hostReadReg offset s) := by
  unfold hostReadReg
  split
  · trivial
  · split
    · trivial
    · split
      · exact see_inv _ hs
      · trivial

/-- A write stores a word whose reserved bits are clear, and a length that fits IBUF (R27, R29). -/
theorem hostWriteReg_legal (offset : BitVec 12) (v : Word) (hs : s.Inv) : LegalOutcome (hostWriteReg offset v s) := by
  unfold hostWriteReg
  cases regAt offset with
  | none => trivial
  | some reg =>
    cases reg with
    | status | err | obufLen => trivial
    | cxtCaps =>
      dsimp only
      split
      · next hv => exact { hs with capsLegal := by rintro _ ⟨⟩; exact hv }
      · trivial
    | cxtPeerType =>
      dsimp only
      split
      · next hv => exact { hs with peerTypeLegal := by rintro _ ⟨⟩; exact hv }
      · trivial
    | cxtPeerAs => exact { hs with }
    | ibufLen =>
      dsimp only
      split
      · trivial
      · split
        · trivial
        · next hv => exact { hs with ibufLenLegal := by rintro _ ⟨⟩; exact Nat.le_of_not_lt hv }

theorem hostWriteIbuf_legal (i : Half) (v : Byte) (hs : s.Inv) : LegalOutcome (hostWriteIbuf i v s) := by
  unfold hostWriteIbuf
  split
  · trivial
  · next hi =>
    exact { hs with
      ibufWf := Memory.wf_write _ v hs.ibufWf
      ibufBelow := Memory.below_write v hs.ibufBelow (Nat.lt_of_not_le hi) }

theorem hostReadIbuf_legal (i : Half) (hs : s.Inv) : LegalOutcome (hostReadIbuf i s) := by
  unfold hostReadIbuf
  split
  · trivial
  · split
    · exact see_inv _ hs
    · trivial

theorem hostReadObuf_legal (i : Half) (hs : s.Inv) : LegalOutcome (hostReadObuf i s) := by
  unfold hostReadObuf
  split
  · trivial
  · split
    · exact see_inv _ hs
    · trivial

theorem hostReadMsgOut_legal (hs : s.Inv) : LegalOutcome (hostReadMsgOut s) := by
  unfold hostReadMsgOut
  split
  · exact see_inv _ hs
  · trivial

end HostAccesses

/-! ### What comes next -/

section Fetch

variable {s : State}

theorem fetchHost_legal (hs : s.Inv) : LegalFetch (fetchHost s) := by
  unfold fetchHost
  split
  · exact hs
  · next op rest _ =>
    have hs' := popHost_inv rest hs
    cases op with
    | writeReg offset v =>
      dsimp only
      split
      · exact hs'
      · exact hostWriteReg_legal offset v hs'
    | readReg offset => exact hostReadReg_legal offset hs'
    | writeIbuf i v => exact hostWriteIbuf_legal i v hs'
    | readIbuf i => exact hostReadIbuf_legal i hs'
    | writeObuf _ _ => trivial
    | readObuf i => exact hostReadObuf_legal i hs'
    | writeMsgIn _ => exact { hs' with }
    | readMsgOut => exact hostReadMsgOut_legal hs'
    | reset => exact platformReset_inv hs'

/-- Inside a DECODE the cursor moves to what is left of the section it read from, so it stays inside; and a cursor inside its
section is not past the end, so that the fault is never raised. -/
theorem fetchDecode_legal {cx : Cxt} {place : DecPlace} (hs : s.Inv) (hcur : (Engine.decoding cx place).cursorLegal) :
    LegalFetch (fetchDecode cx place s) := by
  cases place with
  | message b =>
    simp only [fetchDecode]
    split
    · exact raiseError_inv _ (.inl rfl) hs
    · exact hs
  | records w =>
    have hin : w.cur ≤ w.sec.length := hcur
    simp only [fetchDecode, Nat.not_lt.mpr hin, if_false]
    split
    · exact endDecode_inv _ hs
    · split
      · exact raiseError_inv _ (.inl rfl) hs
      · exact setEngine_inv hs (Nat.sub_le _ _)
  | segments w k sec cur segs =>
    obtain ⟨houter, hin⟩ : w.cur ≤ w.sec.length ∧ cur ≤ sec.length := hcur
    simp only [fetchDecode, Nat.not_lt.mpr hin, if_false]
    split
    · exact setEngine_inv hs houter
    · split
      · exact raiseError_inv _ (.inl rfl) hs
      · exact setEngine_inv hs ⟨houter, Nat.sub_le _ _⟩
  | family w k flags body =>
    simp only [fetchDecode]
    split
    · exact raiseError_inv _ (.inl rfl) hs
    · exact hs

theorem fetchEncode_legal (cx : Cxt) (place : EncPlace) (hs : s.Inv) : LegalFetch (fetchEncode cx place s) := by
  cases place with
  | message m =>
    simp only [fetchEncode]
    split
    · exact raiseError_inv _ (.inr rfl) hs
    · exact hs
  | records w =>
    simp only [fetchEncode]
    split
    · refine endEncode_inv hs (fun bs h => ?_)
      obtain ⟨_, -, hframe⟩ := bind_eq_ok.mp h
      exact frameBody_length hframe
    · split
      · exact raiseError_inv _ (.inr rfl) hs
      · exact setEngine_inv hs trivial
      · exact setEngine_inv hs trivial
  | segments w k todo out =>
    simp only [fetchEncode]
    split
    · split
      · exact raiseError_inv _ (.inr rfl) hs
      · exact setEngine_inv hs trivial
    · exact setEngine_inv hs trivial
  | family w g =>
    simp only [fetchEncode]
    split
    · exact raiseError_inv _ (.inr rfl) hs
    · exact hs

theorem fetch_legal (hs : s.Inv) : LegalFetch (fetch s) := by
  have hcur := hs.cursorLegal
  unfold fetch
  split
  · exact fetchHost_legal hs
  · next he => exact fetchDecode_legal hs (he ▸ hcur)
  · exact fetchEncode_legal _ _ hs

theorem step_legal (hs : s.Inv) : LegalOutcome (step s) := by
  have hf := fetch_legal hs
  cases h : fetch s with
  | run i s' =>
    rw [h] at hf
    rw [step_run h]
    exact exec_legal i hf
  | done o =>
    rw [h] at hf
    rw [step_done h]
    exact hf

end Fetch

/-- Settles O2: the reset state lists no octet, holds no register value and stands at STATUS 0. -/
theorem invariantAtReset : Obligations.InvariantAtReset :=
  reset_inv

/-- Settles O3: what comes next in a legal state is legal, and every instruction answers a legal outcome there. -/
theorem invariantKept : Obligations.InvariantKept :=
  fun _ hs => legalOutcome_iff.mp (step_legal hs)

end Sys2Proof.Machine

/-! ### Proofs: every UPDATE a DECODE returns is canonical (10_state.md R34 and R36, 41_update.md R132 to R135,
44_nlri.md R230) -/

namespace Sys2Proof.Machine

open Sys2Proof

/-! ### An invariant of the section loop -/

theorem scanFor_invariant {σ : Type} {item : σ → Bytes → Except CodecError (σ × Bytes)} {P : σ → Prop}
    (hitem : ∀ acc bs acc' rest, P acc → item acc bs = .ok (acc', rest) → P acc') (n : Nat) {acc r : σ} {bs : Bytes}
    (hacc : P acc) (h : scanFor item n acc bs = .ok r) : P r := by
  induction n generalizing acc bs with
  | zero =>
    cases bs with
    | nil => cases h; exact hacc
    | cons b bs => cases h
  | succ n ih =>
    cases bs with
    | nil => cases h; exact hacc
    | cons b bs =>
      obtain ⟨⟨acc', rest⟩, hround, hloop⟩ := bind_eq_ok.mp h
      exact ih (hitem _ _ _ _ hacc hround) hloop

/-- What every round of a loop keeps holds of the loop's result. -/
theorem scan_invariant {σ : Type} {item : σ → Bytes → Except CodecError (σ × Bytes)} {P : σ → Prop}
    (hitem : ∀ acc bs acc' rest, P acc → item acc bs = .ok (acc', rest) → P acc') {acc r : σ} {bs : Bytes}
    (hacc : P acc) (h : scan item acc bs = .ok r) : P r :=
  scanFor_invariant hitem _ hacc h

/-! ### Decoded prefixes are canonical (R34, R230) -/

/-- An octet that shares no bit with `0xFF >> r` is a multiple of `2 ^ (8 - r)`. -/
theorem two_pow_dvd_of_and_shiftedOnes {b : Byte} {r : Nat} (hr : r < 8) (h : b &&& ((0xFF : Byte) >>> r) = 0) :
    2 ^ (8 - r) ∣ b.toNat := by
  have hmask : ((0xFF : Byte) >>> r).toNat = 2 ^ (8 - r) - 1 := by
    interval_cases r <;> rfl
  have hand := congrArg BitVec.toNat h
  rw [BitVec.toNat_and, hmask, Nat.and_two_pow_sub_one_eq_mod] at hand
  exact Nat.dvd_of_mod_eq_zero hand

/-- Octets without trailing bits are, as a number, a multiple of what their unused bits count to. -/
theorem two_pow_dvd_beNat_of_noTrailingBits {len : Nat} {raw : Bytes} (hlen : raw.length = ceil8 len)
    (h : hasTrailingBits len raw = false) : 2 ^ (8 * ceil8 len - len) ∣ beNat raw := by
  by_cases hr : len % 8 = 0
  · have : 8 * ceil8 len - len = 0 := by unfold ceil8; omega
    simp [this]
  · have hne : raw ≠ [] := by
      rintro rfl
      simp [ceil8] at hlen
      omega
    have hlast : raw.getLast hne &&& ((0xFF : Byte) >>> (len % 8)) = 0 := by
      simpa [hasTrailingBits, hr, List.getLastD_eq_getLast?, List.getLast?_eq_some_getLast hne] using h
    have hbits : 8 * ceil8 len - len = 8 - len % 8 := by unfold ceil8; omega
    have hoctet : (2 ^ (8 - len % 8) : Nat) ∣ 256 := pow_dvd_pow 2 (show 8 - len % 8 ≤ 8 by omega)
    rw [hbits, ← List.dropLast_append_getLast hne, beNat_append]
    exact Nat.dvd_add (Dvd.dvd.mul_left (by simpa using hoctet) _)
      (by simpa [beNat] using two_pow_dvd_of_and_shiftedOnes (by omega) hlast)

@[simp] theorem beNat_replicate_zero (n : Nat) : beNat (List.replicate n 0) = 0 := by
  induction n with
  | zero => rfl
  | succ n ih =>
    rw [List.replicate_succ, beNat_cons, ih]
    simp

theorem decodePrefix_canonical {w : Nat} (hw : 8 ∣ w) {bs rest : Bytes} {p : Prefix w}
    (h : decodePrefix w bs = .ok (p, rest)) : canonicalPrefix p := by
  cases bs with
  | nil => cases h
  | cons b bs =>
    obtain ⟨hlen, hle, raw, hraw, -, htrail, haddr⟩ := decodePrefix_consumes h
    have hunused := two_pow_dvd_beNat_of_noTrailingBits hraw htrail
    refine ⟨hle, Nat.mod_eq_zero_of_dvd ?_⟩
    rw [haddr, be, BitVec.toNat_ofNat, hlen]
    refine (Nat.dvd_mod_iff (pow_dvd_pow 2 (Nat.sub_le _ _))).mpr ?_
    have hsplit : w - b.toNat = (8 * ceil8 b.toNat - b.toNat) + 8 * (w / 8 - ceil8 b.toNat) := by
      unfold ceil8; omega
    rw [beNat_append, List.length_replicate, beNat_replicate_zero, Nat.add_zero, hsplit, Nat.pow_add, Nat.pow_mul]
    exact Nat.mul_dvd_mul_right hunused _

theorem decodePrefixList_canonical {w : Nat} (hw : 8 ∣ w) {bs : Bytes} {ps : List (Prefix w)}
    (h : decodePrefixList w bs = .ok ps) : ∀ p ∈ ps, canonicalPrefix p := by
  refine scan_invariant (P := fun ps : List (Prefix w) => ∀ p ∈ ps, canonicalPrefix p) ?_ (by simp) h
  intro ps s ps' rest hps hround
  obtain ⟨⟨p, rest'⟩, hp, hps'⟩ := bind_eq_ok.mp hround
  cases hps'
  intro q hq
  rcases List.mem_append.mp hq with hq | hq
  · exact hps q hq
  · exact List.mem_singleton.mp hq ▸ decodePrefix_canonical hw hp

theorem reachGroup_canonical {fam : FamForm} {g : MpReachNlri} (h : reachGroup fam = .ok g) : canonicalReach g := by
  obtain ⟨_, -, h⟩ := bind_eq_ok.mp h
  obtain ⟨_, -, h⟩ := bind_eq_ok.mp h
  obtain ⟨_, -, h⟩ := bind_eq_ok.mp h
  split at h
  all_goals
    obtain ⟨ps, hps, hg⟩ := bind_eq_ok.mp h
    cases hg
    exact decodePrefixList_canonical (by norm_num) hps

theorem unreachGroup_canonical {fam : FamForm} {g : MpUnreachNlri} (h : unreachGroup fam = .ok g) :
    canonicalUnreach g := by
  unfold unreachGroup at h
  split at h
  all_goals
    obtain ⟨ps, hps, hg⟩ := bind_eq_ok.mp h
    cases hg
    exact decodePrefixList_canonical (by norm_num) hps

/-! ### What no record breaks -/

/-- The part of `DecodedUpdate` that the record loop keeps: NEXT_HOP waits in the side state (R135), so that both next-hop
fields of the base block are empty, and the multiprotocol groups read so far are canonical. -/
structure CleanRecords (w : RecState) : Prop where
  nexthop : w.attrs.base.nexthop = none
  llNexthop : w.attrs.base.llNexthop = none
  mpReach : ∀ g, w.side.mpReach = some g → canonicalReach g
  mpUnreach : ∀ g, w.side.mpUnreach = some g → canonicalUnreach g

/-- Where a record rule answers A, st and seen, they are clean. -/
def AnswersClean (x : Except CodecError RecState) : Prop :=
  ∀ w, x = .ok w → CleanRecords w

theorem cleanRecords_start : CleanRecords {} :=
  ⟨rfl, rfl, nofun, nofun⟩

theorem answersClean_ok {w : RecState} (hw : CleanRecords w) : AnswersClean (.ok w) := by
  rintro _ ⟨⟩
  exact hw

theorem answersClean_error (e : CodecError) : AnswersClean (.error e) := by
  rintro _ ⟨⟩

theorem answersClean_bind {α : Type} {x : Except CodecError α} {k : α → Except CodecError RecState}
    (h : ∀ a, x = .ok a → AnswersClean (k a)) : AnswersClean (x >>= k) := by
  intro w hw
  obtain ⟨a, ha, hk⟩ := bind_eq_ok.mp hw
  exact h a ha w hk

section Rules

variable {w : RecState} (hw : CleanRecords w)

include hw

theorem cleanRecords_setBase {f : BaseAttrs → BaseAttrs} (hnh : ∀ b, (f b).nexthop = b.nexthop)
    (hll : ∀ b, (f b).llNexthop = b.llNexthop) : CleanRecords (setBase f w) :=
  { hw with nexthop := (hnh _).trans hw.nexthop, llNexthop := (hll _).trans hw.llNexthop }

theorem cleanRecords_setAttrs {f : Attrs → Attrs} (hf : ∀ a, (f a).base = a.base) : CleanRecords (setAttrs f w) :=
  { hw with
    nexthop := (congrArg BaseAttrs.nexthop (hf _)).trans hw.nexthop
    llNexthop := (congrArg BaseAttrs.llNexthop (hf _)).trans hw.llNexthop }

theorem cleanRecords_keepUnknown (flags t : Byte) (v : Bytes) : CleanRecords (keepUnknown flags t v w) :=
  cleanRecords_setAttrs hw (fun _ => rfl)

theorem cleanRecords_setPath (k : PathKind) (p : AsPath) : CleanRecords (setPath k p w) := by
  cases k with
  | asPath => exact cleanRecords_setBase (f := fun b => { b with asPath := some p }) hw (fun _ => rfl) (fun _ => rfl)
  | as4Path => exact cleanRecords_setBase (f := fun b => { b with as4Path := some p }) hw (fun _ => rfl) (fun _ => rfl)

theorem checkDuplicate_clean (t : Byte) : AnswersClean (checkDuplicate t w) := by
  rw [checkDuplicate_eq]
  split
  · exact answersClean_error _
  · exact answersClean_ok { hw with }

/-- A rule of a recognized type is clean where it is clean after the checks before it. -/
theorem openRecord_bind_clean {t : AttrType} {flags : Byte} {k : RecState → Except CodecError RecState}
    (hk : ∀ w', CleanRecords w' → AnswersClean (k w')) : AnswersClean (openRecord t flags w >>= k) := by
  refine answersClean_bind (fun w' hopen => hk w' ?_)
  obtain ⟨-, -, -, rfl⟩ := openRecord_eq_ok hopen
  exact { hw with }

/-- A rule that checks or reads its body and then stores what it read. -/
theorem openRecord_store_clean {α : Type} {t : AttrType} {flags : Byte} {x : Except CodecError α}
    {store : α → RecState → RecState} (hstore : ∀ a w', CleanRecords w' → CleanRecords (store a w')) :
    AnswersClean (openRecord t flags w >>= fun w' => x >>= fun a => .ok (store a w')) :=
  openRecord_bind_clean hw (fun w' hw' => answersClean_bind (fun a _ => answersClean_ok (hstore a w' hw')))

theorem decodeOrigin_clean (flags : Byte) (v : Bytes) : AnswersClean (decodeOrigin flags v w) := by
  refine openRecord_bind_clean hw (fun w' hw' => answersClean_bind (fun _ _ => ?_))
  split
  · exact answersClean_ok (cleanRecords_setBase hw' (fun _ => rfl) (fun _ => rfl))
  · exact answersClean_error _

theorem decodeUnrecognized_clean (flags t : Byte) (v : Bytes) : AnswersClean (decodeUnrecognized flags t v w) :=
  answersClean_bind (fun _ hdup => answersClean_bind (fun _ _ =>
    answersClean_ok (cleanRecords_keepUnknown (checkDuplicate_clean hw t _ hdup) _ _ _)))

theorem decodeFamily_clean (cx : Cxt) (k : MpKind) (flags : Byte) (fam : FamForm) :
    AnswersClean (decodeFamily cx k flags fam w) := by
  unfold decodeFamily
  split
  · cases k with
    | reach =>
      refine answersClean_bind (fun g hg => answersClean_ok { hw with mpReach := ?_ })
      rintro _ ⟨⟩
      exact reachGroup_canonical hg
    | unreach =>
      refine answersClean_bind (fun g hg => answersClean_ok { hw with mpUnreach := ?_ })
      rintro _ ⟨⟩
      exact unreachGroup_canonical hg
  · exact answersClean_ok (cleanRecords_keepUnknown hw _ _ _)

/-- Every record rule keeps the section clean: NEXT_HOP goes to the side state, a multiprotocol record stores a decoded
group or a raw record, and every other rule writes fields that are no next hop. -/
theorem dispatchAttr_clean (cx : Cxt) (f : RecForm) : AnswersClean (dispatchAttr cx f w) := by
  unfold dispatchAttr
  cases attrTypeOf f.type with
  | none => exact decodeUnrecognized_clean hw _ _ _
  | some t =>
    cases t with
    | origin => exact decodeOrigin_clean hw _ _
    | nextHop => exact openRecord_store_clean hw (fun _ _ hw' => { hw' with })
    | asPath | as4Path => exact openRecord_store_clean hw (fun _ _ hw' => cleanRecords_setPath hw' _ _)
    | multiExitDisc | localPref | atomicAggregate | aggregator | originatorId | clusterList | as4Aggregator =>
      exact openRecord_store_clean hw (fun _ _ hw' => cleanRecords_setBase hw' (fun _ => rfl) (fun _ => rfl))
    | communities | extendedCommunities | ipv6ExtendedCommunities | largeCommunity =>
      exact openRecord_store_clean hw (fun _ _ hw' => cleanRecords_setAttrs hw' (fun _ => rfl))
    | mpReachNlri | mpUnreachNlri =>
      exact openRecord_bind_clean hw (fun _ hw' => answersClean_bind (fun _ _ => decodeFamily_clean hw' _ _ _ _))

end Rules

theorem decodeAttrSection_clean (cx : Cxt) (sec : Bytes) : AnswersClean (decodeAttrSection cx sec) := by
  refine fun w h => scan_invariant (fun acc bs acc' rest hacc hround => ?_) cleanRecords_start h
  obtain ⟨⟨f, _⟩, -, hdispatch⟩ := bind_eq_ok.mp hround
  obtain ⟨w', hw', hpair⟩ := bind_eq_ok.mp hdispatch
  cases hpair
  exact dispatchAttr_clean hacc cx f _ hw'

/-! ### The whole UPDATE -/

theorem unreachOf_eq_some {ps : List Prefix4} {r : UnreachNlri} (h : unreachOf ps = some r) :
    ps ≠ [] ∧ r.prefixes = ps := by
  unfold unreachOf at h
  split at h
  · cases h
  · next hne => cases h; exact ⟨hne, rfl⟩

/-- NEXT_HOP is placed with the legacy prefixes or in the base block, never in both (R135). -/
theorem placeNexthop_cases {nl : List Prefix4} {nh : Option Ipv4} {attrs : Option Attrs} :
    placeNexthop nl nh attrs = (none, attrs) ∨
    (∃ h, placeNexthop nl nh attrs =
      (none, attrs.map (fun a => { a with base := { a.base with nexthop := some h } }))) ∨
    ∃ h, nl ≠ [] ∧ placeNexthop nl nh attrs = (some { prefixes := nl, nexthop := h }, attrs) := by
  cases nh with
  | none => exact .inl rfl
  | some h =>
    by_cases hnl : nl = []
    · exact .inr (.inl ⟨h, by simp [placeNexthop, hnl]⟩)
    · exact .inr (.inr ⟨h, hnl, by simp [placeNexthop, hnl]⟩)

/-- The end of `decode_update` over a clean section of records; where there is none, A has its start values and is not part
of the value. -/
theorem finishDecodeUpdate_decoded {wd : List Prefix4} {attrs : Option Attrs} {w : RecState} {nsec : Bytes} {u : UpdateMsg}
    (hwd : ∀ p ∈ wd, canonicalPrefix p) (hw : CleanRecords w) (hattrs : ∀ a, attrs = some a → a = w.attrs)
    (h : finishDecodeUpdate (unreachOf wd) attrs w.side nsec = .ok u) : DecodedUpdate u := by
  obtain ⟨nl, hnl, h⟩ := bind_eq_ok.mp h
  obtain ⟨_, -, hu⟩ := bind_eq_ok.mp h
  have hcanon := decodePrefixList_canonical (by norm_num) hnl
  have hunreach : ∀ r, unreachOf wd = some r → r.prefixes ≠ [] ∧ ∀ p ∈ r.prefixes, canonicalPrefix p := by
    intro r hr
    obtain ⟨hne, hps⟩ := unreachOf_eq_some hr
    exact hps ▸ ⟨hne, hwd⟩
  have hll : ∀ a, attrs = some a → a.base.llNexthop = none := fun a ha => hattrs a ha ▸ hw.llNexthop
  have hnh : ∀ a, attrs = some a → a.base.nexthop = none := fun a ha => hattrs a ha ▸ hw.nexthop
  rcases placeNexthop_cases (nl := nl) (nh := w.side.nh) (attrs := attrs) with hp | ⟨nh, hp⟩ | ⟨nh, hne, hp⟩
  · rw [hp] at hu
    cases hu
    exact {
      reachPrefixes := nofun
      unreachPrefixes := hunreach
      mpReachPrefixes := hw.mpReach
      mpUnreachPrefixes := hw.mpUnreach
      noLinkLocal := hll
      nexthopOnce := fun hreach => absurd rfl hreach }
  · rw [hp] at hu
    cases hu
    exact {
      reachPrefixes := nofun
      unreachPrefixes := hunreach
      mpReachPrefixes := hw.mpReach
      mpUnreachPrefixes := hw.mpUnreach
      noLinkLocal := by
        intro a ha
        obtain ⟨a', ha', rfl⟩ := Option.map_eq_some_iff.mp ha
        exact hll a' ha'
      nexthopOnce := fun hreach => absurd rfl hreach }
  · rw [hp] at hu
    cases hu
    exact {
      reachPrefixes := by
        rintro _ ⟨⟩
        exact ⟨hne, hcanon⟩
      unreachPrefixes := hunreach
      mpReachPrefixes := hw.mpReach
      mpUnreachPrefixes := hw.mpUnreach
      noLinkLocal := hll
      nexthopOnce := fun _ => hnh }

theorem decodeUpdate_decoded {cx : Cxt} {b : Bytes} {u : UpdateMsg} (h : decodeUpdate cx b = .ok u) :
    DecodedUpdate u := by
  obtain ⟨⟨wsec, asec, nsec⟩, -, h⟩ := bind_eq_ok.mp h
  obtain ⟨wd, hwd, h⟩ := bind_eq_ok.mp h
  have hcanon := decodePrefixList_canonical (by norm_num) hwd
  split at h
  · exact finishDecodeUpdate_decoded (w := {}) hcanon cleanRecords_start (by simp) h
  · obtain ⟨w, hw, h⟩ := bind_eq_ok.mp h
    exact finishDecodeUpdate_decoded hcanon (decodeAttrSection_clean cx asec w hw) (by rintro _ ⟨⟩; rfl) h

theorem decodeKind_update {cx : Cxt} {k : MsgKind} {body : Bytes} {u : UpdateMsg}
    (h : decodeKind cx k body = .ok (.update u)) : decodeUpdate cx body = .ok u := by
  obtain ⟨_, -, h⟩ := bind_eq_ok.mp h
  cases k with
  | update =>
    obtain ⟨_, hu, h⟩ := bind_eq_ok.mp h
    cases h
    exact hu
  | openMsg | notification | keepalive | routeRefresh => cases h

/-- An UPDATE that `decode_message` returns was decoded from the body of its message. -/
theorem decodeMessage_update {par : Params} {cx : Cxt} {b : Bytes} {u : UpdateMsg}
    (h : decodeMessage par cx b = .ok (.update u)) : ∃ body, decodeUpdate cx body = .ok u := by
  obtain ⟨f, -, h⟩ := bind_eq_ok.mp h
  unfold dispatchMessage at h
  split at h
  · exact ⟨f.body, decodeKind_update h⟩
  · cases h

theorem endDecode_msgOut_eq_some {r : Except CodecError Message} {m : Message} {s : State} :
    (endDecode r s).msgOut = some m ↔ r = .ok m := by
  cases r <;> simp

/-- Settles O21: a DECODE delivers what `decode_update` answers, whose record loop keeps the section clean and whose prefix
lists are canonical. -/
theorem decodedValuesCanonical : Obligations.DecodedValuesCanonical := by
  intro s t u hstep hout
  obtain ⟨cx, b, -, rfl⟩ := execDecode_next hstep
  obtain ⟨body, hbody⟩ := decodeMessage_update (endDecode_msgOut_eq_some.mp hout)
  exact decodeUpdate_decoded hbody

end Sys2Proof.Machine

/-! ### Proofs: the host's accesses, the reset, and what commands leave alone and depend on (10_state.md R21 to R29, R40,
R43 and R44; 20_memory.md R53 to R58; 60_exceptions.md R283, R286 and R296) -/

namespace Sys2Proof.Machine

open Sys2Proof

/-! ### A host access, one step -/

/-- What a host access other than a write to CMD does, once it is taken off the host's program. -/
def hostAccess : HostOp → State → Host.Outcome State Fault Refusal
  | .writeReg offset v, s => hostWriteReg offset v s
  | .readReg offset, s => hostReadReg offset s
  | .writeIbuf i v, s => hostWriteIbuf i v s
  | .readIbuf i, s => hostReadIbuf i s
  | .writeObuf i v, s => hostWriteObuf i v s
  | .readObuf i, s => hostReadObuf i s
  | .writeMsgIn m, s => hostWriteMsgIn m s
  | .readMsgOut, s => hostReadMsgOut s
  | .reset, s => .next (platformReset s)

theorem step_hostAccess {s : State} {op : HostOp} {rest : List HostOp} (hidle : s.engine = .idle)
    (htodo : s.host.todo = op :: rest) (hcmd : ∀ v, op ≠ .writeReg cmdOffset v) :
    step s = hostAccess op (popHost rest s) := by
  refine step_done ?_
  rw [fetch_idle hidle]
  cases op with
  | writeReg offset v =>
    have hoff : offset ≠ cmdOffset := by rintro rfl; exact hcmd v rfl
    simp only [fetchHost, htodo, if_neg hoff, hostAccess]
  | readReg _ | writeIbuf _ _ | readIbuf _ | writeObuf _ _ | readObuf _ | writeMsgIn _ | readMsgOut | reset =>
    simp only [fetchHost, htodo, hostAccess]

theorem step_idle_noAccess {s : State} (hidle : s.engine = .idle) (htodo : s.host.todo = []) : step s = .next s := by
  refine step_done ?_
  rw [fetch_idle hidle]
  simp only [fetchHost, htodo]

/-! ### The registers (R21, R58) -/

theorem regOffset_ne_cmdOffset (r : Reg) : regOffset r ≠ cmdOffset := by
  cases r <;> decide

/-- The registers stand at the multiples of 4 below 0x020 (R21). -/
theorem regOffset_range (r : Reg) : (regOffset r).toNat < 0x020 ∧ (regOffset r).toNat % 4 = 0 := by
  cases r <;> decide

theorem regAt_reserved {offset : BitVec 12} (h : 0x020 ≤ offset.toNat ∨ offset.toNat % 4 ≠ 0) : regAt offset = none := by
  cases hr : regAt offset with
  | none => rfl
  | some r =>
    obtain rfl := regAt_eq_some.mp hr
    have := regOffset_range r
    omega

theorem ne_cmdOffset_of_reserved {offset : BitVec 12} (h : 0x020 ≤ offset.toNat ∨ offset.toNat % 4 ≠ 0) :
    offset ≠ cmdOffset := by
  rintro rfl
  revert h
  decide

theorem hostReadReg_written {r : Reg} {s : State} {w : Word} (h : regValue r s = some w) :
    hostReadReg (regOffset r) s = .next (see (.word w) s) := by
  unfold hostReadReg
  rw [if_neg (regOffset_ne_cmdOffset r), regAt_regOffset]
  simp only [h]

theorem hostReadReg_unwritten {r : Reg} {s : State} (h : regValue r s = none) :
    hostReadReg (regOffset r) s = .refused .registerUnwritten := by
  unfold hostReadReg
  rw [if_neg (regOffset_ne_cmdOffset r), regAt_regOffset]
  simp only [h]

theorem hostReadReg_reserved {offset : BitVec 12} (s : State) (h : 0x020 ≤ offset.toNat ∨ offset.toNat % 4 ≠ 0) :
    hostReadReg offset s = .refused .reservedOffset := by
  unfold hostReadReg
  rw [if_neg (ne_cmdOffset_of_reserved h), regAt_reserved h]

theorem hostWriteReg_reserved {offset : BitVec 12} (v : Word) (s : State)
    (h : 0x020 ≤ offset.toNat ∨ offset.toNat % 4 ≠ 0) : hostWriteReg offset v s = .refused .reservedOffset := by
  unfold hostWriteReg
  rw [regAt_reserved h]

section WriteEquations

variable {v : Word} {s : State}

theorem hostWriteReg_cxtCaps (h : v.toNat < 16) : hostWriteReg 0x00C v s = .next { s with cxtCaps := some v } :=
  if_pos h

theorem hostWriteReg_cxtCaps_reserved (h : 16 ≤ v.toNat) : hostWriteReg 0x00C v s = .refused .reservedBits :=
  if_neg (Nat.not_lt.mpr h)

theorem hostWriteReg_cxtPeerType (h : v.toNat < 2) :
    hostWriteReg 0x010 v s = .next { s with cxtPeerType := some v } :=
  if_pos h

theorem hostWriteReg_cxtPeerType_reserved (h : 2 ≤ v.toNat) : hostWriteReg 0x010 v s = .refused .reservedBits :=
  if_neg (Nat.not_lt.mpr h)

theorem hostWriteReg_cxtPeerAs : hostWriteReg 0x014 v s = .next { s with cxtPeerAs := some v } := rfl

theorem hostWriteReg_ibufLen (h : v.toNat < 65536) (hcap : v.toNat ≤ s.par.ibufCap) :
    hostWriteReg 0x018 v s = .next { s with ibufLen := some v } :=
  (if_neg (Nat.not_le.mpr h)).trans (if_neg (Nat.not_lt.mpr hcap))

theorem hostWriteReg_ibufLen_above (h : v.toNat < 65536) (hcap : s.par.ibufCap < v.toNat) :
    hostWriteReg 0x018 v s = .refused .lengthAboveCapacity :=
  (if_neg (Nat.not_le.mpr h)).trans (if_pos hcap)

theorem hostWriteReg_ibufLen_reserved (h : 65536 ≤ v.toNat) : hostWriteReg 0x018 v s = .refused .reservedBits :=
  if_pos h

theorem hostWriteReg_readOnly {offset : BitVec 12} (h : offset ∈ [(0x004 : BitVec 12), 0x008, 0x01C]) :
    hostWriteReg offset v s = .refused .writeToReadOnly := by
  simp only [List.mem_cons, List.not_mem_nil, or_false] at h
  rcases h with rfl | rfl | rfl <;> rfl

end WriteEquations

/-- The list of R21 as the statement of O6 writes it: each register's offset with what the register holds. -/
theorem exists_reg_of_mem {s : State} {offset : BitVec 12} {held : Option Word}
    (h : (offset, held) ∈ [((0x004 : BitVec 12), some s.status), (0x008, some s.err), (0x00C, s.cxtCaps),
      (0x010, s.cxtPeerType), (0x014, s.cxtPeerAs), (0x018, s.ibufLen), (0x01C, some s.obufLen)]) :
    ∃ r, offset = regOffset r ∧ held = regValue r s := by
  simp only [List.mem_cons, List.not_mem_nil, or_false, Prod.mk.injEq] at h
  rcases h with h | h | h | h | h | h | h
  · exact ⟨.status, h⟩
  · exact ⟨.err, h⟩
  · exact ⟨.cxtCaps, h⟩
  · exact ⟨.cxtPeerType, h⟩
  · exact ⟨.cxtPeerAs, h⟩
  · exact ⟨.ibufLen, h⟩
  · exact ⟨.obufLen, h⟩

theorem regValue_popHost (r : Reg) (rest : List HostOp) (s : State) : regValue r (popHost rest s) = regValue r s := by
  cases r <;> rfl

/-- Settles O5: at each offset the write does what the register's own equation says. -/
theorem hostWritesRegisters : Obligations.HostWritesRegisters := by
  intro s offset v rest hidle htodo
  have hstep : offset ≠ cmdOffset → step s = hostWriteReg offset v (popHost rest s) := step_writeReg hidle htodo
  refine ⟨?_, ?_, ?_, ?_, ?_, ?_, ?_, ?_, ?_, ?_⟩
  · rintro rfl hv
    exact (hstep (by decide)).trans (hostWriteReg_cxtCaps hv)
  · rintro rfl hv
    exact (hstep (by decide)).trans (hostWriteReg_cxtCaps_reserved hv)
  · rintro rfl hv
    exact (hstep (by decide)).trans (hostWriteReg_cxtPeerType hv)
  · rintro rfl hv
    exact (hstep (by decide)).trans (hostWriteReg_cxtPeerType_reserved hv)
  · rintro rfl
    exact (hstep (by decide)).trans hostWriteReg_cxtPeerAs
  · rintro rfl hv hcap
    exact (hstep (by decide)).trans (hostWriteReg_ibufLen hv hcap)
  · rintro rfl hv hcap
    exact (hstep (by decide)).trans (hostWriteReg_ibufLen_above hv hcap)
  · rintro rfl hv
    exact (hstep (by decide)).trans (hostWriteReg_ibufLen_reserved hv)
  · intro ho
    exact (hstep (by rintro rfl; revert ho; decide)).trans (hostWriteReg_readOnly ho)
  · intro ho
    exact (hstep (ne_cmdOffset_of_reserved ho)).trans (hostWriteReg_reserved v _ ho)

/-- Settles O6: a register's offset reads the value that the register holds, and no other offset is read. -/
theorem hostReadsRegisters : Obligations.HostReadsRegisters := by
  intro s rest offset hidle htodo
  have hstep : step s = hostReadReg offset (popHost rest s) := step_hostAccess hidle htodo nofun
  refine ⟨fun held hmem => ?_, ?_, fun ho => ?_⟩
  · obtain ⟨r, rfl, rfl⟩ := exists_reg_of_mem hmem
    rw [← regValue_popHost r rest]
    exact ⟨fun w hw => hstep.trans (hostReadReg_written hw), fun hnone => hstep.trans (hostReadReg_unwritten hnone)⟩
  · rintro rfl
    exact hstep
  · rw [hstep, hostReadReg_reserved _ ho]

/-! ### The buffers and ports (R29, R40, R53) -/

theorem hostWriteIbuf_below {i : Half} {s : State} (v : Byte) (h : i.toNat < s.par.ibufCap) :
    hostWriteIbuf i v s = .next { s with ibuf := s.ibuf.write i.toNat v } :=
  if_neg (Nat.not_le.mpr h)

theorem hostWriteIbuf_above {i : Half} {s : State} (v : Byte) (h : s.par.ibufCap ≤ i.toNat) :
    hostWriteIbuf i v s = .refused .ibufIndex :=
  if_pos h

theorem hostReadIbuf_above {i : Half} {s : State} (h : s.par.ibufCap ≤ i.toNat) :
    hostReadIbuf i s = .refused .ibufIndex :=
  if_pos h

theorem hostReadIbuf_written {i : Half} {s : State} {b : Byte} (h : i.toNat < s.par.ibufCap)
    (hb : s.ibuf.read i.toNat = some b) : hostReadIbuf i s = .next (see (.octet b) s) := by
  unfold hostReadIbuf
  rw [if_neg (Nat.not_le.mpr h), hb]

theorem hostReadIbuf_unwritten {i : Half} {s : State} (h : i.toNat < s.par.ibufCap)
    (hb : s.ibuf.read i.toNat = none) : hostReadIbuf i s = .refused .ibufUnwritten := by
  unfold hostReadIbuf
  rw [if_neg (Nat.not_le.mpr h), hb]

theorem hostReadObuf_above {i : Half} {s : State} (h : s.obufLen.toNat ≤ i.toNat) :
    hostReadObuf i s = .refused .obufIndex :=
  if_pos h

theorem hostReadObuf_written {i : Half} {s : State} {b : Byte} (h : i.toNat < s.obufLen.toNat)
    (hb : s.obuf.read i.toNat = some b) : hostReadObuf i s = .next (see (.octet b) s) := by
  unfold hostReadObuf
  rw [if_neg (Nat.not_le.mpr h), hb]

theorem hostReadMsgOut_valid {s : State} {m : Message} (h : s.msgOut = some m) :
    hostReadMsgOut s = .next (see (.message m) s) := by
  unfold hostReadMsgOut
  rw [h]

theorem hostReadMsgOut_invalid {s : State} (h : s.msgOut = none) : hostReadMsgOut s = .refused .msgOutInvalid := by
  unfold hostReadMsgOut
  rw [h]

/-- In a legal state every octet below OBUF_LEN is there (R101). -/
theorem obuf_read_of_lt_obufLen {s : State} (hs : s.Inv) {a : Nat} (h : a < s.obufLen.toNat) :
    ∃ x, s.obuf.read a = some x := by
  obtain ⟨bs, hbs⟩ := Option.isSome_iff_exists.mp hs.obufWritten
  obtain ⟨hlen, hread⟩ := Memory.readRange_eq_some.mp hbs
  have hget := hread a h
  rw [Nat.zero_add] at hget
  exact ⟨bs[a], by rw [hget, List.getElem?_eq_getElem]⟩

/-- Settles O7: one equation for each access; the invariant gives the octet that a read of OBUF returns. -/
theorem hostAccessesBuffersAndPorts : Obligations.HostAccessesBuffersAndPorts := by
  intro s i v m rest hs hidle sees
  have hstep : ∀ op, s.host.todo = op :: rest → (∀ v, op ≠ .writeReg cmdOffset v) →
      step s = hostAccess op (popHost rest s) := fun op htodo hcmd => step_hostAccess hidle htodo hcmd
  refine ⟨?_, ?_, ?_, ?_, ?_, ?_, ?_, ?_, ?_, ?_⟩
  · intro htodo hi
    exact ⟨s.ibuf.write i.toNat v, (hstep _ htodo nofun).trans (hostWriteIbuf_below v hi),
      Memory.read_write_same _ _ _, fun a ha => Memory.read_write_other _ _ ha⟩
  · rintro (htodo | htodo) hi
    · exact (hstep _ htodo nofun).trans (hostWriteIbuf_above v hi)
    · exact (hstep _ htodo nofun).trans (hostReadIbuf_above hi)
  · intro htodo hi hv
    exact (hstep _ htodo nofun).trans (hostReadIbuf_written hi hv)
  · intro htodo hi hnone
    exact (hstep _ htodo nofun).trans (hostReadIbuf_unwritten hi hnone)
  · intro htodo hi
    obtain ⟨x, hx⟩ := obuf_read_of_lt_obufLen hs hi
    exact ⟨x, hx, (hstep _ htodo nofun).trans (hostReadObuf_written hi hx)⟩
  · intro htodo hi
    exact (hstep _ htodo nofun).trans (hostReadObuf_above hi)
  · intro htodo
    exact hstep _ htodo nofun
  · intro htodo hm
    exact (hstep _ htodo nofun).trans (hostReadMsgOut_valid hm)
  · intro htodo hnone
    exact (hstep _ htodo nofun).trans (hostReadMsgOut_invalid hnone)
  · intro htodo
    exact hstep _ htodo nofun

/-! ### The reset (R44, R310) -/

theorem resetValues_reset : resetValues State.reset :=
  ⟨rfl, rfl, rfl, rfl, rfl, rfl, rfl, fun _ => rfl, fun _ => rfl, rfl, rfl, rfl⟩

theorem resetValues_platformReset (s : State) : resetValues (platformReset s) :=
  resetValues_reset

/-- Settles O1: a pending reset is taken in one step and gives the reset values. -/
theorem resetValues_hold : Obligations.ResetValues :=
  ⟨resetValues_reset, fun _ _ hidle htodo =>
    ⟨_, step_hostAccess hidle htodo nofun, resetValues_platformReset _, rfl, rfl, rfl⟩⟩

/-! ### What a host access leaves alone (R26, R56) -/

/-- A host access keeps the parameters, the results, the engine and the program still to run. -/
structure HostFrame (s t : State) : Prop where
  par : t.par = s.par
  results : sameResults s t
  engine : t.engine = s.engine
  todo : t.host.todo = s.host.todo

theorem sameResults_refl (s : State) : sameResults s s :=
  ⟨rfl, rfl, rfl, rfl, fun _ => rfl⟩

theorem hostFrame_see (v : HostValue) (s : State) : HostFrame s (see v s) :=
  ⟨rfl, sameResults_refl s, rfl, rfl⟩

theorem hostWriteReg_frame {offset : BitVec 12} {v : Word} {s t : State} (h : hostWriteReg offset v s = .next t) :
    HostFrame s t := by
  rcases hostWriteReg_next h with ⟨-, -, rfl⟩ | ⟨-, -, rfl⟩ | ⟨-, rfl⟩ | ⟨-, -, -, rfl⟩
  all_goals exact ⟨rfl, sameResults_refl s, rfl, rfl⟩

theorem hostAccess_frame {op : HostOp} {s t : State} (hreset : op ≠ .reset) (h : hostAccess op s = .next t) :
    HostFrame s t := by
  cases op with
  | writeReg offset v => exact hostWriteReg_frame h
  | readReg offset =>
    obtain ⟨_, _, -, -, rfl⟩ := hostReadReg_next h
    exact hostFrame_see _ s
  | writeIbuf i v =>
    obtain ⟨-, rfl⟩ := hostWriteIbuf_next h
    exact ⟨rfl, sameResults_refl s, rfl, rfl⟩
  | readIbuf i =>
    obtain ⟨-, _, -, rfl⟩ := hostReadIbuf_next h
    exact hostFrame_see _ s
  | writeObuf i v => cases h
  | readObuf i =>
    obtain ⟨-, _, -, rfl⟩ := hostReadObuf_next h
    exact hostFrame_see _ s
  | writeMsgIn m =>
    cases h
    exact ⟨rfl, sameResults_refl s, rfl, rfl⟩
  | readMsgOut =>
    obtain ⟨_, -, rfl⟩ := hostReadMsgOut_next h
    exact hostFrame_see _ s
  | reset => exact absurd rfl hreset

/-! ### What an instruction leaves alone (R26, R55) -/

section Inputs

variable {s t : State}

theorem runMessage_sameInputs {dec : Cxt → Except CodecError Message}
    {enc : Params → Option (Except CodecError Bytes)} (h : runMessage dec enc s = .next t) : sameInputs s t := by
  rcases runMessage_next h with ⟨_, _, -, rfl⟩ | ⟨_, _, _, -, -, rfl⟩
  · exact sameInputs_endDecode _ s
  · exact sameInputs_endEncode _ s

theorem runRecord_sameInputs {dec : Cxt → RecState → Except CodecError RecState} {enc : Except CodecError Bytes}
    (h : runRecord dec enc s = .next t) : sameInputs s t := by
  rcases runRecord_next h with ⟨_, _, -, ⟨_, -, rfl⟩ | ⟨_, -, rfl⟩⟩ | ⟨_, _, -, ⟨_, -, rfl⟩ | ⟨_, -, rfl⟩⟩
  · exact sameInputs_setEngine _ s
  · exact sameInputs_raiseError _ _ s
  · exact sameInputs_setEngine _ s
  · exact sameInputs_raiseError _ _ s

theorem runSegment_sameInputs {dec : PathKind → List AsPathSegment → Except CodecError (List AsPathSegment)}
    {enc : Cxt → PathKind → Option (Except CodecError Bytes)} (h : runSegment dec enc s = .next t) :
    sameInputs s t := by
  rcases runSegment_next h with
    ⟨_, _, _, _, _, _, -, ⟨_, -, rfl⟩ | ⟨_, -, rfl⟩⟩ | ⟨_, _, _, _, _, -, ⟨_, -, rfl⟩ | ⟨_, -, rfl⟩⟩
  · exact sameInputs_setEngine _ s
  · exact sameInputs_raiseError _ _ s
  · exact sameInputs_setEngine _ s
  · exact sameInputs_raiseError _ _ s

theorem runFamily_sameInputs {dec : Cxt → MpKind → Byte → RecState → Except CodecError RecState}
    {enc : Cxt → MpKind → Except CodecError Bytes} (h : runFamily dec enc s = .next t) : sameInputs s t := by
  rcases runFamily_next h with
    ⟨_, _, _, _, _, -, ⟨_, -, rfl⟩ | ⟨_, -, rfl⟩⟩ | ⟨_, _, _, -, ⟨_, -, rfl⟩ | ⟨_, -, rfl⟩⟩
  · exact sameInputs_setEngine _ s
  · exact sameInputs_raiseError _ _ s
  · exact sameInputs_setEngine _ s
  · exact sameInputs_raiseError _ _ s

/-- No instruction changes an input of the block. -/
theorem exec_sameInputs {i : Instr} (h : exec i s = .next t) : sameInputs s t := by
  unfold exec at h
  cases i with
  | clr => cases h; exact sameInputs_clearResults s
  | decode =>
    obtain ⟨_, _, -, rfl⟩ := execDecode_next h
    exact sameInputs_endDecode _ s
  | encode =>
    obtain ⟨_, _, -, rfl⟩ := execEncode_next h
    exact sameInputs_endEncode _ s
  | cmdReserved _ => cases h
  | msgOpen _ _ | msgUpdate _ _ | msgNotification _ _ | msgKeepalive _ _ | msgRouteRefresh _ _ | msgUnassigned _ _ _ =>
    exact runMessage_sameInputs h
  | attrOrigin _ _ | attrAsPath _ _ | attrNextHop _ _ | attrMultiExitDisc _ _ | attrLocalPref _ _
  | attrAtomicAggregate _ _ | attrAggregator _ _ | attrCommunities _ _ | attrOriginatorId _ _ | attrClusterList _ _
  | attrMpReachNlri _ _ | attrMpUnreachNlri _ _ | attrExtendedCommunities _ _ | attrAs4Path _ _ | attrAs4Aggregator _ _
  | attrIpv6ExtendedCommunities _ _ | attrLargeCommunity _ _ | attrUnrecognizedOptional _ _ _
  | attrUnrecognizedWellKnown _ _ _ => exact runRecord_sameInputs h
  | segAsSet _ | segAsSequence _ | segOther _ _ => exact runSegment_sameInputs h
  | familyIpv4Unicast _ | familyIpv6Unicast _ | familyOther _ _ _ => exact runFamily_sameInputs h

/-- What a DECODE or an ENCODE fetches next is run from, or is, a state with the same inputs. -/
def FetchKeepsInputs (s : State) : Fetched → Prop
  | .run _ s' => sameInputs s s'
  | .done o => ∀ t, o = .next t → sameInputs s t

theorem sameInputs_refl (s : State) : sameInputs s s :=
  ⟨rfl, rfl, rfl, rfl, rfl, rfl, rfl, fun _ => rfl⟩

theorem sameInputs_trans {u : State} (hst : sameInputs s t) (htu : sameInputs t u) : sameInputs s u := by
  obtain ⟨h1, h2, h3, h4, h5, h6, h7, h8⟩ := hst
  obtain ⟨g1, g2, g3, g4, g5, g6, g7, g8⟩ := htu
  exact ⟨g1.trans h1, g2.trans h2, g3.trans h3, g4.trans h4, g5.trans h5, g6.trans h6, g7.trans h7,
    fun a => (g8 a).trans (h8 a)⟩

theorem fetchKeepsInputs_next (h : sameInputs s t) : FetchKeepsInputs s (.done (.next t)) := by
  rintro _ ⟨⟩
  exact h

theorem fetchKeepsInputs_fault (r : Fault) : FetchKeepsInputs s (.done (.fault r)) := by
  rintro _ ⟨⟩

theorem fetchError_keepsInputs (last : Nat) (e : CodecError) (s : State) :
    FetchKeepsInputs s (fetchError last e s) :=
  fetchKeepsInputs_next (sameInputs_raiseError last e s)

theorem fetchDecode_keepsInputs (cx : Cxt) (place : DecPlace) (s : State) :
    FetchKeepsInputs s (fetchDecode cx place s) := by
  cases place with
  | message b =>
    simp only [fetchDecode]
    split
    · exact fetchError_keepsInputs _ _ s
    · exact sameInputs_refl s
  | records w =>
    simp only [fetchDecode]
    split
    · exact fetchKeepsInputs_fault _
    · split
      · exact fetchKeepsInputs_next (sameInputs_endDecode _ s)
      · split
        · exact fetchError_keepsInputs _ _ s
        · exact sameInputs_setEngine _ s
  | segments w k sec cur segs =>
    simp only [fetchDecode]
    split
    · exact fetchKeepsInputs_fault _
    · split
      · exact fetchKeepsInputs_next (sameInputs_setEngine _ s)
      · split
        · exact fetchError_keepsInputs _ _ s
        · exact sameInputs_setEngine _ s
  | family w k flags body =>
    simp only [fetchDecode]
    split
    · exact fetchError_keepsInputs _ _ s
    · exact sameInputs_refl s

theorem fetchEncode_keepsInputs (cx : Cxt) (place : EncPlace) (s : State) :
    FetchKeepsInputs s (fetchEncode cx place s) := by
  cases place with
  | message m =>
    simp only [fetchEncode]
    split
    · exact fetchError_keepsInputs _ _ s
    · exact sameInputs_refl s
  | records w =>
    simp only [fetchEncode]
    split
    · exact fetchKeepsInputs_next (sameInputs_endEncode _ s)
    · split
      · exact fetchError_keepsInputs _ _ s
      · exact fetchKeepsInputs_next (sameInputs_setEngine _ s)
      · exact sameInputs_setEngine _ s
  | segments w k todo out =>
    simp only [fetchEncode]
    split
    · split
      · exact fetchError_keepsInputs _ _ s
      · exact fetchKeepsInputs_next (sameInputs_setEngine _ s)
    · exact sameInputs_setEngine _ s
  | family w g =>
    simp only [fetchEncode]
    split
    · exact fetchError_keepsInputs _ _ s
    · exact sameInputs_refl s

/-- A step inside a command changes no input of the block (R26). -/
theorem step_inCommand_sameInputs (hengine : s.engine ≠ .idle) (h : step s = .next t) : sameInputs s t := by
  have hkeeps : FetchKeepsInputs s (fetch s) := by
    unfold fetch
    split
    · next hidle => exact absurd hidle hengine
    · exact fetchDecode_keepsInputs _ _ s
    · exact fetchEncode_keepsInputs _ _ s
  cases hf : fetch s with
  | run i s' =>
    rw [hf] at hkeeps
    rw [step_run hf] at h
    exact sameInputs_trans hkeeps (exec_sameInputs h)
  | done o =>
    rw [hf] at hkeeps
    rw [step_done hf] at h
    exact hkeeps t h

/-! ### A step between commands -/

@[simp] theorem endDecode_engine (r : Except CodecError Message) (s : State) : (endDecode r s).engine = .idle := by
  cases r <;> rfl

@[simp] theorem endEncode_engine (r : Except CodecError Bytes) (s : State) : (endEncode r s).engine = .idle := by
  cases r <;> rfl

/-- A word written to CMD is one of the three commands or reserved (R70). -/
theorem decodeCommand_cases (w : Word) :
    decodeCommand w = .clr ∨ decodeCommand w = .decode ∨ decodeCommand w = .encode ∨
      decodeCommand w = .cmdReserved w := by
  unfold decodeCommand
  split
  · exact .inl rfl
  · split
    · exact .inr (.inl rfl)
    · split
      · exact .inr (.inr (.inl rfl))
      · exact .inr (.inr (.inr rfl))

/-- A command that answers leaves the engine idle (R55). -/
theorem exec_decodeCommand_idle {w : Word} (h : exec (decodeCommand w) s = .next t) : t.engine = .idle := by
  rcases decodeCommand_cases w with hw | hw | hw | hw
  all_goals rw [hw] at h
  · cases h
    rfl
  · obtain ⟨_, _, -, rfl⟩ := execDecode_next h
    exact endDecode_engine _ s
  · obtain ⟨_, _, -, rfl⟩ := execEncode_next h
    exact endEncode_engine _ s
  · cases h

/-- All a step between commands can do: nothing, run the command of a write to CMD, reset the block, or take another access
off the host's program, which keeps the results. -/
theorem step_idle_next (hidle : s.engine = .idle) (h : step s = .next t) :
    (s.host.todo = [] ∧ t = s) ∨
    (∃ v rest, s.host.todo = .writeReg cmdOffset v :: rest ∧ exec (decodeCommand v) (popHost rest s) = .next t) ∨
    (∃ rest, s.host.todo = .reset :: rest ∧ t = platformReset (popHost rest s)) ∨
    ∃ op rest, s.host.todo = op :: rest ∧ HostFrame (popHost rest s) t := by
  cases htodo : s.host.todo with
  | nil =>
    rw [step_idle_noAccess hidle htodo] at h
    cases h
    exact .inl ⟨rfl, rfl⟩
  | cons op rest =>
    by_cases hcmd : ∃ v, op = .writeReg cmdOffset v
    · obtain ⟨v, rfl⟩ := hcmd
      rw [step_command hidle htodo] at h
      exact .inr (.inl ⟨v, rest, rfl, h⟩)
    · rw [step_hostAccess hidle htodo (not_exists.mp hcmd)] at h
      by_cases hreset : op = .reset
      · subst hreset
        cases h
        exact .inr (.inr (.inl ⟨rest, rfl, rfl⟩))
      · exact .inr (.inr (.inr ⟨op, rest, rfl, hostAccess_frame hreset h⟩))

/-- A step between commands keeps the parameters and ends between commands (R6, R55). -/
theorem step_idle_par_engine (hidle : s.engine = .idle) (h : step s = .next t) : t.par = s.par ∧ t.engine = .idle := by
  rcases step_idle_next hidle h with ⟨-, rfl⟩ | ⟨v, rest, -, hexec⟩ | ⟨rest, -, rfl⟩ | ⟨op, rest, -, hframe⟩
  · exact ⟨rfl, hidle⟩
  · exact ⟨(exec_sameInputs hexec).1, exec_decodeCommand_idle hexec⟩
  · exact ⟨rfl, rfl⟩
  · exact ⟨hframe.par, hframe.engine.trans hidle⟩

/-- A step that takes an access other than a reset and a write to CMD keeps the results and takes it off the program. -/
theorem step_access_sameResults {op : HostOp} {rest : List HostOp} (hidle : s.engine = .idle)
    (htodo : s.host.todo = op :: rest) (hreset : op ≠ .reset) (hcmd : ∀ v, op ≠ .writeReg cmdOffset v)
    (h : step s = .next t) : sameResults s t ∧ t.host.todo = rest := by
  rw [step_hostAccess hidle htodo hcmd] at h
  have hframe := hostAccess_frame hreset h
  exact ⟨hframe.results, hframe.todo⟩

end Inputs

/-- Settles O4: inside a command every fetched form keeps the inputs, and between commands a step is the host's next access. -/
theorem engineAndHostKeepApart : Obligations.EngineAndHostKeepApart := by
  refine ⟨fun s => step_idle_noAccess, fun s t h => ⟨?_, fun hne => step_inCommand_sameInputs hne h,
    fun hidle => (step_idle_par_engine hidle h).2,
    fun op rest hidle htodo hreset hcmd => step_access_sameResults hidle htodo hreset hcmd h⟩⟩
  by_cases hidle : s.engine = .idle
  · exact (step_idle_par_engine hidle h).1
  · exact (step_inCommand_sameInputs hidle h).1

/-! ### What the results of a command depend on (R28, R43) -/

/-- A command latches bits 0 to 2 of CXT_CAPS and no other (R27, R28). -/
theorem cxtOfCaps_congr {caps caps' : Word} (h : ∀ i < 3, caps'.getLsbD i = caps.getLsbD i) :
    cxtOfCaps caps' = cxtOfCaps caps := by
  simp only [cxtOfCaps, h 0 (by norm_num), h 1 (by norm_num), h 2 (by norm_num)]

/-- A DECODE has the same inputs in a state that agrees on the latched bits, IBUF_LEN and the octets below it. -/
theorem decodeInputs_congr {s s' : State} {cx : Cxt} {b : Bytes} {caps caps' : Word} (hcaps : s.cxtCaps = some caps)
    (hcaps' : s'.cxtCaps = some caps') (hbits : ∀ i < 3, caps'.getLsbD i = caps.getLsbD i)
    (hlen : s'.ibufLen = s.ibufLen)
    (hibuf : ∀ n, s.ibufLen = some n → ∀ i < n.toNat, s'.ibuf.read i = s.ibuf.read i) (h : decodeInputs s cx b) :
    decodeInputs s' cx b := by
  obtain ⟨⟨_, hc, rfl⟩, n, hn, hb⟩ := h
  obtain rfl : caps = _ := Option.some.inj (hcaps.symm.trans hc)
  obtain ⟨hl, hread⟩ := Memory.readRange_eq_some.mp hb
  refine ⟨⟨caps', hcaps', (cxtOfCaps_congr hbits).symm⟩, n, hlen.trans hn, Memory.readRange_eq_some.mpr ⟨hl, ?_⟩⟩
  intro i hi
  rw [hibuf n hn _ (by omega), hread i hi]

/-- An ENCODE has the same inputs in a state that agrees on the latched bits and on MSG_IN. -/
theorem encodeInputs_congr {s s' : State} {cx : Cxt} {m : Message} {caps caps' : Word} (hcaps : s.cxtCaps = some caps)
    (hcaps' : s'.cxtCaps = some caps') (hbits : ∀ i < 3, caps'.getLsbD i = caps.getLsbD i)
    (hmsg : s'.msgIn = s.msgIn) (h : encodeInputs s cx m) : encodeInputs s' cx m := by
  obtain ⟨⟨_, hc, rfl⟩, hm⟩ := h
  obtain rfl : caps = _ := Option.some.inj (hcaps.symm.trans hc)
  exact ⟨⟨caps', hcaps', (cxtOfCaps_congr hbits).symm⟩, hmsg.trans hm⟩

/-- The results at the end of a DECODE are fixed by what it decoded to. -/
theorem endDecode_results (r : Except CodecError Message) (s s' : State) :
    (endDecode r s').status = (endDecode r s).status ∧ (endDecode r s').err = (endDecode r s).err ∧
      (endDecode r s').obufLen = (endDecode r s).obufLen ∧ (endDecode r s').msgOut = (endDecode r s).msgOut := by
  cases r <;> exact ⟨rfl, rfl, rfl, rfl⟩

/-- The octets below OBUF_LEN are those an ENCODE returned; where it returned an error there are none. -/
theorem endEncode_obuf_read (r : Except CodecError Bytes) (s s' : State) {a : Nat} (h : a < (endEncode r s).obufLen.toNat) :
    (endEncode r s').obuf.read a = (endEncode r s).obuf.read a := by
  cases r with
  | error e => exact absurd h (Nat.not_lt_zero a)
  | ok bs =>
    rw [endEncode_ok, deliverOctets_obufLen, BitVec.toNat_ofNat] at h
    have hlt : a < bs.length := Nat.lt_of_lt_of_le h (Nat.mod_le _ _)
    have hread : ∀ m : Memory, (m.writeAll 0 bs).read a = bs[a]? := fun m => by
      simpa using Memory.read_writeAll_inside m 0 a bs hlt
    rw [endEncode_ok, endEncode_ok, deliverOctets_obuf, deliverOctets_obuf, hread, hread]

/-- The results at the end of an ENCODE are fixed by what it encoded to. -/
theorem endEncode_results (r : Except CodecError Bytes) (s s' : State) :
    (endEncode r s').status = (endEncode r s).status ∧ (endEncode r s').err = (endEncode r s).err ∧
      (endEncode r s').obufLen = (endEncode r s).obufLen ∧ (endEncode r s').msgOut = (endEncode r s).msgOut ∧
      ∀ a < (endEncode r s).obufLen.toNat, (endEncode r s').obuf.read a = (endEncode r s).obuf.read a := by
  have hread := fun a => endEncode_obuf_read r s s' (a := a)
  cases r <;> exact ⟨rfl, rfl, rfl, rfl, hread⟩

/-- Settles O14: the second state has the same inputs, so that it decodes or encodes to the same, and that fixes the results. -/
theorem commandsDependOnTheirInputs : Obligations.CommandsDependOnTheirInputs := by
  intro s s' t caps caps' hpar hcaps hcaps' hbits
  constructor
  · intro hlen hibuf hexec
    obtain ⟨cx, b, hin, rfl⟩ := execDecode_next hexec
    have hexec' := execDecode_of_inputs (decodeInputs_congr hcaps hcaps' hbits hlen hibuf hin)
    rw [hpar] at hexec'
    exact ⟨_, hexec', endDecode_results _ s s'⟩
  · intro _ hmsg hexec
    obtain ⟨cx, m, hin, rfl⟩ := execEncode_next hexec
    have hexec' := execEncode_of_inputs (encodeInputs_congr hcaps hcaps' hbits hmsg hin)
    rw [hpar] at hexec'
    exact ⟨_, hexec', endEncode_results _ s s'⟩

end Sys2Proof.Machine

/-! ### Proofs: the instructions and their words, read and written (30_encoding.md R70 to R83, R87, R88) -/

namespace Sys2Proof.Machine

open Sys2Proof

/-! ### The command words (R70) -/

@[simp] theorem decodeCommand_zero : decodeCommand 0 = .clr := rfl

@[simp] theorem decodeCommand_one : decodeCommand 1 = .decode := rfl

@[simp] theorem decodeCommand_two : decodeCommand 2 = .encode := rfl

theorem decodeCommand_reserved {w : Word} (h0 : w ≠ 0) (h1 : w ≠ 1) (h2 : w ≠ 2) : decodeCommand w = .cmdReserved w := by
  simp only [decodeCommand, if_neg h0, if_neg h1, if_neg h2]

/-- The words from 3 up are reserved, and no other. -/
theorem decodeCommand_eq_cmdReserved {w : Word} : decodeCommand w = .cmdReserved w ↔ 3 ≤ w.toNat := by
  constructor
  · intro h
    by_contra hlt
    have hcommand : w = 0 ∨ w = 1 ∨ w = 2 := by bv_omega
    rcases hcommand with rfl | rfl | rfl <;> cases h
  · intro h
    exact decodeCommand_reserved (by bv_omega) (by bv_omega) (by bv_omega)

@[simp] theorem encode_decodeCommand (c : FormCtx) (w : Word) : encode c (decodeCommand w) = .word w := by
  unfold decodeCommand
  split
  · next h => rw [h]; rfl
  · split
    · next h => rw [h]; rfl
    · split
      · next h => rw [h]; rfl
      · rfl

/-- Settles O13: a write to CMD runs the instruction its word decodes to, which is CMD_RESERVED but for three words. -/
theorem commandWordSelectsCommand : Obligations.CommandWordSelectsCommand := by
  have hreserved : ∀ (s : State) (w : Word), exec (.cmdReserved w) s = .refused .reservedCommand := fun _ _ => rfl
  refine ⟨fun s w rest hidle htodo => ?_, hreserved⟩
  rw [step_command hidle htodo]
  refine ⟨?_, ?_, ?_, fun h0 h1 h2 => ?_⟩
  · rintro rfl; rw [decodeCommand_zero]
  · rintro rfl; rw [decodeCommand_one]
  · rintro rfl; rw [decodeCommand_two]
  · rw [decodeCommand_reserved h0 h1 h2, hreserved]

/-! ### The instruction a form selects: its words, and when it is well formed -/

section Selection

variable (c : FormCtx)

/-- The instruction a message selects has the message's words (R71, R72). -/
@[simp] theorem encode_msgForm (f : MsgForm) : encode c f.toInstr = .message (messageOctets f.marker f.type f.body) := by
  obtain ⟨t, m, b⟩ := f
  cases hk : msgKindOf t with
  | none => simp only [MsgForm.toInstr, hk, encode]
  | some k =>
    obtain rfl := msgKindOf_eq_some.mp hk
    cases k <;> rfl

theorem wf_msgForm (f : MsgForm) : f.toInstr.wf c = messageWf c.par f.marker f.body := by
  obtain ⟨t, m, b⟩ := f
  cases hk : msgKindOf t with
  | none => simp only [MsgForm.toInstr, hk, Instr.wf, Option.isNone_none, Bool.true_and]
  | some k =>
    obtain rfl := msgKindOf_eq_some.mp hk
    cases k <;> rfl

/-- The instruction a record selects has the record's words, for a recognized type and for the two unrecognized kinds
(R74, R76, R165). -/
@[simp] theorem encode_recForm (f : RecForm) : encode c f.toInstr = .record (recordOctets f.flags f.type f.body) := by
  obtain ⟨fl, t, v⟩ := f
  cases ht : attrTypeOf t with
  | none => cases ho : optionalBit fl <;> simp [RecForm.toInstr, ht, ho, encode]
  | some a =>
    obtain rfl := attrTypeOf_eq_some.mp ht
    cases a <;> rfl

theorem wf_recForm (f : RecForm) : f.toInstr.wf c = recordWf f.flags f.body := by
  obtain ⟨fl, t, v⟩ := f
  cases ht : attrTypeOf t with
  | none => cases ho : optionalBit fl <;> simp [RecForm.toInstr, ht, ho, Instr.wf]
  | some a =>
    obtain rfl := attrTypeOf_eq_some.mp ht
    cases a <;> rfl

/-- The instruction a segment of one of the two kinds selects has the segment's words (R79). -/
@[simp] theorem encode_segForm_known (seg : AsPathSegment) :
    encode c (SegForm.known seg).toInstr = .segment (segmentOctets (pathWidth c.cx c.path) seg) := by
  obtain ⟨kind, members⟩ := seg
  cases kind <;> rfl

@[simp] theorem encode_segForm_other (st n : Byte) : encode c (SegForm.other st n).toInstr = .segment [st, n] := rfl

theorem segmentWf_iff {w : Nat} {seg : AsPathSegment} : segmentWf w seg.members = true ↔ segmentFits w seg := by
  simp [segmentWf, segmentFits]

theorem wf_segForm_known (seg : AsPathSegment) :
    (SegForm.known seg).toInstr.wf c = true ↔ segmentFits (pathWidth c.cx c.path) seg := by
  rw [← segmentWf_iff]
  obtain ⟨kind, members⟩ := seg
  cases kind <;> rfl

theorem wf_segForm_other (st n : Byte) : (SegForm.other st n).toInstr.wf c = true ↔ segKindOf st = none :=
  Option.isNone_iff_eq_none

theorem famForm_ipv4 {cx : Cxt} (h : legalFamily cx 1 1 = true) (rest : Bytes) :
    FamForm.toInstr cx ⟨1, 1, rest⟩ = .familyIpv4Unicast rest := by
  rw [FamForm.toInstr, if_pos h, if_pos rfl]

theorem famForm_ipv6 {cx : Cxt} (h : legalFamily cx 2 1 = true) (rest : Bytes) :
    FamForm.toInstr cx ⟨2, 1, rest⟩ = .familyIpv6Unicast rest := by
  rw [FamForm.toInstr, if_pos h, if_neg (show ¬ (2 : Half) = 1 by decide)]

theorem famForm_other {cx : Cxt} {f : FamForm} (h : legalFamily cx f.afi f.safi = false) :
    f.toInstr cx = .familyOther f.afi f.safi f.rest := by
  rw [FamForm.toInstr, if_neg (Bool.eq_false_iff.mp h)]

/-- A family is one of the two supported ones, legal in the context, or FAMILY_OTHER (R236, R242). -/
theorem famForm_cases (cx : Cxt) (f : FamForm) :
    (legalFamily cx 1 1 = true ∧ f = ⟨1, 1, f.rest⟩) ∨ (legalFamily cx 2 1 = true ∧ f = ⟨2, 1, f.rest⟩) ∨
      legalFamily cx f.afi f.safi = false := by
  obtain ⟨afi, safi, rest⟩ := f
  cases hl : legalFamily cx afi safi with
  | false => exact .inr (.inr rfl)
  | true =>
    rcases legalFamily_eq_true.mp hl with ⟨rfl, rfl, -⟩ | ⟨rfl, rfl, -⟩
    · exact .inl ⟨hl, rfl⟩
    · exact .inr (.inl ⟨hl, rfl⟩)

/-- The instruction a family selects has the body's words (R81, R82). -/
@[simp] theorem encode_famForm (f : FamForm) : encode c (f.toInstr c.cx) = .family (familyOctets f.afi f.safi f.rest) := by
  rcases famForm_cases c.cx f with ⟨hl, hf⟩ | ⟨hl, hf⟩ | hl
  · rw [hf, famForm_ipv4 hl]; rfl
  · rw [hf, famForm_ipv6 hl]; rfl
  · rw [famForm_other hl]; rfl

theorem wf_famForm (f : FamForm) : (f.toInstr c.cx).wf c = true := by
  rcases famForm_cases c.cx f with ⟨hl, hf⟩ | ⟨hl, hf⟩ | hl
  · rw [hf, famForm_ipv4 hl]; exact hl
  · rw [hf, famForm_ipv6 hl]; exact hl
  · rw [famForm_other hl]; simpa [Instr.wf] using hl

theorem wf_decodeCommand (w : Word) : (decodeCommand w).wf c = true := by
  rcases decodeCommand_cases w with h | h | h | h
  · rw [h]; rfl
  · rw [h]; rfl
  · rw [h]; rfl
  · rw [h]; exact decide_eq_true (decodeCommand_eq_cmdReserved.mp h)

/-! ### Every well-formed instruction is selected by a form that fits its words -/

/-- The instruction is the one a command word or a form selects, and the form's operands fit its words (R70 to R83). -/
inductive Selected : Instr → Prop
  | command (w : Word) : Selected (decodeCommand w)
  | message (f : MsgForm) (h : messageWf c.par f.marker f.body = true) : Selected f.toInstr
  | record (f : RecForm) (h : recordWf f.flags f.body = true) : Selected f.toInstr
  | segment (seg : AsPathSegment) (h : segmentFits (pathWidth c.cx c.path) seg) : Selected (SegForm.known seg).toInstr
  | malformed (st n : Byte) (h : segKindOf st = none) : Selected (SegForm.other st n).toInstr
  | family (f : FamForm) : Selected (f.toInstr c.cx)

theorem Selected.wf {c : FormCtx} {i : Instr} (h : Selected c i) : i.wf c = true := by
  cases h with
  | command w => exact wf_decodeCommand c w
  | message f h => rw [wf_msgForm, h]
  | record f h => rw [wf_recForm, h]
  | segment seg h => exact (wf_segForm_known c seg).mpr h
  | malformed st n h => exact (wf_segForm_other c st n).mpr h
  | family f => exact wf_famForm c f

variable {c}

theorem selected_message (k : MsgKind) {m b : Bytes} (h : messageWf c.par m b = true) :
    Selected c (MsgForm.toInstr ⟨msgCode k, m, b⟩) :=
  .message _ h

theorem selected_record (a : AttrType) {fl : Byte} {v : Bytes} (h : recordWf fl v = true) :
    Selected c (RecForm.toInstr ⟨fl, attrCode a, v⟩) :=
  .record _ h

theorem selected_segment (k : SegKind) {ms : List Asn} (h : segmentWf (pathWidth c.cx c.path) ms = true) :
    Selected c (SegForm.known ⟨k, ms⟩).toInstr :=
  .segment _ (segmentWf_iff.mp h)

theorem selected_family {f : FamForm} {i : Instr} (h : f.toInstr c.cx = i) : Selected c i :=
  h ▸ .family f

theorem selected_of_wf {i : Instr} (h : i.wf c = true) : Selected c i := by
  cases i with
  | clr => exact .command 0
  | decode => exact .command 1
  | encode => exact .command 2
  | cmdReserved w =>
    rw [← decodeCommand_eq_cmdReserved.mpr (of_decide_eq_true h)]
    exact .command w
  | msgOpen m b => exact selected_message .openMsg h
  | msgUpdate m b => exact selected_message .update h
  | msgNotification m b => exact selected_message .notification h
  | msgKeepalive m b => exact selected_message .keepalive h
  | msgRouteRefresh m b => exact selected_message .routeRefresh h
  | msgUnassigned t m b =>
    obtain ⟨hk, hw⟩ : msgKindOf t = none ∧ messageWf c.par m b = true := by simpa [Instr.wf] using h
    have hi : MsgForm.toInstr ⟨t, m, b⟩ = .msgUnassigned t m b := by simp only [MsgForm.toInstr, hk]
    exact hi ▸ .message _ hw
  | attrOrigin fl v => exact selected_record .origin h
  | attrAsPath fl v => exact selected_record .asPath h
  | attrNextHop fl v => exact selected_record .nextHop h
  | attrMultiExitDisc fl v => exact selected_record .multiExitDisc h
  | attrLocalPref fl v => exact selected_record .localPref h
  | attrAtomicAggregate fl v => exact selected_record .atomicAggregate h
  | attrAggregator fl v => exact selected_record .aggregator h
  | attrCommunities fl v => exact selected_record .communities h
  | attrOriginatorId fl v => exact selected_record .originatorId h
  | attrClusterList fl v => exact selected_record .clusterList h
  | attrMpReachNlri fl v => exact selected_record .mpReachNlri h
  | attrMpUnreachNlri fl v => exact selected_record .mpUnreachNlri h
  | attrExtendedCommunities fl v => exact selected_record .extendedCommunities h
  | attrAs4Path fl v => exact selected_record .as4Path h
  | attrAs4Aggregator fl v => exact selected_record .as4Aggregator h
  | attrIpv6ExtendedCommunities fl v => exact selected_record .ipv6ExtendedCommunities h
  | attrLargeCommunity fl v => exact selected_record .largeCommunity h
  | attrUnrecognizedOptional fl t v =>
    obtain ⟨⟨ht, ho⟩, hw⟩ : (attrTypeOf t = none ∧ optionalBit fl = true) ∧ recordWf fl v = true := by
      simpa [Instr.wf] using h
    have hi : RecForm.toInstr ⟨fl, t, v⟩ = .attrUnrecognizedOptional fl t v := by simp [RecForm.toInstr, ht, ho]
    exact hi ▸ .record _ hw
  | attrUnrecognizedWellKnown fl t v =>
    obtain ⟨⟨ht, ho⟩, hw⟩ : (attrTypeOf t = none ∧ optionalBit fl = false) ∧ recordWf fl v = true := by
      simpa [Instr.wf] using h
    have hi : RecForm.toInstr ⟨fl, t, v⟩ = .attrUnrecognizedWellKnown fl t v := by simp [RecForm.toInstr, ht, ho]
    exact hi ▸ .record _ hw
  | segAsSet ms => exact selected_segment .set h
  | segAsSequence ms => exact selected_segment .sequence h
  | segOther st n => exact .malformed st n ((wf_segForm_other c st n).mp h)
  | familyIpv4Unicast rest => exact selected_family (famForm_ipv4 h rest)
  | familyIpv6Unicast rest => exact selected_family (famForm_ipv6 h rest)
  | familyOther afi safi rest =>
    have hl : legalFamily c.cx afi safi = false := by simpa [Instr.wf] using h
    exact selected_family (f := ⟨afi, safi, rest⟩) (famForm_other hl)

end Selection

/-! ### Reading a form and writing its words (R71, R74, R81, R103 to R107) -/

theorem messageWf_iff {par : Params} {m b : Bytes} : messageWf par m b = true ↔
    m.length = markerLen ∧ (par.markerCheck = true → m = List.replicate markerLen 0xFF) ∧
      hdrLen + b.length ≤ 65535 ∧ hdrLen + b.length ≤ par.maxMsgLen := by
  simp [messageWf, and_assoc, Decidable.imp_iff_not_or]

theorem readHeader_short {par : Params} {b : Bytes} (h : b.length < hdrLen) :
    readHeader par b = .error (err .shortBuffer b.length) := by
  simp only [readHeader, decide_eq_true h, raiseIf_true, error_bind]

/-- The header checks on a buffer cut into its fields: each passes exactly where the field is as its rule asks. -/
theorem readHeader_fields_eq_ok {par : Params} {m ln body : Bytes} {t : Byte} {f : MsgForm} (hm : m.length = markerLen)
    (hln : ln.length = 2) : readHeader par (m ++ (ln ++ t :: body)) = .ok f ↔
      (par.markerCheck = true → m = List.replicate markerLen 0xFF) ∧ beNat ln = hdrLen + body.length ∧
        hdrLen + body.length ≤ par.maxMsgLen ∧ f = ⟨t, m, body⟩ := by
  have hlen : (m ++ (ln ++ t :: body)).length = hdrLen + body.length := by
    simp [hm, hln, markerLen, hdrLen]; omega
  have htake : (m ++ (ln ++ t :: body)).take markerLen = m := List.take_left' hm
  have hslice : slice (m ++ (ln ++ t :: body)) 16 2 = ln := by
    rw [slice, show (16 : Nat) = markerLen from rfl, List.drop_left' hm, List.take_left' hln]
  have htype : (m ++ (ln ++ t :: body)).drop 18 = t :: body := by
    rw [← List.append_assoc]; exact List.drop_left' (by simp [hm, hln, markerLen])
  have hbody : (m ++ (ln ++ t :: body)).drop hdrLen = body := by
    rw [show hdrLen = 18 + 1 from rfl, ← List.drop_drop, htype, List.drop_one, List.tail_cons]
  simp only [readHeader, hlen, htake, hslice, htype, hbody, bind_eq_ok, raiseIf_eq_ok]
  have hcheck : (par.markerCheck && m != List.replicate markerLen 0xFF) = false ↔
      (par.markerCheck = true → m = List.replicate markerLen 0xFF) := by simp
  simp only [hcheck, octet, List.headD_cons, exists_const, decide_eq_false_iff_not, Bool.or_eq_false_iff, bne_eq_false_iff_eq,
    Except.ok.injEq]
  constructor
  · rintro ⟨-, hmark, ⟨-, hmax⟩, hl, rfl⟩
    exact ⟨hmark, hl, by omega, rfl⟩
  · rintro ⟨hmark, hl, hmax, rfl⟩
    exact ⟨by omega, hmark, by omega, hl, rfl⟩

/-- A buffer that holds a header, cut into marker, length field, type octet and body (R71). -/
theorem exists_header_fields {b : Bytes} (h : hdrLen ≤ b.length) :
    ∃ m ln t body, m.length = markerLen ∧ ln.length = 2 ∧ b = m ++ (ln ++ t :: body) := by
  have h19 : 19 ≤ b.length := h
  obtain ⟨t, body, htail⟩ : ∃ t body, b.drop 18 = t :: body :=
    List.exists_cons_of_length_pos (by rw [List.length_drop]; omega)
  refine ⟨b.take 16, (b.drop 16).take 2, t, body, List.length_take_of_le (by omega),
    List.length_take_of_le (by rw [List.length_drop]; omega), ?_⟩
  rw [← htail, ← List.drop_drop (i := 2) (j := 16), List.take_append_drop, List.take_append_drop]

theorem messageOctets_eq (m : Bytes) (t : Byte) (body : Bytes) :
    messageOctets m t body = m ++ (toBe 2 (hdrLen + body.length) ++ t :: body) := by
  simp [messageOctets]

/-- The message the header checks answer is the one whose words the buffer holds, and it is well formed (R103 to R107). -/
theorem readHeader_eq_ok {par : Params} {b : Bytes} {f : MsgForm} : readHeader par b = .ok f ↔
    messageWf par f.marker f.body = true ∧ messageOctets f.marker f.type f.body = b := by
  constructor
  · intro h
    have hlen : hdrLen ≤ b.length := by
      by_contra hshort
      rw [readHeader_short (Nat.lt_of_not_le hshort)] at h
      cases h
    obtain ⟨m, ln, t, body, hm, hln, rfl⟩ := exists_header_fields hlen
    obtain ⟨hmark, hl, hmax, rfl⟩ := (readHeader_fields_eq_ok hm hln).mp h
    have hfits : beNat ln < 256 ^ ln.length := beNat_lt ln
    rw [hln, hl] at hfits
    refine ⟨messageWf_iff.mpr ⟨hm, hmark, by simp only; omega, hmax⟩, ?_⟩
    rw [messageOctets_eq, ← hl, ← hln, toBe_beNat]
  · rintro ⟨hwf, rfl⟩
    obtain ⟨hm, hmark, hfits, hmax⟩ := messageWf_iff.mp hwf
    rw [messageOctets_eq, readHeader_fields_eq_ok hm (toBe_length _ _)]
    exact ⟨hmark, beNat_toBe_of_lt (by omega), hmax, rfl⟩

/-- The length of the record that `read_record` answers is the value of its length field, so that it fits it (R161). -/
theorem readRecord_recordWf {s rest : Bytes} {f : RecForm} (h : readRecord s = .ok (f, rest)) :
    recordWf f.flags f.body = true := by
  match s with
  | [] => cases h
  | [_] => cases h
  | fl :: t :: afterType =>
    obtain ⟨⟨lenOctets, afterLen⟩, hread, hbody⟩ := bind_eq_ok.mp h
    obtain ⟨⟨v, rest'⟩, hv, hf⟩ := bind_eq_ok.mp hbody
    obtain ⟨-, hlen⟩ := readOctets_eq_ok.mp hread
    obtain ⟨-, hval⟩ := readOctets_eq_ok.mp hv
    cases hf
    have hlt := beNat_lt lenOctets
    rw [hlen, ← hval] at hlt
    cases he : extendedBit fl with
    | true =>
      have hmax : v.length < 256 ^ 2 := by rwa [he, if_pos rfl] at hlt
      simp only [recordWf, he, if_true, decide_eq_true_eq]
      omega
    | false =>
      have hmax : v.length < 256 ^ 1 := by rwa [he, if_neg Bool.false_ne_true] at hlt
      simp only [recordWf, he, Bool.false_eq_true, if_false, decide_eq_true_eq]
      omega

/-- A multiprotocol body of at least three octets is a family and what follows it, and no other is (R81, R237). -/
theorem readFamily_eq_ok {k : MpKind} {v : Bytes} {f : FamForm} :
    readFamily k v = .ok f ↔ familyOctets f.afi f.safi f.rest = v := by
  constructor
  · intro h
    match v with
    | [] | [_] | [_, _] => cases h
    | a :: b :: safi :: rest =>
      rw [readFamily_cons] at h
      cases h
      have hafi : toBe 2 (a ++ b).toNat = [a, b] := by rw [← be_two]; exact toBe_be (w := 16) [a, b] (by norm_num)
      simp [familyOctets, hafi]
  · rintro rfl
    obtain ⟨afi, safi, rest⟩ := f
    have hafi : be 16 (toBe 2 afi.toNat) = afi := be_toBe (by norm_num) afi
    rw [toBe_half] at hafi
    simp only [familyOctets, toBe_half, List.cons_append, List.nil_append, readFamily_cons]
    rw [← be_two, hafi]

/-! ### What the decoder answers at each kind of place (R88) -/

section Places

variable {c : FormCtx} {i : Instr} {rest : Bytes}

theorem decode_word_eq_ok {w : Word} : decode c (.word w) = .ok (i, rest) ↔ decodeCommand w = i ∧ rest = [] := by
  simp [decode]

theorem decode_message_eq_ok {bs : Bytes} : decode c (.message bs) = .ok (i, rest) ↔
    ∃ f, readHeader c.par bs = .ok f ∧ f.toInstr = i ∧ rest = [] := by
  simp [decode, bind_eq_ok]

theorem decode_record_eq_ok {bs : Bytes} : decode c (.record bs) = .ok (i, rest) ↔
    ∃ f, readRecord bs = .ok (f, rest) ∧ f.toInstr = i := by
  simp [decode, bind_eq_ok]

theorem decode_segment_eq_ok {bs : Bytes} : decode c (.segment bs) = .ok (i, rest) ↔
    ∃ f, readSegment (pathWidth c.cx c.path) (pathAttr c.path) bs = .ok (f, rest) ∧ f.toInstr = i := by
  simp [decode, bind_eq_ok]

theorem decode_family_eq_ok {bs : Bytes} : decode c (.family bs) = .ok (i, rest) ↔
    ∃ f, readFamily c.mp bs = .ok f ∧ f.toInstr c.cx = i ∧ rest = [] := by
  simp [decode, bind_eq_ok]

/-- Every instruction a form that fits its words selects is read back from its words. -/
theorem decode_encode (h : Selected c i) : decode c (encode c i) = .ok (i, []) := by
  cases h with
  | command w => rw [encode_decodeCommand, decode_word_eq_ok]; exact ⟨rfl, rfl⟩
  | message f h =>
    rw [encode_msgForm, decode_message_eq_ok]
    exact ⟨f, readHeader_eq_ok.mpr ⟨h, rfl⟩, rfl, rfl⟩
  | record f h =>
    have hread := readRecord_recordOctets f.flags f.type f.body [] (of_decide_eq_true h)
    rw [List.append_nil] at hread
    rw [encode_recForm, decode_record_eq_ok]
    exact ⟨f, hread, rfl⟩
  | segment seg h =>
    have hread := readSegment_segmentOctets (pathAttr c.path) seg [] h
    rw [List.append_nil] at hread
    rw [encode_segForm_known, decode_segment_eq_ok]
    exact ⟨_, hread, rfl⟩
  | malformed st n h =>
    rw [encode_segForm_other, decode_segment_eq_ok]
    exact ⟨_, by simp only [readSegment, h], rfl⟩
  | family f =>
    rw [encode_famForm, decode_family_eq_ok]
    exact ⟨f, readFamily_eq_ok.mpr rfl, rfl, rfl⟩

/-! What the decoder reads at a place is selected by a form that fits its words, and these are the words at the place. -/

theorem decode_word_words {w : Word} (h : decode c (.word w) = .ok (i, rest)) : Selected c i ∧ encode c i = .word w := by
  obtain ⟨rfl, -⟩ := decode_word_eq_ok.mp h
  exact ⟨.command w, encode_decodeCommand c w⟩

theorem decode_message_words {bs : Bytes} (h : decode c (.message bs) = .ok (i, rest)) :
    Selected c i ∧ encode c i = .message bs ∧ rest = [] := by
  obtain ⟨f, hread, rfl, hrest⟩ := decode_message_eq_ok.mp h
  obtain ⟨hwf, rfl⟩ := readHeader_eq_ok.mp hread
  exact ⟨.message f hwf, encode_msgForm c f, hrest⟩

theorem decode_record_words {bs : Bytes} (h : decode c (.record bs) = .ok (i, rest)) :
    Selected c i ∧ ∃ own, encode c i = .record own ∧ own ++ rest = bs := by
  obtain ⟨f, hread, rfl⟩ := decode_record_eq_ok.mp h
  obtain ⟨hbs, -⟩ := readRecord_eq_ok hread
  exact ⟨.record f (readRecord_recordWf hread), _, encode_recForm c f, hbs.symm⟩

theorem decode_segment_words {bs : Bytes} (h : decode c (.segment bs) = .ok (i, rest)) :
    Selected c i ∧ ∃ own, encode c i = .segment own ∧ own ++ rest = bs := by
  obtain ⟨f, hread, rfl⟩ := decode_segment_eq_ok.mp h
  rcases readSegment_eq_ok (pathWidth_two_or_four c.cx c.path) hread with ⟨seg, rfl, hfits, hbs⟩ | ⟨st, n, rfl, hk, hbs⟩
  · exact ⟨.segment seg hfits, _, encode_segForm_known c seg, hbs.symm⟩
  · exact ⟨.malformed st n hk, _, encode_segForm_other c st n, hbs.symm⟩

theorem decode_family_words {bs : Bytes} (h : decode c (.family bs) = .ok (i, rest)) :
    Selected c i ∧ encode c i = .family bs ∧ rest = [] := by
  obtain ⟨f, hread, rfl, hrest⟩ := decode_family_eq_ok.mp h
  obtain rfl := readFamily_eq_ok.mp hread
  exact ⟨.family f, encode_famForm c f, hrest⟩

end Places

/-- Settles O58: a well-formed instruction is selected by a form that fits its words, and every such form reads back. -/
theorem decodeEncodeAgree : Obligations.DecodeEncodeAgree :=
  fun _ _ h => decode_encode (selected_of_wf h)

/-- Settles O59: the rules that read a form answer one that fits its words, and these are the octets it was read from. -/
theorem decodedIsWellFormed : Obligations.DecodedIsWellFormed := by
  intro c code i rest _ h
  cases code with
  | word w =>
    obtain ⟨hsel, hw⟩ := decode_word_words h
    rw [hw]
    exact ⟨hsel.wf, rfl⟩
  | message bs =>
    obtain ⟨hsel, hbs, hrest⟩ := decode_message_words h
    rw [hbs]
    exact ⟨hsel.wf, rfl, hrest⟩
  | record bs =>
    obtain ⟨hsel, own, hown, hbs⟩ := decode_record_words h
    rw [hown]
    exact ⟨hsel.wf, hbs⟩
  | segment bs =>
    obtain ⟨hsel, own, hown, hbs⟩ := decode_segment_words h
    rw [hown]
    exact ⟨hsel.wf, hbs⟩
  | family bs =>
    obtain ⟨hsel, hbs, hrest⟩ := decode_family_words h
    rw [hbs]
    exact ⟨hsel.wf, rfl, hrest⟩

/-- Settles O57: each word, written out from its encoding, is evaluated. -/
theorem decodingWords : Obligations.DecodingWords := by
  unfold Obligations.DecodingWords
  decide

/-! ### A step at each place runs what the decoder reads there (R88) -/

theorem step_atMessage {cx : Cxt} {b : Bytes} {s : State} {f : MsgForm} (h : readHeader s.par b = .ok f) :
    step (atMessage cx b s) = exec f.toInstr (atMessage cx b s) := by
  refine step_run ?_
  simp only [atMessage, fetch, setEngine_engine, fetchDecode, setEngine_par, h]

theorem step_atSegments {cx : Cxt} {w : UpdWork} {k : PathKind} {sec rest : Bytes} {cur : Nat} {segs : List AsPathSegment}
    {s : State} {f : SegForm} (hcur : cur < sec.length)
    (h : readSegment (pathWidth cx k) (pathAttr k) (sec.drop cur) = .ok (f, rest)) :
    step (atSegments cx w k sec cur segs s) = exec f.toInstr (atSegments cx w k sec (sec.length - rest.length) segs s) := by
  refine step_run ?_
  simp only [atSegments, fetch, setEngine_engine, fetchDecode, if_neg (Nat.lt_asymm hcur), if_neg (Nat.ne_of_lt hcur), h,
    setEngine_setEngine]

theorem step_atFamily {cx : Cxt} {w : UpdWork} {k : MpKind} {flags : Byte} {body : Bytes} {s : State} {f : FamForm}
    (h : readFamily k body = .ok f) :
    step (atFamily cx w k flags body s) = exec (f.toInstr cx) (atFamily cx w k flags body s) := by
  refine step_run ?_
  simp only [atFamily, fetch, setEngine_engine, fetchDecode, h]

/-- Settles O54: at each place the step fetches with the same reading rule as the decoder, and runs the form it answers. -/
theorem stepRunsDecoded : Obligations.StepRunsDecoded := by
  refine fun s c i rest => ⟨fun v todo hidle htodo h => ?_, fun b hpar h => ?_, fun w hcur h => ?_,
    fun w sec cur segs hcur h => ?_, fun w flags body h => ?_⟩
  · obtain ⟨rfl, -⟩ := decode_word_eq_ok.mp h
    exact step_command hidle htodo
  · obtain ⟨f, hread, rfl, -⟩ := decode_message_eq_ok.mp h
    exact step_atMessage (hpar ▸ hread)
  · obtain ⟨f, hread, rfl⟩ := decode_record_eq_ok.mp h
    rw [step_atRecords hcur, hread]
  · obtain ⟨f, hread, rfl⟩ := decode_segment_eq_ok.mp h
    exact step_atSegments hcur hread
  · obtain ⟨f, hread, rfl, -⟩ := decode_family_eq_ok.mp h
    exact step_atFamily hread

end Sys2Proof.Machine

/-! ### Proofs: the commands, the framing of a message in both directions, and the places of an ENCODE (40_framer.md R100 to
R119, 43_aspath.md R215, 44_nlri.md R240 and R241) -/

namespace Sys2Proof.Machine

open Sys2Proof

/-! ### A command with its inputs ends with the result of its rule (R100, R101) -/

section Results

variable {s : State} {cx : Cxt}

theorem exec_decode_of_ok {b : Bytes} {m : Message} (hin : decodeInputs s cx b) (h : decodeMessage s.par cx b = .ok m) :
    exec .decode s = .next (deliverMessage m s) := by
  rw [← endDecode_ok, ← h]
  exact execDecode_of_inputs hin

theorem exec_decode_of_error {b : Bytes} {e : CodecError} (hin : decodeInputs s cx b)
    (h : decodeMessage s.par cx b = .error e) : exec .decode s = .next (raiseError lastDecode e s) := by
  rw [← endDecode_error, ← h]
  exact execDecode_of_inputs hin

theorem exec_encode_of_ok {m : Message} {bs : Bytes} (hin : encodeInputs s cx m) (h : encodeMessage s.par cx m = .ok bs) :
    exec .encode s = .next (deliverOctets bs s) := by
  rw [← endEncode_ok, ← h]
  exact execEncode_of_inputs hin

theorem exec_encode_of_error {m : Message} {e : CodecError} (hin : encodeInputs s cx m)
    (h : encodeMessage s.par cx m = .error e) : exec .encode s = .next (raiseError lastEncode e s) := by
  rw [← endEncode_error, ← h]
  exact execEncode_of_inputs hin

end Results

/-- OBUF_LEN holds the number of octets of a message no longer than a legal MAX_MSG_LEN (R6, R101). -/
theorem obufLen_deliverOctets {s : State} {bs : Bytes} (hpar : s.par.legal = true) (h : bs.length ≤ s.par.maxMsgLen) :
    (deliverOctets bs s).obufLen.toNat = bs.length := by
  obtain ⟨-, hmax, -⟩ := (params_legal_iff _).mp hpar
  rw [deliverOctets_obufLen, BitVec.toNat_ofNat]
  exact Nat.mod_eq_of_lt (by omega)

/-- Settles O10: CLR is one update of the four results, each of which is already at its cleared value after reset. -/
theorem clrClearsResults : Obligations.ClrClearsResults :=
  ⟨fun s => ⟨clearResults s, rfl, rfl, rfl, rfl, rfl, rfl, sameInputs_clearResults s, fun _ => rfl⟩, rfl, rfl⟩

/-- Settles O11: the octets of an ENCODE fit OBUF_LEN, they are read back where they were written, and the run that was
written ends at their number. -/
theorem commandsReturnValues : Obligations.CommandsReturnValues := by
  refine fun s cx m bs => ⟨fun hin h => ?_, fun hpar hin h => ?_⟩
  · exact ⟨_, exec_decode_of_ok hin h, rfl, rfl, rfl, rfl, rfl, sameInputs_endDecode (.ok m) s, fun _ => rfl⟩
  · have hlen : (deliverOctets bs s).obufLen.toNat = bs.length := obufLen_deliverOctets hpar (encodeMessage_length h)
    have hread : (deliverOctets bs s).obuf.readRange 0 bs.length = some bs := Memory.readRange_writeAll s.obuf 0 bs
    refine ⟨_, exec_encode_of_ok hin h, rfl, rfl, hlen, rfl, rfl, sameInputs_endEncode (.ok bs) s, hread, fun a ha => ?_⟩
    exact Memory.read_writeAll_outside s.obuf 0 a bs (.inr (by omega))

/-! ### A command is refused for its inputs alone (R286 items 6 and 7) -/

/-- A range is unreadable exactly where one of its octets is unwritten. -/
theorem Memory.readRange_eq_none {m : Memory} {a n : Nat} :
    m.readRange a n = none ↔ ∃ i < n, m.read (a + i) = none := by
  induction n generalizing a with
  | zero => simp [readRange]
  | succ n ih =>
    have hfirst : m.readRange a (n + 1) = none ↔ m.read a = none ∨ m.readRange (a + 1) n = none := by
      cases h : m.read a <;> cases h' : m.readRange (a + 1) n <;> simp [readRange, h, h']
    rw [hfirst, ih, Nat.exists_lt_succ_left]
    simp only [Nat.add_zero, Nat.add_assoc, Nat.add_comm 1]

theorem inputMessage_eq_none {s : State} : inputMessage s = none ↔
    s.ibufLen = none ∨ ∃ n, s.ibufLen = some n ∧ ∃ i < n.toNat, s.ibuf.read i = none := by
  cases h : s.ibufLen with
  | none => simp [inputMessage, h]
  | some n => simp [inputMessage, h, Memory.readRange_eq_none]

/-- All a DECODE can do: without an input it is refused, with its inputs it answers a next state (R100). -/
theorem execDecode_cases (s : State) :
    ((s.cxtCaps = none ∨ inputMessage s = none) ∧ execDecode s = .refused .decodeInputUnwritten) ∨
      (s.cxtCaps ≠ none ∧ inputMessage s ≠ none) ∧ ∃ t, execDecode s = .next t := by
  cases hc : s.cxtCaps with
  | none => exact .inl ⟨.inl rfl, by simp only [execDecode, hc]⟩
  | some caps =>
    cases hb : inputMessage s with
    | none => exact .inl ⟨.inr rfl, by simp only [execDecode, hc, hb]⟩
    | some b => exact .inr ⟨by simp, by simp [execDecode, hc, hb]⟩

/-- All an ENCODE can do (R101). -/
theorem execEncode_cases (s : State) :
    ((s.cxtCaps = none ∨ s.msgIn = none) ∧ execEncode s = .refused .encodeInputUnwritten) ∨
      (s.cxtCaps ≠ none ∧ s.msgIn ≠ none) ∧ ∃ t, execEncode s = .next t := by
  cases hc : s.cxtCaps with
  | none => exact .inl ⟨.inl rfl, by simp only [execEncode, hc]⟩
  | some caps =>
    cases hm : s.msgIn with
    | none => exact .inl ⟨.inr rfl, by simp only [execEncode, hc, hm]⟩
    | some m => exact .inr ⟨by simp, by simp [execEncode, hc, hm]⟩

theorem execDecode_eq_refused {s : State} : execDecode s = .refused .decodeInputUnwritten ↔
    s.cxtCaps = none ∨ s.ibufLen = none ∨ ∃ n, s.ibufLen = some n ∧ ∃ i < n.toNat, s.ibuf.read i = none := by
  rw [← inputMessage_eq_none]
  rcases execDecode_cases s with ⟨hnone, h⟩ | ⟨⟨hc, hb⟩, t, h⟩
  · exact iff_of_true h hnone
  · exact iff_of_false (by simp [h]) (not_or.mpr ⟨hc, hb⟩)

theorem execEncode_eq_refused {s : State} : execEncode s = .refused .encodeInputUnwritten ↔
    s.cxtCaps = none ∨ s.msgIn = none := by
  rcases execEncode_cases s with ⟨hnone, h⟩ | ⟨⟨hc, hm⟩, t, h⟩
  · exact iff_of_true h hnone
  · exact iff_of_false (by simp [h]) (not_or.mpr ⟨hc, hm⟩)

/-- Settles O12: each command is refused or answers by whether its inputs are there, and an unreadable IBUF range is one with
an unwritten octet. -/
theorem commandsNeedTheirInputs : Obligations.CommandsNeedTheirInputs := by
  refine fun s => ⟨execDecode_eq_refused, execEncode_eq_refused, ?_, ?_⟩
  · rcases execDecode_cases s with ⟨-, h⟩ | ⟨-, h⟩
    · exact .inr h
    · exact .inl h
  · rcases execEncode_cases s with ⟨-, h⟩ | ⟨-, h⟩
    · exact .inr h
    · exact .inl h

/-! ### The header checks (R104 to R107) -/

/-- The two octets of LENGTH, read as one value (R71). -/
theorem beNat_slice_lengthField {b : Bytes} (h : hdrLen ≤ b.length) : beNat (slice b 16 2) = lengthField b := by
  have h19 : 19 ≤ b.length := h
  have hslice : slice b 16 2 = [b[16], b[17]] := by
    rw [slice, List.drop_eq_getElem_cons (by omega), List.drop_eq_getElem_cons (by omega)]
    rfl
  rw [hslice, beNat_two, lengthField, List.getD_eq_getElem _ _ (by omega), List.getD_eq_getElem _ _ (by omega)]

theorem octet_drop_typeField (b : Bytes) : octet (b.drop 18) = typeField b := by
  rw [octet, typeField, List.headD_eq_head?_getD, List.head?_drop, List.getD_eq_getElem?_getD]

open Classical in
/-- `readHeader` on a buffer that holds a header: its three further checks in order, then the message (R105 to R107). -/
theorem readHeader_eq {par : Params} {b : Bytes} (h : hdrLen ≤ b.length) : readHeader par b =
    if ¬ markerOk par b then .error (err .marker 0)
    else if lengthField b < 19 ∨ par.maxMsgLen < lengthField b then .error (err .badLength (lengthField b))
    else if lengthField b ≠ b.length then .error (err .lengthMismatch (lengthField b))
    else .ok { type := typeField b, marker := b.take 16, body := b.drop 19 } := by
  have hmark : (par.markerCheck && b.take markerLen != List.replicate markerLen 0xFF) = true ↔ ¬ markerOk par b := by
    simp [markerOk, markerLen]
  simp only [readHeader, beNat_slice_lengthField h, octet_drop_typeField, decide_eq_false (Nat.not_lt.mpr h), raiseIf_false,
    ok_bind, raiseIf_bind, hmark, Bool.or_eq_true, decide_eq_true_eq, bne_iff_ne]
  rfl

theorem readHeader_of_headerOk {par : Params} {b : Bytes} (h : headerOk par b) :
    readHeader par b = .ok { type := typeField b, marker := b.take 16, body := b.drop 19 } := by
  obtain ⟨hlen, hmark, hmax, hl⟩ := h
  rw [readHeader_eq hlen, if_neg (not_not.mpr hmark), if_neg (by omega), if_neg (not_not.mpr hl)]

theorem decodeMessage_of_header_error {par : Params} {cx : Cxt} {b : Bytes} {e : CodecError}
    (h : readHeader par b = .error e) : decodeMessage par cx b = .error e := by
  rw [decodeMessage, h, error_bind]

theorem decodeMessage_of_headerOk {par : Params} (cx : Cxt) {b : Bytes} (h : headerOk par b) :
    decodeMessage par cx b = dispatchMessage cx { type := typeField b, marker := b.take 16, body := b.drop 19 } := by
  rw [decodeMessage, readHeader_of_headerOk h, ok_bind]

/-- Settles O15: an error of the header is the error of the command, and each check is one branch of `readHeader`. -/
theorem headerChecks : Obligations.HeaderChecks := by
  intro s cx b hin
  have raises : ∀ {e}, readHeader s.par b = .error e → exec .decode s = .next (raiseError 1 e s) := fun h =>
    exec_decode_of_error hin (decodeMessage_of_header_error h)
  refine ⟨fun h => raises (readHeader_short h), fun h hmark => raises ?_, fun h hmark hl => raises ?_,
    fun h hmark hmin hmax hl => raises ?_⟩
  · rw [readHeader_eq h, if_pos hmark]
  · rw [readHeader_eq h, if_neg (not_not.mpr hmark), if_pos hl]
  · rw [readHeader_eq h, if_neg (not_not.mpr hmark), if_neg (by omega), if_pos hl]

/-! ### The message kinds and their legal lengths (R108, R109) -/

theorem exists_msgCode {t : Byte} (h : t ∈ [(1 : Byte), 2, 3, 4, 5]) : ∃ k, t = msgCode k := by
  simp only [List.mem_cons, List.not_mem_nil, or_false] at h
  rcases h with rfl | rfl | rfl | rfl | rfl
  · exact ⟨.openMsg, rfl⟩
  · exact ⟨.update, rfl⟩
  · exact ⟨.notification, rfl⟩
  · exact ⟨.keepalive, rfl⟩
  · exact ⟨.routeRefresh, rfl⟩

/-- A TYPE outside 1 to 5 names no kind (R108). -/
theorem msgKindOf_eq_none {t : Byte} (h : t ∉ [(1 : Byte), 2, 3, 4, 5]) : msgKindOf t = none := by
  cases hk : msgKindOf t with
  | none => rfl
  | some k =>
    obtain rfl := msgKindOf_eq_some.mp hk
    exact absurd (by cases k <;> decide) h

/-- `len_ok` is the table of legal total lengths (R109). -/
theorem lenOk_eq_true_iff {k : MsgKind} {l : Nat} : lenOk k l = true ↔ legalTotal (msgCode k) l := by
  cases k <;> simp [lenOk, legalTotal, msgCode]

theorem lenOk_eq_false_iff {k : MsgKind} {l : Nat} : lenOk k l = false ↔ ¬ legalTotal (msgCode k) l := by
  rw [← lenOk_eq_true_iff, Bool.not_eq_true]

/-! ### The message forms, decode (R109 to R114) -/

section DecodeKinds

variable {cx : Cxt} {body : Bytes}

theorem dispatchMessage_msgCode (cx : Cxt) (k : MsgKind) (marker body : Bytes) :
    dispatchMessage cx { type := msgCode k, marker := marker, body := body } = decodeKind cx k body := by
  simp only [dispatchMessage, msgKindOf_msgCode]

theorem dispatchMessage_unassigned {f : MsgForm} (h : msgKindOf f.type = none) :
    dispatchMessage cx f = .error (err .badType f.type.toNat) := by
  simp only [dispatchMessage, h]

theorem decodeKind_illegal {k : MsgKind} (h : ¬ legalTotal (msgCode k) (19 + body.length)) :
    decodeKind cx k body = .error (err .badLength (19 + body.length)) := by
  have hlen : lenOk k (hdrLen + body.length) = false := lenOk_eq_false_iff.mpr h
  unfold decodeKind checkTypeLength
  rw [hlen, Bool.not_false, raiseIf_true, error_bind]
  rfl

/-- Past the length check, the body rule of the kind is left. -/
theorem checkTypeLength_legal {k : MsgKind} (h : legalTotal (msgCode k) (19 + body.length)) :
    checkTypeLength k body = .ok () := by
  have hlen : lenOk k (hdrLen + body.length) = true := lenOk_eq_true_iff.mpr h
  rw [checkTypeLength, hlen, Bool.not_true, raiseIf_false]

theorem decodeKind_openMsg (h : 29 ≤ 19 + body.length) : decodeKind cx .openMsg body = .ok (.openMsg body) := by
  rw [decodeKind, checkTypeLength_legal (.inl ⟨rfl, h⟩), ok_bind]

theorem decodeKind_notification (h : 21 ≤ 19 + body.length) :
    decodeKind cx .notification body = .ok (.notification body) := by
  rw [decodeKind, checkTypeLength_legal (.inr (.inr (.inl ⟨rfl, h⟩))), ok_bind]

theorem decodeKind_keepalive (h : body = []) : decodeKind cx .keepalive body = .ok .keepalive := by
  subst h
  rfl

theorem decodeKind_routeRefresh (h : body.length = 4) :
    decodeKind cx .routeRefresh body = .ok (.routeRefresh body) := by
  rw [decodeKind, checkTypeLength_legal (.inr (.inr (.inr (.inr ⟨rfl, by omega⟩)))), ok_bind]

/-- An UPDATE of two empty sections and no prefixes holds nothing (R130 to R134). -/
theorem decodeKind_emptyUpdate (cx : Cxt) : decodeKind cx .update [0, 0, 0, 0] = .ok (.update {}) := by
  have hsplit : splitUpdate [0, 0, 0, 0] = .ok ([], [], []) := by decide
  have hupdate : decodeUpdate cx [0, 0, 0, 0] = .ok {} := by
    rw [decodeUpdate, hsplit]
    rfl
  rw [decodeKind, checkTypeLength_legal (.inr (.inl ⟨rfl, by simp⟩)), ok_bind, hupdate, ok_bind]

/-- A message form of an assigned kind inside a DECODE ends it with what its kind decodes to. -/
theorem exec_message_atMessage (k : MsgKind) (marker body : Bytes) (cx : Cxt) (b : Bytes) (s : State) :
    exec (MsgForm.toInstr { type := msgCode k, marker := marker, body := body }) (atMessage cx b s) =
      .next (endDecode (decodeKind cx k body) s) := by
  cases k <;>
    simp only [MsgForm.toInstr, msgKindOf_msgCode, exec, execMsgOpen, execMsgUpdate, execMsgNotification, execMsgKeepalive,
      execMsgRouteRefresh, runMessage_atMessage]

theorem exec_msgUnassigned_atMessage (t : Byte) (marker body : Bytes) (cx : Cxt) (b : Bytes) (s : State) :
    exec (.msgUnassigned t marker body) (atMessage cx b s) = .next (raiseError lastDecode (err .badType t.toNat) s) := by
  simp only [exec, execMsgUnassigned, runMessage_atMessage, endDecode_error]

end DecodeKinds

/-- Settles O16: a header that passes leaves the dispatch on TYPE, and the kind's length check and body rule after it. -/
theorem typeDispatch : Obligations.TypeDispatch := by
  intro s cx b hin hok
  have hlen : 19 + (b.drop 19).length = b.length := by
    have := hok.1
    rw [List.length_drop]
    omega
  have dispatched := decodeMessage_of_headerOk cx hok
  have decoded : ∀ {k}, typeField b = msgCode k → decodeMessage s.par cx b = decodeKind cx k (b.drop 19) := fun ht => by
    rw [dispatched, ht, dispatchMessage_msgCode]
  refine ⟨fun ht => exec_decode_of_error hin ?_, fun ht hl => exec_decode_of_error hin ?_,
    fun ht hl => exec_decode_of_ok hin ?_, fun ht hl => ?_, fun ht hl => exec_decode_of_ok hin ?_,
    fun ht hl => exec_decode_of_ok hin ?_, fun ht hl => exec_decode_of_ok hin ?_⟩
  · rw [dispatched, dispatchMessage_unassigned (msgKindOf_eq_none ht)]
  · obtain ⟨k, hk⟩ := exists_msgCode ht
    rw [decoded hk, decodeKind_illegal (by rwa [hlen, ← hk]), hlen]
  · rw [decoded (k := .openMsg) ht, decodeKind_openMsg (by omega)]
  · calc exec .decode s
        = .next (endDecode (decodeMessage s.par cx b) s) := execDecode_of_inputs hin
      _ = .next (endDecode (decodeKind cx .update (b.drop 19)) s) := by rw [decoded (k := .update) ht]
      _ = exec (.msgUpdate (b.take 16) (b.drop 19)) (atMessage cx b s) :=
          (exec_message_atMessage .update (b.take 16) (b.drop 19) cx b s).symm
  · rw [decoded (k := .notification) ht, decodeKind_notification (by omega)]
  · rw [decoded (k := .keepalive) ht, decodeKind_keepalive (List.drop_of_length_le (by omega))]
  · rw [decoded (k := .routeRefresh) ht, decodeKind_routeRefresh (by omega)]

/-- Settles O17: each form ends the DECODE with what its kind decodes to; a body length outside R109's row is the error. -/
theorem messageFormsDecode : Obligations.MessageFormsDecode := by
  intro s cx b marker body t
  have runs := fun k => exec_message_atMessage k marker body cx b s
  have illegal : ∀ k, lenOk k (19 + body.length) = false →
      exec (MsgForm.toInstr { type := msgCode k, marker := marker, body := body }) (atMessage cx b s) =
        .next (raiseError 1 (err .badLength (19 + body.length)) s) := fun k h => by
    rw [runs, decodeKind_illegal (lenOk_eq_false_iff.mp h)]
    rfl
  refine ⟨fun h => (runs .openMsg).trans ?_, fun h => (runs .notification).trans ?_, fun h => (runs .keepalive).trans ?_,
    fun h => (runs .routeRefresh).trans ?_, fun h => (runs .update).trans ?_, ?_, fun i hi => ?_⟩
  · rw [decodeKind_openMsg h, endDecode_ok]
  · rw [decodeKind_notification h, endDecode_ok]
  · rw [decodeKind_keepalive h, endDecode_ok]
  · rw [decodeKind_routeRefresh h, endDecode_ok]
  · rw [h, decodeKind_emptyUpdate, endDecode_ok]
  · exact exec_msgUnassigned_atMessage t marker body cx b s
  · rcases hi with ⟨rfl, h⟩ | ⟨rfl, h⟩ | ⟨rfl, h⟩ | ⟨rfl, h⟩ | ⟨rfl, h⟩
    · exact illegal .openMsg (decide_eq_false (by omega))
    · exact illegal .update (decide_eq_false (by omega))
    · exact illegal .notification (decide_eq_false (by omega))
    · have hpos : 0 < body.length := List.length_pos_iff.mpr h
      exact illegal .keepalive (decide_eq_false (by omega))
    · exact illegal .routeRefresh (decide_eq_false (by omega))

/-! ### Framing, encode (R115 to R119) -/

section Framing

variable {par : Params} {k : MsgKind} {body : Bytes}

@[simp] theorem wireHeader_length (t : Byte) (l : Nat) : (wireHeader t l).length = 19 := by
  simp [wireHeader]

/-- The octets of a message under the marker encode writes are its header, then its body (R116). -/
theorem messageOctets_encodeMarker (t : Byte) (body : Bytes) :
    messageOctets encodeMarker t body = wireHeader t (19 + body.length) ++ body := by
  rw [messageOctets, toBe_two]
  rfl

theorem frameBody_fits (h : 19 + body.length ≤ par.maxMsgLen) :
    frameBody par k body = .ok (wireHeader (msgCode k) (19 + body.length) ++ body) := by
  rw [frameBody, decide_eq_false (show ¬ par.maxMsgLen < hdrLen + body.length from Nat.not_lt.mpr h), raiseIf_false, ok_bind,
    messageOctets_encodeMarker]

theorem frameBody_too_long (h : par.maxMsgLen < 19 + body.length) :
    frameBody par k body = .error (err .messageTooLong (min (19 + body.length) 65535)) := by
  rw [frameBody, decide_eq_true (show par.maxMsgLen < hdrLen + body.length from h), raiseIf_true, error_bind]
  rfl

/-- What `frameBody` returns is the header and the body, within MAX_MSG_LEN. -/
theorem frameBody_eq_ok {bs : Bytes} (h : frameBody par k body = .ok bs) :
    19 + body.length ≤ par.maxMsgLen ∧ bs = wireHeader (msgCode k) (19 + body.length) ++ body := by
  rcases Nat.lt_or_ge par.maxMsgLen (19 + body.length) with hlong | hfits
  · rw [frameBody_too_long hlong] at h
    cases h
  · rw [frameBody_fits hfits] at h
    exact ⟨hfits, (Except.ok.inj h).symm⟩

theorem framePass_illegal (h : ¬ legalTotal (msgCode k) (19 + body.length)) :
    framePass par k body = .error (err .passthroughLength (msgCode k).toNat) := by
  have hlen : lenOk k (hdrLen + body.length) = false := lenOk_eq_false_iff.mpr h
  rw [framePass, checkPass, hlen, Bool.not_false, raiseIf_true, error_bind]

theorem framePass_legal (h : legalTotal (msgCode k) (19 + body.length)) : framePass par k body = frameBody par k body := by
  have hlen : lenOk k (hdrLen + body.length) = true := lenOk_eq_true_iff.mpr h
  rw [framePass, checkPass, hlen, Bool.not_true, raiseIf_false, ok_bind]

/-- A KEEPALIVE fits every legal MAX_MSG_LEN (R6, R117). -/
theorem frameBody_keepalive (hpar : par.legal = true) : frameBody par .keepalive [] = .ok (wireHeader 4 19) := by
  obtain ⟨hmax, -⟩ := (params_legal_iff _).mp hpar
  rw [frameBody_fits (by simp only [List.length_nil]; omega), List.append_nil]
  rfl

/-- Every encode that returns octets framed a body under the type of its value (R115). -/
theorem encodeMessage_eq_frameBody {cx : Cxt} {m : Message} {bs : Bytes} (h : encodeMessage par cx m = .ok bs) :
    ∃ k body, messageCode m = msgCode k ∧ frameBody par k body = .ok bs := by
  cases m with
  | keepalive => exact ⟨.keepalive, [], rfl, h⟩
  | update u =>
    obtain ⟨body, -, hframe⟩ := bind_eq_ok.mp h
    exact ⟨.update, body, rfl, hframe⟩
  | openMsg b =>
    obtain ⟨_, -, hframe⟩ := bind_eq_ok.mp h
    exact ⟨.openMsg, b, rfl, hframe⟩
  | notification b =>
    obtain ⟨_, -, hframe⟩ := bind_eq_ok.mp h
    exact ⟨.notification, b, rfl, hframe⟩
  | routeRefresh b =>
    obtain ⟨_, -, hframe⟩ := bind_eq_ok.mp h
    exact ⟨.routeRefresh, b, rfl, hframe⟩

/-- The kinds without a structured body are framed by one rule; the one legal length of a KEEPALIVE is that of its empty
body (R117, R118). -/
theorem encodeMessage_eq_framePass (par : Params) (cx : Cxt) {t : Byte} {m : Message} {body : Bytes}
    (h : t = 1 ∧ m = .openMsg body ∨ t = 3 ∧ m = .notification body ∨ t = 5 ∧ m = .routeRefresh body ∨
      t = 4 ∧ m = .keepalive ∧ body = []) :
    ∃ k, t = msgCode k ∧ encodeMessage par cx m = framePass par k body := by
  rcases h with ⟨rfl, rfl⟩ | ⟨rfl, rfl⟩ | ⟨rfl, rfl⟩ | ⟨rfl, rfl, rfl⟩
  · exact ⟨.openMsg, rfl, rfl⟩
  · exact ⟨.notification, rfl, rfl⟩
  · exact ⟨.routeRefresh, rfl, rfl⟩
  · exact ⟨.keepalive, rfl, (framePass_legal (lenOk_eq_true_iff.mp rfl)).symm⟩

end Framing

/-- Settles O47: the length check of R118, then the framing of R116 and R119. -/
theorem passThroughEncodes : Obligations.PassThroughEncodes := by
  intro s cx t m body _ hin hm
  obtain ⟨k, rfl, hframe⟩ := encodeMessage_eq_framePass s.par cx hm
  refine ⟨fun hl => exec_encode_of_error hin ?_, fun hl hlong => exec_encode_of_error hin ?_,
    fun hl hfits => exec_encode_of_ok hin ?_⟩
  · rw [hframe, framePass_illegal hl]
  · rw [hframe, framePass_legal hl, frameBody_too_long hlong]
  · rw [hframe, framePass_legal hl, frameBody_fits hfits]

/-- An ENCODE that ends with STATUS 0x9 returned octets: after an error STATUS is 0xA (R23, R283). -/
theorem exec_encode_status_ok {s t : State} (h : exec .encode s = .next t) (hst : t.status = 0x9) :
    ∃ cx m bs, encodeInputs s cx m ∧ encodeMessage s.par cx m = .ok bs ∧ t = deliverOctets bs s := by
  obtain ⟨cx, m, hin, rfl⟩ := execEncode_next h
  cases hr : encodeMessage s.par cx m with
  | ok bs => exact ⟨cx, m, bs, hin, hr, rfl⟩
  | error e =>
    rw [hr, endEncode_error, raiseError_status] at hst
    exact absurd hst (by decide)

/-- Settles O48: the octets returned are a header and a body, and they are read back from OBUF. -/
theorem encodedMessagesAreFramed : Obligations.EncodedMessagesAreFramed := by
  intro s t m hpar hm hexec hst
  obtain ⟨cx, m', bs, ⟨-, hm'⟩, hbs, rfl⟩ := exec_encode_status_ok hexec hst
  obtain rfl : m = m' := Option.some.inj (hm.symm.trans hm')
  obtain ⟨k, body, hcode, hframe⟩ := encodeMessage_eq_frameBody hbs
  obtain ⟨hfits, hform⟩ := frameBody_eq_ok hframe
  have hlen : bs.length = 19 + body.length := by rw [hform, List.length_append, wireHeader_length]
  have hobuf : (deliverOctets bs s).obufLen.toNat = bs.length := obufLen_deliverOctets hpar (hlen.trans_le hfits)
  have hread : (deliverOctets bs s).obuf.readRange 0 bs.length = some bs := Memory.readRange_writeAll s.obuf 0 bs
  refine ⟨bs, hobuf ▸ hread, hobuf.symm, by omega, by omega, ?_⟩
  rw [hlen, hcode, hform]
  exact List.take_left' (wireHeader_length _ _)

/-! ### The record an ENCODE emits, at whichever place it was built (R142, R175) -/

/-- What follows the building of a record inside an ENCODE: its octets are appended to the section, or its error ends the
command. -/
def emitRecord (cx : Cxt) (w : EncWork) (s : State) : Except CodecError Bytes → Host.Outcome State Fault Refusal
  | .ok bs => .next (atEmission cx (appendOut bs w) s)
  | .error e => .next (raiseError lastEncode e s)

section Emission

variable {cx : Cxt} {w : EncWork} {s : State}

/-- A record whose flags have E clear is emitted, or is too long for any record (R175). -/
theorem emitRecord_encodeRecord {flags : Byte} (he : flags &&& 0x10 = 0) (t : Byte) (v : Bytes) :
    emitRecord cx w s (encodeRecord flags t v) =
      if v.length ≤ 65535 then .next (atEmission cx (appendOut (wireRecord flags t v) w) s)
      else .next (raiseError lastEncode (err .attrTooLong t.toNat) s) := by
  split
  · next h => rw [encodeRecord_eq he h, emitRecord]
  · next h => rw [encodeRecord_too_long (Nat.lt_of_not_le h), emitRecord]

/-- The record form of a recognized type emits its record. -/
theorem exec_knownForm_atEmission (t : AttrType) (v : Bytes) (cx : Cxt) (w : EncWork) (s : State) :
    exec (knownForm t v).toInstr (atEmission cx w s) =
      emitRecord cx w s (encodeRecord (expectedFlags t) (attrCode t) v) := by
  rw [knownForm, exec_record_atEmission]
  cases encodeRecord (expectedFlags t) (attrCode t) v <;> rfl

/-- A step at the slot of a field that is present emits the record of the body built for it. -/
theorem step_atEmission_present {e : EncWork} {todo : List Slot} {t : AttrType} {body : Except CodecError Bytes}
    (htodo : e.todo = .known t :: todo)
    (hslot : slotForm cx e.upd e.attrs (.known t) = body >>= fun v => .ok (some (knownForm t v))) :
    step (atEmission cx e s) =
      emitRecord cx { e with todo := todo } s (body >>= encodeRecord (expectedFlags t) (attrCode t)) := by
  rw [step_atEmission htodo, hslot]
  cases body with
  | error x => rfl
  | ok v => exact exec_knownForm_atEmission t v cx _ s

end Emission

/-! ### The family place of an ENCODE (R240, R241) -/

section Groups

variable {cx : Cxt} {k : MpKind} {f : FamForm}

theorem expectedFlags_mpAttr (k : MpKind) : expectedFlags (mpAttr k) = 0x80 := by
  cases k <;> rfl

theorem attrCode_mpAttr (k : MpKind) : attrCode (mpAttr k) = mpCode k := by
  cases k <;> rfl

theorem familyOctets_ipv4 (rest : Bytes) : familyOctets 1 1 rest = [0, 1, 1] ++ rest := rfl

theorem familyOctets_ipv6 (rest : Bytes) : familyOctets 2 1 rest = [0, 2, 1] ++ rest := rfl

theorem encodeFamily_legal (h : legalFamily cx f.afi f.safi = true) :
    encodeFamily cx k f = encodeRecord 0x80 (mpCode k) (familyOctets f.afi f.safi f.rest) := by
  rw [encodeFamily, familyBody, h, Bool.not_true, raiseIf_false, ok_bind, ok_bind, expectedFlags_mpAttr, attrCode_mpAttr]

theorem encodeFamily_illegal (h : legalFamily cx f.afi f.safi = false) :
    encodeFamily cx k f = .error (err .family (mpCode k).toNat) := by
  rw [encodeFamily, familyBody, h, Bool.not_false, raiseIf_true, error_bind, error_bind, attrCode_mpAttr]

variable (w : EncWork) (g : MpGroup) (s : State)

theorem exec_familyIpv4_atGroupEmission (cx : Cxt) (rest : Bytes) :
    exec (.familyIpv4Unicast rest) (atGroupEmission cx w g s) =
      emitRecord cx w s (encodeFamily cx (groupKind g) ⟨1, 1, rest⟩) := by
  simp only [exec, execFamilyIpv4Unicast, runFamily_atGroupEmission]
  cases encodeFamily cx (groupKind g) ⟨1, 1, rest⟩ <;> rfl

theorem exec_familyIpv6_atGroupEmission (cx : Cxt) (rest : Bytes) :
    exec (.familyIpv6Unicast rest) (atGroupEmission cx w g s) =
      emitRecord cx w s (encodeFamily cx (groupKind g) ⟨2, 1, rest⟩) := by
  simp only [exec, execFamilyIpv6Unicast, runFamily_atGroupEmission]
  cases encodeFamily cx (groupKind g) ⟨2, 1, rest⟩ <;> rfl

theorem exec_familyOther_atGroupEmission (cx : Cxt) (afi : Half) (safi : Byte) (rest : Bytes) :
    exec (.familyOther afi safi rest) (atGroupEmission cx w g s) =
      .next (raiseError lastEncode (err .family (mpCode (groupKind g)).toNat) s) := by
  simp only [exec, execFamilyOther, runFamily_atGroupEmission, attrCode_mpAttr]

/-- The form a family selects completes the record of its type, or ends the command where the family is not legal. -/
theorem exec_family_atGroupEmission (cx : Cxt) (f : FamForm) :
    exec (f.toInstr cx) (atGroupEmission cx w g s) = emitRecord cx w s (encodeFamily cx (groupKind g) f) := by
  rcases famForm_cases cx f with ⟨hl, hf⟩ | ⟨hl, hf⟩ | hl
  · rw [hf, famForm_ipv4 hl]
    exact exec_familyIpv4_atGroupEmission w g s cx f.rest
  · rw [hf, famForm_ipv6 hl]
    exact exec_familyIpv6_atGroupEmission w g s cx f.rest
  · rw [famForm_other hl, exec_familyOther_atGroupEmission, encodeFamily_illegal hl, emitRecord]

/-- A step at a group emits the record of the group's body: the family check of the body is the one its form makes. -/
theorem step_atGroupEmission (cx : Cxt) :
    step (atGroupEmission cx w g s) = emitRecord cx w s (groupBody cx g >>=
      encodeRecord (expectedFlags (mpAttr (groupKind g))) (attrCode (mpAttr (groupKind g)))) := by
  have hbody : (groupBody cx g >>= encodeRecord (expectedFlags (mpAttr (groupKind g))) (attrCode (mpAttr (groupKind g)))) =
      groupForm cx g >>= encodeFamily cx (groupKind g) := bind_assoc _ _ _
  rw [hbody]
  cases h : groupForm cx g with
  | error e => exact step_done (by simp only [atGroupEmission, fetch, setEngine_engine, fetchEncode, h, fetchError,
      raiseError_setEngine, error_bind, emitRecord])
  | ok f =>
    rw [ok_bind, ← exec_family_atGroupEmission]
    exact step_run (by simp only [atGroupEmission, fetch, setEngine_engine, fetchEncode, h])

end Groups

/-! ### The path place of an ENCODE, segment by segment (R215) -/

theorem core_run_one (s : State) : Sys2Proof.core.run 1 s = step s := by
  simp only [Host.Core.run]
  cases h : Sys2Proof.core.step s <;> exact h.symm

theorem core_run_succ {s t : State} (j : Nat) (h : step s = .next t) :
    Sys2Proof.core.run (j + 1) s = Sys2Proof.core.run j t := by
  have hcore : Sys2Proof.core.step s = .next t := h
  simp only [Host.Core.run, hcore]

section Paths

variable {cx : Cxt} {w : EncWork} {k : PathKind} {out : Bytes} {s : State}

/-- At the end of the segments the record of the path is emitted. -/
theorem step_atPathEmission_nil : step (atPathEmission cx w k [] out s) =
    emitRecord cx w s (encodeRecord (expectedFlags (pathAttr k)) (attrCode (pathAttr k)) out) := by
  refine step_done ?_
  simp only [atPathEmission, fetch, setEngine_engine, fetchEncode]
  cases encodeRecord (expectedFlags (pathAttr k)) (attrCode (pathAttr k)) out <;> rfl

/-- A segment form appends its octets to the body, or ends the command. -/
theorem exec_segment_atPathEmission (seg : AsPathSegment) (todo : List AsPathSegment) :
    exec (SegForm.known seg).toInstr (atPathEmission cx w k todo out s) =
      match encodeSegment cx k seg with
      | .ok bs => .next (atPathEmission cx w k todo (out ++ bs) s)
      | .error e => .next (raiseError lastEncode e s) := by
  obtain ⟨kind, members⟩ := seg
  cases kind with
  | set =>
    simp only [SegForm.toInstr, exec, execSegAsSet, runSegment_atPathEmission]
    cases encodeSegment cx k ⟨.set, members⟩ <;> rfl
  | sequence =>
    simp only [SegForm.toInstr, exec, execSegAsSequence, runSegment_atPathEmission]
    cases encodeSegment cx k ⟨.sequence, members⟩ <;> rfl

/-- A step before the end of the segments is the form of the next one. -/
theorem step_atPathEmission_cons (seg : AsPathSegment) (todo : List AsPathSegment) :
    step (atPathEmission cx w k (seg :: todo) out s) =
      exec (SegForm.known seg).toInstr (atPathEmission cx w k todo out s) :=
  step_run rfl

/-- The run over the segments left emits the record of the body so far and their octets. -/
theorem run_atPathEmission (segs : List AsPathSegment) (out : Bytes) :
    ∃ j, Sys2Proof.core.run j (atPathEmission cx w k segs out s) =
      emitRecord cx w s (encodeSegments cx k segs >>= fun bs =>
        encodeRecord (expectedFlags (pathAttr k)) (attrCode (pathAttr k)) (out ++ bs)) := by
  induction segs generalizing out with
  | nil =>
    refine ⟨1, ?_⟩
    rw [core_run_one, step_atPathEmission_nil, encodeSegments, emitAll_nil, ok_bind, List.append_nil]
  | cons seg segs ih =>
    have hstep := (step_atPathEmission_cons seg segs).trans
      (exec_segment_atPathEmission (cx := cx) (w := w) (k := k) (out := out) (s := s) seg segs)
    cases hseg : encodeSegment cx k seg with
    | error e =>
      refine ⟨1, ?_⟩
      rw [core_run_one, hstep, hseg, encodeSegments, emitAll_cons, hseg, error_bind, error_bind, emitRecord]
    | ok bs =>
      obtain ⟨j, hj⟩ := ih (out ++ bs)
      refine ⟨j + 1, ?_⟩
      rw [hseg] at hstep
      rw [core_run_succ j hstep, hj, encodeSegments, encodeSegments, emitAll_cons, hseg, ok_bind, bind_assoc]
      simp only [ok_bind, List.append_assoc]
      rfl

/-- The run over a whole path comes to what the step at its slot comes to. -/
theorem run_atPathEmission_eq_step {e : EncWork} {todo : List Slot} {path : AsPath}
    (htodo : e.todo = .known (pathAttr k) :: todo)
    (hslot : slotForm cx e.upd e.attrs (.known (pathAttr k)) = fieldForm (pathAttr k) (some path) (pathBody cx k)) :
    ∃ j, Sys2Proof.core.run j (atPathEmission cx { e with todo := todo } k path.segments [] s) =
      step (atEmission cx e s) := by
  rw [step_atEmission_present htodo hslot]
  exact run_atPathEmission path.segments []

end Paths

/-! ### The message place of an ENCODE (R115 to R119) -/

/-- The encode half of the form of a kind, on the body of the form (R115): the counterpart of `decodeKind`. -/
def encodeKind (par : Params) (k : MsgKind) (body : Bytes) : Except CodecError Bytes :=
  match k with
  | .openMsg => framePass par .openMsg body
  | .update => frameBody par .update body
  | .notification => framePass par .notification body
  | .keepalive => frameBody par .keepalive []
  | .routeRefresh => framePass par .routeRefresh body

/-- A message form of an assigned kind inside an ENCODE ends it with its encode half. -/
theorem exec_message_atEncode (k : MsgKind) (marker body : Bytes) (cx : Cxt) (m : Message) (s : State) :
    exec (MsgForm.toInstr { type := msgCode k, marker := marker, body := body }) (atEncode cx m s) =
      .next (endEncode (encodeKind s.par k body) s) := by
  cases k <;>
    · simp only [MsgForm.toInstr, msgKindOf_msgCode, exec, execMsgOpen, execMsgUpdate, execMsgNotification,
        execMsgKeepalive, execMsgRouteRefresh]
      exact runMessage_atEncode _ _ cx m s rfl

/-- The end of an ENCODE that frames a body: its octets, or the error of a total length above MAX_MSG_LEN (R119). -/
theorem endEncode_frameBody (par : Params) (k : MsgKind) (body : Bytes) (s : State) :
    Host.Outcome.next (endEncode (frameBody par k body) s) =
      if 19 + body.length ≤ par.maxMsgLen then
        (.next (deliverOctets (wireHeader (msgCode k) (19 + body.length) ++ body) s) : Host.Outcome State Fault Refusal)
      else .next (raiseError lastEncode (err .messageTooLong (min (19 + body.length) 65535)) s) := by
  split
  · next h => rw [frameBody_fits h, endEncode_ok]
  · next h => rw [frameBody_too_long (Nat.lt_of_not_le h), endEncode_error]

/-- What the form of a message value encodes to inside an ENCODE, `messageForm` having built its body. -/
theorem exec_messageForm_atEncode {cx : Cxt} {m : Message} {f : MsgForm} {s : State}
    (h : messageForm s.par cx m = .ok f) :
    exec f.toInstr (atEncode cx m s) = .next (endEncode (encodeMessage s.par cx m) s) := by
  cases m with
  | keepalive => cases h; exact exec_message_atEncode .keepalive _ _ cx _ s
  | openMsg b => cases h; exact exec_message_atEncode .openMsg _ b cx _ s
  | notification b => cases h; exact exec_message_atEncode .notification _ b cx _ s
  | routeRefresh b => cases h; exact exec_message_atEncode .routeRefresh _ b cx _ s
  | update u =>
    obtain ⟨body, hbody, hf⟩ := bind_eq_ok.mp h
    cases hf
    rw [encodeMessage, hbody, ok_bind]
    exact exec_message_atEncode .update _ body cx _ s

/-- A body that cannot be built is the error of the whole encode (R115). -/
theorem encodeMessage_of_form_error {par : Params} {cx : Cxt} {m : Message} {e : CodecError} (h : messageForm par cx m = .error e) :
    encodeMessage par cx m = .error e := by
  cases m with
  | keepalive | openMsg b | notification b | routeRefresh b => cases h
  | update u =>
    rcases bind_eq_error.mp h with hbody | ⟨body, -, hf⟩
    · rw [encodeMessage, hbody, error_bind]
    · cases hf

/-- The step at a message is its whole encode. -/
theorem step_atEncode (cx : Cxt) (m : Message) (s : State) :
    step (atEncode cx m s) = .next (endEncode (encodeMessage s.par cx m) s) := by
  cases h : messageForm s.par cx m with
  | error e =>
    rw [encodeMessage_of_form_error h]
    exact step_done (by simp only [atEncode, fetch, setEngine_engine, fetchEncode, setEngine_par, h, fetchError,
      raiseError_setEngine, endEncode_error])
  | ok f =>
    rw [← exec_messageForm_atEncode h]
    exact step_run (by simp only [atEncode, fetch, setEngine_engine, fetchEncode, setEngine_par, h])

/-- The three pass-through forms are framed by the rule of their kind (R118). -/
theorem exec_passThrough_atEncode {code : Byte} {i : Instr} {marker body : Bytes}
    (h : (code, i) ∈ [((1 : Byte), Instr.msgOpen marker body), (3, .msgNotification marker body),
      (5, .msgRouteRefresh marker body)]) (cx : Cxt) (m : Message) (s : State) :
    ∃ k, code = msgCode k ∧ exec i (atEncode cx m s) = .next (endEncode (framePass s.par k body) s) := by
  simp only [List.mem_cons, Prod.mk.injEq, List.not_mem_nil, or_false] at h
  rcases h with ⟨rfl, rfl⟩ | ⟨rfl, rfl⟩ | ⟨rfl, rfl⟩
  · exact ⟨.openMsg, rfl, exec_message_atEncode .openMsg marker body cx m s⟩
  · exact ⟨.notification, rfl, exec_message_atEncode .notification marker body cx m s⟩
  · exact ⟨.routeRefresh, rfl, exec_message_atEncode .routeRefresh marker body cx m s⟩

/-- Settles O60: each form is run at its place by the rule of its kind; a step at a group, and a run over a path, emit the
record that the step at its slot emits. -/
theorem encodePlaces : Obligations.EncodePlaces := by
  intro s cx m e todo marker body t hpar
  refine ⟨fun code i hi => ?_, ?_, ?_, rfl, step_atEncode cx m s, fun g afi safi rest => ⟨fun h4 => ?_, fun h6 => ?_,
    exec_familyOther_atGroupEmission e g s cx afi safi rest⟩, fun g htodo hg => ?_, fun g htodo hg => ?_,
    fun k path hpath => ?_⟩
  · obtain ⟨k, rfl, hexec⟩ := exec_passThrough_atEncode hi cx m s
    refine ⟨fun hl => hexec.trans ?_, fun hl => hexec.trans ?_⟩
    · rw [framePass_legal hl]
      exact endEncode_frameBody s.par k body s
    · rw [framePass_illegal hl, endEncode_error]
      rfl
  · exact (exec_message_atEncode .update marker body cx m s).trans (endEncode_frameBody s.par .update body s)
  · refine (exec_message_atEncode .keepalive marker body cx m s).trans ?_
    rw [encodeKind, frameBody_keepalive hpar, endEncode_ok]
  · rw [exec_familyIpv4_atGroupEmission, encodeFamily_legal (legalFamily_eq_true.mpr (.inl ⟨rfl, rfl, h4⟩)),
      familyOctets_ipv4]
    exact emitRecord_encodeRecord (flags := 0x80) rfl _ _
  · rw [exec_familyIpv6_atGroupEmission, encodeFamily_legal (legalFamily_eq_true.mpr (.inr ⟨rfl, rfl, h6⟩)),
      familyOctets_ipv6]
    exact emitRecord_encodeRecord (flags := 0x80) rfl _ _
  · rw [step_atGroupEmission, step_atEmission_present htodo (by rw [slotForm, hg]; rfl)]
    rfl
  · rw [step_atGroupEmission, step_atEmission_present htodo (by rw [slotForm, hg]; rfl)]
    rfl
  · rcases hpath with ⟨rfl, htodo, hp⟩ | ⟨rfl, htodo, hp⟩
    · exact run_atPathEmission_eq_step (k := .asPath) htodo (by rw [pathAttr, slotForm, hp])
    · exact run_atPathEmission_eq_step (k := .as4Path) htodo (by rw [pathAttr, slotForm, hp])

end Sys2Proof.Machine

/-! ### Proofs: the UPDATE body in both directions, and the two laws of the commands (41_update.md R130 to R145) -/

namespace Sys2Proof.Machine

open Sys2Proof

/-! ### The typed fields of the attribute section: one value for each recognized type (R76, R137) -/

/-- The value that a record of a recognized type carries (R166 to R174, R213, R237, R239, R260). -/
def FieldValue : AttrType → Type
  | .origin => Origin
  | .asPath | .as4Path => AsPath
  | .nextHop | .originatorId => Ipv4
  | .multiExitDisc | .localPref => Word
  | .atomicAggregate => Unit
  | .aggregator | .as4Aggregator => Aggregator
  | .communities => List Comm
  | .clusterList => List Ipv4
  | .mpReachNlri => MpReachNlri
  | .mpUnreachNlri => MpUnreachNlri
  | .extendedCommunities => List ExtComm
  | .ipv6ExtendedCommunities => List Extv6Comm
  | .largeCommunity => List LargeComm

/-- The value of a recognized type that A and st hold, NEXT_HOP's being in st (R160). -/
def fieldOf : (t : AttrType) → RecState → Option (FieldValue t)
  | .origin, w => w.attrs.base.origin
  | .asPath, w => w.attrs.base.asPath
  | .nextHop, w => w.side.nh
  | .multiExitDisc, w => w.attrs.base.med
  | .localPref, w => w.attrs.base.localPref
  | .atomicAggregate, w => if w.attrs.base.atomicAggregate then some () else none
  | .aggregator, w => w.attrs.base.aggregator
  | .communities, w => w.attrs.comm
  | .originatorId, w => w.attrs.base.originatorId
  | .clusterList, w => w.attrs.base.clusterList
  | .mpReachNlri, w => w.side.mpReach
  | .mpUnreachNlri, w => w.side.mpUnreach
  | .extendedCommunities, w => w.attrs.extComm
  | .as4Path, w => w.attrs.base.as4Path
  | .as4Aggregator, w => w.attrs.base.as4Aggregator
  | .ipv6ExtendedCommunities, w => w.attrs.extv6Comm
  | .largeCommunity, w => w.attrs.largeComm

/-- A value stored in the field of its type. -/
def setField : (t : AttrType) → FieldValue t → RecState → RecState
  | .origin, x, w => setBase (fun b => { b with origin := some x }) w
  | .asPath, x, w => setBase (fun b => { b with asPath := some x }) w
  | .nextHop, x, w => setSide (fun st => { st with nh := some x }) w
  | .multiExitDisc, x, w => setBase (fun b => { b with med := some x }) w
  | .localPref, x, w => setBase (fun b => { b with localPref := some x }) w
  | .atomicAggregate, _, w => setBase (fun b => { b with atomicAggregate := true }) w
  | .aggregator, x, w => setBase (fun b => { b with aggregator := some x }) w
  | .communities, x, w => setAttrs (fun a => { a with comm := some x }) w
  | .originatorId, x, w => setBase (fun b => { b with originatorId := some x }) w
  | .clusterList, x, w => setBase (fun b => { b with clusterList := some x }) w
  | .mpReachNlri, x, w => setSide (fun st => { st with mpReach := some x }) w
  | .mpUnreachNlri, x, w => setSide (fun st => { st with mpUnreach := some x }) w
  | .extendedCommunities, x, w => setAttrs (fun a => { a with extComm := some x }) w
  | .as4Path, x, w => setBase (fun b => { b with as4Path := some x }) w
  | .as4Aggregator, x, w => setBase (fun b => { b with as4Aggregator := some x }) w
  | .ipv6ExtendedCommunities, x, w => setAttrs (fun a => { a with extv6Comm := some x }) w
  | .largeCommunity, x, w => setAttrs (fun a => { a with largeComm := some x }) w

/-- The body that the encode half of a type writes for a value. -/
def fieldBody (cx : Cxt) : (t : AttrType) → FieldValue t → Except CodecError Bytes
  | .origin => originBody
  | .asPath => pathBody cx .asPath
  | .nextHop => addressBody
  | .multiExitDisc => wordBody
  | .localPref => wordBody
  | .atomicAggregate => fun _ => .ok []
  | .aggregator => aggregatorBody cx
  | .communities => recordsBody encodeComm
  | .originatorId => addressBody
  | .clusterList => clusterListBody
  | .mpReachNlri => fun g => groupBody cx (.reach g)
  | .mpUnreachNlri => fun g => groupBody cx (.unreach g)
  | .extendedCommunities => recordsBody encodeExtComm
  | .as4Path => pathBody cx .as4Path
  | .as4Aggregator => as4AggregatorBody
  | .ipv6ExtendedCommunities => recordsBody encodeExtv6Comm
  | .largeCommunity => recordsBody encodeLargeComm

/-- A body of a multiprotocol attribute, `none` where its family is not legal (R237, R239, R242). -/
def parseMp {α : Type} (cx : Cxt) (k : MpKind) (group : FamForm → Except CodecError α) (v : Bytes) :
    Except CodecError (Option α) := do
  let fam ← readFamily k v
  if legalFamily cx fam.afi fam.safi then do
    let g ← group fam
    .ok (some g)
  else .ok none

/-- The value that the body rule of a type reads from a body; `none` stands for a record that is captured (R242). -/
def parseField (cx : Cxt) : (t : AttrType) → Bytes → Except CodecError (Option (FieldValue t))
  | .origin, v => do
    fixedBody 1 .origin v
    match originOf (octet v) with
    | some o => .ok (some o)
    | none => .error (err .originValue (octet v).toNat)
  | .asPath, v => do
    let segs ← decodeSegments cx .asPath v
    .ok (some { segments := segs })
  | .nextHop, v => do
    fixedBody 4 .nextHop v
    .ok (some (be 32 v))
  | .multiExitDisc, v => do
    fixedBody 4 .multiExitDisc v
    .ok (some (be 32 v))
  | .localPref, v => do
    fixedBody 4 .localPref v
    .ok (some (be 32 v))
  | .atomicAggregate, v => do
    fixedBody 0 .atomicAggregate v
    .ok (some ())
  | .aggregator, v => do
    fixedBody (asnWidth cx + 4) .aggregator v
    .ok (some { asn := readAsn (v.take (asnWidth cx)), identifier := be 32 (slice v (asnWidth cx) 4) })
  | .communities, v => do
    let rs ← decodeRecords 4 .communities decodeComm v
    .ok (some rs)
  | .originatorId, v => do
    fixedBody 4 .originatorId v
    .ok (some (be 32 v))
  | .clusterList, v => do
    let ids ← decodeRecords 4 .clusterList (be 32) v
    .ok (some ids)
  | .mpReachNlri, v => parseMp cx .reach reachGroup v
  | .mpUnreachNlri, v => parseMp cx .unreach unreachGroup v
  | .extendedCommunities, v => do
    let rs ← decodeRecords 8 .extendedCommunities decodeExtComm v
    .ok (some rs)
  | .as4Path, v => do
    let segs ← decodeSegments cx .as4Path v
    .ok (some { segments := segs })
  | .as4Aggregator, v => do
    fixedBody 8 .as4Aggregator v
    .ok (some { asn := readAsn (v.take 4), identifier := be 32 (slice v 4 4) })
  | .ipv6ExtendedCommunities, v => do
    let rs ← decodeRecords 20 .ipv6ExtendedCommunities decodeExtv6Comm v
    .ok (some rs)
  | .largeCommunity, v => do
    let rs ← decodeRecords 12 .largeCommunity decodeLargeComm v
    .ok (some rs)

/-- Where a record of a recognized type goes: its value to its field, a captured record to `unknown` (R242). -/
def storeRecord (t : AttrType) (flags : Byte) (v : Bytes) (w : RecState) : Option (FieldValue t) → RecState
  | some x => setField t x w
  | none => keepUnknown flags (attrCode t) v w

/-- The canonical form of a value: that of its prefixes (R144). -/
def canonField : (t : AttrType) → FieldValue t → FieldValue t
  | .mpReachNlri, g => canonReach g
  | .mpUnreachNlri, g => canonUnreach g
  | _, x => x

/-- What A holds beside the typed fields: the two next-hop fields of the base block, and `unknown`. -/
def untypedPart (w : RecState) : Option Ipv4 × Option Ipv6 × List UnknownAttr :=
  (w.attrs.base.nexthop, w.attrs.base.llNexthop, w.attrs.unknown)

/-- The type code of a record is noted as seen (R162). -/
def noteType (t : Byte) (w : RecState) : RecState :=
  { w with seen := t :: w.seen }

section Fields

variable {t t' : AttrType} {w w' : RecState}

@[simp] theorem fieldOf_setField_same (x : FieldValue t) : fieldOf t (setField t x w) = some x := by
  cases t <;> rfl

theorem fieldOf_setField_ne (x : FieldValue t) (h : t' ≠ t) : fieldOf t' (setField t x w) = fieldOf t' w := by
  cases t <;> cases t' <;> try rfl
  all_goals exact absurd rfl h

@[simp] theorem setField_seen (x : FieldValue t) : (setField t x w).seen = w.seen := by
  cases t <;> rfl

@[simp] theorem untypedPart_setField (x : FieldValue t) : untypedPart (setField t x w) = untypedPart w := by
  cases t <;> rfl

@[simp] theorem fieldOf_noteType (c : Byte) : fieldOf t (noteType c w) = fieldOf t w := by
  cases t <;> rfl

@[simp] theorem untypedPart_noteType (c : Byte) : untypedPart (noteType c w) = untypedPart w := rfl

@[simp] theorem noteType_seen (c : Byte) : (noteType c w).seen = c :: w.seen := rfl

@[simp] theorem fieldOf_keepUnknown (flags c : Byte) (v : Bytes) : fieldOf t (keepUnknown flags c v w) = fieldOf t w := by
  cases t <;> rfl

@[simp] theorem keepUnknown_seen (flags c : Byte) (v : Bytes) : (keepUnknown flags c v w).seen = w.seen := rfl

@[simp] theorem fieldOf_start : fieldOf t {} = none := by
  cases t <;> rfl

theorem fieldOf_congr (ha : w.attrs = w'.attrs) (hs : w.side = w'.side) : fieldOf t w = fieldOf t w' := by
  obtain ⟨attrs, side, _⟩ := w
  obtain ⟨attrs', side', _⟩ := w'
  obtain rfl : attrs = attrs' := ha
  obtain rfl : side = side' := hs
  cases t <;> rfl

/-- A and st are their typed fields and the untyped part. -/
theorem recState_ext (hf : ∀ t, fieldOf t w = fieldOf t w') (hu : untypedPart w = untypedPart w') :
    w.attrs = w'.attrs ∧ w.side = w'.side := by
  obtain ⟨⟨⟨_, _, _, _, _, _, _, _, _, aa, _, _⟩, _, _, _, _, _⟩, ⟨_, _, _⟩, _⟩ := w
  obtain ⟨⟨⟨_, _, _, _, _, _, _, _, _, aa', _, _⟩, _, _, _, _, _⟩, ⟨_, _, _⟩, _⟩ := w'
  have haa : aa = aa' := by
    have := hf .atomicAggregate
    cases aa <;> cases aa' <;> simp_all [fieldOf]
  have h1 := hf .origin; have h2 := hf .asPath; have h3 := hf .nextHop; have h4 := hf .multiExitDisc
  have h5 := hf .localPref; have h7 := hf .aggregator; have h8 := hf .communities; have h9 := hf .originatorId
  have h10 := hf .clusterList; have h14 := hf .mpReachNlri; have h15 := hf .mpUnreachNlri
  have h16 := hf .extendedCommunities; have h17 := hf .as4Path; have h18 := hf .as4Aggregator
  have h25 := hf .ipv6ExtendedCommunities; have h32 := hf .largeCommunity
  simp only [fieldOf, untypedPart, Prod.mk.injEq] at *
  simp only [*, and_self]

end Fields

/-- The record of an illegal family is kept with the octets it was read from (R242). -/
theorem captureFamily_of_readFamily {k : MpKind} {v : Bytes} {fam : FamForm} (h : readFamily k v = .ok fam) (flags : Byte)
    (w : RecState) : captureFamily k flags fam w = keepUnknown flags (attrCode (mpAttr k)) v w := by
  rw [captureFamily, readFamily_eq_ok.mp h]

/-- A multiprotocol body after the checks before it: its value is stored, or its record captured (R237, R239, R242). -/
theorem readFamily_bind_decodeFamily {α : Type} {cx : Cxt} {k : MpKind} {flags : Byte} {v : Bytes} {w : RecState}
    {group : FamForm → Except CodecError α} {store : Option α → RecState}
    (hlegal : ∀ fam, legalFamily cx fam.afi fam.safi = true →
      decodeFamily cx k flags fam w = group fam >>= fun g => .ok (store (some g)))
    (hcapture : store none = keepUnknown flags (attrCode (mpAttr k)) v w) :
    (readFamily k v >>= fun fam => decodeFamily cx k flags fam w) = parseMp cx k group v >>= fun x => .ok (store x) := by
  unfold parseMp
  cases hfam : readFamily k v with
  | error e => rfl
  | ok fam =>
    simp only [ok_bind]
    cases hl : legalFamily cx fam.afi fam.safi with
    | true => simp only [hlegal fam hl, if_true, bind_assoc, ok_bind]
    | false =>
      have hkeep : decodeFamily cx k flags fam w = .ok (captureFamily k flags fam w) := if_neg (by simp [hl])
      rw [hkeep, captureFamily_of_readFamily hfam, ← hcapture]
      rfl

theorem decodeMp_reach (cx : Cxt) (flags : Byte) (v : Bytes) (w : RecState) :
    (readFamily .reach v >>= fun fam => decodeFamily cx .reach flags fam w) =
      parseField cx .mpReachNlri v >>= fun x => .ok (storeRecord .mpReachNlri flags v w x) :=
  readFamily_bind_decodeFamily (group := reachGroup) (store := storeRecord .mpReachNlri flags v w)
    (fun _ hl => if_pos hl) rfl

theorem decodeMp_unreach (cx : Cxt) (flags : Byte) (v : Bytes) (w : RecState) :
    (readFamily .unreach v >>= fun fam => decodeFamily cx .unreach flags fam w) =
      parseField cx .mpUnreachNlri v >>= fun x => .ok (storeRecord .mpUnreachNlri flags v w x) :=
  readFamily_bind_decodeFamily (group := unreachGroup) (store := storeRecord .mpUnreachNlri flags v w)
    (fun _ hl => if_pos hl) rfl

/-- A record of a recognized type: the checks before its body rule, its body rule, the storing (R160, R163). -/
theorem dispatchAttr_known (cx : Cxt) (t : AttrType) (flags : Byte) (v : Bytes) (w : RecState) :
    dispatchAttr cx ⟨flags, attrCode t, v⟩ w = (do
      let w' ← openRecord t flags w
      let x ← parseField cx t v
      .ok (storeRecord t flags v w' x)) := by
  unfold dispatchAttr
  simp only [attrTypeOf_attrCode]
  cases t
  case origin =>
    simp only [decodeOrigin, parseField, bind_assoc]
    congr 1; funext w'; congr 1; funext _
    cases originOf (octet v) <;> rfl
  case mpReachNlri => exact congrArg _ (funext (decodeMp_reach cx flags v))
  case mpUnreachNlri => exact congrArg _ (funext (decodeMp_unreach cx flags v))
  all_goals
    simp only [decodeNextHop, decodeMultiExitDisc, decodeLocalPref, decodeAtomicAggregate, decodeAggregator,
      decodeOriginatorId, decodeClusterList, decodeAs4Aggregator, decodeCommunities, decodeExtendedCommunities,
      decodeLargeCommunities, decodeIpv6ExtendedCommunities, decodePath, parseField, bind_assoc, ok_bind]
    rfl

/-! ### A section written by an emission loop, read back and written again -/

section Loops

variable {α β : Type} {f : α → Except CodecError Bytes}

/-- An emission succeeds exactly where each of its items does (R10, R287). -/
theorem emitAll_succeeds {xs : List α} : (∃ out, emitAll f xs = .ok out) ↔ ∀ x ∈ xs, ∃ own, f x = .ok own := by
  induction xs with
  | nil => simp
  | cons x xs ih =>
    rw [List.forall_mem_cons, ← ih]
    constructor
    · rintro ⟨_, h⟩
      obtain ⟨own, hown, h⟩ := bind_eq_ok.mp h
      obtain ⟨rest, hrest, -⟩ := bind_eq_ok.mp h
      exact ⟨⟨own, hown⟩, rest, hrest⟩
    · rintro ⟨⟨own, hown⟩, rest, hrest⟩
      exact ⟨own ++ rest, by rw [emitAll_cons, hown, ok_bind, hrest, ok_bind]⟩

/-- The number of octets an item emits. -/
def emittedLength (f : α → Except CodecError Bytes) (x : α) : Nat :=
  match f x with
  | .ok own => own.length
  | .error _ => 0

theorem emittedLength_of_ok {x : α} {own : Bytes} (h : f x = .ok own) : emittedLength f x = own.length := by
  rw [emittedLength, h]

theorem emitAll_length {xs : List α} {out : Bytes} (h : emitAll f xs = .ok out) :
    out.length = (xs.map (emittedLength f)).sum := by
  induction xs generalizing out with
  | nil => cases h; rfl
  | cons x xs ih =>
    obtain ⟨own, hown, h⟩ := bind_eq_ok.mp h
    obtain ⟨rest, hrest, h⟩ := bind_eq_ok.mp h
    cases h
    rw [List.length_append, List.map_cons, List.sum_cons, emittedLength_of_ok hown, ih hrest]

/-- A loop that appends one value a round reads back what an emission wrote, where each round reads back its own item. -/
theorem scan_emitAll {item : List β → Bytes → Except CodecError (List β × Bytes)} {g : α → β} (hc : Consumes item)
    (hitem : ∀ x own, f x = .ok own → own ≠ [] ∧ ∀ acc rest, item acc (own ++ rest) = .ok (acc ++ [g x], rest))
    {xs : List α} {bs : Bytes} (h : emitAll f xs = .ok bs) (acc : List β) : scan item acc bs = .ok (acc ++ xs.map g) := by
  induction xs generalizing acc bs with
  | nil => cases h; simp
  | cons x xs ih =>
    obtain ⟨own, hown, h⟩ := bind_eq_ok.mp h
    obtain ⟨rest, hrest, h⟩ := bind_eq_ok.mp h
    cases h
    obtain ⟨hne, hread⟩ := hitem x own hown
    rw [scan_step hc acc (by simp [hne]), hread, ok_bind, ih hrest]
    simp

theorem scanFor_consumed {σ : Type} {item : σ → Bytes → Except CodecError (σ × Bytes)} {P : σ → Nat → Prop}
    (hitem : ∀ acc k bs acc' rest, P acc k → item acc bs = .ok (acc', rest) →
      ∃ own, bs = own ++ rest ∧ P acc' (k + own.length))
    (n : Nat) {acc r : σ} {k : Nat} {bs : Bytes} (hacc : P acc k) (h : scanFor item n acc bs = .ok r) :
    P r (k + bs.length) := by
  induction n generalizing acc bs k with
  | zero =>
    cases bs with
    | nil => cases h; exact hacc
    | cons b bs => cases h
  | succ n ih =>
    cases bs with
    | nil => cases h; exact hacc
    | cons b bs =>
      obtain ⟨⟨acc', rest⟩, hround, hloop⟩ := bind_eq_ok.mp h
      obtain ⟨own, hown, hacc'⟩ := hitem _ _ _ _ _ hacc hround
      have hrest := ih hacc' hloop
      rwa [hown, List.length_append, ← Nat.add_assoc]

/-- What every round of a loop keeps, for the octets consumed so far, holds at the end for the whole section. -/
theorem scan_consumed {σ : Type} {item : σ → Bytes → Except CodecError (σ × Bytes)} {P : σ → Nat → Prop}
    (hitem : ∀ acc k bs acc' rest, P acc k → item acc bs = .ok (acc', rest) →
      ∃ own, bs = own ++ rest ∧ P acc' (k + own.length))
    {acc r : σ} {bs : Bytes} (hacc : P acc 0) (h : scan item acc bs = .ok r) : P r bs.length := by
  have := scanFor_consumed hitem _ hacc h
  rwa [Nat.zero_add] at this

/-- What a loop that appends one value a round has read is written again in as many octets, where each round's value is. -/
theorem emitAll_scan {item : List α → Bytes → Except CodecError (List α × Bytes)}
    (hitem : ∀ acc bs acc' rest, item acc bs = .ok (acc', rest) →
      ∃ x own written, acc' = acc ++ [x] ∧ bs = own ++ rest ∧ f x = .ok written ∧ written.length = own.length)
    {xs : List α} {bs : Bytes} (h : scan item [] bs = .ok xs) :
    ∃ out, emitAll f xs = .ok out ∧ out.length = bs.length := by
  refine scan_consumed (P := fun xs n => ∃ out, emitAll f xs = .ok out ∧ out.length = n) ?_ ⟨[], rfl, rfl⟩ h
  rintro acc _ bs acc' rest ⟨out, hout, rfl⟩ hround
  obtain ⟨x, own, written, rfl, rfl, hx, hlen⟩ := hitem _ _ _ _ hround
  refine ⟨own, rfl, out ++ written, ?_, by rw [List.length_append, hlen]⟩
  rw [emitAll_append, hout, ok_bind, emitAll_cons, hx]
  simp

end Loops

/-! ### Prefix lists, read back and written again (R230 to R235) -/

theorem toBe_append (k n v : Nat) : toBe (k + n) v = toBe k (v / 256 ^ n) ++ toBe n v := by
  induction k with
  | zero => simp [toBe]
  | succ k ih =>
    rw [Nat.succ_add, toBe, ih, toBe, Nat.div_div_eq_div_mul, ← Nat.pow_add, Nat.add_comm n k, List.cons_append]

/-- The low octets of a multiple of their range are zero. -/
theorem toBe_of_dvd {n v : Nat} (h : 256 ^ n ∣ v) : toBe n v = List.replicate n 0 := by
  have hv : beNat (toBe n v) = beNat (List.replicate n 0) := by
    rw [beNat_toBe, Nat.mod_eq_zero_of_dvd h, beNat_replicate_zero]
  have hwrite := toBe_beNat (toBe n v)
  rw [hv, toBe_length] at hwrite
  have hzero := toBe_beNat (List.replicate n 0)
  rw [List.length_replicate] at hzero
  exact hwrite.symm.trans hzero

section Prefixes

variable {w : Nat} (p : Prefix w)

/-- A masked address has no bit past its length (R232). -/
theorem two_pow_dvd_maskedAddr : 2 ^ (w - p.len) ∣ (maskedAddr p).toNat := by
  rw [maskedAddr_toNat]
  exact Nat.dvd_sub_mod _

/-- A canonical prefix is its own canonical form (R34). -/
theorem canonPrefix_of_canonical {p : Prefix w} (h : canonicalPrefix p) : canonPrefix p = p := by
  have haddr : maskedAddr p = p.addr := by
    apply BitVec.eq_of_toNat_eq
    rw [maskedAddr_toNat, h.2, Nat.sub_zero]
  rw [canonPrefix, haddr]

theorem map_canonPrefix_of_canonical {ps : List (Prefix w)} (h : ∀ p ∈ ps, canonicalPrefix p) :
    ps.map canonPrefix = ps := by
  rw [List.map_congr_left (fun p hp => canonPrefix_of_canonical (h p hp)), List.map_id']

/-- The octets of a prefix without a bit past its length have no trailing bits (R230). -/
theorem hasTrailingBits_toBe {len v : Nat} (h : 2 ^ (8 * ceil8 len - len) ∣ v) :
    hasTrailingBits len (toBe (ceil8 len) v) = false := by
  by_cases hr : len % 8 = 0
  · simp [hasTrailingBits, hr]
  · have hk : ceil8 len = len / 8 + 1 := by unfold ceil8; omega
    have hbits : 8 * ceil8 len - len = 8 - len % 8 := by omega
    have hlast : (toBe (ceil8 len) v).getLastD 0 = BitVec.ofNat 8 v := by
      rw [hk, toBe_append, toBe_one]
      simp
    have hmask : ((0xFF : Byte) >>> (len % 8)).toNat = 2 ^ (8 - len % 8) - 1 := by
      have : len % 8 < 8 := Nat.mod_lt _ (by norm_num)
      interval_cases len % 8 <;> rfl
    have hand : BitVec.ofNat 8 v &&& ((0xFF : Byte) >>> (len % 8)) = 0 := by
      apply BitVec.eq_of_toNat_eq
      rw [BitVec.toNat_and, hmask, Nat.and_two_pow_sub_one_eq_mod, BitVec.toNat_ofNat,
        Nat.mod_mod_of_dvd _ (pow_dvd_pow 2 (Nat.sub_le 8 _)), ← hbits, Nat.mod_eq_zero_of_dvd h]
      rfl
    unfold hasTrailingBits
    rw [hlast, hand]
    simp

variable (hw : 8 ∣ w) (hbound : w < 256)

include hw hbound

/-- The octets of a prefix, its length octet first. -/
theorem decodePrefix_encodePrefix {p : Prefix w} {bs : Bytes} (h : encodePrefix p = .ok bs) (rest : Bytes) :
    decodePrefix w (bs ++ rest) = .ok (canonPrefix p, rest) := by
  rcases Nat.lt_or_ge w p.len with hlong | hlen
  · rw [encodePrefix_too_long hlong] at h
    cases h
  rw [encodePrefix_ok hlen] at h
  cases h
  set k := ceil8 p.len with hk
  have hceil : p.len ≤ 8 * k ∧ 8 * k ≤ w := by rw [hk]; unfold ceil8; omega
  obtain ⟨n, hn⟩ : ∃ n, w / 8 = k + n := ⟨w / 8 - k, by omega⟩
  have hoctet : (BitVec.ofNat 8 p.len).toNat = p.len := by
    rw [BitVec.toNat_ofNat]
    exact Nat.mod_eq_of_lt (by omega)
  set v := (maskedAddr p).toNat with hv
  have hunused : 256 ^ n * 2 ^ (8 * k - p.len) ∣ v := by
    have hsplit : w - p.len = 8 * n + (8 * k - p.len) := by omega
    have hdvd := two_pow_dvd_maskedAddr p
    rwa [hsplit, Nat.pow_add, Nat.pow_mul] at hdvd
  have hzeros : toBe n v = List.replicate n 0 := toBe_of_dvd (Dvd.dvd.trans (Dvd.intro _ rfl) hunused)
  have htrail : hasTrailingBits p.len (toBe k (v / 256 ^ n)) = false := hasTrailingBits_toBe (Nat.dvd_div_of_mul_dvd hunused)
  have htake : (toBe (k + n) v).take k = toBe k (v / 256 ^ n) := by
    rw [toBe_append]
    exact List.take_left' (toBe_length _ _)
  have haddr : be w (toBe k (v / 256 ^ n) ++ List.replicate n 0) = maskedAddr p := by
    rw [← hzeros, ← toBe_append, ← hn]
    exact be_toBe (by rw [show (256 : Nat) = 2 ^ 8 from rfl, ← Nat.pow_mul, Nat.mul_div_cancel' hw]) _
  rw [hn, htake, List.cons_append, decodePrefix_cons, hoctet, if_neg (by omega), if_neg (by simp [← hk]), ← hk,
    List.take_left' (toBe_length _ _), List.drop_left' (toBe_length _ _), htrail, if_neg (by simp), hn,
    Nat.add_sub_cancel_left, haddr]
  rfl

theorem decodePrefixList_encodePrefixList {ps : List (Prefix w)} {bs : Bytes} (h : encodePrefixList ps = .ok bs) :
    decodePrefixList w bs = .ok (ps.map canonPrefix) := by
  refine scan_emitAll (consumes_prefix w) (fun p own hown => ?_) h []
  have hread := decodePrefix_encodePrefix hw hbound hown
  refine ⟨?_, fun acc rest => by rw [hread, ok_bind]⟩
  rintro rfl
  cases hread []

omit hbound in
/-- A prefix that fits its width is written with its length octet and the octets its length needs (R232). -/
theorem encodePrefix_length {p : Prefix w} (h : p.len ≤ w) :
    ∃ bs, encodePrefix p = .ok bs ∧ bs.length = 1 + ceil8 p.len := by
  have hle : ceil8 p.len ≤ w / 8 := by unfold ceil8; omega
  exact ⟨_, encodePrefix_ok h, by simp [hle]; omega⟩

omit hbound in
theorem encodePrefixList_of_decoded {bs : Bytes} {ps : List (Prefix w)} (h : decodePrefixList w bs = .ok ps) :
    ∃ out, encodePrefixList ps = .ok out ∧ out.length = bs.length := by
  refine emitAll_scan (fun acc bs acc' rest hround => ?_) h
  obtain ⟨⟨p, rest'⟩, hp, hpair⟩ := bind_eq_ok.mp hround
  cases hpair
  cases bs with
  | nil => cases hp
  | cons l bs =>
    obtain ⟨hlen, hle, raw, hraw, rfl, -⟩ := decodePrefix_consumes hp
    obtain ⟨written, hwritten, hcount⟩ := encodePrefix_length hw hle
    exact ⟨p, l :: raw, written, rfl, rfl, hwritten, by rw [hcount, hlen, List.length_cons, hraw, Nat.add_comm]⟩

end Prefixes

/-! ### Paths, read back and written again (R211 to R216) -/

section Paths

variable {cx : Cxt} {k : PathKind}

theorem fits_of_writeAsn {width : Nat} (hw : width = 2 ∨ width = 4) {t : AttrType} {a : Asn} {bs : Bytes}
    (h : writeAsn width t a = .ok bs) : a.toNat < 256 ^ width := by
  obtain ⟨_, hcheck, -⟩ := bind_eq_ok.mp h
  have ha := a.isLt
  rcases hw with rfl | rfl
  · have hsmall : a.toNat ≤ 0xFFFF := by simpa using raiseIf_eq_ok.mp hcheck
    omega
  · omega

/-- A segment that is written fits the wire (R215). -/
theorem segmentFits_of_encodeSegment {seg : AsPathSegment} {bs : Bytes} (h : encodeSegment cx k seg = .ok bs) :
    segmentFits (pathWidth cx k) seg := by
  obtain ⟨_, hcount, h⟩ := bind_eq_ok.mp h
  obtain ⟨asns, hasns, -⟩ := bind_eq_ok.mp h
  refine ⟨by simpa using raiseIf_eq_ok.mp hcount, fun a ha => ?_⟩
  obtain ⟨own, hown⟩ := emitAll_succeeds.mp ⟨asns, hasns⟩ a ha
  exact fits_of_writeAsn (pathWidth_two_or_four cx k) hown

theorem decodeSegments_encodeSegments {segs : List AsPathSegment} {bs : Bytes} (h : encodeSegments cx k segs = .ok bs) :
    decodeSegments cx k bs = .ok segs := by
  have hfits : ∀ g ∈ segs, segmentFits (pathWidth cx k) g := by
    intro g hg
    obtain ⟨own, hown⟩ := emitAll_succeeds.mp ⟨bs, h⟩ g hg
    exact segmentFits_of_encodeSegment hown
  rw [encodeSegments_fits cx k segs hfits] at h
  cases h
  have hread := decodeSegments_append cx k segs [] hfits
  rwa [List.append_nil, scan_nil] at hread

theorem encodeSegments_of_decoded {bs : Bytes} {segs : List AsPathSegment} (h : decodeSegments cx k bs = .ok segs) :
    ∃ out, encodeSegments cx k segs = .ok out ∧ out.length = bs.length := by
  refine emitAll_scan (fun acc bs acc' rest hround => ?_) h
  obtain ⟨⟨f, rest'⟩, hread, hround⟩ := bind_eq_ok.mp hround
  obtain ⟨segs', happly, hpair⟩ := bind_eq_ok.mp hround
  cases hpair
  rcases readSegment_eq_ok (pathWidth_two_or_four cx k) hread with ⟨seg, rfl, hfits, hbs⟩ | ⟨st, c, rfl, -, -⟩
  · cases happly
    exact ⟨seg, _, _, rfl, hbs, encodeSegment_fits cx k seg hfits, rfl⟩
  · cases happly

end Paths

/-! ### Multiprotocol bodies, read back and written again (R236 to R242) -/

section Groups

variable {cx : Cxt}

/-- A group that is written is one of a legal family, written after the octets of the family (R240, R241). -/
theorem groupBody_eq_ok {g : MpGroup} {v : Bytes} (h : groupBody cx g = .ok v) :
    legalFamily cx (groupAfi g) 1 = true ∧ ∃ rest, groupRest g = .ok rest ∧ v = familyOctets (groupAfi g) 1 rest := by
  obtain ⟨fam, hfam, hbody⟩ := bind_eq_ok.mp h
  unfold groupForm at hfam
  split at hfam
  · next hl =>
    obtain ⟨rest, hrest, hform⟩ := bind_eq_ok.mp hfam
    cases hform
    obtain ⟨_, -, hv⟩ := bind_eq_ok.mp hbody
    cases hv
    exact ⟨hl, rest, hrest, rfl⟩
  · next hl =>
    cases hfam
    obtain ⟨_, hcheck, -⟩ := bind_eq_ok.mp hbody
    exact absurd (by simpa using raiseIf_eq_ok.mp hcheck) hl

theorem groupBody_of_legal {g : MpGroup} {rest : Bytes} (hl : legalFamily cx (groupAfi g) 1 = true)
    (h : groupRest g = .ok rest) : groupBody cx g = .ok (familyOctets (groupAfi g) 1 rest) := by
  rw [groupBody, groupForm, if_pos hl, h, ok_bind, ok_bind, familyBody, hl, Bool.not_true, raiseIf_false, ok_bind]

theorem familyOctets_length (afi : Half) (safi : Byte) (rest : Bytes) :
    (familyOctets afi safi rest).length = 3 + rest.length := by
  simp [familyOctets]
  omega

theorem parseMp_familyOctets {α : Type} {k : MpKind} {group : FamForm → Except CodecError α} {fam : FamForm}
    (hl : legalFamily cx fam.afi fam.safi = true) :
    parseMp cx k group (familyOctets fam.afi fam.safi fam.rest) = group fam >>= fun g => .ok (some g) := by
  rw [parseMp, readFamily_eq_ok.mpr rfl, ok_bind, if_pos hl]

/-- A body that is read as a group is that of a legal family; one that is captured is that of another (R242). -/
theorem parseMp_eq_some {α : Type} {k : MpKind} {group : FamForm → Except CodecError α} {v : Bytes} {g : α}
    (h : parseMp cx k group v = .ok (some g)) :
    ∃ fam, legalFamily cx (FamForm.afi fam) fam.safi = true ∧ v = familyOctets fam.afi fam.safi fam.rest ∧
      group fam = .ok g := by
  obtain ⟨fam, hfam, h⟩ := bind_eq_ok.mp h
  split at h
  · next hl =>
    obtain ⟨g', hg, h⟩ := bind_eq_ok.mp h
    cases h
    exact ⟨fam, hl, (readFamily_eq_ok.mp hfam).symm, hg⟩
  · cases h

/-- MP_REACH_NLRI after the family, cut into its fields (R237). -/
theorem reachGroup_fields {afi : Half} {safi l r : Byte} {nh nlri : Bytes} (hl : l.toNat = nh.length)
    (hok : nexthopOk afi nh.length = true) :
    reachGroup ⟨afi, safi, l :: (nh ++ r :: nlri)⟩ =
      if afi = 1 then decodePrefixList 32 nlri >>= fun ps => .ok (.ipv4Unicast ps (be 32 nh))
      else decodePrefixList 128 nlri >>= fun ps =>
        .ok (.ipv6Unicast ps (be 128 (nh.take 16)) (if nh.length = 32 then some (be 128 (nh.drop 16)) else none)) := by
  have hnh : slice (l :: (nh ++ r :: nlri)) 1 nh.length = nh := by simp [slice]
  have hnlri : (l :: (nh ++ r :: nlri)).drop (1 + nh.length + 1) = nlri := by
    rw [Nat.add_comm 1, List.drop_succ_cons, ← List.drop_drop, List.drop_left, List.drop_one, List.tail_cons]
  simp only [reachGroup, octet, List.headD_cons, hl, hok, hnh, hnlri, Bool.not_true, raiseIf_false, ok_bind]
  rw [decide_eq_false (by simp), decide_eq_false (by simp; omega), raiseIf_false, ok_bind, ok_bind]

/-- What MP_REACH_NLRI is read from has these fields (R237, R238). -/
theorem reachGroup_eq_ok {fam : FamForm} {g : MpReachNlri} (h : reachGroup fam = .ok g) :
    ∃ l nh r nlri, fam.rest = l :: (nh ++ r :: nlri) ∧ l.toNat = nh.length ∧ nexthopOk fam.afi nh.length = true := by
  obtain ⟨_, hfirst, h⟩ := bind_eq_ok.mp h
  obtain ⟨_, hok, h⟩ := bind_eq_ok.mp h
  obtain ⟨_, hlong, -⟩ := bind_eq_ok.mp h
  obtain ⟨l, tail, htail⟩ : ∃ l tail, fam.rest = l :: tail :=
    List.exists_cons_of_ne_nil (by simpa using raiseIf_eq_ok.mp hfirst)
  have hl : (octet fam.rest).toNat = l.toNat := by rw [htail]; rfl
  have hcount : l.toNat < tail.length := by
    have := raiseIf_eq_ok.mp hlong
    rw [hl, htail] at this
    simp at this
    omega
  obtain ⟨r, nlri, hrest⟩ : ∃ r nlri, tail.drop l.toNat = r :: nlri :=
    List.exists_cons_of_length_pos (by rw [List.length_drop]; omega)
  have hlen : (tail.take l.toNat).length = l.toNat := List.length_take_of_le (by omega)
  refine ⟨l, tail.take l.toNat, r, nlri, ?_, hlen.symm, ?_⟩
  · rw [← hrest, List.take_append_drop, htail]
  · rw [hlen, ← hl]
    simpa using raiseIf_eq_ok.mp hok

theorem reachGroup_groupRest {g : MpReachNlri} {rest : Bytes} (h : groupRest (.reach g) = .ok rest) :
    reachGroup ⟨groupAfi (.reach g), 1, rest⟩ = .ok (canonReach g) := by
  cases g with
  | ipv4Unicast ps nh =>
    obtain ⟨nlri, hnlri, h⟩ := bind_eq_ok.mp h
    cases h
    have hread := decodePrefixList_encodePrefixList (by norm_num) (by norm_num) hnlri
    refine (reachGroup_fields (nh := toBe 4 nh.toNat) (nlri := nlri) (by simp) (by simp [groupAfi, nexthopOk])).trans ?_
    rw [groupAfi, if_pos rfl, hread, ok_bind, be_toBe (by norm_num)]
    rfl
  | ipv6Unicast ps nh ll =>
    cases ll with
    | none =>
      obtain ⟨nlri, hnlri, h⟩ := bind_eq_ok.mp h
      cases h
      have hread := decodePrefixList_encodePrefixList (by norm_num) (by norm_num) hnlri
      refine (reachGroup_fields (nh := toBe 16 nh.toNat) (nlri := nlri) (by simp) (by simp [groupAfi, nexthopOk])).trans ?_
      rw [groupAfi, if_neg (by decide), hread, ok_bind, List.take_of_length_le (by simp), be_toBe (by norm_num),
        if_neg (by simp)]
      rfl
    | some ll =>
      obtain ⟨nlri, hnlri, h⟩ := bind_eq_ok.mp h
      cases h
      have hread := decodePrefixList_encodePrefixList (by norm_num) (by norm_num) hnlri
      have hrest : [32] ++ toBe 16 nh.toNat ++ toBe 16 ll.toNat ++ [0] ++ nlri =
          (32 : Byte) :: ((toBe 16 nh.toNat ++ toBe 16 ll.toNat) ++ 0 :: nlri) := by simp
      rw [hrest]
      refine (reachGroup_fields (by simp) (by simp [groupAfi, nexthopOk])).trans ?_
      rw [groupAfi, if_neg (by decide), hread, ok_bind, List.take_left' (toBe_length _ _),
        List.drop_left' (toBe_length _ _), be_toBe (by norm_num), be_toBe (by norm_num), if_pos (by simp)]
      rfl

/-- The group that is read from a body after the family of AFI 1 or 2 is written again in as many octets (R240). -/
theorem groupRest_of_reachGroup {fam : FamForm} {g : MpReachNlri} (hafi : fam.afi = 1 ∨ fam.afi = 2)
    (h : reachGroup fam = .ok g) :
    groupAfi (.reach g) = fam.afi ∧ ∃ rest, groupRest (.reach g) = .ok rest ∧ rest.length = fam.rest.length := by
  obtain ⟨l, nh, r, nlri, hrest, hl, hok⟩ := reachGroup_eq_ok h
  obtain ⟨afi, safi, _⟩ := fam
  dsimp only at hafi hrest hok
  subst hrest
  rw [reachGroup_fields hl hok] at h
  rcases hafi with rfl | rfl
  · rw [if_pos rfl] at h
    obtain ⟨ps, hps, h⟩ := bind_eq_ok.mp h
    cases h
    obtain ⟨out, hout, hlen⟩ := encodePrefixList_of_decoded (by norm_num) hps
    have hnh : nh.length = 4 := by simpa [nexthopOk] using hok
    exact ⟨rfl, _, by rw [groupRest, hout, ok_bind], by simp [hnh, hlen]⟩
  · rw [if_neg (by decide)] at h
    obtain ⟨ps, hps, h⟩ := bind_eq_ok.mp h
    cases h
    obtain ⟨out, hout, hlen⟩ := encodePrefixList_of_decoded (by norm_num) hps
    have hnh : nh.length = 16 ∨ nh.length = 32 := by simpa [nexthopOk] using hok
    rcases hnh with hnh | hnh
    · rw [if_neg (by omega)]
      exact ⟨rfl, _, by rw [groupRest, hout, ok_bind], by simp [hnh, hlen]⟩
    · rw [if_pos hnh]
      exact ⟨rfl, _, by rw [groupRest, hout, ok_bind], by simp [hnh, hlen]; omega⟩

theorem unreachGroup_groupRest {g : MpUnreachNlri} {rest : Bytes} (h : groupRest (.unreach g) = .ok rest) :
    unreachGroup ⟨groupAfi (.unreach g), 1, rest⟩ = .ok (canonUnreach g) := by
  cases g with
  | ipv4Unicast ps =>
    have hread := decodePrefixList_encodePrefixList (w := 32) (by norm_num) (by norm_num) h
    rw [unreachGroup, groupAfi, if_pos rfl, hread]
    rfl
  | ipv6Unicast ps =>
    have hread := decodePrefixList_encodePrefixList (w := 128) (by norm_num) (by norm_num) h
    rw [unreachGroup, groupAfi, if_neg (show (2 : Half) ≠ 1 by decide), hread]
    rfl

theorem groupRest_of_unreachGroup {fam : FamForm} {g : MpUnreachNlri} (hafi : fam.afi = 1 ∨ fam.afi = 2)
    (h : unreachGroup fam = .ok g) :
    groupAfi (.unreach g) = fam.afi ∧ ∃ rest, groupRest (.unreach g) = .ok rest ∧ rest.length = fam.rest.length := by
  unfold unreachGroup at h
  split at h
  · next hone =>
    obtain ⟨ps, hps, h⟩ := bind_eq_ok.mp h
    cases h
    exact ⟨hone.symm, encodePrefixList_of_decoded (by norm_num) hps⟩
  · next hne =>
    obtain ⟨ps, hps, h⟩ := bind_eq_ok.mp h
    cases h
    exact ⟨(hafi.resolve_left hne).symm, encodePrefixList_of_decoded (by norm_num) hps⟩

theorem legalFamily_afi_safi {afi : Half} {safi : Byte} (h : legalFamily cx afi safi = true) :
    (afi = 1 ∨ afi = 2) ∧ safi = 1 := by
  rcases legalFamily_eq_true.mp h with ⟨ha, hs, -⟩ | ⟨ha, hs, -⟩
  · exact ⟨.inl ha, hs⟩
  · exact ⟨.inr ha, hs⟩

/-- The body written for a group is read as what its family is followed by. -/
theorem parseMp_groupBody {α : Type} {k : MpKind} {group : FamForm → Except CodecError α} {g : MpGroup} {x : α} {v : Bytes}
    (hgroup : ∀ rest, groupRest g = .ok rest → group ⟨groupAfi g, 1, rest⟩ = .ok x) (h : groupBody cx g = .ok v) :
    parseMp cx k group v = .ok (some x) := by
  obtain ⟨hl, rest, hrest, rfl⟩ := groupBody_eq_ok h
  exact (parseMp_familyOctets (fam := ⟨groupAfi g, 1, rest⟩) hl).trans (by rw [hgroup rest hrest, ok_bind])

/-- A multiprotocol body that is read as a group is written again in as many octets, where what follows its family is. -/
theorem groupBody_of_parseMp {α : Type} {k : MpKind} {group : FamForm → Except CodecError α} {wrap : α → MpGroup}
    (hgroup : ∀ (fam : FamForm) g, fam.afi = 1 ∨ fam.afi = 2 → group fam = .ok g →
      groupAfi (wrap g) = fam.afi ∧ ∃ rest, groupRest (wrap g) = .ok rest ∧ rest.length = fam.rest.length)
    {v : Bytes} {g : α} (h : parseMp cx k group v = .ok (some g)) :
    ∃ v', groupBody cx (wrap g) = .ok v' ∧ v'.length = v.length := by
  obtain ⟨fam, hl, rfl, hg⟩ := parseMp_eq_some h
  obtain ⟨hafi, hsafi⟩ := legalFamily_afi_safi hl
  obtain ⟨hsame, rest, hrest, hlen⟩ := hgroup fam g hafi hg
  refine ⟨_, groupBody_of_legal (by rwa [hsame, ← hsafi]) hrest, ?_⟩
  rw [familyOctets_length, familyOctets_length, hlen]

end Groups

/-! ### The body of every type, read back and written again -/

section Bodies

variable {cx : Cxt} {t : AttrType} {v : Bytes} {x : FieldValue t}

theorem fixedBody_eq_ok {k : Nat} {u : Unit} : fixedBody k t v = .ok u ↔ v.length = k := by
  rw [fixedBody_eq]
  split <;> simp_all

theorem fixedBody_of_length {k : Nat} (h : v.length = k) : fixedBody k t v = .ok () :=
  fixedBody_eq_ok.mpr h

theorem be_toBe_of_lt {n : Nat} {a : Asn} (h : a.toNat < 256 ^ n) : be 32 (toBe n a.toNat) = a := by
  apply BitVec.eq_of_toNat_eq
  rw [be, BitVec.toNat_ofNat, beNat_toBe_of_lt h]
  exact Nat.mod_eq_of_lt a.isLt

theorem slice_left {a b : Bytes} {n : Nat} (h : a.length = n) : slice (a ++ b) 0 n = a :=
  List.take_left' h

theorem slice_right {a b : Bytes} {n m : Nat} (ha : a.length = n) (hb : b.length = m) : slice (a ++ b) n m = b := by
  rw [slice, List.drop_left' ha, List.take_of_length_le hb.le]

theorem slice_middle {a b c : Bytes} {n m : Nat} (ha : a.length = n) (hb : b.length = m) : slice (a ++ b ++ c) n m = b := by
  rw [slice, List.append_assoc, List.drop_left' ha, List.take_left' hb]

/-- A 4-octet body reads as the field it was written from (R167 to R169, R172). -/
theorem readWord_toBe (t : AttrType) (a : BitVec 32) :
    (fixedBody 4 t (toBe 4 a.toNat) >>= fun _ => .ok (some (be 32 (toBe 4 a.toNat)))) =
      (.ok (some a) : Except CodecError (Option (BitVec 32))) := by
  rw [fixedBody_of_length (toBe_length _ _), ok_bind, be_toBe (by norm_num)]

/-- An AS number of `n` octets and an identifier read as the aggregator they were written from (R171, R174). -/
theorem readAggregator_toBe (t : AttrType) {n : Nat} {a : Aggregator} (h : a.asn.toNat < 256 ^ n) {v : Bytes}
    (hv : v = toBe n a.asn.toNat ++ toBe 4 a.identifier.toNat) :
    (fixedBody (n + 4) t v >>= fun _ =>
      .ok (some { asn := readAsn (v.take n), identifier := be 32 (slice v n 4) })) =
      (.ok (some a) : Except CodecError (Option Aggregator)) := by
  subst hv
  rw [fixedBody_of_length (by simp), ok_bind, List.take_left' (toBe_length _ _),
    slice_right (toBe_length _ _) (toBe_length _ _), readAsn, be_toBe_of_lt h, be_toBe (by norm_num)]

theorem writeAsn_eq_ok {width : Nat} (hw : width = 2 ∨ width = 4) {a : Asn} {bs : Bytes}
    (h : writeAsn width t a = .ok bs) : a.toNat < 256 ^ width ∧ bs = toBe width a.toNat := by
  have hfits := fits_of_writeAsn hw h
  rw [writeAsn_fits t hw hfits] at h
  exact ⟨hfits, (Except.ok.inj h).symm⟩

theorem asnWidth_two_or_four (cx : Cxt) : asnWidth cx = 2 ∨ asnWidth cx = 4 :=
  pathWidth_two_or_four cx .asPath

theorem aggregatorBody_fits (a : Aggregator) (h : a.asn.toNat < 256 ^ asnWidth cx) :
    aggregatorBody cx a = .ok (toBe (asnWidth cx) a.asn.toNat ++ toBe 4 a.identifier.toNat) := by
  rw [aggregatorBody, writeAsn_fits _ (asnWidth_two_or_four cx) h, ok_bind]

/-- Records of `k` octets read as the list they were written from (R260). -/
theorem readRecords_map {α : Type} {k : Nat} {rec : Bytes → α} {f : α → Bytes} (hk : 0 < k)
    (hlen : ∀ x, (f x).length = k) (hrec : ∀ x, rec (f x) = x) (t : AttrType) (xs : List α) :
    (decodeRecords k t rec (xs.map f).flatten >>= fun rs => .ok (some rs)) =
      (.ok (some xs) : Except CodecError (Option (List α))) := by
  rw [decodeRecords_map hk hlen hrec, ok_bind]

theorem decodeComm_encodeComm (c : Comm) : decodeComm (encodeComm c) = c := by
  rw [decodeComm, encodeComm, slice_left (toBe_length _ _), slice_right (toBe_length _ _) (toBe_length _ _),
    be_toBe (by norm_num), be_toBe (by norm_num)]

theorem decodeLargeComm_encodeLargeComm (c : LargeComm) : decodeLargeComm (encodeLargeComm c) = c := by
  rw [decodeLargeComm, encodeLargeComm, slice_middle (toBe_length _ _) (toBe_length _ _), List.append_assoc,
    slice_left (toBe_length _ _), ← List.append_assoc, slice_right (by simp) (toBe_length _ _),
    be_toBe (by norm_num), be_toBe (by norm_num), be_toBe (by norm_num)]

theorem decodeExtv6Comm_encodeExtv6Comm (c : Extv6Comm) : decodeExtv6Comm (encodeExtv6Comm c) = c := by
  rw [decodeExtv6Comm, encodeExtv6Comm, slice_left (toBe_length _ _), slice_right (toBe_length _ _) (toBe_length _ _),
    be_toBe (by norm_num), be_toBe (by norm_num)]

/-- The body written for a value is read as the canonical form of the value (R144). -/
theorem parseField_fieldBody (h : fieldBody cx t x = .ok v) : parseField cx t v = .ok (some (canonField t x)) := by
  cases t with
  | origin =>
    cases h
    cases x <;> rfl
  | asPath | as4Path =>
    rw [parseField, decodeSegments_encodeSegments h]
    rfl
  | nextHop | multiExitDisc | localPref | originatorId =>
    cases h
    exact readWord_toBe _ _
  | atomicAggregate =>
    cases h
    rfl
  | aggregator =>
    obtain ⟨asn, hasn, h⟩ := bind_eq_ok.mp h
    obtain ⟨hfits, rfl⟩ := writeAsn_eq_ok (asnWidth_two_or_four cx) hasn
    exact readAggregator_toBe _ hfits (Except.ok.inj h).symm
  | as4Aggregator => exact readAggregator_toBe (n := 4) _ (BitVec.isLt _) (Except.ok.inj h).symm
  | communities =>
    cases h
    exact readRecords_map (by norm_num) (fun c => by simp [encodeComm]) decodeComm_encodeComm _ _
  | clusterList =>
    cases h
    exact readRecords_map (f := fun a : Ipv4 => toBe 4 a.toNat) (by norm_num) (fun _ => toBe_length _ _)
      (be_toBe (by norm_num)) _ _
  | extendedCommunities =>
    cases h
    exact readRecords_map (f := encodeExtComm) (by norm_num) (fun _ => rfl) (fun _ => rfl) _ _
  | ipv6ExtendedCommunities =>
    cases h
    exact readRecords_map (by norm_num) (fun c => by simp [encodeExtv6Comm]) decodeExtv6Comm_encodeExtv6Comm _ _
  | largeCommunity =>
    cases h
    exact readRecords_map (by norm_num) (fun c => by simp [encodeLargeComm]) decodeLargeComm_encodeLargeComm _ _
  | mpReachNlri => exact parseMp_groupBody (fun _ => reachGroup_groupRest) h
  | mpUnreachNlri => exact parseMp_groupBody (fun _ => unreachGroup_groupRest) h

/-- A body of whole records holds as many octets as the records that are read from it (R260). -/
theorem length_of_decodeRecords {α : Type} {k : Nat} {rec : Bytes → α} {f : α → Bytes} (hlen : ∀ x, (f x).length = k)
    {rs : List α} (h : decodeRecords k t rec v = .ok rs) : (rs.map f).flatten.length = v.length := by
  obtain ⟨_, hwhole, h⟩ := bind_eq_ok.mp h
  cases h
  have hmod : v.length % k = 0 := by simpa using raiseIf_eq_ok.mp hwhole
  rw [length_flatten_of_length _ k (by simp [hlen]), List.length_map, List.length_map, chunks_length,
    Nat.div_mul_cancel (Nat.dvd_of_mod_eq_zero hmod)]

theorem readAsn_lt {n : Nat} (h : v.length = n) : (readAsn v).toNat < 256 ^ n := by
  rw [readAsn, be, BitVec.toNat_ofNat, ← h]
  exact Nat.lt_of_le_of_lt (Nat.mod_le _ _) (beNat_lt v)

/-- The value that is read from a body is written again in as many octets (R145). -/
theorem fieldBody_of_parseField (h : parseField cx t v = .ok (some x)) :
    ∃ v', fieldBody cx t x = .ok v' ∧ v'.length = v.length := by
  cases t with
  | origin =>
    obtain ⟨_, hlen, h⟩ := bind_eq_ok.mp h
    exact ⟨_, rfl, (fixedBody_eq_ok.mp hlen).symm⟩
  | asPath | as4Path =>
    obtain ⟨segs, hsegs, h⟩ := bind_eq_ok.mp h
    cases h
    exact encodeSegments_of_decoded hsegs
  | nextHop | multiExitDisc | localPref | originatorId | atomicAggregate | as4Aggregator =>
    obtain ⟨_, hlen, h⟩ := bind_eq_ok.mp h
    exact ⟨_, rfl, by simp [fixedBody_eq_ok.mp hlen]⟩
  | aggregator =>
    obtain ⟨_, hlen, h⟩ := bind_eq_ok.mp h
    cases h
    have hlen := fixedBody_eq_ok.mp hlen
    have hfits := readAsn_lt (v := v.take (asnWidth cx)) (n := asnWidth cx) (by rw [List.length_take]; omega)
    exact ⟨_, aggregatorBody_fits _ hfits, by simp [hlen]⟩
  | communities | clusterList | extendedCommunities | ipv6ExtendedCommunities | largeCommunity =>
    obtain ⟨rs, hrs, h⟩ := bind_eq_ok.mp h
    cases h
    exact ⟨_, rfl, length_of_decodeRecords (fun _ => by simp [encodeComm, encodeExtComm, encodeExtv6Comm, encodeLargeComm]) hrs⟩
  | mpReachNlri => exact groupBody_of_parseMp (wrap := .reach) (fun _ _ => groupRest_of_reachGroup) h
  | mpUnreachNlri => exact groupBody_of_parseMp (wrap := .unreach) (fun _ _ => groupRest_of_unreachGroup) h

end Bodies

/-! ### One record: what an ENCODE writes, and what the record loop does with it (R160 to R165, R175, R176) -/

/-- The flags octet that `encode_record` writes: E is set for a body above 255 octets (R175, R176). -/
def recordFlags (flags : Byte) (v : Bytes) : Byte :=
  if 255 < v.length then flags ||| 0x10 else flags

/-- The flags that are checked are written as they are. -/
theorem recordFlags_and {m : Byte} (hm : m &&& 0x10 = 0) (flags : Byte) (v : Bytes) :
    recordFlags flags v &&& m = flags &&& m := by
  unfold recordFlags
  split
  · calc (flags ||| 0x10) &&& m
        = flags &&& m ||| m &&& 0x10 := by ext i; simp [Bool.and_or_distrib_left, Bool.and_comm]
      _ = flags &&& m := by rw [hm]; exact BitVec.or_zero
  · rfl

theorem canonUnknown_eq (e : UnknownAttr) : canonUnknown e = { e with flags := recordFlags e.flags e.value } := rfl

/-- The body of a record that is written fits the length field its flags select. -/
theorem recordFlags_fits {flags : Byte} {v : Bytes} (h : v.length ≤ 65535) :
    v.length ≤ if extendedBit (recordFlags flags v) then 65535 else 255 := by
  unfold recordFlags
  split
  · have hbit : ∀ f : Byte, extendedBit (f ||| 0x10) = true := by decide
    rwa [hbit, if_pos rfl]
  · split <;> omega

theorem encodeRecord_eq_ok {flags t : Byte} {v bs : Bytes} :
    encodeRecord flags t v = .ok bs ↔ v.length ≤ 65535 ∧ bs = recordOctets (recordFlags flags v) t v := by
  rcases Nat.lt_or_ge 65535 v.length with hlong | hfits
  · rw [encodeRecord_too_long hlong]
    simp [Nat.not_le.mpr hlong]
  · have hrecord : encodeRecord flags t v = .ok (recordOctets (recordFlags flags v) t v) := by
      rw [encodeRecord, decide_eq_false (Nat.not_lt.mpr hfits)]
      rfl
    rw [hrecord, Except.ok.injEq, eq_comm]
    exact (and_iff_right hfits).symm

theorem openRecord_of_checks {t : AttrType} {flags : Byte} {w : RecState} (hnew : attrCode t ∉ w.seen)
    (hot : flags &&& 0xC0 = expectedFlags t) (hpartial : expectedFlags t = 0xC0 ∨ flags &&& 0x20 = 0) :
    openRecord t flags w = .ok (noteType (attrCode t) w) :=
  openRecord_of_opens (w := { recordsOnly [] with recs := w }) ⟨hnew, hot, hpartial⟩

/-- A record with the flags of its type passes the checks before its body rule (R162, R164, R175). -/
theorem openRecord_expected {t : AttrType} {w : RecState} (hnew : attrCode t ∉ w.seen) (v : Bytes) :
    openRecord t (recordFlags (expectedFlags t) v) w = .ok (noteType (attrCode t) w) := by
  refine openRecord_of_checks hnew ?_ ?_
  · rw [recordFlags_and (by decide)]
    cases t <;> rfl
  · rw [recordFlags_and (by decide)]
    cases t <;> decide

/-- The record loop on a section that starts with a record (R160). -/
theorem decodeRecordsFrom_record {cx : Cxt} {w : RecState} {flags t : Byte} {v rest : Bytes}
    (hfits : v.length ≤ if extendedBit flags then 65535 else 255) :
    decodeRecordsFrom cx w (recordOctets flags t v ++ rest) =
      dispatchAttr cx ⟨flags, t, v⟩ w >>= fun w' => decodeRecordsFrom cx w' rest := by
  refine (scan_step (consumes_record fun w f => dispatchAttr cx f w) w (by simp [recordOctets])).trans ?_
  rw [readRecord_recordOctets flags t v rest hfits, ok_bind]
  exact bind_assoc _ _ _

/-- The record written for a value is read as the canonical form of the value. -/
theorem decodeRecordsFrom_known {cx : Cxt} {t : AttrType} {x : FieldValue t} {w : RecState} {bs : Bytes}
    (hnew : attrCode t ∉ w.seen) (h : fieldBody cx t x >>= encodeRecord (expectedFlags t) (attrCode t) = .ok bs) (rest : Bytes) :
    decodeRecordsFrom cx w (bs ++ rest) =
      decodeRecordsFrom cx (setField t (canonField t x) (noteType (attrCode t) w)) rest := by
  obtain ⟨v, hv, h⟩ := bind_eq_ok.mp h
  obtain ⟨hlen, rfl⟩ := encodeRecord_eq_ok.mp h
  rw [decodeRecordsFrom_record (recordFlags_fits hlen), dispatchAttr_known, openRecord_expected hnew, ok_bind,
    parseField_fieldBody hv, ok_bind, ok_bind, storeRecord]

theorem attrCode_injective {t t' : AttrType} (h : attrCode t = attrCode t') : t = t' := by
  have htypes := congrArg attrTypeOf h
  rwa [attrTypeOf_attrCode, attrTypeOf_attrCode, Option.some.injEq] at htypes

/-- A record that a DECODE keeps in `unknown`: an optional record of an unrecognized type, or a multiprotocol record of a
family that is not legal (R165, R242). -/
def Keepable (cx : Cxt) (e : UnknownAttr) : Prop :=
  optionalBit e.flags = true ∧ ∀ t, e.type = attrCode t → e.flags &&& 0xE0 = 0x80 ∧ parseField cx t e.value = .ok none

/-- Only the multiprotocol attributes, which expect 0x80, are captured. -/
theorem expectedFlags_of_captured {cx : Cxt} {t : AttrType} {v : Bytes} (h : parseField cx t v = .ok none) :
    expectedFlags t = 0x80 ∧ ∃ k, t = mpAttr k := by
  cases t with
  | mpReachNlri => exact ⟨rfl, .reach, rfl⟩
  | mpUnreachNlri => exact ⟨rfl, .unreach, rfl⟩
  | origin =>
    obtain ⟨_, -, h⟩ := bind_eq_ok.mp h
    split at h <;> cases h
  | _ =>
    obtain ⟨_, -, h⟩ := bind_eq_ok.mp h
    cases h

theorem decodeUnrecognized_eq {flags t : Byte} {v : Bytes} {w : RecState} (hnew : t ∉ w.seen) :
    decodeUnrecognized flags t v w = if optionalBit flags then .ok (keepUnknown flags t v (noteType t w))
      else .error (err .unrecognizedWellKnown t.toNat) := by
  rw [decodeUnrecognized, checkDuplicate_eq, if_neg hnew, ok_bind, raiseIf_bind]
  cases optionalBit flags <;> rfl

theorem dispatchAttr_keepable {cx : Cxt} {e : UnknownAttr} {w : RecState} (h : Keepable cx e) (hnew : e.type ∉ w.seen) :
    dispatchAttr cx ⟨e.flags, e.type, e.value⟩ w = .ok (keepUnknown e.flags e.type e.value (noteType e.type w)) := by
  obtain ⟨flags, c, v⟩ := e
  obtain ⟨hopt, hcapture⟩ := h
  dsimp only at hopt hcapture hnew ⊢
  cases hc : attrTypeOf c with
  | none =>
    simp only [dispatchAttr, hc]
    rw [decodeUnrecognized_eq hnew, if_pos hopt]
  | some t =>
    obtain rfl := attrTypeOf_eq_some.mp hc
    obtain ⟨hflags, hparse⟩ := hcapture t rfl
    have hmask : ∀ f : Byte, f &&& 0xE0 = 0x80 → f &&& 0xC0 = 0x80 ∧ f &&& 0x20 = 0 := by decide
    obtain ⟨hot, hpartial⟩ := hmask flags hflags
    rw [dispatchAttr_known, openRecord_of_checks hnew (hot.trans (expectedFlags_of_captured hparse).1.symm) (.inr hpartial),
      ok_bind, hparse, ok_bind, storeRecord]

/-- All the record loop does with a record it accepts: its value goes to its field, or the record is kept (R162 to R165). -/
theorem dispatchAttr_eq_ok {cx : Cxt} {f : RecForm} {w w' : RecState} (h : dispatchAttr cx f w = .ok w') :
    f.type ∉ w.seen ∧
      ((∃ t x, f.type = attrCode t ∧ parseField cx t f.body = .ok (some x) ∧
          w' = setField t x (noteType (attrCode t) w)) ∨
        Keepable cx ⟨f.flags, f.type, f.body⟩ ∧ w' = keepUnknown f.flags f.type f.body (noteType f.type w)) := by
  obtain ⟨flags, c, v⟩ := f
  cases hc : attrTypeOf c with
  | none =>
    simp only [dispatchAttr, hc] at h
    have hnew : c ∉ w.seen := by
      intro hmem
      rw [decodeUnrecognized, checkDuplicate_eq, if_pos hmem] at h
      cases h
    rw [decodeUnrecognized_eq hnew] at h
    split at h
    · next hopt =>
      cases h
      refine ⟨hnew, .inr ⟨⟨hopt, fun t ht => ?_⟩, rfl⟩⟩
      dsimp only at ht
      rw [ht, attrTypeOf_attrCode] at hc
      cases hc
    · cases h
  | some t =>
    obtain rfl := attrTypeOf_eq_some.mp hc
    rw [dispatchAttr_known] at h
    obtain ⟨w₁, hopen, h⟩ := bind_eq_ok.mp h
    obtain ⟨x, hparse, h⟩ := bind_eq_ok.mp h
    obtain ⟨hnew, hot, hpartial, rfl⟩ := openRecord_eq_ok hopen
    cases h
    refine ⟨hnew, ?_⟩
    cases x with
    | some x => exact .inl ⟨t, x, rfl, hparse, rfl⟩
    | none =>
      have hexpected := (expectedFlags_of_captured hparse).1
      have hmask : ∀ f : Byte, f &&& 0xC0 = 0x80 → f &&& 0x20 = 0 → f &&& 0xE0 = 0x80 ∧ optionalBit f = true := by decide
      obtain ⟨hflags, hopt⟩ := hmask flags (hot.trans hexpected) (hpartial.resolve_left (by rw [hexpected]; decide))
      refine .inr ⟨⟨hopt, fun t' ht' => ⟨hflags, ?_⟩⟩, rfl⟩
      dsimp only at ht'
      obtain rfl := attrCode_injective ht'
      exact hparse

theorem keepable_canonUnknown {cx : Cxt} {e : UnknownAttr} (h : Keepable cx e) : Keepable cx (canonUnknown e) := by
  obtain ⟨hopt, hcapture⟩ := h
  refine ⟨?_, fun t ht => ?_⟩
  · rw [optionalBit_eq_true] at hopt ⊢
    rwa [canonUnknown_eq, recordFlags_and (by decide)]
  · obtain ⟨hflags, hparse⟩ := hcapture t ht
    exact ⟨by rwa [canonUnknown_eq, recordFlags_and (by decide)], hparse⟩

/-- The record written for an entry of `unknown` is kept as the canonical form of the entry (R176). -/
theorem decodeRecordsFrom_unknown {cx : Cxt} {e : UnknownAttr} {w : RecState} {bs : Bytes} (hkeep : Keepable cx e)
    (hnew : e.type ∉ w.seen) (h : encodeRecord e.flags e.type e.value = .ok bs) (rest : Bytes) :
    decodeRecordsFrom cx w (bs ++ rest) =
      decodeRecordsFrom cx (keepUnknown (recordFlags e.flags e.value) e.type e.value (noteType e.type w)) rest := by
  obtain ⟨hlen, rfl⟩ := encodeRecord_eq_ok.mp h
  rw [decodeRecordsFrom_record (recordFlags_fits hlen)]
  have hdispatch := dispatchAttr_keepable (keepable_canonUnknown hkeep) (w := w) hnew
  rw [canonUnknown_eq] at hdispatch
  rw [hdispatch, ok_bind]

/-! ### The attribute section of a value, as the state that decoding it builds (R137, R142, R143) -/

/-- The A and st whose typed fields are what an ENCODE emits records for: NEXT_HOP in st, whichever field of the value it
comes from (R143), and the multiprotocol groups with it. -/
def blockOf (u : UpdateMsg) (a : Attrs) : RecState :=
  { attrs := { a with base := { a.base with nexthop := none } }
    side := { nh := nexthopValue u a, mpReach := u.mpReach, mpUnreach := u.mpUnreach } }

/-- `canon` on an attribute block (R144). -/
def canonAttrs (a : Attrs) : Attrs :=
  { a with unknown := a.unknown.map canonUnknown }

section Block

variable {cx : Cxt} {u : UpdateMsg} {a : Attrs} {t : AttrType}

theorem slotForm_known (cx : Cxt) (u : UpdateMsg) (a : Attrs) (t : AttrType) :
    slotForm cx u a (.known t) = fieldForm t (fieldOf t (blockOf u a)) (fieldBody cx t) := by
  cases t with
  | atomicAggregate =>
    have hflag : ∀ b : Bool, (.ok (if b then some (knownForm .atomicAggregate []) else none) : Except CodecError _) =
        fieldForm (α := Unit) .atomicAggregate (if b then some () else none) (fun _ => .ok []) := by decide
    exact hflag a.base.atomicAggregate
  | _ => rfl

/-- An absent value emits nothing (R142). -/
theorem emitSlot_absent (h : fieldOf t (blockOf u a) = none) : emitSlot cx u a (.known t) = .ok [] := by
  rw [emitSlot, slotForm_known, h]
  rfl

/-- A value that is present emits its record (R142, R175). -/
theorem emitSlot_present {x : FieldValue t} (h : fieldOf t (blockOf u a) = some x) :
    emitSlot cx u a (.known t) = fieldBody cx t x >>= encodeRecord (expectedFlags t) (attrCode t) := by
  rw [emitSlot, slotForm_known, h]
  exact bind_assoc _ _ _

theorem emitSlot_unknown (e : UnknownAttr) : emitSlot cx u a (.unknown e) = encodeRecord e.flags e.type e.value := rfl

theorem fieldOf_canonUpdate : fieldOf t (blockOf (canonUpdate u) (canonAttrs a)) =
    (fieldOf t (blockOf u a)).map (canonField t) := by
  have hid : ∀ {β : Type} (y : Option β), y = y.map fun x => x := fun _ => Option.map_id'.symm
  cases t with
  | nextHop =>
    refine Eq.trans ?_ (hid _)
    simp only [fieldOf, blockOf, nexthopValue, canonUpdate]
    cases u.reach <;> rfl
  | mpReachNlri | mpUnreachNlri => rfl
  | _ => exact hid _

theorem forall_attrType {P : AttrType → Prop} : (∀ t, P t) ↔
    (P .origin ∧ P .asPath ∧ P .nextHop ∧ P .multiExitDisc ∧ P .localPref ∧ P .atomicAggregate ∧ P .aggregator ∧
      P .communities) ∧ P .originatorId ∧ P .clusterList ∧ P .mpReachNlri ∧ P .mpUnreachNlri ∧ P .extendedCommunities ∧
      P .as4Path ∧ P .as4Aggregator ∧ P .ipv6ExtendedCommunities ∧ P .largeCommunity :=
  ⟨fun h => ⟨⟨h _, h _, h _, h _, h _, h _, h _, h _⟩, h _, h _, h _, h _, h _, h _, h _, h _, h _⟩,
    fun ⟨⟨_, _, _, _, _, _, _, _⟩, _, _, _, _, _, _, _, _, _⟩ t => by cases t <;> assumption⟩

/-- No record would show the attributes of a value exactly where every typed field and `unknown` are empty (R138). -/
theorem hasRecords_eq_false (h : u.attrs = some a) :
    hasRecords u = false ↔ (∀ t, fieldOf t (blockOf u a) = none) ∧ a.unknown = [] := by
  rw [forall_attrType]
  cases hr : u.reach with
  | none =>
    simp [hasRecords, h, hr, fieldOf, blockOf, nexthopValue]
    tauto
  | some r => simp [hasRecords, h, hr, fieldOf, blockOf, nexthopValue]

theorem parseMp_eq_none {α : Type} {k : MpKind} {group : FamForm → Except CodecError α} {v : Bytes} :
    parseMp cx k group v = .ok none ↔
      3 ≤ v.length ∧ legalFamily cx (be 16 (v.take 2)) (octet (v.drop 2)) = false := by
  rcases Nat.lt_or_ge v.length 3 with hshort | hlong
  · rw [parseMp, readFamily_short k hshort]
    simp [Nat.not_le.mpr hshort]
  · have hread : readFamily k v = .ok ⟨be 16 (v.take 2), octet (v.drop 2), v.drop 3⟩ := by
      rw [readFamily, decide_eq_false (Nat.not_lt.mpr hlong)]
      rfl
    rw [parseMp, hread, ok_bind]
    cases hl : legalFamily cx (be 16 (v.take 2)) (octet (v.drop 2)) with
    | false => simp [hlong]
    | true =>
      simp only [if_true, and_false, iff_false, reduceCtorEq]
      intro h
      obtain ⟨_, -, h⟩ := bind_eq_ok.mp h
      cases h

theorem captureCollides_eq_false {k : MpKind} {α : Type} {group : FamForm → Except CodecError α} {e : UnknownAttr}
    {present : Bool} : captureCollides cx e present = false ↔
      e.flags &&& 0xE0 = 0x80 ∧ parseMp cx k group e.value = .ok none ∧ present = false := by
  rw [parseMp_eq_none]
  simp [captureCollides, and_assoc]

/-- An entry of `unknown` passes check 5 of R138 exactly where its type is new and, if recognized, its record is one that a
DECODE captures and no value of its type is present. -/
theorem entryCollides_eq_false {earlier : List Byte} {e : UnknownAttr} (a : Attrs) :
    entryCollides cx u earlier e = false ↔ e.type ∉ earlier ∧ ∀ t, e.type = attrCode t →
      e.flags &&& 0xE0 = 0x80 ∧ parseField cx t e.value = .ok none ∧ fieldOf t (blockOf u a) = none := by
  unfold entryCollides
  rw [Bool.or_eq_false_iff, List.contains_eq_mem, decide_eq_false_iff_not, and_congr_right_iff]
  intro _
  cases hc : attrTypeOf e.type with
  | none =>
    refine iff_of_true rfl fun t ht => ?_
    rw [ht, attrTypeOf_attrCode] at hc
    cases hc
  | some t =>
    have hcode := attrTypeOf_eq_some.mp hc
    have hone : ∀ {P : AttrType → Prop}, (∀ t', e.type = attrCode t' → P t') ↔ P t :=
      ⟨fun h => h t hcode, fun h t' ht' => attrCode_injective (hcode.symm.trans ht') ▸ h⟩
    rw [hone]
    cases t with
    | mpReachNlri =>
      show captureCollides cx e u.mpReach.isSome = false ↔ _
      rw [captureCollides_eq_false (k := .reach) (group := reachGroup), Option.isSome_eq_false_iff, Option.isNone_iff_eq_none]
      rfl
    | mpUnreachNlri =>
      show captureCollides cx e u.mpUnreach.isSome = false ↔ _
      rw [captureCollides_eq_false (k := .unreach) (group := unreachGroup), Option.isSome_eq_false_iff, Option.isNone_iff_eq_none]
      rfl
    | _ =>
      refine iff_of_false (by simp) ?_
      rintro ⟨-, hparse, -⟩
      obtain ⟨-, k, hk⟩ := expectedFlags_of_captured hparse
      cases k <;> cases hk

end Block

/-! ### The records of a value, read back (R142, R160) -/

/-- A and st after the record of a type, where `src` holds a value of it. -/
def takeField (src w : RecState) (t : AttrType) : RecState :=
  match fieldOf t src with
  | some x => setField t x (noteType (attrCode t) w)
  | none => w

/-- A and st after the records of the entries of `unknown`, which are kept in their order. -/
def takeUnknown (w : RecState) (e : UnknownAttr) : RecState :=
  keepUnknown e.flags e.type e.value (noteType e.type w)

section Taking

variable {src w : RecState} {t t' : AttrType}

theorem takeField_present {x : FieldValue t} (h : fieldOf t src = some x) :
    takeField src w t = setField t x (noteType (attrCode t) w) := by
  rw [takeField, h]

theorem takeField_absent (h : fieldOf t src = none) : takeField src w t = w := by
  rw [takeField, h]

theorem fieldOf_takeField : fieldOf t' (takeField src w t) = if t' = t then (fieldOf t' src).or (fieldOf t' w)
    else fieldOf t' w := by
  cases hx : fieldOf t src with
  | none =>
    rw [takeField_absent hx]
    split
    · next h => subst h; rw [hx, Option.none_or]
    · rfl
  | some x =>
    rw [takeField_present hx]
    split
    · next h => subst h; rw [hx, fieldOf_setField_same, Option.some_or]
    · next h => rw [fieldOf_setField_ne x h, fieldOf_noteType]

theorem untypedPart_takeField : untypedPart (takeField src w t) = untypedPart w := by
  cases hx : fieldOf t src with
  | none => rw [takeField_absent hx]
  | some x => rw [takeField_present hx, untypedPart_setField, untypedPart_noteType]

theorem mem_seen_takeField {c : Byte} :
    c ∈ (takeField src w t).seen ↔ c ∈ w.seen ∨ c = attrCode t ∧ fieldOf t src ≠ none := by
  cases hx : fieldOf t src with
  | none => simp [takeField_absent hx]
  | some x => simp [takeField_present hx, or_comm]

theorem fieldOf_takeFields (ts : List AttrType) : fieldOf t (ts.foldl (takeField src) w) =
    if t ∈ ts then (fieldOf t src).or (fieldOf t w) else fieldOf t w := by
  induction ts generalizing w with
  | nil => simp
  | cons s ts ih =>
    have hagain : (fieldOf t src).or ((fieldOf t src).or (fieldOf t w)) = (fieldOf t src).or (fieldOf t w) := by
      cases fieldOf t src <;> rfl
    rw [List.foldl_cons, ih, fieldOf_takeField]
    by_cases hs : t = s
    · rw [if_pos hs, hagain, ite_self, if_pos (List.mem_cons.mpr (.inl hs))]
    · rw [if_neg hs]
      simp only [List.mem_cons, hs, false_or]

theorem untypedPart_takeFields (ts : List AttrType) : untypedPart (ts.foldl (takeField src) w) = untypedPart w := by
  induction ts generalizing w with
  | nil => rfl
  | cons s ts ih => rw [List.foldl_cons, ih, untypedPart_takeField]

theorem mem_seen_takeFields {c : Byte} (ts : List AttrType) : c ∈ (ts.foldl (takeField src) w).seen ↔
    c ∈ w.seen ∨ ∃ t ∈ ts, c = attrCode t ∧ fieldOf t src ≠ none := by
  induction ts generalizing w with
  | nil => simp
  | cons s ts ih => simp only [List.foldl_cons, ih, mem_seen_takeField, List.mem_cons, exists_eq_or_imp, or_assoc]

theorem mem_recognizedTypes (t : AttrType) : t ∈ recognizedTypes := by
  cases t <;> decide

/-- All the typed fields of a block, taken one after the other, are the block. -/
theorem fieldOf_takeFields_all : fieldOf t (recognizedTypes.foldl (takeField src) {}) = fieldOf t src := by
  rw [fieldOf_takeFields, if_pos (mem_recognizedTypes t), fieldOf_start, Option.or_none]

theorem fieldOf_takeUnknowns (es : List UnknownAttr) : fieldOf t (es.foldl takeUnknown w) = fieldOf t w := by
  induction es generalizing w with
  | nil => rfl
  | cons e es ih => rw [List.foldl_cons, ih, takeUnknown, fieldOf_keepUnknown, fieldOf_noteType]

theorem untypedPart_takeUnknowns (es : List UnknownAttr) : untypedPart (es.foldl takeUnknown w) =
    (w.attrs.base.nexthop, w.attrs.base.llNexthop, w.attrs.unknown ++ es) := by
  induction es generalizing w with
  | nil => simp [untypedPart]
  | cons e es ih =>
    rw [List.foldl_cons, ih]
    simp [takeUnknown, keepUnknown, setAttrs, noteType]

end Taking

section Records

variable {cx : Cxt} {u : UpdateMsg} {a : Attrs} {src : RecState}

/-- The records of the recognized types are read one after the other into the fields of the canonical value (R160). -/
theorem decodeRecordsFrom_knownSlots (hsrc : ∀ t, fieldOf t src = (fieldOf t (blockOf u a)).map (canonField t))
    {ts : List AttrType} {w : RecState} {bs : Bytes} (hts : ts.Nodup) (hnew : ∀ t ∈ ts, attrCode t ∉ w.seen)
    (h : emitAll (emitSlot cx u a) (ts.map .known) = .ok bs) (rest : Bytes) :
    decodeRecordsFrom cx w (bs ++ rest) = decodeRecordsFrom cx (ts.foldl (takeField src) w) rest := by
  induction ts generalizing w bs with
  | nil => cases h; rfl
  | cons t ts ih =>
    obtain ⟨own, hown, h⟩ := bind_eq_ok.mp h
    obtain ⟨more, hmore, h⟩ := bind_eq_ok.mp h
    cases h
    obtain ⟨ht, hts⟩ := List.nodup_cons.mp hts
    obtain ⟨hnewt, hnewts⟩ := List.forall_mem_cons.mp hnew
    have hnext : ∀ s ∈ ts, attrCode s ∉ (takeField src w t).seen := by
      intro s hs hmem
      rcases mem_seen_takeField.mp hmem with hseen | ⟨hcode, -⟩
      · exact hnewts s hs hseen
      · exact ht (attrCode_injective hcode ▸ hs)
    rw [List.foldl_cons, ← ih hts hnext hmore, List.append_assoc]
    cases hx : fieldOf t (blockOf u a) with
    | none =>
      rw [emitSlot_absent hx] at hown
      cases hown
      rw [takeField_absent (by rw [hsrc, hx]; rfl), List.nil_append]
    | some x =>
      rw [emitSlot_present hx] at hown
      rw [decodeRecordsFrom_known hnewt hown, takeField_present (by rw [hsrc, hx]; rfl)]

/-- The records of the entries of `unknown` are kept, in their order and in canonical form (R165, R176, R242). -/
theorem decodeRecordsFrom_unknownSlots {es : List UnknownAttr} {w : RecState} {earlier : List Byte} {bs : Bytes}
    (hseen : ∀ c ∈ w.seen, c ∈ earlier ∨ ∃ t, c = attrCode t ∧ fieldOf t (blockOf u a) ≠ none)
    (hcollide : checkUnknown cx u earlier es = .ok ()) (hopt : checkUnknownOptional es = .ok ())
    (h : emitAll (emitSlot cx u a) (es.map .unknown) = .ok bs) (rest : Bytes) :
    decodeRecordsFrom cx w (bs ++ rest) = decodeRecordsFrom cx ((es.map canonUnknown).foldl takeUnknown w) rest := by
  induction es generalizing w bs earlier with
  | nil => cases h; rfl
  | cons e es ih =>
    obtain ⟨own, hown, h⟩ := bind_eq_ok.mp h
    obtain ⟨more, hmore, h⟩ := bind_eq_ok.mp h
    cases h
    obtain ⟨_, hpass, hcollide⟩ := bind_eq_ok.mp hcollide
    obtain ⟨_, hoptional, hopt⟩ := bind_eq_ok.mp hopt
    obtain ⟨hearlier, hrecognized⟩ := (entryCollides_eq_false a).mp (raiseIf_eq_ok.mp hpass)
    have hkeep : Keepable cx e := by
      refine ⟨by simpa using raiseIf_eq_ok.mp hoptional, fun t ht => ?_⟩
      obtain ⟨hflags, hparse, -⟩ := hrecognized t ht
      exact ⟨hflags, hparse⟩
    have hnew : e.type ∉ w.seen := by
      intro hmem
      rcases hseen _ hmem with hmem | ⟨t, ht, hpresent⟩
      · exact hearlier hmem
      · obtain ⟨-, -, habsent⟩ := hrecognized t ht
        exact hpresent habsent
    have hnext : ∀ c ∈ (takeUnknown w (canonUnknown e)).seen,
        c ∈ e.type :: earlier ∨ ∃ t, c = attrCode t ∧ fieldOf t (blockOf u a) ≠ none := by
      intro c hc
      rcases List.mem_cons.mp hc with rfl | hc
      · exact .inl (List.mem_cons_self ..)
      · exact (hseen c hc).imp_left (List.mem_cons_of_mem _)
    rw [List.map_cons, List.foldl_cons, ← ih hnext hcollide hopt hmore, List.append_assoc,
      decodeRecordsFrom_unknown hkeep hnew hown]
    rfl

theorem recognizedTypes_nodup : recognizedTypes.Nodup := by decide

/-- The attribute section that an ENCODE writes for a value is read as the canonical form of the value (R144). -/
theorem decodeAttrSection_encodeAttrSection {recs : Bytes} (hll : a.base.llNexthop = none)
    (hcollide : checkUnknown cx u [] a.unknown = .ok ()) (hopt : checkUnknownOptional a.unknown = .ok ())
    (h : encodeAttrSection cx u a = .ok recs) :
    ∃ r, decodeAttrSection cx recs = .ok r ∧ r.attrs = (blockOf (canonUpdate u) (canonAttrs a)).attrs ∧
      r.side = (blockOf (canonUpdate u) (canonAttrs a)).side := by
  rw [encodeAttrSection, slotsOf, emitAll_append] at h
  obtain ⟨known, hknown, h⟩ := bind_eq_ok.mp h
  obtain ⟨unknown, hunknown, h⟩ := bind_eq_ok.mp h
  cases h
  set src := blockOf (canonUpdate u) (canonAttrs a) with hsrc
  set w := recognizedTypes.foldl (takeField src) {} with hw
  have hseen : ∀ c ∈ w.seen, c ∈ ([] : List Byte) ∨ ∃ t, c = attrCode t ∧ fieldOf t (blockOf u a) ≠ none := by
    intro c hc
    rcases (mem_seen_takeFields _).mp hc with hc | ⟨t, -, ht, hpresent⟩
    · cases hc
    · refine .inr ⟨t, ht, fun habsent => hpresent ?_⟩
      rw [hsrc, fieldOf_canonUpdate, habsent]
      rfl
  refine ⟨(a.unknown.map canonUnknown).foldl takeUnknown w, ?_, ?_⟩
  · rw [decodeAttrSection, decodeRecordsFrom_knownSlots (fun _ => fieldOf_canonUpdate) recognizedTypes_nodup (by simp) hknown]
    have hread := decodeRecordsFrom_unknownSlots hseen hcollide hopt hunknown []
    rw [List.append_nil] at hread
    exact hread
  · have huntyped : untypedPart w = untypedPart {} := untypedPart_takeFields _
    refine recState_ext (fun t => ?_) ?_
    · rw [fieldOf_takeUnknowns, hw, fieldOf_takeFields_all]
    · obtain ⟨hnh, hlink, hunk⟩ : w.attrs.base.nexthop = none ∧ w.attrs.base.llNexthop = none ∧ w.attrs.unknown = [] := by
        simpa [untypedPart] using huntyped
      rw [untypedPart_takeUnknowns, hnh, hlink, hunk]
      simp [untypedPart, hsrc, blockOf, canonAttrs, hll]

end Records

/-! ### The sections of an UPDATE body (R73, R131, R141) -/

section Sections

variable {lw wd la tail : Bytes}

theorem splitUpdate_withdrawnOverrun {rest : Bytes} (hlw : lw.length = 2) (hrest : 2 ≤ rest.length)
    (h : rest.length < beNat lw + 2) : splitUpdate (lw ++ rest) = .error (err .withdrawnOverrun (beNat lw)) := by
  have hlen : (lw ++ rest).length = 2 + rest.length := by rw [List.length_append, hlw]
  rw [splitUpdate, hlen, decide_eq_false (by omega), raiseIf_false, ok_bind, slice_left hlw]
  dsimp only
  rw [decide_eq_true (by omega), raiseIf_true, error_bind]

/-- `split_update` on a body whose withdrawn section fits it (R131). -/
theorem splitUpdate_fields (hlw : lw.length = 2) (hla : la.length = 2) (hwd : beNat lw = wd.length) :
    splitUpdate (lw ++ wd ++ la ++ tail) =
      if tail.length < beNat la then .error (err .attrSectionOverrun (beNat la))
      else .ok (wd, tail.take (beNat la), tail.drop (beNat la)) := by
  have hlen : (lw ++ wd ++ la ++ tail).length = 4 + wd.length + tail.length := by
    simp only [List.length_append, hlw, hla]
    omega
  have hlwSlice : slice (lw ++ wd ++ la ++ tail) 0 2 = lw := by
    rw [List.append_assoc, List.append_assoc]
    exact slice_left hlw
  have hlaSlice : slice (lw ++ wd ++ la ++ tail) (2 + wd.length) 2 = la :=
    slice_middle (by rw [List.length_append, hlw]) hla
  have hwdSlice : slice (lw ++ wd ++ la ++ tail) 2 wd.length = wd := by
    rw [List.append_assoc]
    exact slice_middle hlw rfl
  have hdrop : (lw ++ wd ++ la ++ tail).drop (4 + wd.length) = tail :=
    List.drop_left' (by simp only [List.length_append, hlw, hla]; omega)
  rw [splitUpdate, hlen, hlwSlice, decide_eq_false (by omega), raiseIf_false, ok_bind]
  dsimp only
  rw [hwd, decide_eq_false (by omega), raiseIf_false, ok_bind, hlaSlice, raiseIf_bind, hwdSlice, slice, hdrop, ← List.drop_drop,
    hdrop]
  simp only [decide_eq_true_eq, Nat.add_lt_add_iff_left]

theorem splitUpdate_wireUpdate {wd recs : Bytes} (nl : Bytes) (hwd : wd.length < 65536) (hrecs : recs.length < 65536) :
    splitUpdate (wireUpdate wd recs nl) = .ok (wd, recs, nl) := by
  have hlength : ∀ n, n < 65536 → beNat (twoOctets n) = n := fun n hn => by
    rw [← toBe_two, beNat_toBe_of_lt (by omega)]
  rw [wireUpdate, List.append_assoc (twoOctets wd.length ++ wd ++ twoOctets recs.length),
    splitUpdate_fields (twoOctets_length _) (twoOctets_length _) (hlength _ hwd), hlength _ hrecs, if_neg (by simp),
    List.take_left' rfl, List.drop_left' rfl]

theorem slice_length (bs : Bytes) (i n : Nat) : (slice bs i n).length = min n (bs.length - i) := by
  rw [slice, List.length_take, List.length_drop]

/-- The sections of a body fill it beside the two length fields (R131). -/
theorem splitUpdate_length {b wsec asec nsec : Bytes} (h : splitUpdate b = .ok (wsec, asec, nsec)) :
    4 + wsec.length + asec.length + nsec.length = b.length := by
  obtain ⟨_, hshort, h⟩ := bind_eq_ok.mp h
  obtain ⟨_, hwithdrawn, h⟩ := bind_eq_ok.mp h
  obtain ⟨_, hattrs, h⟩ := bind_eq_ok.mp h
  cases h
  have hfits := of_decide_eq_false (raiseIf_eq_ok.mp hattrs)
  rw [slice_length, slice_length, List.length_drop]
  omega

@[simp] theorem wireUpdate_length (wd recs nl : Bytes) :
    (wireUpdate wd recs nl).length = 4 + wd.length + recs.length + nl.length := by
  simp [wireUpdate]
  omega

end Sections

/-! ### The stages of an UPDATE, encode (R138 to R141) -/

/-- The octets of the attribute section of a value (R141, R142). -/
def encodeRecords (cx : Cxt) (u : UpdateMsg) : Except CodecError Bytes :=
  match u.attrs with
  | some a => encodeAttrSection cx u a
  | none => .ok []

section EncodeStages

variable {par : Params} {cx : Cxt} {u : UpdateMsg}

/-- `encode_update` on a value that passes the checks: its three sections in order, then the length check (R141). -/
theorem encodeUpdate_of_checks (h : checkUpdate cx u = .ok ()) : encodeUpdate par cx u = (do
    let wd ← encodeUnreach u
    let recs ← encodeRecords cx u
    let nl ← encodeReach u
    raiseIf (decide (par.maxMsgLen < 23 + wd.length + recs.length + nl.length))
      (err .messageTooLong (min (23 + wd.length + recs.length + nl.length) 65535))
    .ok (wireUpdate wd recs nl)) := by
  simp only [encodeUpdate, h, ok_bind, finishEncodeUpdate, toBe_two]
  unfold encodeRecords
  cases u.attrs <;> rfl

theorem encodeUpdate_eq_ok {body : Bytes} (h : encodeUpdate par cx u = .ok body) :
    checkUpdate cx u = .ok () ∧ ∃ wd recs nl, encodeUnreach u = .ok wd ∧ encodeRecords cx u = .ok recs ∧
      encodeReach u = .ok nl ∧ 23 + wd.length + recs.length + nl.length ≤ par.maxMsgLen ∧
      body = wireUpdate wd recs nl := by
  obtain ⟨_, hchecks, -⟩ := bind_eq_ok.mp h
  rw [encodeUpdate_of_checks hchecks] at h
  obtain ⟨wd, hwd, h⟩ := bind_eq_ok.mp h
  obtain ⟨recs, hrecs, h⟩ := bind_eq_ok.mp h
  obtain ⟨nl, hnl, h⟩ := bind_eq_ok.mp h
  obtain ⟨_, hfits, h⟩ := bind_eq_ok.mp h
  cases h
  exact ⟨hchecks, wd, recs, nl, hwd, hrecs, hnl, by simpa using raiseIf_eq_ok.mp hfits, rfl⟩

/-- The checks of R138 to R140, each on its own. -/
theorem checkUpdate_eq_ok : checkUpdate cx u = .ok () ↔
    emptyLegacyGroup u = false ∧ attrsPresenceBad u = false ∧ (baseOf u.attrs).llNexthop.isSome = false ∧
      (u.reach.isSome && (baseOf u.attrs).nexthop.isSome) = false ∧ checkUnknown cx u [] (unknownOf u) = .ok () ∧
      checkMandatoryEncode u = .ok () ∧ checkUnknownOptional (unknownOf u) = .ok () := by
  simp only [checkUpdate, checkValue, bind_eq_ok, raiseIf_eq_ok, exists_const, and_assoc]
  exact ⟨fun ⟨_, hgroup, hpresence, hll, hnh, hunknown, _, hmandatory, hopt⟩ =>
      ⟨hgroup, hpresence, hll, hnh, hunknown, hmandatory, hopt⟩,
    fun ⟨hgroup, hpresence, hll, hnh, hunknown, hmandatory, hopt⟩ =>
      ⟨(), hgroup, hpresence, hll, hnh, hunknown, (), hmandatory, hopt⟩⟩

end EncodeStages

/-! ### What ENCODE returns decodes to the canonical form of the value (R144) -/

section RoundTrip

variable {par : Params} {cx : Cxt} {u : UpdateMsg} {a : Attrs}

/-- A framed body comes back to the body rule of its kind (R103 to R108, R116). -/
theorem decodeMessage_frameBody {k : MsgKind} {body bs : Bytes} (hpar : par.legal = true)
    (h : frameBody par k body = .ok bs) : decodeMessage par cx bs = decodeKind cx k body := by
  obtain ⟨-, hmax, -⟩ := (params_legal_iff par).mp hpar
  obtain ⟨hfits, rfl⟩ := frameBody_eq_ok h
  have hwf : messageWf par encodeMarker body = true :=
    messageWf_iff.mpr ⟨rfl, fun _ => rfl, hfits.trans hmax, hfits⟩
  have hread : readHeader par (wireHeader (msgCode k) (19 + body.length) ++ body) = .ok ⟨msgCode k, encodeMarker, body⟩ :=
    readHeader_eq_ok.mpr ⟨hwf, messageOctets_encodeMarker _ _⟩
  rw [decodeMessage, hread, ok_bind, dispatchMessage_msgCode]

theorem decodePrefixList_encodeUnreach {wd : Bytes} (hgroup : emptyLegacyGroup u = false) (h : encodeUnreach u = .ok wd) :
    ∃ ps, decodePrefixList 32 wd = .ok ps ∧ unreachOf ps = (canonUpdate u).unreach := by
  unfold encodeUnreach at h
  cases hu : u.unreach with
  | none =>
    rw [hu] at h
    cases h
    exact ⟨[], rfl, by simp [unreachOf, canonUpdate, hu]⟩
  | some r =>
    rw [hu] at h
    have hne : r.prefixes ≠ [] := by
      simp only [emptyLegacyGroup, hu, Bool.or_eq_false_iff] at hgroup
      simpa using hgroup.2
    exact ⟨_, decodePrefixList_encodePrefixList (by norm_num) (by norm_num) h, by simp [unreachOf, canonUpdate, hu, hne]⟩

theorem decodePrefixList_encodeReach {nl : Bytes} (hgroup : emptyLegacyGroup u = false) (h : encodeReach u = .ok nl) :
    ∃ ns, decodePrefixList 32 nl = .ok ns ∧
      (u.reach = none ∧ ns = [] ∨ ∃ r, u.reach = some r ∧ ns = r.prefixes.map canonPrefix ∧ ns ≠ []) := by
  unfold encodeReach at h
  cases hu : u.reach with
  | none =>
    rw [hu] at h
    cases h
    exact ⟨[], rfl, .inl ⟨rfl, rfl⟩⟩
  | some r =>
    rw [hu] at h
    have hne : r.prefixes ≠ [] := by
      simp only [emptyLegacyGroup, hu, Bool.or_eq_false_iff] at hgroup
      simpa using hgroup.1
    exact ⟨_, decodePrefixList_encodePrefixList (by norm_num) (by norm_num) h, .inr ⟨r, rfl, rfl, by simpa using hne⟩⟩

/-- A value whose attributes are present has at least one record (R138 check 2). -/
theorem encodeRecords_ne_nil {recs : Bytes} (ha : u.attrs = some a) (hshown : hasRecords u = true)
    {r : RecState} (hdecode : decodeAttrSection cx recs = .ok r)
    (hattrs : r.attrs = (blockOf (canonUpdate u) (canonAttrs a)).attrs)
    (hside : r.side = (blockOf (canonUpdate u) (canonAttrs a)).side) : recs ≠ [] := by
  rintro rfl
  cases hdecode
  have hfield : ∀ t, fieldOf t (blockOf u a) = none := by
    intro t
    have hstart : fieldOf t (blockOf (canonUpdate u) (canonAttrs a)) = none := by
      exact (fieldOf_congr hattrs.symm hside.symm).trans fieldOf_start
    rwa [fieldOf_canonUpdate, Option.map_eq_none_iff] at hstart
  have hunknown : a.unknown = [] := by simpa [blockOf, canonAttrs, eq_comm] using congrArg Attrs.unknown hattrs
  rw [(hasRecords_eq_false ha).mpr ⟨hfield, hunknown⟩] at hshown
  cases hshown

/-- The mandatory attributes that ENCODE asks for are those that DECODE asks for: NEXT_HOP is always there (R136, R139). -/
theorem checkMandatory_of_encode {ns : List Prefix4} {attrs : Option Attrs} {st : Side}
    (hns : ns ≠ [] → u.reach ≠ none) (hmp : st.mpReach.isSome = u.mpReach.isSome)
    (horigin : (baseOf attrs).origin = (baseOf u.attrs).origin) (hpath : (baseOf attrs).asPath = (baseOf u.attrs).asPath)
    (hnh : ns ≠ [] → st.nh ≠ none) (h : checkMandatoryEncode u = .ok ()) : checkMandatory ns st attrs = .ok () := by
  obtain ⟨_, h1, h⟩ := bind_eq_ok.mp h
  have h1 := raiseIf_eq_ok.mp h1
  have h2 := raiseIf_eq_ok.mp h
  have hadvertises : (ns != [] || st.mpReach.isSome) = true → (u.reach.isSome || u.mpReach.isSome) = true := by
    simp only [Bool.or_eq_true, bne_iff_ne, hmp, Option.isSome_iff_ne_none]
    exact Or.imp_left hns
  have himp : ∀ {b c d : Bool}, (b = true → c = true) → (c && d) = false → (b && d) = false := by decide
  rw [checkMandatory, horigin, hpath, himp hadvertises h1, himp hadvertises h2, raiseIf_false, ok_bind, raiseIf_false, ok_bind]
  refine raiseIf_eq_ok.mpr ?_
  cases hn : st.nh with
  | some _ => simp
  | none =>
    have : ns = [] := by_contra fun hne => hnh hne hn
    simp [this]

/-- NEXT_HOP goes back to the field of the value that it was taken from (R135, R143). -/
theorem placeNexthop_block {ns : List Prefix4} (hll : a.base.llNexthop = none)
    (hnh : (u.reach.isSome && a.base.nexthop.isSome) = false)
    (hns : u.reach = none ∧ ns = [] ∨ ∃ r, u.reach = some r ∧ ns = r.prefixes.map canonPrefix ∧ ns ≠ []) :
    placeNexthop ns (blockOf (canonUpdate u) (canonAttrs a)).side.nh (some (blockOf (canonUpdate u) (canonAttrs a)).attrs) =
      ((canonUpdate u).reach, some (canonAttrs a)) := by
  obtain ⟨⟨_, _, _, nh, _, _, _, _, _, _, _, _⟩, _, _, _, _, _⟩ := a
  rcases hns with ⟨hu, rfl⟩ | ⟨r, hu, rfl, hne⟩
  · cases nh <;> simp [placeNexthop, blockOf, canonUpdate, canonAttrs, nexthopValue, hu]
  · have hnone : nh = none := by simpa [hu] using hnh
    subst hnone
    simp only [ne_eq] at hne
    simp only [blockOf, canonUpdate, hu, nexthopValue, Option.map_some, placeNexthop, if_neg hne]
    rfl

/-- The body that an ENCODE writes for an UPDATE decodes to the canonical form of the UPDATE. -/
theorem decodeUpdate_encodeUpdate {body : Bytes} (hpar : par.legal = true) (h : encodeUpdate par cx u = .ok body) :
    decodeUpdate cx body = .ok (canonUpdate u) := by
  obtain ⟨-, hmax, -⟩ := (params_legal_iff par).mp hpar
  obtain ⟨hchecks, wd, recs, nl, hwd, hrecs, hnl, hfits, rfl⟩ := encodeUpdate_eq_ok h
  obtain ⟨hgroup, hpresence, hll, hnh, hunknown, hmandatory, hopt⟩ := checkUpdate_eq_ok.mp hchecks
  obtain ⟨ps, hps, hunreach⟩ := decodePrefixList_encodeUnreach hgroup hwd
  obtain ⟨ns, hns, hreach⟩ := decodePrefixList_encodeReach hgroup hnl
  rw [decodeUpdate, splitUpdate_wireUpdate nl (by omega) (by omega), ok_bind]
  dsimp only
  rw [hps, ok_bind]
  unfold encodeRecords at hrecs
  cases ha : u.attrs with
  | none =>
    rw [ha] at hrecs
    cases hrecs
    have habsent : u.reach = none ∧ u.mpReach = none ∧ u.mpUnreach = none := by
      simpa [attrsPresenceBad, ha, and_assoc] using hpresence
    obtain ⟨hr, hmr, hmu⟩ := habsent
    obtain rfl : ns = [] := by
      rcases hreach with ⟨-, h⟩ | ⟨r, h, -⟩
      · exact h
      · rw [hr] at h; cases h
    rw [if_pos rfl, finishDecodeUpdate, hns, ok_bind]
    simp [checkMandatory, placeNexthop, hunreach, canonUpdate, hr, hmr, hmu, ha]
  | some a =>
    rw [ha] at hrecs hll hnh
    simp only [unknownOf, ha] at hunknown hopt
    have hll : a.base.llNexthop = none := by simpa [baseOf] using hll
    have hshown : hasRecords u = true := by simpa [attrsPresenceBad, ha] using hpresence
    obtain ⟨r, hr, hattrs, hside⟩ := decodeAttrSection_encodeAttrSection hll hunknown hopt hrecs
    have hne : recs ≠ [] := encodeRecords_ne_nil ha hshown hr hattrs hside
    rw [if_neg hne, hr, ok_bind, hattrs, hside, finishDecodeUpdate, hns, ok_bind, placeNexthop_block hll hnh hreach,
      checkMandatory_of_encode (u := u) ?_ ?_ (by rw [ha]; rfl) (by rw [ha]; rfl) ?_ hmandatory, ok_bind, hunreach]
    · simp only [canonUpdate, ha, Option.map_some]
      rfl
    · rintro hne hr
      rcases hreach with ⟨-, h⟩ | ⟨r, h, -⟩
      · exact hne h
      · rw [hr] at h; cases h
    · simp [blockOf, canonUpdate]
    · rintro hne hnone
      rcases hreach with ⟨-, h⟩ | ⟨r, h, -⟩
      · exact hne h
      · simp [blockOf, nexthopValue, canonUpdate, h] at hnone

/-- A pass-through value is framed under its kind, which gives the body back (R112 to R114, R118). -/
theorem decodeMessage_framePass {k : MsgKind} {body bs : Bytes} {m : Message} (hpar : par.legal = true)
    (hkind : ∀ cx, legalTotal (msgCode k) (19 + body.length) → decodeKind cx k body = .ok m)
    (h : framePass par k body = .ok bs) : decodeMessage par cx bs = .ok m := by
  have hlegal : legalTotal (msgCode k) (19 + body.length) := by
    by_contra hillegal
    rw [framePass_illegal hillegal] at h
    cases h
  rw [framePass_legal hlegal] at h
  rw [decodeMessage_frameBody hpar h, hkind cx hlegal]

/-- Settles O52: each kind is framed and comes back to its body rule; that of an UPDATE reads back each of its sections. -/
theorem roundTrip : Obligations.RoundTrip := by
  intro par cx m bs hpar h
  cases m with
  | keepalive => exact decodeMessage_frameBody hpar h
  | update u =>
    obtain ⟨body, hbody, hframe⟩ := bind_eq_ok.mp h
    have hlen : 23 ≤ 19 + body.length := by
      obtain ⟨-, wd, recs, nl, -, -, -, -, rfl⟩ := encodeUpdate_eq_ok hbody
      rw [wireUpdate_length]
      omega
    rw [decodeMessage_frameBody hpar hframe, decodeKind, checkTypeLength_legal (.inr (.inl ⟨rfl, hlen⟩)), ok_bind]
    simp only [decodeUpdate_encodeUpdate hpar hbody, ok_bind]
    rfl
  | openMsg b | notification b | routeRefresh b =>
    exact decodeMessage_framePass hpar (fun cx hl => by rw [decodeKind, checkTypeLength_legal hl, ok_bind]; rfl) h

end RoundTrip

/-! ### What DECODE returns encodes again (R145) -/

/-- The record of a type that A and st hold, if they hold a value of it (R142). -/
def emitField (cx : Cxt) (w : RecState) (t : AttrType) : Except CodecError Bytes :=
  match fieldOf t w with
  | some x => fieldBody cx t x >>= encodeRecord (expectedFlags t) (attrCode t)
  | none => .ok []

/-- A and st, built from `n` octets of an attribute section, can be written again: every field and every entry of `unknown`
has a record, together in at most `n` octets, and the entries are of types of their own. -/
structure Rewritable (cx : Cxt) (w : RecState) (n : Nat) : Prop where
  fields : ∀ t, ∃ bs, emitField cx w t = .ok bs
  entries : ∀ e ∈ w.attrs.unknown, Keepable cx e ∧ recordWf e.flags e.value = true
  distinct : (w.attrs.unknown.map UnknownAttr.type).Nodup
  apart : ∀ e ∈ w.attrs.unknown, ∀ t, e.type = attrCode t → fieldOf t w = none
  seen : ∀ c, c ∈ w.seen ↔ (∃ t, c = attrCode t ∧ fieldOf t w ≠ none) ∨ ∃ e ∈ w.attrs.unknown, e.type = c
  noted : 0 < n → w.seen ≠ []
  length : (recognizedTypes.map (emittedLength (emitField cx w))).sum +
    (w.attrs.unknown.map fun e => (recordOctets e.flags e.type e.value).length).sum ≤ n

section Rewriting

variable {cx : Cxt} {w : RecState} {n : Nat}

theorem emitField_absent {t : AttrType} (h : fieldOf t w = none) : emitField cx w t = .ok [] := by
  rw [emitField, h]

theorem emitField_present {t : AttrType} {x : FieldValue t} (h : fieldOf t w = some x) :
    emitField cx w t = fieldBody cx t x >>= encodeRecord (expectedFlags t) (attrCode t) := by
  rw [emitField, h]

theorem emitField_congr {w' : RecState} {t : AttrType} (h : fieldOf t w = fieldOf t w') :
    emitField cx w t = emitField cx w' t := by
  rw [emitField, emitField, h]

theorem emitSlot_known (cx : Cxt) (u : UpdateMsg) (a : Attrs) (t : AttrType) :
    emitSlot cx u a (.known t) = emitField cx (blockOf u a) t := by
  cases h : fieldOf t (blockOf u a) with
  | none => rw [emitSlot_absent h, emitField_absent h]
  | some x => rw [emitSlot_present h, emitField_present h]

theorem recordOctets_length (flags t : Byte) (v : Bytes) :
    (recordOctets flags t v).length = 2 + (if extendedBit flags then 2 else 1) + v.length := by
  simp [recordOctets]
  omega

theorem recordWf_iff {flags : Byte} {v : Bytes} :
    recordWf flags v = true ↔ v.length ≤ if extendedBit flags then 65535 else 255 := by
  rw [recordWf, decide_eq_true_eq]

/-- A record that was read is written with the flags it was read with (R176). -/
theorem recordFlags_of_wf {flags : Byte} {v : Bytes} (h : recordWf flags v = true) : recordFlags flags v = flags := by
  have hfits := recordWf_iff.mp h
  unfold recordFlags
  split
  · next hlong =>
    have hbit : ∀ f : Byte, extendedBit f = true → f ||| 0x10 = f := by decide
    refine hbit flags ?_
    by_contra hshort
    rw [if_neg hshort] at hfits
    omega
  · rfl

theorem encodeRecord_of_wf {flags t : Byte} {v : Bytes} (h : recordWf flags v = true) :
    encodeRecord flags t v = .ok (recordOctets flags t v) := by
  refine encodeRecord_eq_ok.mpr ⟨?_, by rw [recordFlags_of_wf h]⟩
  have hfits := recordWf_iff.mp h
  split at hfits <;> omega

/-- A record of a recognized type takes no more octets written again than it was read from (R145). -/
theorem encodeRecord_length_le {t : AttrType} {flags : Byte} {v v' : Bytes} (h : recordWf flags v = true)
    (hv : v'.length = v.length) : ∃ bs, encodeRecord (expectedFlags t) (attrCode t) v' = .ok bs ∧
      bs.length ≤ (recordOctets flags (attrCode t) v).length := by
  have hfits := recordWf_iff.mp h
  refine ⟨_, encodeRecord_eq_ok.mpr ⟨by rw [hv]; split at hfits <;> omega, rfl⟩, ?_⟩
  have hclear : extendedBit (expectedFlags t) = false :=
    Bool.eq_false_iff.mpr fun he => extendedBit_eq_true.mp he (expectedFlags_not_extended t)
  rw [recordOctets_length, recordOctets_length, hv]
  unfold recordFlags
  rw [hv]
  split
  · next hlong =>
    have he : extendedBit flags = true := by
      by_contra hshort
      rw [if_neg hshort] at hfits
      omega
    rw [he, if_pos rfl]
    split <;> omega
  · rw [hclear, if_neg Bool.false_ne_true]
    split <;> omega

theorem sum_map_of_update {l : List AttrType} (hl : l.Nodup) {t : AttrType} (ht : t ∈ l) {f g : AttrType → Nat}
    (hf : f t = 0) (hne : ∀ s, s ≠ t → g s = f s) : (l.map g).sum = (l.map f).sum + g t := by
  have herase : ((l.erase t).map g) = (l.erase t).map f :=
    List.map_congr_left fun s hs => hne s (by rintro rfl; exact hl.not_mem_erase hs)
  rw [← List.sum_map_erase g ht, ← List.sum_map_erase f ht, herase, hf]
  omega

theorem rewritable_start (cx : Cxt) : Rewritable cx {} 0 where
  fields _ := ⟨[], emitField_absent fieldOf_start⟩
  entries := by simp
  distinct := by simp
  apart := by simp
  seen := by simp
  noted := nofun
  length := by
    have hzero : emittedLength (emitField cx {}) = fun _ => 0 :=
      funext fun _ => emittedLength_of_ok (emitField_absent fieldOf_start)
    simp [hzero]

theorem unknown_setField {t : AttrType} (x : FieldValue t) : (setField t x w).attrs.unknown = w.attrs.unknown :=
  congrArg (fun p => p.2.2) (untypedPart_setField (w := w) x)

/-- A record whose value goes to its field (R163). -/
theorem rewritable_setField (hw : Rewritable cx w n) {t : AttrType} {x : FieldValue t} {flags : Byte} {v : Bytes}
    (hnew : attrCode t ∉ w.seen) (hparse : parseField cx t v = .ok (some x)) (hwf : recordWf flags v = true) :
    Rewritable cx (setField t x (noteType (attrCode t) w)) (n + (recordOctets flags (attrCode t) v).length) := by
  have habsent : fieldOf t w = none := by
    by_contra hpresent
    exact hnew ((hw.seen _).mpr (.inl ⟨t, rfl, hpresent⟩))
  obtain ⟨v', hbody, hlen⟩ := fieldBody_of_parseField hparse
  obtain ⟨bs, hbs, hle⟩ := encodeRecord_length_le (t := t) hwf hlen
  set w' := setField t x (noteType (attrCode t) w) with hw'
  have hsame : fieldOf t w' = some x := fieldOf_setField_same x
  have hother : ∀ s, s ≠ t → fieldOf s w' = fieldOf s w := fun s hs => by
    rw [hw', fieldOf_setField_ne x hs, fieldOf_noteType]
  have hunknown : w'.attrs.unknown = w.attrs.unknown := unknown_setField x
  have hemit : emitField cx w' t = .ok bs := by rw [emitField_present hsame, hbody, ok_bind, hbs]
  have hempty : emittedLength (emitField cx w) t = 0 := emittedLength_of_ok (emitField_absent habsent)
  constructor
  case fields =>
    intro s
    by_cases hs : s = t
    · exact hs ▸ ⟨bs, hemit⟩
    · rw [emitField_congr (hother s hs)]
      exact hw.fields s
  case entries => rw [hunknown]; exact hw.entries
  case distinct => rw [hunknown]; exact hw.distinct
  case apart =>
    intro e he s hs
    rw [hunknown] at he
    have hne : s ≠ t := by
      rintro rfl
      exact hnew ((hw.seen _).mpr (.inr ⟨e, he, hs⟩))
    rw [hother s hne]
    exact hw.apart e he s hs
  case seen =>
    intro c
    have hseen : w'.seen = attrCode t :: w.seen := by rw [hw', setField_seen, noteType_seen]
    rw [hseen, List.mem_cons, hw.seen, hunknown, ← or_assoc]
    refine or_congr_left ⟨?_, ?_⟩
    · rintro (rfl | ⟨s, rfl, hpresent⟩)
      · exact ⟨t, rfl, by rw [hsame]; simp⟩
      · have hne : s ≠ t := by
          rintro rfl
          exact hpresent habsent
        exact ⟨s, rfl, by rwa [hother s hne]⟩
    · rintro ⟨s, rfl, hpresent⟩
      by_cases hs : s = t
      · exact .inl (hs ▸ rfl)
      · exact .inr ⟨s, rfl, by rwa [hother s hs] at hpresent⟩
  case noted =>
    intro _
    rw [hw', setField_seen, noteType_seen]
    exact List.cons_ne_nil _ _
  case length =>
    have hsum := sum_map_of_update recognizedTypes_nodup (mem_recognizedTypes t) hempty
      (g := emittedLength (emitField cx w')) (fun s hs => by
        rw [emittedLength, emittedLength, emitField_congr (hother s hs)])
    have := hw.length
    rw [hsum, hunknown, emittedLength_of_ok hemit]
    omega

/-- A record that is kept in `unknown` (R165, R242). -/
theorem rewritable_keepUnknown (hw : Rewritable cx w n) {flags c : Byte} {v : Bytes} (hnew : c ∉ w.seen)
    (hkeep : Keepable cx ⟨flags, c, v⟩) (hwf : recordWf flags v = true) :
    Rewritable cx (keepUnknown flags c v (noteType c w)) (n + (recordOctets flags c v).length) := by
  set w' := keepUnknown flags c v (noteType c w) with hw'
  have hfield : ∀ t, fieldOf t w' = fieldOf t w := fun t => by rw [hw', fieldOf_keepUnknown, fieldOf_noteType]
  have hunknown : w'.attrs.unknown = w.attrs.unknown ++ [⟨flags, c, v⟩] := rfl
  have hmem : ∀ e, e ∈ w'.attrs.unknown ↔ e ∈ w.attrs.unknown ∨ e = ⟨flags, c, v⟩ := fun e => by
    rw [hunknown, List.mem_append, List.mem_singleton]
  have hemit : emitField cx w' = emitField cx w := funext fun t => emitField_congr (hfield t)
  constructor
  case fields => rw [hemit]; exact hw.fields
  case entries =>
    intro e he
    rcases (hmem e).mp he with he | rfl
    · exact hw.entries e he
    · exact ⟨hkeep, hwf⟩
  case distinct =>
    rw [hunknown, List.map_append, List.map_singleton, ← List.concat_eq_append, List.nodup_concat]
    refine ⟨?_, hw.distinct⟩
    intro hc
    obtain ⟨e, he, rfl⟩ := List.mem_map.mp hc
    exact hnew ((hw.seen _).mpr (.inr ⟨e, he, rfl⟩))
  case apart =>
    intro e he t ht
    rw [hfield]
    rcases (hmem e).mp he with he | rfl
    · exact hw.apart e he t ht
    · by_contra hpresent
      exact hnew ((hw.seen _).mpr (.inl ⟨t, ht, hpresent⟩))
  case seen =>
    intro d
    have hseen : w'.seen = c :: w.seen := rfl
    simp only [hseen, List.mem_cons, hw.seen, hfield, hmem, or_and_right, exists_or, exists_eq_left]
    rw [or_left_comm, or_comm (a := d = c), eq_comm (a := d)]
  case noted => exact fun _ => List.cons_ne_nil _ _
  case length =>
    have := hw.length
    rw [hemit, hunknown, List.map_append, List.sum_append]
    simp only [List.map_cons, List.map_nil, List.sum_cons, List.sum_nil]
    omega

/-- An attribute section that is read can be written again in no more octets. -/
theorem rewritable_of_decodeAttrSection {sec : Bytes} {r : RecState} (h : decodeAttrSection cx sec = .ok r) :
    Rewritable cx r sec.length := by
  refine scan_consumed (fun w n bs w' rest hw hround => ?_) (rewritable_start cx) h
  obtain ⟨⟨f, rest'⟩, hread, hround⟩ := bind_eq_ok.mp hround
  obtain ⟨w'', hdispatch, hpair⟩ := bind_eq_ok.mp hround
  cases hpair
  obtain ⟨hbs, -⟩ := readRecord_eq_ok hread
  refine ⟨_, hbs, ?_⟩
  have hwf := readRecord_recordWf hread
  obtain ⟨flags, c, v⟩ := f
  obtain ⟨hnew, ⟨t, x, rfl, hparse, rfl⟩ | ⟨hkeep, rfl⟩⟩ := dispatchAttr_eq_ok hdispatch
  · exact rewritable_setField hw hnew hparse hwf
  · exact rewritable_keepUnknown hw hnew hkeep hwf

end Rewriting

section ReEncode

variable {par : Params} {cx : Cxt} {u : UpdateMsg} {a : Attrs} {r : RecState} {n : Nat}

/-- The records of a value whose block A and st hold are written in as many octets as they were read from, or fewer. -/
theorem encodeAttrSection_of_rewritable (hr : Rewritable cx r n) (hfield : ∀ t, fieldOf t (blockOf u a) = fieldOf t r)
    (hunknown : a.unknown = r.attrs.unknown) : ∃ out, encodeAttrSection cx u a = .ok out ∧ out.length ≤ n := by
  have hknown : ∀ t, emitSlot cx u a (.known t) = emitField cx r t := fun t => by
    rw [emitSlot_known, emitField_congr (hfield t)]
  have hentry : ∀ e ∈ a.unknown, emitSlot cx u a (.unknown e) = .ok (recordOctets e.flags e.type e.value) := by
    intro e he
    rw [hunknown] at he
    exact encodeRecord_of_wf (hr.entries e he).2
  obtain ⟨out, hout⟩ : ∃ out, encodeAttrSection cx u a = .ok out := by
    refine emitAll_succeeds.mpr fun slot hslot => ?_
    rcases List.mem_append.mp hslot with hslot | hslot
    · obtain ⟨t, -, rfl⟩ := List.mem_map.mp hslot
      exact hknown t ▸ hr.fields t
    · obtain ⟨e, he, rfl⟩ := List.mem_map.mp hslot
      exact ⟨_, hentry e he⟩
  refine ⟨out, hout, ?_⟩
  have hfields : (recognizedTypes.map .known).map (emittedLength (emitSlot cx u a)) =
      recognizedTypes.map (emittedLength (emitField cx r)) := by
    rw [List.map_map]
    exact List.map_congr_left fun t _ => by rw [Function.comp, emittedLength, emittedLength, hknown]
  have hentries : (a.unknown.map .unknown).map (emittedLength (emitSlot cx u a)) =
      r.attrs.unknown.map fun e => (recordOctets e.flags e.type e.value).length := by
    rw [List.map_map, ← hunknown]
    exact List.map_congr_left fun e he => emittedLength_of_ok (hentry e he)
  rw [emitAll_length hout, slotsOf, List.map_append, List.sum_append, hfields, hentries]
  exact hr.length

theorem checkUnknown_of_keepable {es : List UnknownAttr} {earlier : List Byte}
    (hkeep : ∀ e ∈ es, Keepable cx e ∧ ∀ t, e.type = attrCode t → fieldOf t (blockOf u a) = none)
    (hdistinct : (es.map UnknownAttr.type).Nodup) (hnew : ∀ e ∈ es, e.type ∉ earlier) :
    checkUnknown cx u earlier es = .ok () := by
  induction es generalizing earlier with
  | nil => rfl
  | cons e es ih =>
    obtain ⟨⟨⟨-, hcapture⟩, hfree⟩, hkeep⟩ := List.forall_mem_cons.mp hkeep
    obtain ⟨hfirst, hdistinct⟩ := List.nodup_cons.mp hdistinct
    obtain ⟨hnewe, hnew⟩ := List.forall_mem_cons.mp hnew
    have hpass : entryCollides cx u earlier e = false :=
      (entryCollides_eq_false a).mpr ⟨hnewe, fun t ht => ⟨(hcapture t ht).1, (hcapture t ht).2, hfree t ht⟩⟩
    rw [checkUnknown, hpass, raiseIf_false, ok_bind]
    refine ih hkeep hdistinct fun d hd => ?_
    rw [List.mem_cons, not_or]
    exact ⟨fun heq => hfirst (heq ▸ List.mem_map_of_mem hd), hnew d hd⟩

theorem checkUnknownOptional_of_keepable {es : List UnknownAttr} (h : ∀ e ∈ es, Keepable cx e) :
    checkUnknownOptional es = .ok () := by
  induction es with
  | nil => rfl
  | cons e es ih =>
    obtain ⟨he, hes⟩ := List.forall_mem_cons.mp h
    rw [checkUnknownOptional, he.1, Bool.not_true, raiseIf_false, ok_bind, ih hes]

/-- What DECODE asks for at least, ENCODE asks for at most (R136, R139). -/
theorem checkMandatoryEncode_of_decode {ns : List Prefix4} {attrs : Option Attrs} {st : Side}
    (hreach : u.reach ≠ none → ns ≠ []) (hmp : u.mpReach = st.mpReach)
    (horigin : (baseOf u.attrs).origin = (baseOf attrs).origin) (hpath : (baseOf u.attrs).asPath = (baseOf attrs).asPath)
    (h : checkMandatory ns st attrs = .ok ()) : checkMandatoryEncode u = .ok () := by
  obtain ⟨_, h1, h⟩ := bind_eq_ok.mp h
  obtain ⟨_, h2, -⟩ := bind_eq_ok.mp h
  have hadvertises : (u.reach.isSome || u.mpReach.isSome) = true → (ns != [] || st.mpReach.isSome) = true := by
    simp only [Bool.or_eq_true, bne_iff_ne, hmp, Option.isSome_iff_ne_none]
    exact Or.imp_left hreach
  have himp : ∀ {b c d : Bool}, (b = true → c = true) → (c && d) = false → (b && d) = false := by decide
  rw [checkMandatoryEncode, horigin, hpath, himp hadvertises (raiseIf_eq_ok.mp h1), himp hadvertises (raiseIf_eq_ok.mp h2)]
  rfl

end ReEncode

section Decoded

variable {par : Params} {cx : Cxt} {u : UpdateMsg}

theorem finishDecodeUpdate_eq_ok {unreach : Option UnreachNlri} {attrs : Option Attrs} {st : Side} {nsec : Bytes}
    (h : finishDecodeUpdate unreach attrs st nsec = .ok u) :
    ∃ ns, decodePrefixList 32 nsec = .ok ns ∧ checkMandatory ns st attrs = .ok () ∧
      u = { reach := (placeNexthop ns st.nh attrs).1, unreach := unreach, mpReach := st.mpReach,
            mpUnreach := st.mpUnreach, attrs := (placeNexthop ns st.nh attrs).2 } := by
  obtain ⟨ns, hns, h⟩ := bind_eq_ok.mp h
  obtain ⟨_, hmandatory, h⟩ := bind_eq_ok.mp h
  exact ⟨ns, hns, hmandatory, (Except.ok.inj h).symm⟩

/-- Where NEXT_HOP is placed in a value, ENCODE takes it from: the block of the value is A and st (R135, R143). -/
theorem placeNexthop_some {r : RecState} (hclean : r.attrs.base.nexthop = none) (ns : List Prefix4) :
    ∃ reach a, placeNexthop ns r.side.nh (some r.attrs) = (reach, some a) ∧
      (reach = none ∨ ∃ h, reach = some ⟨ns, h⟩ ∧ ns ≠ []) ∧
      a.unknown = r.attrs.unknown ∧
      ∀ unreach, blockOf ⟨reach, unreach, r.side.mpReach, r.side.mpUnreach, some a⟩ a = { r with seen := [] } := by
  obtain ⟨⟨⟨_, _, _, _, _, _, _, _, _, _, _, _⟩, _, _, _, _, _⟩, ⟨nh, _, _⟩, _⟩ := r
  cases hclean
  cases nh with
  | none => exact ⟨none, _, rfl, .inl rfl, rfl, fun _ => rfl⟩
  | some h =>
    by_cases hns : ns = []
    · exact ⟨none, _, if_pos hns, .inl rfl, rfl, fun _ => rfl⟩
    · exact ⟨some ⟨ns, h⟩, _, if_neg hns, .inr ⟨h, rfl, hns⟩, rfl, fun _ => rfl⟩

/-- The withdrawn group and the reachable group of a value are written in as many octets as they were read from. -/
theorem encodeUnreach_of_decoded {wd : List Prefix4} {wsec : Bytes} (hwd : decodePrefixList 32 wsec = .ok wd)
    (hu : u.unreach = unreachOf wd) : ∃ out, encodeUnreach u = .ok out ∧ out.length ≤ wsec.length := by
  unfold encodeUnreach unreachOf at *
  rw [hu]
  split
  · next r hr =>
    split at hr
    · cases hr
    · cases hr
      obtain ⟨out, hout, hlen⟩ := encodePrefixList_of_decoded (by norm_num) hwd
      exact ⟨out, hout, hlen.le⟩
  · exact ⟨[], rfl, Nat.zero_le _⟩

theorem encodeReach_of_decoded {ns : List Prefix4} {nsec : Bytes} (hns : decodePrefixList 32 nsec = .ok ns)
    (hu : u.reach = none ∨ ∃ h, u.reach = some ⟨ns, h⟩ ∧ ns ≠ []) :
    ∃ out, encodeReach u = .ok out ∧ out.length ≤ nsec.length := by
  unfold encodeReach
  rcases hu with hu | ⟨h, hu, -⟩
  · rw [hu]
    exact ⟨[], rfl, Nat.zero_le _⟩
  · rw [hu]
    obtain ⟨out, hout, hlen⟩ := encodePrefixList_of_decoded (by norm_num) hns
    exact ⟨out, hout, hlen.le⟩

/-- The checks on a value that a DECODE built: those that say more than what every such value is. -/
theorem checkUpdate_of_decoded (hu : DecodedUpdate u) (hpresence : attrsPresenceBad u = false)
    (hunknown : checkUnknown cx u [] (unknownOf u) = .ok ()) (hmandatory : checkMandatoryEncode u = .ok ())
    (hopt : checkUnknownOptional (unknownOf u) = .ok ()) : checkUpdate cx u = .ok () := by
  refine checkUpdate_eq_ok.mpr ⟨?_, hpresence, ?_, ?_, hunknown, hmandatory, hopt⟩
  · have hreach := hu.reachPrefixes
    have hunreach := hu.unreachPrefixes
    unfold emptyLegacyGroup
    cases hr : u.reach <;> cases hw : u.unreach <;> simp_all
  · have hll := hu.noLinkLocal
    cases ha : u.attrs with
    | none => rfl
    | some a => simp [baseOf, hll a ha]
  · have hnh := hu.nexthopOnce
    cases ha : u.attrs with
    | none => simp [baseOf]
    | some a =>
      cases hr : u.reach with
      | none => rfl
      | some r => simp [baseOf, hnh (by simp [hr]) a ha]

/-- What follows the attribute section of an UPDATE that decodes: the value can be written again, its records in no more
octets, and its entries of `unknown` as they are. -/
theorem checks_of_decodeAttrSection {unreach : Option UnreachNlri} {asec nsec : Bytes} {r : RecState}
    (hdecoded : DecodedUpdate u) (hasec : asec ≠ []) (hr : decodeAttrSection cx asec = .ok r)
    (h : finishDecodeUpdate unreach (some r.attrs) r.side nsec = .ok u) :
    checkUpdate cx u = .ok () ∧ (∃ out, encodeRecords cx u = .ok out ∧ out.length ≤ asec.length) ∧
      ∀ a, u.attrs = some a → a.unknown.map canonUnknown = a.unknown := by
  have hclean := (decodeAttrSection_clean cx asec r hr).nexthop
  have hrewrite := rewritable_of_decodeAttrSection hr
  obtain ⟨ns, -, hmandatory, rfl⟩ := finishDecodeUpdate_eq_ok h
  obtain ⟨reach, a, hplace, hreach, hunknown, hblock⟩ := placeNexthop_some hclean ns
  simp only [hplace] at hdecoded ⊢
  have hblock := hblock unreach
  set u : UpdateMsg := ⟨reach, unreach, r.side.mpReach, r.side.mpUnreach, some a⟩ with hu
  have hfield : ∀ t, fieldOf t (blockOf u a) = fieldOf t r := fun t => by
    rw [hblock]
    exact fieldOf_congr rfl rfl
  have hbase : a.base.origin = r.attrs.base.origin ∧ a.base.asPath = r.attrs.base.asPath :=
    ⟨hfield .origin, hfield .asPath⟩
  have hkeep : ∀ e ∈ a.unknown, Keepable cx e := fun e he => (hrewrite.entries e (hunknown ▸ he)).1
  have hshown : hasRecords u = true := by
    by_contra hnone
    obtain ⟨hnofield, hnoentry⟩ := (hasRecords_eq_false (u := u) rfl).mp (by simpa using hnone)
    obtain ⟨c, hc⟩ := List.exists_mem_of_ne_nil _ (hrewrite.noted (List.length_pos_iff.mpr hasec))
    rcases (hrewrite.seen c).mp hc with ⟨t, -, hpresent⟩ | ⟨e, he, -⟩
    · exact hpresent (hfield t ▸ hnofield t)
    · rw [← hunknown, hnoentry] at he
      cases he
  have hpresence : attrsPresenceBad u = false := by
    show (!hasRecords u) = false
    rw [hshown, Bool.not_true]
  refine ⟨checkUpdate_of_decoded hdecoded hpresence ?_ ?_ ?_,
    encodeAttrSection_of_rewritable hrewrite hfield hunknown, ?_⟩
  · refine checkUnknown_of_keepable (a := a) (fun e he => ⟨hkeep e he, fun t ht => ?_⟩) ?_ (by simp)
    · rw [hfield]
      exact hrewrite.apart e (hunknown ▸ he) t ht
    · show (a.unknown.map UnknownAttr.type).Nodup
      exact hunknown ▸ hrewrite.distinct
  · refine checkMandatoryEncode_of_decode (attrs := some r.attrs) (fun hne => ?_) rfl hbase.1 hbase.2 hmandatory
    rcases hreach with rfl | ⟨h, -, hns⟩
    · exact absurd rfl hne
    · exact hns
  · exact checkUnknownOptional_of_keepable hkeep
  · rintro _ ⟨⟩
    rw [List.map_congr_left (g := id), List.map_id]
    intro e he
    rw [canonUnknown_eq, recordFlags_of_wf (hrewrite.entries e (hunknown ▸ he)).2]
    rfl

/-- The same where there is no attribute section: nothing is advertised, and there are no attributes. -/
theorem checks_of_noAttrs {unreach : Option UnreachNlri} {nsec : Bytes} (hdecoded : DecodedUpdate u)
    (h : finishDecodeUpdate unreach none {} nsec = .ok u) :
    checkUpdate cx u = .ok () ∧ encodeRecords cx u = .ok [] ∧ u.attrs = none := by
  obtain ⟨ns, -, -, rfl⟩ := finishDecodeUpdate_eq_ok h
  exact ⟨checkUpdate_of_decoded hdecoded rfl rfl rfl rfl, rfl, rfl⟩

/-- A value that a DECODE built is in canonical form where its entries of `unknown` are. -/
theorem canonUpdate_of_decoded (hu : DecodedUpdate u) (h : ∀ a, u.attrs = some a → a.unknown.map canonUnknown = a.unknown) :
    canonUpdate u = u := by
  have hsame : ∀ {β : Type} {f : β → β} {o : Option β}, (∀ x, o = some x → f x = x) → o.map f = o := by
    intro β f o ho
    cases o with
    | none => rfl
    | some x => rw [Option.map_some, ho x rfl]
  have hreach : u.reach.map (fun r => { r with prefixes := r.prefixes.map canonPrefix }) = u.reach :=
    hsame fun r hr => by rw [map_canonPrefix_of_canonical (hu.reachPrefixes r hr).2]
  have hunreach : u.unreach.map (fun r => { r with prefixes := r.prefixes.map canonPrefix }) = u.unreach :=
    hsame fun r hr => by rw [map_canonPrefix_of_canonical (hu.unreachPrefixes r hr).2]
  have hmpReach : u.mpReach.map canonReach = u.mpReach := hsame fun g hg => by
    have hps := hu.mpReachPrefixes g hg
    cases g <;> rw [canonReach, map_canonPrefix_of_canonical hps]
  have hmpUnreach : u.mpUnreach.map canonUnreach = u.mpUnreach := hsame fun g hg => by
    have hps := hu.mpUnreachPrefixes g hg
    cases g <;> rw [canonUnreach, map_canonPrefix_of_canonical hps]
  have hattrs : u.attrs.map (fun a => { a with unknown := a.unknown.map canonUnknown }) = u.attrs :=
    hsame fun a ha => by rw [h a ha]
  rw [canonUpdate, hreach, hunreach, hmpReach, hmpUnreach, hattrs]

/-- An UPDATE body that decodes is written again in no more octets, and its value is canonical (R145). -/
theorem encodeUpdate_of_decoded {b : Bytes} (hfits : 19 + b.length ≤ par.maxMsgLen) (h : decodeUpdate cx b = .ok u) :
    canonUpdate u = u ∧ ∃ body, encodeUpdate par cx u = .ok body ∧ body.length ≤ b.length := by
  have hdecoded := decodeUpdate_decoded h
  obtain ⟨⟨wsec, asec, nsec⟩, hsplit, h⟩ := bind_eq_ok.mp h
  obtain ⟨ps, hps, h⟩ := bind_eq_ok.mp h
  have hlen := splitUpdate_length hsplit
  obtain ⟨hchecks, ⟨recs, hrecs, hrecsLen⟩, hcanon, attrs, st, hfinish⟩ : checkUpdate cx u = .ok () ∧
      (∃ recs, encodeRecords cx u = .ok recs ∧ recs.length ≤ asec.length) ∧
      (∀ a, u.attrs = some a → a.unknown.map canonUnknown = a.unknown) ∧
      ∃ attrs st, finishDecodeUpdate (unreachOf ps) attrs st nsec = .ok u := by
    split at h
    · obtain ⟨hchecks, hrecs, hattrs⟩ := checks_of_noAttrs (cx := cx) hdecoded h
      exact ⟨hchecks, ⟨[], hrecs, Nat.zero_le _⟩, by simp [hattrs], _, _, h⟩
    · next hasec =>
      obtain ⟨r, hr, h⟩ := bind_eq_ok.mp h
      obtain ⟨hchecks, hrecs, hcanon⟩ := checks_of_decodeAttrSection hdecoded hasec hr h
      exact ⟨hchecks, hrecs, hcanon, _, _, h⟩
  obtain ⟨ns, hns, -, hu⟩ := finishDecodeUpdate_eq_ok hfinish
  obtain ⟨wd, hwd, hwdLen⟩ := encodeUnreach_of_decoded (u := u) hps (by rw [hu])
  obtain ⟨nl, hnl, hnlLen⟩ : ∃ out, encodeReach u = .ok out ∧ out.length ≤ nsec.length := by
    refine encodeReach_of_decoded hns ?_
    rcases placeNexthop_cases (nl := ns) (nh := st.nh) (attrs := attrs) with hp | ⟨nh, hp⟩ | ⟨nh, hne, hp⟩
    · exact .inl (by rw [hu, hp])
    · exact .inl (by rw [hu, hp])
    · exact .inr ⟨nh, by rw [hu, hp], hne⟩
  refine ⟨canonUpdate_of_decoded hdecoded hcanon, wireUpdate wd recs nl, ?_, by rw [wireUpdate_length]; omega⟩
  rw [encodeUpdate_of_checks hchecks, hwd, ok_bind, hrecs, ok_bind, hnl, ok_bind, decide_eq_false (by omega), raiseIf_false,
    ok_bind]

/-- What a DECODE returns comes from a body that fits a message, by the rule of its kind (R103 to R109). -/
theorem decodeMessage_eq_ok {b : Bytes} {m : Message} (h : decodeMessage par cx b = .ok m) :
    ∃ k body, 19 + body.length ≤ par.maxMsgLen ∧ decodeKind cx k body = .ok m := by
  obtain ⟨f, hread, h⟩ := bind_eq_ok.mp h
  obtain ⟨hwf, -⟩ := readHeader_eq_ok.mp hread
  obtain ⟨-, -, -, hfits⟩ := messageWf_iff.mp hwf
  unfold dispatchMessage at h
  split at h
  · next k _ => exact ⟨k, f.body, hfits, h⟩
  · cases h

/-- A value that a DECODE returns is canonical, and is encoded. -/
theorem encodeMessage_of_decoded {b : Bytes} {m : Message} (h : decodeMessage par cx b = .ok m) :
    canonMessage m = m ∧ ∃ bs, encodeMessage par cx m = .ok bs := by
  obtain ⟨k, body, hfits, h⟩ := decodeMessage_eq_ok h
  obtain ⟨_, hlegal, h⟩ := bind_eq_ok.mp h
  have hlegal : legalTotal (msgCode k) (19 + body.length) :=
    lenOk_eq_true_iff.mp (Bool.not_eq_eq_eq_not.mp (raiseIf_eq_ok.mp hlegal))
  cases k with
  | update =>
    obtain ⟨u, hu, h⟩ := bind_eq_ok.mp h
    cases h
    obtain ⟨hcanon, body', hbody, hle⟩ := encodeUpdate_of_decoded hfits hu
    have hencode : encodeMessage par cx (.update u) = frameBody par .update body' := by rw [encodeMessage, hbody, ok_bind]
    exact ⟨congrArg Message.update hcanon, _, hencode.trans (frameBody_fits (by omega))⟩
  | keepalive =>
    cases h
    exact ⟨rfl, _, frameBody_fits (by simp; omega)⟩
  | openMsg | notification | routeRefresh =>
    cases h
    exact ⟨rfl, _, (framePass_legal hlegal).trans (frameBody_fits hfits)⟩

/-- Settles O53: the value a DECODE returns is canonical and encodes, so that the round trip gives it back. -/
theorem reEncode : Obligations.ReEncode := by
  intro par cx b m hpar h
  obtain ⟨hcanon, bs, hbs⟩ := encodeMessage_of_decoded h
  refine ⟨bs, hbs, ?_⟩
  rw [roundTrip par cx m bs hpar hbs, hcanon]

end Decoded

/-! ### The emission of an attribute section, record by record (R141, R142) -/

section EmissionRun

variable {cx : Cxt} {s : State}

/-- At the end of the slots the rest of the UPDATE is encoded and framed (R141). -/
theorem step_atEmission_nil {w : EncWork} (h : w.todo = []) :
    step (atEmission cx w s) = .next (endEncode (do
      let body ← finishEncodeUpdate s.par w.upd w.wd w.out
      frameBody s.par .update body) s) := by
  refine step_done ?_
  simp only [atEmission, fetch, setEngine_engine, fetchEncode, h, setEngine_par, endEncode_setEngine]

/-- A step at a slot emits what the slot emits, an entry of `unknown` being optional (R140, R142). -/
theorem step_atEmission_emits {w : EncWork} {slot : Slot} {rest : List Slot} (h : w.todo = slot :: rest)
    (hopt : ∀ e, slot = .unknown e → e.flags &&& 0x80 ≠ 0) :
    step (atEmission cx w s) = emitRecord cx { w with todo := rest } s (emitSlot cx w.upd w.attrs slot) := by
  cases slot with
  | known t =>
    have hslot := slotForm_known cx w.upd w.attrs t
    cases hx : fieldOf t (blockOf w.upd w.attrs) with
    | none =>
      rw [hx] at hslot
      rw [step_atEmission h, hslot, emitSlot_absent hx]
      simp only [fieldForm, emitRecord, appendOut, List.append_nil]
    | some x =>
      rw [hx] at hslot
      rw [step_atEmission_present h hslot, emitSlot_present hx]
  | unknown e =>
    rw [step_atEmission h, emitSlot_unknown]
    refine (exec_form_atEmission ⟨e.flags, e.type, e.value⟩ (.inr (hopt e rfl)) cx _ s).trans ?_
    cases encodeRecord e.flags e.type e.value <;> rfl

/-- The run over the slots left ends the ENCODE as its rules do. -/
theorem run_atEmission (todo : List Slot) (hopt : ∀ e, Slot.unknown e ∈ todo → e.flags &&& 0x80 ≠ 0) {w : EncWork}
    (hw : w.todo = todo) :
    ∃ k, Sys2Proof.core.run k (atEmission cx w s) = .next (endEncode (do
      let more ← emitAll (emitSlot cx w.upd w.attrs) todo
      let body ← finishEncodeUpdate s.par w.upd w.wd (w.out ++ more)
      frameBody s.par .update body) s) := by
  induction todo generalizing w with
  | nil =>
    refine ⟨1, ?_⟩
    rw [emitAll_nil, ok_bind, List.append_nil]
    exact (core_run_one _).trans (step_atEmission_nil hw)
  | cons slot todo ih =>
    have hstep := step_atEmission_emits (cx := cx) (s := s) hw (fun e he => hopt e (he ▸ List.mem_cons_self ..))
    cases hslot : emitSlot cx w.upd w.attrs slot with
    | error e =>
      refine ⟨1, ?_⟩
      rw [core_run_one, hstep, hslot, emitAll_cons, hslot]
      rfl
    | ok own =>
      obtain ⟨k, hk⟩ := ih (fun e he => hopt e (List.mem_cons_of_mem _ he)) (w := appendOut own { w with todo := todo }) rfl
      refine ⟨k + 1, ?_⟩
      rw [hslot] at hstep
      rw [core_run_succ k hstep, hk, emitAll_cons, hslot, ok_bind, bind_assoc]
      simp only [appendOut, ok_bind, List.append_assoc]

end EmissionRun

/-- Settles O56: each step emits what its slot emits, and the last one frames the UPDATE. -/
theorem encodeStepsAgree : Obligations.EncodeStepsAgree :=
  fun _ _ w hopt => run_atEmission w.todo hopt rfl

/-! ### The UPDATE form inside a DECODE, section by section (R130 to R136) -/

section UpdateForm

variable {cx : Cxt} {b marker body : Bytes} {s : State}

/-- The UPDATE form ends a DECODE with what its body decodes to. -/
theorem exec_msgUpdate_atMessage (h : 4 ≤ body.length) :
    exec (.msgUpdate marker body) (atMessage cx b s) =
      .next (endDecode (decodeUpdate cx body >>= fun u => .ok (.update u)) s) := by
  have hkind : decodeKind cx .update body = decodeUpdate cx body >>= fun u => .ok (.update u) := by
    rw [decodeKind, checkTypeLength_legal (.inr (.inl ⟨rfl, by omega⟩)), ok_bind]
  rw [← hkind]
  exact exec_message_atMessage .update marker body cx b s

theorem exec_msgUpdate_of_ok {u : UpdateMsg} (h : 4 ≤ body.length) (hu : decodeUpdate cx body = .ok u) :
    exec (.msgUpdate marker body) (atMessage cx b s) = .next (deliverMessage (.update u) s) := by
  rw [exec_msgUpdate_atMessage h, hu, ok_bind, endDecode_ok]

theorem exec_msgUpdate_of_error {e : CodecError} (h : 4 ≤ body.length) (he : decodeUpdate cx body = .error e) :
    exec (.msgUpdate marker body) (atMessage cx b s) = .next (raiseError lastDecode e s) := by
  rw [exec_msgUpdate_atMessage h, he, error_bind, endDecode_error]

theorem decodeUpdate_of_split_error {e : CodecError} (h : splitUpdate body = .error e) : decodeUpdate cx body = .error e := by
  rw [decodeUpdate, h, error_bind]

end UpdateForm

/-- Settles O18: the two length fields, read as numbers, are what `split_update` compares with the octets left. -/
theorem sectionOverruns : Obligations.SectionOverruns := by
  intro s cx b marker rest w1 w2 hrest
  dsimp only
  have hbody : 4 ≤ (w1 :: w2 :: rest).length := by
    simp only [List.length_cons]
    omega
  refine ⟨fun h => ?_, fun wd tail a1 a2 hsections hwd h => ?_⟩
  · refine exec_msgUpdate_of_error hbody (decodeUpdate_of_split_error ?_)
    have hsplit := splitUpdate_withdrawnOverrun (lw := [w1, w2]) rfl hrest (by rwa [beNat_two])
    rwa [beNat_two] at hsplit
  · refine exec_msgUpdate_of_error hbody (decodeUpdate_of_split_error ?_)
    have hsplit := splitUpdate_fields (lw := [w1, w2]) (wd := wd) (la := [a1, a2]) (tail := tail) rfl rfl
      (by rw [beNat_two, hwd])
    rw [beNat_two, if_pos h] at hsplit
    rw [hsections, ← hsplit]
    simp

section UpdateSections

variable {cx : Cxt} {wd recs nl : Bytes} {r : RecState}

/-- The attributes of an UPDATE are absent exactly where its attribute section is empty (R133). -/
def sectionAttrs (recs : Bytes) (r : RecState) : Option Attrs :=
  if recs = [] then none else some r.attrs

/-- An empty attribute section decodes to empty attributes, so that the base block is the same whether they are absent. -/
theorem baseOf_sectionAttrs (h : decodeAttrSection cx recs = .ok r) : baseOf (sectionAttrs recs r) = r.attrs.base := by
  unfold sectionAttrs
  split
  · next hnil =>
    subst hnil
    cases h
    rfl
  · rfl

/-- `decode_update` on a body of three sections, in their order (R130). -/
theorem decodeUpdate_wireUpdate (nl : Bytes) (hwd : wd.length < 65536) (hrecs : recs.length < 65536) :
    decodeUpdate cx (wireUpdate wd recs nl) = (do
      let ps ← decodePrefixList 32 wd
      let r ← decodeAttrSection cx recs
      finishDecodeUpdate (unreachOf ps) (sectionAttrs recs r) r.side nl) := by
  rw [decodeUpdate, splitUpdate_wireUpdate nl hwd hrecs, ok_bind]
  unfold sectionAttrs
  by_cases hnil : recs = []
  · subst hnil
    rfl
  · simp only [if_neg hnil]

/-- The mandatory attributes: ORIGIN, then AS_PATH, then NEXT_HOP for legacy prefixes (R136). -/
theorem checkMandatory_eq (ns : List Prefix4) (st : Side) (attrs : Option Attrs) : checkMandatory ns st attrs =
    if (ns ≠ [] ∨ st.mpReach ≠ none) ∧ (baseOf attrs).origin = none then .error (err .absent 1)
    else if (ns ≠ [] ∨ st.mpReach ≠ none) ∧ (baseOf attrs).asPath = none then .error (err .absent 2)
    else if ns ≠ [] ∧ st.nh = none then .error (err .absent 3)
    else .ok () := by
  have hsome : ∀ {α : Type} {o : Option α}, o.isSome = true ↔ o ≠ none := Option.isSome_iff_ne_none
  rw [checkMandatory, raiseIf_bind, raiseIf_bind]
  simp only [raiseIf, Bool.and_eq_true, Bool.or_eq_true, bne_iff_ne, hsome,
    Option.isNone_iff_eq_none]

theorem placeNexthop_fst (ns : List Prefix4) (nh : Option Ipv4) (attrs : Option Attrs) :
    (placeNexthop ns nh attrs).1 = if ns = [] then none else nh.map fun h => { prefixes := ns, nexthop := h } := by
  cases nh with
  | none => simp [placeNexthop]
  | some h => by_cases hns : ns = [] <;> simp [placeNexthop, hns]

theorem placeNexthop_snd (ns : List Prefix4) (recs : Bytes) (r : RecState) :
    (placeNexthop ns r.side.nh (sectionAttrs recs r)).2 = if recs = [] then none else some (placedAttrs ns r) := by
  unfold sectionAttrs placedAttrs
  cases r.side.nh with
  | none => simp only [placeNexthop]
  | some h => by_cases hns : ns = [] <;> by_cases hrecs : recs = [] <;> simp [placeNexthop, hns, hrecs]

end UpdateSections

/-- Settles O19: the sections decode, the mandatory check passes, and `place_nexthop` fills one of the two fields. -/
theorem updateDecodes : Obligations.UpdateDecodes := by
  intro s cx b marker wd recs nl ps ns r hwd hrecs hps hr hns hadvertised hnexthop
  refine exec_msgUpdate_of_ok (by rw [wireUpdate_length]; omega) ?_
  have hmandatory : checkMandatory ns r.side (sectionAttrs recs r) = .ok () := by
    rw [checkMandatory_eq, baseOf_sectionAttrs hr, if_neg, if_neg, if_neg]
    · rintro ⟨hne, hnone⟩
      exact hnexthop hne hnone
    · rintro ⟨hadv, hnone⟩
      exact (hadvertised hadv).2 hnone
    · rintro ⟨hadv, hnone⟩
      exact (hadvertised hadv).1 hnone
  rw [decodeUpdate_wireUpdate nl hwd hrecs, hps, ok_bind, hr, ok_bind, finishDecodeUpdate, hns, ok_bind, hmandatory, ok_bind]
  simp only [placeNexthop_fst, placeNexthop_snd, unreachOf]

/-- Settles O20: the sections are decoded in their order, and the mandatory check follows them. -/
theorem updateErrors : Obligations.UpdateErrors := by
  intro s cx b marker wd recs nl ps ns r e hwd hrecs
  have raises : ∀ {e}, (decodePrefixList 32 wd >>= fun ps => decodeAttrSection cx recs >>= fun r =>
      finishDecodeUpdate (unreachOf ps) (sectionAttrs recs r) r.side nl) = .error e →
      exec (.msgUpdate marker (wireUpdate wd recs nl)) (atMessage cx b s) = .next (raiseError 1 e s) := fun h =>
    exec_msgUpdate_of_error (by rw [wireUpdate_length]; omega) ((decodeUpdate_wireUpdate nl hwd hrecs).trans h)
  have mandatory : ∀ {e}, decodePrefixList 32 wd = .ok ps → decodeAttrSection cx recs = .ok r →
      decodePrefixList 32 nl = .ok ns → checkMandatory ns r.side (sectionAttrs recs r) = .error e →
      exec (.msgUpdate marker (wireUpdate wd recs nl)) (atMessage cx b s) = .next (raiseError 1 e s) :=
    fun hps hr hns h => raises (by
      rw [hps, ok_bind, hr, ok_bind, finishDecodeUpdate, hns, ok_bind, h, error_bind])
  refine ⟨fun h => raises ?_, fun hps h => raises ?_, fun hps hr h => raises ?_, fun hps hr hns =>
    ⟨fun hadv ho => mandatory hps hr hns ?_, fun hadv ho hp => mandatory hps hr hns ?_,
      fun hne ho hp hnh => mandatory hps hr hns ?_⟩⟩
  · rw [h, error_bind]
  · rw [hps, ok_bind, h, error_bind]
  · rw [hps, ok_bind, hr, ok_bind, finishDecodeUpdate, h, error_bind]
  · rw [checkMandatory_eq, baseOf_sectionAttrs hr, if_pos ⟨hadv, ho⟩]
  · rw [checkMandatory_eq, baseOf_sectionAttrs hr, if_neg (fun h => ho h.2), if_pos ⟨hadv, hp⟩]
  · rw [checkMandatory_eq, baseOf_sectionAttrs hr, if_neg (fun h => ho h.2), if_neg (fun h => hp h.2), if_pos ⟨hne, hnh⟩]

/-! ### The checks of an ENCODE on an UPDATE value (R138 to R140) -/

section ValueChecks

variable {cx : Cxt} {u : UpdateMsg} {s : State} {e : CodecError}

/-- The checks of R138 to R140 as one chain: a check is reached where those before it pass. -/
theorem checkUpdate_eq : checkUpdate cx u =
    if emptyLegacyGroup u then .error (err .emptyLegacyGroup 0)
    else if attrsPresenceBad u then .error (err .attrsPresence 0)
    else if (baseOf u.attrs).llNexthop.isSome then .error (err .llNexthopSet 0)
    else if u.reach.isSome && (baseOf u.attrs).nexthop.isSome then .error (err .nexthopConflict 0)
    else (do
      checkUnknown cx u [] (unknownOf u)
      checkMandatoryEncode u
      checkUnknownOptional (unknownOf u)) := by
  simp only [checkUpdate, checkValue, bind_assoc]
  simp only [raiseIf_bind]

/-- A check that fails ends an ENCODE of an UPDATE with its error. -/
theorem exec_encode_of_checkUpdate_error (hin : encodeInputs s cx (.update u)) (h : checkUpdate cx u = .error e) :
    exec .encode s = .next (raiseError 2 e s) :=
  exec_encode_of_error hin (by rw [encodeMessage, encodeUpdate, h, error_bind, error_bind])

theorem emptyLegacyGroup_iff : emptyLegacyGroup u = true ↔
    (∃ r, u.reach = some r ∧ r.prefixes = []) ∨ ∃ r, u.unreach = some r ∧ r.prefixes = [] := by
  unfold emptyLegacyGroup
  cases u.reach <;> cases u.unreach <;> simp

/-- A typed field of the base block is there exactly where the attributes are there and hold it. -/
theorem isSome_baseOf_iff {α : Type} (field : BaseAttrs → Option α) (hnone : field {} = none) {o : Option Attrs} :
    (field (baseOf o)).isSome = true ↔ ∃ a, o = some a ∧ field a.base ≠ none := by
  cases o with
  | none => simp [baseOf, hnone]
  | some a => simp [baseOf, Option.isSome_iff_ne_none]

/-- An absent `attrs` needs that there is no group, and attributes that are there need a record that shows them. -/
theorem attrsPresenceBad_iff : attrsPresenceBad u = true ↔
    (u.attrs = none ∧ (u.reach ≠ none ∨ u.mpReach ≠ none ∨ u.mpUnreach ≠ none)) ∨
      (u.attrs ≠ none ∧ hasRecords u = false) := by
  unfold attrsPresenceBad
  cases u.attrs <;> simp [Option.isSome_iff_ne_none, or_assoc]

/-- A record shows a value exactly where a group that needs attributes is there, or an attribute. -/
theorem hasRecords_iff : hasRecords u = true ↔
    (u.reach ≠ none ∨ u.mpReach ≠ none ∨ u.mpUnreach ≠ none) ∨
      ∃ a, u.attrs = some a ∧ (a.base.atomicAggregate = true ∨ a.unknown ≠ [] ∨ a.base.origin ≠ none ∨
        a.base.asPath ≠ none ∨ a.base.as4Path ≠ none ∨ a.base.nexthop ≠ none ∨ a.base.med ≠ none ∨
        a.base.localPref ≠ none ∨ a.base.aggregator ≠ none ∨ a.base.as4Aggregator ≠ none ∨
        a.base.originatorId ≠ none ∨ a.base.clusterList ≠ none ∨ a.comm ≠ none ∨ a.extComm ≠ none ∨
        a.extv6Comm ≠ none ∨ a.largeComm ≠ none) := by
  unfold hasRecords
  cases u.attrs <;> simp [Option.isSome_iff_ne_none, or_assoc]

end ValueChecks

/-- Settles O49: each check of R138 says what the statement spells out, and they stand in one chain. -/
theorem updateValueChecks : Obligations.UpdateValueChecks := by
  intro s cx u hin empty grouped shown presence linkLocal conflict
  have raises : ∀ {e}, checkUpdate cx u = .error e → exec .encode s = .next (raiseError 2 e s) :=
    exec_encode_of_checkUpdate_error hin
  have hempty : emptyLegacyGroup u = true ↔ empty := emptyLegacyGroup_iff
  have hpresence : attrsPresenceBad u = true ↔ presence := by
    rw [attrsPresenceBad_iff, ← Bool.not_eq_true, hasRecords_iff, not_or]
  have hlinkLocal : (baseOf u.attrs).llNexthop.isSome = true ↔ linkLocal := isSome_baseOf_iff (·.llNexthop) rfl
  have hconflict : (u.reach.isSome && (baseOf u.attrs).nexthop.isSome) = true ↔ conflict := by
    rw [Bool.and_eq_true, Option.isSome_iff_ne_none, isSome_baseOf_iff (·.nexthop) rfl]
  simp only [checkUpdate_eq, hempty, hpresence, hlinkLocal, hconflict] at raises
  refine ⟨fun h => raises ?_, fun h1 h => raises ?_, fun h1 h2 h => raises ?_, fun h1 h2 h3 h => raises ?_⟩
  · rw [if_pos h]
  · rw [if_neg h1, if_pos h]
  · rw [if_neg h1, if_neg h2, if_pos h]
  · rw [if_neg h1, if_neg h2, if_neg h3, if_pos h]

/-! ### The entries of `unknown` and the mandatory attributes (R138 check 5, R139, R140) -/

section UnknownChecks

variable {cx : Cxt} {u : UpdateMsg} {seen before rest : List UnknownAttr} {e : UnknownAttr}

/-- The legal families, read from the first three octets of a multiprotocol body (R238). -/
theorem legalFamily_octets {v : Bytes} (h : 3 ≤ v.length) :
    legalFamily cx (be 16 (v.take 2)) (octet (v.drop 2)) = true ↔
      (cx.mpIpv4 = true ∧ v.take 3 = [0, 1, 1]) ∨ (cx.mpIpv6 = true ∧ v.take 3 = [0, 2, 1]) := by
  match v with
  | [] | [_] | [_, _] => simp at h
  | a :: b :: safi :: rest =>
    have hafi : ∀ {n : Nat}, n < 256 → (a ++ b = BitVec.ofNat 16 n ↔ a = 0#8 ∧ b = BitVec.ofNat 8 n) := by
      intro n hn
      have := a.isLt
      have := b.isLt
      simp only [← BitVec.toNat_inj, append_two_toNat, BitVec.toNat_ofNat]
      omega
    have h1 := hafi (n := 1) (by omega)
    have h2 := hafi (n := 2) (by omega)
    simp only [List.take_succ_cons, List.take_zero, be_two, octet, List.drop_succ_cons, List.drop_zero, List.headD_cons,
      legalFamily_eq_true, List.cons.injEq, and_true]
    rw [show (1 : Half) = BitVec.ofNat 16 1 from rfl, show (2 : Half) = BitVec.ofNat 16 2 from rfl, h1, h2]
    tauto

/-- An entry of a multiprotocol type could not come back as the captured record it stands for (R138 check 5). -/
theorem captureCollides_iff {α : Type} {group : Option α} : captureCollides cx e group.isSome = true ↔
    e.flags &&& 0xE0 ≠ 0x80 ∨ e.value.length < 3 ∨ (cx.mpIpv4 = true ∧ e.value.take 3 = [0, 1, 1]) ∨
      (cx.mpIpv6 = true ∧ e.value.take 3 = [0, 2, 1]) ∨ group ≠ none := by
  rw [captureCollides]
  rcases Nat.lt_or_ge e.value.length 3 with hshort | hlong
  · simp [hshort]
  · rw [Bool.or_eq_true, Bool.or_eq_true, legalFamily_octets hlong]
    simp [Nat.not_lt.mpr hlong, Option.isSome_iff_ne_none, or_assoc]

/-- An unrecognized code is none of the recognized ones (R76). -/
theorem ne_attrCode_of_attrTypeOf_eq_none {c : Byte} (h : attrTypeOf c = none) (t : AttrType) : c ≠ attrCode t := by
  rintro rfl
  rw [attrTypeOf_attrCode] at h
  cases h

/-- The model's check of one entry, which is told the types before it, is R138's (check 5). -/
theorem entryCollides_iff : entryCollides cx u (seen.reverse.map (·.type)) e = true ↔ collides cx u seen e := by
  unfold entryCollides collides
  rw [Bool.or_eq_true]
  refine or_congr (by simp) ?_
  cases hc : attrTypeOf e.type with
  | none =>
    have hne := forall_attrType.mp (ne_attrCode_of_attrTypeOf_eq_none hc)
    simp only [attrCode, BitVec.ofNat_eq_ofNat, ne_eq] at hne
    simp [hne]
  | some t =>
    rw [attrTypeOf_eq_some.mp hc]
    cases t with
    | mpReachNlri => simp [captureCollides_iff, attrCode]
    | mpUnreachNlri => simp [captureCollides_iff, attrCode]
    | _ => simp [attrCode]

/-- Entries that do not collide are passed over (R138 check 5). -/
theorem checkUnknown_skip (h : ∀ b1 d b2, before = b1 ++ d :: b2 → ¬ collides cx u (seen ++ b1) d) :
    checkUnknown cx u (seen.reverse.map (·.type)) (before ++ rest) =
      checkUnknown cx u ((seen ++ before).reverse.map (·.type)) rest := by
  induction before generalizing seen with
  | nil => simp
  | cons d before ih =>
    have hd : entryCollides cx u (seen.reverse.map (·.type)) d = false := by
      rw [← Bool.not_eq_true, entryCollides_iff]
      simpa using h [] d before rfl
    have hrest := ih (seen := seen ++ [d]) fun b1 x b2 hsplit => by
      simpa using h (d :: b1) x b2 (by rw [hsplit, List.cons_append])
    rw [List.cons_append, checkUnknown, hd, raiseIf_false, ok_bind]
    simpa using hrest

/-- The first entry that collides is the one reported (R138 check 5). -/
theorem checkUnknown_of_first (h : ∀ b1 d b2, before = b1 ++ d :: b2 → ¬ collides cx u b1 d)
    (he : collides cx u before e) :
    checkUnknown cx u [] (before ++ e :: rest) = .error (err .unknownCollision e.type.toNat) := by
  have hskip := checkUnknown_skip (seen := []) (rest := e :: rest) h
  rw [List.nil_append, checkUnknown, entryCollides_iff.mpr he] at hskip
  exact hskip

theorem checkUnknown_of_none (h : ∀ b1 d b2, before = b1 ++ d :: b2 → ¬ collides cx u b1 d) :
    checkUnknown cx u [] before = .ok () := by
  have hskip := checkUnknown_skip (seen := []) (rest := []) h
  rwa [List.append_nil] at hskip

/-- The first entry with O = 0 is the one reported (R140). -/
theorem checkUnknownOptional_of_first (h : ∀ d ∈ before, d.flags &&& 0x80 ≠ 0) (he : e.flags &&& 0x80 = 0) :
    checkUnknownOptional (before ++ e :: rest) = .error (err .unknownNotOptional e.type.toNat) := by
  induction before with
  | nil =>
    have hbit : optionalBit e.flags = false := by rw [optionalBit, he]; rfl
    rw [List.nil_append, checkUnknownOptional, hbit, Bool.not_false, raiseIf_true, error_bind]
  | cons d before ih =>
    rw [List.forall_mem_cons] at h
    rw [List.cons_append, checkUnknownOptional, optionalBit_eq_true.mpr h.1, Bool.not_true, raiseIf_false, ok_bind, ih h.2]

/-- ORIGIN, then AS_PATH, of an UPDATE that advertises (R139). -/
theorem checkMandatoryEncode_eq : checkMandatoryEncode u =
    if (u.reach ≠ none ∨ u.mpReach ≠ none) ∧ (baseOf u.attrs).origin = none then .error (err .absent 1)
    else if (u.reach ≠ none ∨ u.mpReach ≠ none) ∧ (baseOf u.attrs).asPath = none then .error (err .absent 2)
    else .ok () := by
  rw [checkMandatoryEncode, raiseIf_bind]
  simp only [raiseIf, Bool.and_eq_true, Bool.or_eq_true, Option.isSome_iff_ne_none, Option.isNone_iff_eq_none]

end UnknownChecks

/-- Settles O50: past checks 1 to 4 what is left is check 5, then R139, then R140, each a walk in list order. -/
theorem unknownAndMandatoryChecks : Obligations.UnknownAndMandatoryChecks := by
  intro s cx u a hin ha hempty hrecords hll hnh
  have hvalue : checkUpdate cx u = (do
      checkUnknown cx u [] a.unknown
      checkMandatoryEncode u
      checkUnknownOptional a.unknown) := by
    have hconflict : ¬ ((u.reach.isSome && a.base.nexthop.isSome) = true) := by
      rcases hnh with h | h <;> simp [h]
    have hpresence : ¬ (attrsPresenceBad u = true) := by
      simp [attrsPresenceBad, ha, hrecords]
    have hbase : baseOf u.attrs = a.base := by rw [ha]; rfl
    have hunknown : unknownOf u = a.unknown := by rw [unknownOf, ha]
    rw [checkUpdate_eq, if_neg (by simp [hempty]), if_neg hpresence, hbase, if_neg (by simp [hll]), if_neg hconflict,
      hunknown]
  have hmandatory := checkMandatoryEncode_eq (u := u)
  rw [show baseOf u.attrs = a.base by rw [ha]; rfl] at hmandatory
  have raises : ∀ {e}, checkUpdate cx u = .error e → exec .encode s = .next (raiseError 2 e s) :=
    exec_encode_of_checkUpdate_error hin
  refine ⟨fun before e after hsplit hbefore he => raises ?_, fun hnone => ⟨fun hadv ho => raises ?_,
    fun hadv ho hp => raises ?_, fun hpresent before e after hsplit hbefore he => raises ?_⟩⟩
  · rw [hvalue, hsplit, checkUnknown_of_first hbefore he, error_bind]
  · rw [hvalue, checkUnknown_of_none hnone, ok_bind, hmandatory, if_pos ⟨hadv, ho⟩, error_bind]
  · rw [hvalue, checkUnknown_of_none hnone, ok_bind, hmandatory, if_neg (fun h => ho h.2), if_pos ⟨hadv, hp⟩, error_bind]
  · rw [hvalue, checkUnknown_of_none hnone, ok_bind, hmandatory, if_neg (fun h => (hpresent h.1).1 h.2),
      if_neg (fun h => (hpresent h.1).2 h.2), ok_bind, hsplit, checkUnknownOptional_of_first hbefore he]

/-! ### The sections of an ENCODE, in their order (R141) -/

/-- Settles O51: past the checks an ENCODE of an UPDATE is its three sections in order, the length check, and the frame. -/
theorem updateEncodes : Obligations.UpdateEncodes := by
  refine ⟨by decide, ?_⟩
  intro s cx u wd recs nl e hpar hin hchecks withdrawn records reachable raises
  have hwithdrawn : encodeUnreach u = withdrawn := rfl
  have hrecords : encodeRecords cx u = records := rfl
  have hreachable : encodeReach u = reachable := rfl
  have hmessage : encodeMessage s.par cx (.update u) = encodeUpdate s.par cx u >>= frameBody s.par .update := rfl
  rw [encodeUpdate_of_checks hchecks, hwithdrawn, hrecords, hreachable] at hmessage
  refine ⟨fun hw => exec_encode_of_error hin ?_, fun hw hr => exec_encode_of_error hin ?_,
    fun hw hr hn => exec_encode_of_error hin ?_, fun hw hr hn =>
    ⟨fun hfits => exec_encode_of_ok hin ?_, fun hlong => exec_encode_of_error hin ?_⟩⟩
  · rw [hmessage, hw, error_bind, error_bind]
  · rw [hmessage, hw, ok_bind, hr, error_bind, error_bind]
  · rw [hmessage, hw, ok_bind, hr, ok_bind, hn, error_bind, error_bind]
  · have htotal : 19 + (wireUpdate wd recs nl).length = 23 + wd.length + recs.length + nl.length := by
      rw [wireUpdate_length]
      omega
    rw [hmessage, hw, ok_bind, hr, ok_bind, hn, ok_bind, decide_eq_false (Nat.not_lt.mpr hfits), raiseIf_false, ok_bind, ok_bind,
      frameBody_fits (by rw [htotal]; exact hfits), htotal]
    rfl
  · rw [hmessage, hw, ok_bind, hr, ok_bind, hn, ok_bind, decide_eq_true hlong, raiseIf_true, error_bind, error_bind]

end Sys2Proof.Machine

/-! ### Proofs: the attribute records, decode and encode, and the run of a DECODE form by form (42_attributes.md R160 to R176,
43_aspath.md R211 to R216) -/

namespace Sys2Proof.Machine

open Sys2Proof

/-! ### A record form inside a DECODE (R160 to R163) -/

section Records

variable {cx : Cxt} {w : UpdWork} {s : State} {f : RecForm}

theorem exec_record_of_ok {r : RecState} (h : dispatchAttr cx f w.recs = .ok r) :
    exec f.toInstr (atRecords cx w s) = .next (atRecords cx { w with recs := r } s) := by
  rw [exec_record_atRecords, h]

theorem exec_record_of_error {e : CodecError} (h : dispatchAttr cx f w.recs = .error e) :
    exec f.toInstr (atRecords cx w s) = .next (raiseError lastDecode e s) := by
  rw [exec_record_atRecords, h]

end Records

/-! ### The envelope of a record (R161) -/

section Envelope

variable {f t : Byte} {v rest : Bytes}

theorem extendedBit_eq_false : extendedBit f = false ↔ f &&& 0x10 = 0 := by
  rw [← Bool.not_eq_true, extendedBit_eq_true, not_not]

theorem readOctets_short {n : Nat} {e : CodecError} {bs : Bytes} (h : bs.length < n) : readOctets n e bs = .error e :=
  if_pos h

/-- A record cut before its length is complete, which has one octet, or two where E is set. -/
theorem readRecord_truncated {bs : Bytes} (h : bs.length < if extendedBit f then 2 else 1) :
    readRecord (f :: t :: bs) = .error (err .recordTruncated t.toNat) := by
  simp only [readRecord, readOctets_short h, error_bind]

/-- A record whose length is complete: the octets it announces, where they are there. -/
theorem readRecord_length {len : Bytes} (hlen : len.length = if extendedBit f then 2 else 1) (bs : Bytes) :
    readRecord (f :: t :: (len ++ bs)) = readOctets (beNat len) (err .recordOverrun t.toNat) bs >>= fun p =>
      .ok ({ flags := f, type := t, body := p.1 }, p.2) := by
  simp only [readRecord, ← hlen, readOctets_append, ok_bind]

theorem readRecord_overrun {len : Bytes} (hlen : len.length = if extendedBit f then 2 else 1) (h : v.length < beNat len) :
    readRecord (f :: t :: (len ++ v)) = .error (err .recordOverrun t.toNat) := by
  rw [readRecord_length hlen, readOctets_short h, error_bind]

theorem readRecord_fits {len : Bytes} (hlen : len.length = if extendedBit f then 2 else 1) (h : v.length = beNat len)
    (rest : Bytes) : readRecord (f :: t :: (len ++ (v ++ rest))) = .ok ({ flags := f, type := t, body := v }, rest) := by
  rw [readRecord_length hlen, ← h, readOctets_append, ok_bind]

variable {cx : Cxt} {w : UpdWork} {s : State}

theorem step_atRecords_error {e : CodecError} (hcur : w.cur < w.sec.length) (h : readRecord (w.sec.drop w.cur) = .error e) :
    step (atRecords cx w s) = .next (raiseError lastDecode e s) := by
  rw [step_atRecords hcur, h]

/-- A step at a record that fits the section runs its form, the cursor having moved past the record. -/
theorem step_atRecords_fits {len : Bytes} (hcur : w.cur < w.sec.length) (hlen : len.length = if extendedBit f then 2 else 1)
    (h : v.length = beNat len) (hsec : w.sec.drop w.cur = f :: t :: (len ++ (v ++ rest))) {moved : Nat}
    (hmoved : moved = w.cur + (2 + len.length) + v.length) :
    step (atRecords cx w s) = exec (RecForm.toInstr { flags := f, type := t, body := v })
      (atRecords cx { w with cur := moved } s) := by
  have hleft := congrArg List.length hsec
  simp only [List.length_drop, List.length_cons, List.length_append] at hleft
  rw [step_atRecords hcur, hsec, readRecord_fits hlen h, show moved = w.sec.length - rest.length by omega]

end Envelope

/-- Settles O22: the length has one octet or two, and what it announces is there or not. -/
theorem recordEnvelope : Obligations.RecordEnvelope := by
  intro s cx w f t l1 l2 v hcur
  have raises : ∀ {e}, readRecord (w.sec.drop w.cur) = .error e →
      step (atRecords cx w s) = .next (raiseError 1 e s) := step_atRecords_error hcur
  have hnarrow : f &&& 0x10 = 0 → [l1].length = if extendedBit f then 2 else 1 := by
    intro he
    rw [extendedBit_eq_false.mpr he]
    rfl
  have hwide : f &&& 0x10 ≠ 0 → [l1, l2].length = if extendedBit f then 2 else 1 := by
    intro he
    rw [extendedBit_eq_true.mpr he]
    rfl
  have hvalue : beNat [l1] = l1.toNat := by simp [beNat]
  refine ⟨fun hsec => raises ?_, fun hsec => raises ?_, fun he hsec hv => raises ?_, fun he hsec hv => raises ?_,
    fun rest he hsec hv => ?_, fun rest he hsec hv => ?_⟩
  · rw [hsec]
    rfl
  · rcases hsec with hsec | ⟨he, hsec⟩
    · rw [hsec, readRecord_truncated (by split <;> simp)]
    · rw [hsec, readRecord_truncated (by simp [extendedBit_eq_true.mpr he])]
  · rw [hsec]
    exact readRecord_overrun (hnarrow he) (hvalue ▸ hv)
  · rw [hsec]
    exact readRecord_overrun (hwide he) (beNat_two l1 l2 ▸ hv)
  · exact step_atRecords_fits hcur (hnarrow he) (hvalue ▸ hv) hsec (by simp)
  · exact step_atRecords_fits hcur (hwide he) (beNat_two l1 l2 ▸ hv) hsec (by simp)

/-! ### What precedes the body of a record: the duplicate check, then the flag check (R162, R164) -/

section Opening

variable {cx : Cxt} {w : UpdWork} {s : State} {t : AttrType} {flags : Byte} {v : Bytes}

/-- A type code seen before ends the record, recognized or not (R162). -/
theorem dispatchAttr_duplicate {f : RecForm} {r : RecState} (h : f.type ∈ r.seen) :
    dispatchAttr cx f r = .error (err .duplicate f.type.toNat) := by
  obtain ⟨flags, c, v⟩ := f
  cases hc : attrTypeOf c with
  | none =>
    simp only [dispatchAttr, hc]
    rw [decodeUnrecognized, checkDuplicate_eq, if_pos h, error_bind]
  | some t =>
    obtain rfl := attrTypeOf_eq_some.mp hc
    rw [dispatchAttr_known, openRecord, checkDuplicate_eq, if_pos h, error_bind, error_bind]

/-- A record that is accepted notes its type (R162). -/
theorem dispatchAttr_seen {f : RecForm} {r r' : RecState} (h : dispatchAttr cx f r = .ok r') : r'.seen = f.type :: r.seen := by
  rcases (dispatchAttr_eq_ok h).2 with ⟨t, x, ht, -, rfl⟩ | ⟨-, rfl⟩
  · rw [setField_seen, noteType_seen, ht]
  · rw [keepUnknown_seen, noteType_seen]

/-- A record of a recognized type not seen before whose flags fail ends the command, whatever its body (R164). -/
theorem exec_known_of_flags_error {e : CodecError} (hnew : attrCode t ∉ w.recs.seen) (h : checkFlags flags t = .error e) :
    exec (RecForm.toInstr { flags := flags, type := attrCode t, body := v }) (atRecords cx w s) =
      .next (raiseError lastDecode e s) := by
  refine exec_record_of_error ?_
  rw [dispatchAttr_known, openRecord, checkDuplicate_eq, if_neg hnew, ok_bind, h, error_bind, error_bind]

end Opening

/-- Settles O23: a duplicate is found before anything else, and a record that is accepted notes its type. -/
theorem duplicateTypesRejected : Obligations.DuplicateTypesRejected := by
  intro s t cx w f
  refine ⟨fun h => exec_record_of_error (dispatchAttr_duplicate h), fun hexec hengine => ?_⟩
  cases hrec : dispatchAttr cx f w.recs with
  | error e =>
    rw [exec_record_of_error hrec] at hexec
    cases hexec
    exact absurd rfl hengine
  | ok r =>
    rw [exec_record_of_ok hrec] at hexec
    cases hexec
    exact ⟨_, rfl, dispatchAttr_seen hrec, rfl, rfl, rfl, rfl⟩

/-- Settles O24: the rows are those of the recognized types, and both checks are those of `check_flags`. -/
theorem flagChecks : Obligations.FlagChecks := by
  intro s cx w code expected flags v hrow hnew
  obtain ⟨t, -, ht⟩ : ∃ t ∈ recognizedTypes, (attrCode t, expectedFlags t) = (code, expected) := List.mem_map.mp hrow
  cases ht
  refine ⟨fun hot => exec_known_of_flags_error hnew ?_, fun hot htransitive hpartial => exec_known_of_flags_error hnew ?_⟩
  · rw [checkFlags_eq, if_pos hot]
  · rw [checkFlags_eq, if_neg (not_not.mpr hot), if_pos ⟨htransitive, hpartial⟩]

/-! ### A record of a recognized type whose flags pass, and the record of its value (R163, R166 to R175) -/

section Values

variable {cx : Cxt} {t : AttrType} {x : FieldValue t} {flags : Byte} {v : Bytes} {s : State}

section Decode

variable {w : UpdWork} (hopens : recordOpens (attrCode t) (expectedFlags t) flags w)

include hopens

theorem dispatchAttr_of_opens : dispatchAttr cx ⟨flags, attrCode t, v⟩ w.recs =
    parseField cx t v >>= fun x => .ok (storeRecord t flags v (noteType (attrCode t) w.recs) x) := by
  rw [dispatchAttr_known, openRecord_of_opens hopens, ok_bind]
  rfl

/-- The body that an ENCODE writes for a value is stored as the canonical form of the value. -/
theorem exec_stores (hbody : fieldBody cx t x = .ok v) :
    exec (RecForm.toInstr { flags := flags, type := attrCode t, body := v }) (atRecords cx w s) =
      .next (atRecords cx { w with recs := setField t (canonField t x) (noteType (attrCode t) w.recs) } s) := by
  refine exec_record_of_ok ?_
  rw [dispatchAttr_of_opens hopens, parseField_fieldBody hbody, ok_bind, storeRecord]

theorem exec_rejects {e : CodecError} (h : parseField cx t v = .error e) :
    exec (RecForm.toInstr { flags := flags, type := attrCode t, body := v }) (atRecords cx w s) =
      .next (raiseError lastDecode e s) := by
  refine exec_record_of_error ?_
  rw [dispatchAttr_of_opens hopens, h, error_bind]

end Decode

/-- The length of the body of a type that has one length (R166 to R172, R174). -/
def fixedWidth (cx : Cxt) : AttrType → Option Nat
  | .origin => some 1
  | .nextHop | .multiExitDisc | .localPref | .originatorId => some 4
  | .atomicAggregate => some 0
  | .aggregator => some (asnWidth cx + 4)
  | .as4Aggregator => some 8
  | _ => none

/-- A body of another length is refused before its value is looked at. -/
theorem parseField_wrong_length {n : Nat} (hn : fixedWidth cx t = some n) (h : v.length ≠ n) :
    parseField cx t v = .error (err .bodyLength (attrCode t).toNat) := by
  cases t <;> cases hn
  all_goals rw [parseField, fixedBody_eq, if_neg h, error_bind]

/-- A type of one length inside a DECODE: a body that an ENCODE writes is stored, one of another length ends the command. -/
theorem exec_fixedWidth {w : UpdWork} {n : Nat} {v' : Bytes} (hn : fixedWidth cx t = some n) (hbody : fieldBody cx t x = .ok v)
    (hopens : recordOpens (attrCode t) (expectedFlags t) flags w) :
    exec (RecForm.toInstr { flags := flags, type := attrCode t, body := v }) (atRecords cx w s) =
        .next (atRecords cx { w with recs := setField t (canonField t x) (noteType (attrCode t) w.recs) } s) ∧
      (v'.length ≠ n → exec (RecForm.toInstr { flags := flags, type := attrCode t, body := v' }) (atRecords cx w s) =
        .next (raiseError lastDecode (err .bodyLength (attrCode t).toNat) s)) :=
  ⟨exec_stores hopens hbody, fun hv => exec_rejects hopens (parseField_wrong_length hn hv)⟩

/-- A step at the slot of a value that is there emits the record of its body. -/
theorem step_emits {e : EncWork} {rest : List Slot} (htodo : e.todo = .known t :: rest)
    (hfield : fieldOf t (blockOf e.upd e.attrs) = some x) (hbody : fieldBody cx t x = .ok v) (hv : v.length ≤ 65535) :
    step (atEmission cx e s) = .next
      (atEmission cx (appendOut (wireRecord (expectedFlags t) (attrCode t) v) { e with todo := rest }) s) := by
  refine step_emits_known htodo ?_ hv
  rw [slotForm_known, hfield, fieldForm, hbody, ok_bind]

/-- A step at the slot of a value whose body cannot be built ends the command. -/
theorem step_emission_rejects {e : EncWork} {rest : List Slot} {x' : CodecError} (htodo : e.todo = .known t :: rest)
    (hfield : fieldOf t (blockOf e.upd e.attrs) = some x) (hbody : fieldBody cx t x = .error x') :
    step (atEmission cx e s) = .next (raiseError lastEncode x' s) := by
  refine step_emission_error htodo ?_
  rw [slotForm_known, hfield, fieldForm, hbody, error_bind]

end Values

/-! ### ORIGIN (R166) -/

theorem originOf_eq_none {c : Byte} (h : 2 < c.toNat) : originOf c = none := by
  revert c
  decide

theorem parseField_origin_unassigned {cx : Cxt} {c : Byte} (h : originOf c = none) :
    parseField cx .origin [c] = .error (err .originValue c.toNat) := by
  show (match originOf c with
    | some o => .ok (some o)
    | none => .error (err .originValue c.toNat) : Except CodecError (Option Origin)) = _
  rw [h]
  rfl

/-- Settles O25: the length, then the value; the three codes are those of the three origins. -/
theorem originAttribute : Obligations.OriginAttribute := by
  intro s cx w flags x v e rest
  refine ⟨fun h hv => exec_rejects (t := .origin) h (parseField_wrong_length rfl hv), fun h hx => ?_, fun o hcode => ?_⟩
  · exact exec_rejects (t := .origin) h (parseField_origin_unassigned (originOf_eq_none hx))
  · obtain ⟨_, -, ho⟩ : ∃ o' ∈ [Origin.igp, .egp, .incomplete], (originCode o', o') = (x, o) := List.mem_map.mp hcode
    cases ho
    exact ⟨fun h => exec_stores (t := .origin) h rfl,
      fun htodo hfield => step_emits (t := .origin) htodo hfield rfl (by simp)⟩

/-! ### The attributes of four octets (R143, R167 to R169, R172) -/

theorem nexthopValue_of_reach {u : UpdateMsg} {r : ReachNlri} (h : u.reach = some r) (a : Attrs) :
    nexthopValue u a = some r.nexthop := by
  rw [nexthopValue, h]

theorem nexthopValue_of_no_reach {u : UpdateMsg} (h : u.reach = none) (a : Attrs) : nexthopValue u a = a.base.nexthop := by
  rw [nexthopValue, h]

/-- Settles O26: the body of each of the four types is the four octets of the value. -/
theorem fourOctetAttributes : Obligations.FourOctetAttributes := by
  intro s cx w flags x0 x1 x2 x3 v e rest value emits
  have hbody : (.ok (toBe 4 value.toNat) : Except CodecError Bytes) = .ok [x0, x1, x2, x3] :=
    congrArg _ (toBe_four x0 x1 x2 x3)
  have hlen : [x0, x1, x2, x3].length ≤ 65535 := by simp
  exact ⟨exec_fixedWidth (t := .nextHop) rfl hbody, exec_fixedWidth (t := .multiExitDisc) rfl hbody,
    exec_fixedWidth (t := .localPref) rfl hbody, exec_fixedWidth (t := .originatorId) rfl hbody,
    fun htodo ⟨_, hreach⟩ => step_emits (t := .nextHop) htodo (nexthopValue_of_reach hreach _) hbody hlen,
    fun htodo hreach hnh =>
      step_emits (t := .nextHop) htodo ((nexthopValue_of_no_reach hreach _).trans hnh) hbody hlen,
    fun htodo hmed => step_emits (t := .multiExitDisc) htodo hmed hbody hlen,
    fun htodo hpref => step_emits (t := .localPref) htodo hpref hbody hlen,
    fun htodo hid => step_emits (t := .originatorId) htodo hid hbody hlen⟩

/-! ### ATOMIC_AGGREGATE (R170) -/

/-- Settles O27: the one body is the empty one, and the slot is absent where the flag is not set. -/
theorem atomicAggregateAttribute : Obligations.AtomicAggregateAttribute := by
  intro s cx w flags v e rest
  refine ⟨fun h => ?_, fun htodo => ?_⟩
  · obtain ⟨hstores, hrejects⟩ := exec_fixedWidth (t := .atomicAggregate) (x := ()) (v' := v) (s := s) (cx := cx) rfl rfl h
    exact ⟨hstores, fun hv => hrejects (fun hlen => hv (List.length_eq_zero_iff.mp hlen))⟩
  · cases hflag : e.attrs.base.atomicAggregate with
    | true => exact step_emits (t := .atomicAggregate) (x := ()) htodo (if_pos hflag) rfl (Nat.zero_le _)
    | false =>
      rw [step_atEmission_emits htodo (by simp), emitSlot_absent (t := .atomicAggregate) (if_neg (Bool.eq_false_iff.mp hflag))]
      rfl

/-! ### AGGREGATOR and AS4_AGGREGATOR (R171, R174, R211) -/

section Aggregators

variable {cx : Cxt}

theorem asnWidth_of_as4 (h : cx.as4 = true) : asnWidth cx = 4 := if_pos h

theorem asnWidth_of_not_as4 (h : cx.as4 = false) : asnWidth cx = 2 := if_neg (by simp [h])

theorem as4AggregatorBody_octets (a0 a1 a2 a3 x0 x1 x2 x3 : Byte) :
    as4AggregatorBody ⟨a0 ++ a1 ++ a2 ++ a3, x0 ++ x1 ++ x2 ++ x3⟩ = .ok [a0, a1, a2, a3, x0, x1, x2, x3] := by
  rw [as4AggregatorBody, toBe_four, toBe_four]
  rfl

theorem aggregatorBody_wide (h : cx.as4 = true) (a : Aggregator) : aggregatorBody cx a = as4AggregatorBody a := by
  have hfits : a.asn.toNat < 256 ^ asnWidth cx := by
    rw [asnWidth_of_as4 h]
    exact a.asn.isLt
  rw [aggregatorBody_fits a hfits, asnWidth_of_as4 h, as4AggregatorBody]

theorem aggregatorBody_narrow (h : cx.as4 = false) (a0 a1 x0 x1 x2 x3 : Byte) :
    aggregatorBody cx ⟨(a0 ++ a1).setWidth 32, x0 ++ x1 ++ x2 ++ x3⟩ = .ok [a0, a1, x0, x1, x2, x3] := by
  have hoctets : toBe 2 ((a0 ++ a1).setWidth 32).toNat = [a0, a1] := by
    rw [← be_two_wide]
    exact toBe_be [a0, a1] (by norm_num)
  have hfits : ((a0 ++ a1).setWidth 32).toNat < 256 ^ asnWidth cx := by
    rw [asnWidth_of_not_as4 h, ← be_two_wide]
    exact readAsn_lt rfl
  rw [aggregatorBody_fits _ hfits, asnWidth_of_not_as4 h, hoctets, toBe_four]
  rfl

/-- An AS number of two octets, held in 32 bits. -/
theorem zero_append_eq_setWidth (a b : Byte) : ((0 : Byte) ++ (0 : Byte) ++ a ++ b) = (a ++ b).setWidth 32 := by
  apply BitVec.eq_of_toNat_eq
  rw [← be_four, ← be_two_wide, be, be, beNat_four, beNat_two]
  simp

theorem aggregatorBody_too_wide (h : cx.as4 = false) {a : Aggregator} (ha : 0xFFFF < a.asn.toNat) :
    aggregatorBody cx a = .error (err .asnWidth 7) := by
  rw [aggregatorBody, asnWidth_of_not_as4 h, writeAsn, decide_eq_true ha]
  rfl

theorem append_four_large {a0 a1 : Byte} (h : a0 ≠ 0 ∨ a1 ≠ 0) (a2 a3 : Byte) :
    0xFFFF < (a0 ++ a1 ++ a2 ++ a3).toNat := by
  rw [append_four_toNat]
  have hpos : ∀ b : Byte, b ≠ 0 → 1 ≤ b.toNat := by decide
  rcases h with h | h <;> have := hpos _ h <;> omega

end Aggregators

/-- Settles O28: the body of a wide AGGREGATOR is that of AS4_AGGREGATOR; at width 2 an AS number fits where its high octets
are zero. -/
theorem aggregatorAttributes : Obligations.AggregatorAttributes := by
  intro s cx w flags a0 a1 a2 a3 x0 x1 x2 x3 v e rest wide narrow emits
  have has4 : as4AggregatorBody wide = .ok [a0, a1, a2, a3, x0, x1, x2, x3] := as4AggregatorBody_octets ..
  have hwide : cx.as4 = true → aggregatorBody cx wide = .ok [a0, a1, a2, a3, x0, x1, x2, x3] := fun hcx =>
    (aggregatorBody_wide hcx wide).trans has4
  have hwidth : ∀ {n}, asnWidth cx = n → fixedWidth cx .aggregator = some (n + 4) := fun h => h ▸ rfl
  refine ⟨fun h hcx => exec_fixedWidth (t := .aggregator) (hwidth (asnWidth_of_as4 hcx)) (hwide hcx) h,
    fun h hcx => exec_fixedWidth (t := .aggregator) (hwidth (asnWidth_of_not_as4 hcx)) (aggregatorBody_narrow hcx ..) h,
    exec_fixedWidth (t := .as4Aggregator) rfl has4,
    fun htodo hfield => ⟨fun hcx => step_emits (t := .aggregator) htodo hfield (hwide hcx) (by simp), ?_, ?_⟩,
    fun htodo hfield => step_emits (t := .as4Aggregator) htodo hfield has4 (by simp)⟩
  · rintro hcx rfl rfl
    have hasn : wide.asn = (a2 ++ a3).setWidth 32 := zero_append_eq_setWidth a2 a3
    have hbody : aggregatorBody cx ⟨wide.asn, wide.identifier⟩ = .ok [a2, a3, x0, x1, x2, x3] := by
      rw [hasn]
      exact aggregatorBody_narrow hcx ..
    exact step_emits (t := .aggregator) htodo hfield hbody (by simp)
  · exact fun hcx hhigh => step_emission_rejects (t := .aggregator) htodo hfield
      (aggregatorBody_too_wide hcx (append_four_large hhigh a2 a3))

/-! ### CLUSTER_LIST (R173) -/

/-- Settles O29: the body of a list is the four octets of each of its identifiers. -/
theorem clusterListAttribute : Obligations.ClusterListAttribute := by
  intro s cx w flags v ids e rest hids body
  have hbody : clusterListBody ids = .ok body :=
    congrArg (fun octets => (Except.ok (ids.map octets).flatten : Except CodecError Bytes)) (funext toBe_word)
  have hlen : body.length = ids.length * 4 := by
    refine (length_flatten_of_length _ 4 ?_).trans (by rw [List.length_map])
    simp
  refine ⟨fun h => ⟨exec_stores (t := .clusterList) h hbody, fun hv => exec_rejects (t := .clusterList) h ?_⟩,
    fun htodo hfield => step_emits (t := .clusterList) htodo hfield hbody (by omega)⟩
  rw [parseField, decodeRecords_error 4 .clusterList (be 32) v hv, error_bind]
  rfl

/-! ### Unrecognized types (R140, R165) -/

/-- Settles O32: past the duplicate check the O flag decides; the well-known form has no octets to emit. -/
theorem unrecognizedAttributes : Obligations.UnrecognizedAttributes := by
  intro s cx w e flags t v
  refine ⟨fun hnew ho => ?_, fun hnew ho => ?_,
    runRecord_atEmission_error (dec := fun _ r => decodeUnrecognized flags t v r) rfl⟩
  · refine runRecord_atRecords_ok (dec := fun _ r => decodeUnrecognized flags t v r) (enc := encodeRecord flags t v)
      (r := keepUnknown flags t v (noteType t w.recs)) ?_
    rw [decodeUnrecognized_eq hnew, if_pos (optionalBit_eq_true.mpr ho)]
  · refine runRecord_atRecords_error (dec := fun _ r => decodeUnrecognized flags t v r)
      (enc := .error (err .unknownNotOptional t.toNat)) ?_
    rw [decodeUnrecognized_eq hnew, if_neg (fun h => optionalBit_eq_true.mp h ho)]

/-! ### The octets of a record on encode (R74, R175, R176) -/

section RecordOctets

variable {flags t : Byte} {v : Bytes}

theorem extendedBit_of_set (flags : Byte) : extendedBit (flags ||| 0x10) = true := by
  revert flags
  decide

theorem recordFlags_extended (h : 255 < v.length ∨ flags &&& 0x10 ≠ 0) : recordFlags flags v = flags ||| 0x10 := by
  have hset : ∀ f : Byte, f &&& 0x10 ≠ 0 → f = f ||| 0x10 := by decide
  unfold recordFlags
  split
  · rfl
  · next hshort => exact hset flags (h.resolve_left hshort)

theorem recordOctets_extended (flags t : Byte) (v : Bytes) :
    recordOctets (flags ||| 0x10) t v = [flags ||| 0x10, t] ++ twoOctets v.length ++ v := by
  rw [recordOctets, extendedBit_of_set, if_pos rfl, toBe_two]

/-- A form that has an encode half emits its record. -/
theorem exec_form_emits {f : RecForm} (h : (∃ t, f.type = attrCode t) ∨ f.flags &&& 0x80 ≠ 0) (cx : Cxt) (e : EncWork)
    (s : State) : exec f.toInstr (atEmission cx e s) = emitRecord cx e s (encodeRecord f.flags f.type f.body) := by
  refine (exec_form_atEmission f h cx e s).trans ?_
  cases encodeRecord f.flags f.type f.body <;> rfl

end RecordOctets

/-- Settles O33: E and the 2-octet length go together, forced by a long body or kept from the flags. -/
theorem recordEmission : Obligations.RecordEmission := by
  intro s cx e f hf
  have hform : (∃ t, f.type = attrCode t) ∨ f.flags &&& 0x80 ≠ 0 := by
    refine hf.imp_left fun htype => ?_
    obtain ⟨t, -, ht⟩ : ∃ t ∈ recognizedTypes, attrCode t = f.type := List.mem_map.mp htype
    exact ⟨t, ht.symm⟩
  rw [exec_form_emits hform]
  refine ⟨fun hlen he => ?_, fun hlen he => ?_, fun hlen => ?_⟩
  · rw [encodeRecord_eq he (by omega), wireRecord, if_pos hlen]
    rfl
  · rw [encodeRecord_eq_ok.mpr ⟨hlen, rfl⟩, recordFlags_extended he, recordOctets_extended]
    rfl
  · rw [encodeRecord_too_long hlen]
    rfl

/-! ### The run of a DECODE over its attribute section (R160) -/

section RecordRun

variable {cx : Cxt} {w : UpdWork} {s : State}

/-- The record loop on a section that is not exhausted: one record, then the rest (R160). -/
theorem decodeRecordsFrom_step {r : RecState} {bs : Bytes} (h : bs ≠ []) : decodeRecordsFrom cx r bs =
    readRecord bs >>= fun p => dispatchAttr cx p.1 r >>= fun r' => decodeRecordsFrom cx r' p.2 := by
  refine (scan_step (consumes_record fun r f => dispatchAttr cx f r) r h).trans ?_
  simp only [bind_assoc, ok_bind]
  rfl

/-- What is left of a section, once the cursor has moved past what was read, is what was not read. -/
theorem drop_of_consumed {sec front rest : Bytes} {cur : Nat} (h : sec.drop cur = front ++ rest) :
    sec.drop (sec.length - rest.length) = rest := by
  have hsuffix : rest <:+ sec := (List.suffix_append front rest).trans (h ▸ List.drop_suffix cur sec)
  exact (List.suffix_iff_eq_drop.mp hsuffix).symm

theorem left_lt_of_consumed {sec front rest : Bytes} {cur : Nat} (h : sec.drop cur = front ++ rest) (hne : front ≠ []) :
    sec.length - (sec.length - rest.length) < sec.length - cur := by
  have hlen := congrArg List.length h
  have hpos := List.length_pos_iff.mpr hne
  rw [List.length_drop, List.length_append] at hlen
  omega

/-- How a DECODE ends whose attribute section has built `r` so far and has the octets `bs` left (R130, R160). -/
def restOfUpdate (cx : Cxt) (w : UpdWork) (r : RecState) (bs : Bytes) : Except CodecError Message := do
  let r ← decodeRecordsFrom cx r bs
  let u ← finishDecodeUpdate w.unreach (some r.attrs) r.side w.nlri
  .ok (.update u)

theorem restOfUpdate_step {r : RecState} {bs : Bytes} (h : bs ≠ []) : restOfUpdate cx w r bs =
    readRecord bs >>= fun p => dispatchAttr cx p.1 r >>= fun r' => restOfUpdate cx w r' p.2 := by
  rw [restOfUpdate, decodeRecordsFrom_step h]
  simp only [bind_assoc]
  rfl

/-- The run over the records left ends the DECODE as its rules do; each round leaves fewer octets. -/
theorem run_atRecords (hcur : w.cur ≤ w.sec.length) : ∃ j, Sys2Proof.core.run j (atRecords cx w s) =
    .next (endDecode (restOfUpdate cx w w.recs (w.sec.drop w.cur)) s) := by
  induction hn : w.sec.length - w.cur using Nat.strong_induction_on generalizing w with
  | _ n ih =>
    rcases Nat.eq_or_lt_of_le hcur with hend | hlt
    · refine ⟨1, ?_⟩
      rw [core_run_one, step_atRecords_end hend, hend, List.drop_length, restOfUpdate]
      rfl
    · have hleft : w.sec.drop w.cur ≠ [] := by simpa using hlt
      rw [restOfUpdate_step hleft]
      cases hread : readRecord (w.sec.drop w.cur) with
      | error e => exact ⟨1, (core_run_one _).trans (step_atRecords_error hlt hread)⟩
      | ok p =>
        obtain ⟨f, rest⟩ := p
        have hstep := step_atRecords (cx := cx) (s := s) hlt
        rw [hread] at hstep
        rw [ok_bind]
        cases hrec : dispatchAttr cx f w.recs with
        | error e => exact ⟨1, (core_run_one _).trans (hstep.trans (exec_record_of_error hrec))⟩
        | ok r =>
          obtain ⟨hsplit, hne⟩ := readRecord_eq_ok hread
          obtain ⟨j, hj⟩ := ih _ (hn ▸ left_lt_of_consumed hsplit hne)
            (w := { w with cur := w.sec.length - rest.length, recs := r }) (Nat.sub_le _ _) rfl
          refine ⟨j + 1, (core_run_succ j (hstep.trans (exec_record_of_ok hrec))).trans (hj.trans ?_)⟩
          rw [drop_of_consumed hsplit]
          rfl

end RecordRun

/-! ### The run of a DECODE over a path body (R214) -/

/-- A loop whose rounds append what they read, whatever was read before, appends what it reads from an empty start. -/
theorem scan_append_start {α : Type} {item : List α → Bytes → Except CodecError (List α × Bytes)} (hc : Consumes item)
    (hitem : ∀ acc bs, item acc bs = item [] bs >>= fun p => .ok (acc ++ p.1, p.2)) (acc : List α) (bs : Bytes) :
    scan item acc bs = scan item [] bs >>= fun more => .ok (acc ++ more) := by
  induction hn : bs.length using Nat.strong_induction_on generalizing acc bs with
  | _ n ih =>
    cases bs with
    | nil => rw [scan_nil, scan_nil, ok_bind, List.append_nil]
    | cons b bs =>
      rw [scan_cons hc, scan_cons hc, hitem]
      cases hround : item [] (b :: bs) with
      | error e => rfl
      | ok p =>
        have hlen := hc [] b bs p.1 p.2 hround
        rw [List.length_cons] at hn
        simp only [ok_bind]
        rw [ih p.2.length (by omega) (acc ++ p.1) p.2 rfl, ih p.2.length (by omega) p.1 p.2 rfl, bind_assoc]
        simp only [ok_bind, List.append_assoc]

section SegmentRun

variable {cx : Cxt} {w : UpdWork} {k : PathKind} {s : State} {sec : Bytes} {cur : Nat} {segs : List AsPathSegment}

/-- A segment form of either kind in a path body is appended to the path (R214). -/
theorem exec_segment_known (seg : AsPathSegment) : exec (SegForm.known seg).toInstr (atSegments cx w k sec cur segs s) =
    .next (atSegments cx w k sec cur (segs ++ [seg]) s) := by
  obtain ⟨kind, members⟩ := seg
  cases kind with
  | set => simp only [SegForm.toInstr, exec, execSegAsSet, runSegment_atSegments, applySegment]
  | sequence => simp only [SegForm.toInstr, exec, execSegAsSequence, runSegment_atSegments, applySegment]

/-- A segment form of another kind ends the command (R214). -/
theorem exec_segment_other (stype count : Byte) : exec (SegForm.other stype count).toInstr (atSegments cx w k sec cur segs s) =
    .next (raiseError lastDecode (err .badSegmentType (attrCode (pathAttr k)).toNat) s) := by
  simp only [SegForm.toInstr, exec, execSegOther, runSegment_atSegments, applySegment]

/-- A step at the end of a path body stores the path (R213, R216). -/
theorem step_atSegments_end (h : cur = sec.length) : step (atSegments cx w k sec cur segs s) =
    .next (atRecords cx { w with recs := setPath k { segments := segs } w.recs } s) := by
  refine step_done ?_
  simp only [atSegments, fetch, setEngine_engine, fetchDecode, if_neg (Nat.not_lt.mpr h.le), if_pos h]
  rfl

/-- A step at a segment that cannot be read ends the command. -/
theorem step_atSegments_error {e : CodecError} (hcur : cur < sec.length)
    (h : readSegment (pathWidth cx k) (pathAttr k) (sec.drop cur) = .error e) :
    step (atSegments cx w k sec cur segs s) = .next (raiseError lastDecode e s) := by
  refine step_done ?_
  simp only [atSegments, fetch, setEngine_engine, fetchDecode, if_neg (Nat.lt_asymm hcur), if_neg (Nat.ne_of_lt hcur), h,
    fetchError, raiseError_setEngine]

/-- `decode_segments` on a body that is not exhausted: one segment, then the rest (R214). -/
theorem decodeSegments_step {bs : Bytes} (h : bs ≠ []) : decodeSegments cx k bs =
    readSegment (pathWidth cx k) (pathAttr k) bs >>= fun p => applySegment k [] p.1 >>= fun segs =>
      decodeSegments cx k p.2 >>= fun more => .ok (segs ++ more) := by
  have happend : ∀ (acc : List AsPathSegment) (f : SegForm),
      applySegment k acc f = applySegment k [] f >>= fun segs => .ok (acc ++ segs) := by
    intro acc f
    cases f <;> rfl
  refine (scan_step (consumes_segment _ _ (pathWidth_two_or_four cx k) _) [] h).trans ?_
  simp only [bind_assoc, ok_bind]
  congr 1; funext p; congr 1; funext segs
  refine scan_append_start (consumes_segment _ _ (pathWidth_two_or_four cx k) _) (fun acc bs => ?_) segs p.2
  simp only [bind_assoc, ok_bind, happend acc]

/-- The octets of a segment that is read: at least one, before the rest of the body. -/
theorem readSegment_consumes {bs rest : Bytes} {f : SegForm}
    (h : readSegment (pathWidth cx k) (pathAttr k) bs = .ok (f, rest)) : ∃ front, bs = front ++ rest ∧ front ≠ [] := by
  rcases readSegment_eq_ok (pathWidth_two_or_four cx k) h with ⟨seg, -, -, hbs⟩ | ⟨st, c, -, -, hbs⟩
  · exact ⟨_, hbs, by simp [segmentOctets]⟩
  · exact ⟨[st, c], hbs, by simp⟩

/-- How a DECODE leaves a path body: with the path stored, or ended by its first error (R213, R214, R216). -/
def leavePath (cx : Cxt) (w : UpdWork) (k : PathKind) (s : State) (path : Except CodecError (List AsPathSegment)) : State :=
  match path with
  | .ok segs => atRecords cx { w with recs := setPath k { segments := segs } w.recs } s
  | .error e => raiseError lastDecode e s

/-- The run over the segments left stores the path read so far and their own, or ends with their first error. -/
theorem run_atSegments (hcur : cur ≤ sec.length) : ∃ j, Sys2Proof.core.run j (atSegments cx w k sec cur segs s) =
    .next (leavePath cx w k s (decodeSegments cx k (sec.drop cur) >>= fun more => .ok (segs ++ more))) := by
  induction hn : sec.length - cur using Nat.strong_induction_on generalizing cur segs with
  | _ n ih =>
    rcases Nat.eq_or_lt_of_le hcur with hend | hlt
    · refine ⟨1, ?_⟩
      rw [core_run_one, step_atSegments_end hend, hend, List.drop_length, decodeSegments, scan_nil, ok_bind, List.append_nil]
      rfl
    · have hleft : sec.drop cur ≠ [] := by simpa using hlt
      rw [decodeSegments_step hleft]
      cases hread : readSegment (pathWidth cx k) (pathAttr k) (sec.drop cur) with
      | error e => exact ⟨1, (core_run_one _).trans (step_atSegments_error hlt hread)⟩
      | ok p =>
        obtain ⟨f, rest⟩ := p
        have hstep := step_atSegments (w := w) (segs := segs) (s := s) hlt hread
        cases f with
        | other stype count => exact ⟨1, (core_run_one _).trans (hstep.trans (exec_segment_other stype count))⟩
        | known seg =>
          obtain ⟨front, hsplit, hne⟩ := readSegment_consumes hread
          obtain ⟨j, hj⟩ := ih _ (hn ▸ left_lt_of_consumed hsplit hne) (segs := segs ++ [seg]) (Nat.sub_le _ _) rfl
          refine ⟨j + 1, (core_run_succ j (hstep.trans (exec_segment_known seg))).trans (hj.trans ?_)⟩
          rw [drop_of_consumed hsplit]
          simp only [ok_bind, applySegment, bind_assoc, List.append_assoc, List.nil_append]

end SegmentRun

/-- Settles O55: each step reads one form and does what its round of the loop does, and the last one leaves the section. -/
theorem decodeStepsAgree : Obligations.DecodeStepsAgree := by
  refine fun s cx w hw => ⟨run_atRecords hw, fun k sec cur segs hcur => ?_⟩
  obtain ⟨j, hj⟩ := run_atSegments (cx := cx) (w := w) (k := k) (s := s) (segs := segs) hcur
  refine ⟨j, hj.trans ?_⟩
  cases decodeSegments cx k (sec.drop cur) <;> rfl

end Sys2Proof.Machine

/-! ### Proofs: the AS-path attributes and the segment forms, decode and encode (43_aspath.md R211 to R216) -/

namespace Sys2Proof.Machine

open Sys2Proof

/-! ### A path attribute inside a DECODE (R213, R214, R216) -/

/-- Settles O35: the body is what an ENCODE writes for the path, and that reads back as the path. -/
theorem pathsDecode : Obligations.PathsDecode := by
  intro s cx w flags segs
  have hbody : ∀ k, (∀ g ∈ segs, segmentFits (pathWidth cx k) g) →
      pathBody cx k ⟨segs⟩ = .ok (segs.map (segmentOctets (pathWidth cx k))).flatten :=
    fun k => encodeSegments_fits cx k segs
  exact ⟨fun hopens hfits => exec_stores (t := .asPath) hopens (hbody .asPath hfits),
    fun hopens hfits => exec_stores (t := .as4Path) hopens (hbody .as4Path hfits)⟩

/-- 1 and 2 are the only segment types (R79). -/
theorem segKindOf_eq_none {st : Byte} (hset : st ≠ 1) (hsequence : st ≠ 2) : segKindOf st = none := by
  cases h : segKindOf st with
  | none => rfl
  | some kind =>
    have hcode := segKindOf_eq_some.mp h
    cases kind with
    | set => exact absurd hcode hset
    | sequence => exact absurd hcode hsequence

theorem pathCode_eq_attrCode (k : PathKind) : pathCode k = attrCode (pathAttr k) := by
  cases k <;> rfl

section PathBody

variable {cx : Cxt} {k : PathKind} {segs : List AsPathSegment}

/-- After whole segments `decode_segments` goes on with the rest of the body as with a body of its own. -/
theorem decodeSegments_whole_append (hfits : ∀ g ∈ segs, segmentFits (pathWidth cx k) g) (tail : Bytes) :
    decodeSegments cx k ((segs.map (segmentOctets (pathWidth cx k))).flatten ++ tail) =
      decodeSegments cx k tail >>= fun more => .ok (segs ++ more) := by
  induction segs with
  | nil => cases h : decodeSegments cx k tail <;> simp [h]
  | cons g segs ih =>
    rw [List.forall_mem_cons] at hfits
    rw [List.map_cons, List.flatten_cons, List.append_assoc, decodeSegments_step (by simp [segmentOctets]),
      readSegment_segmentOctets _ _ _ hfits.1, ok_bind]
    simp only [applySegment, ih hfits.2, bind_assoc, ok_bind, List.nil_append, List.cons_append]

/-- An error in what follows whole segments is the error of the body. -/
theorem decodeSegments_whole_append_error (hfits : ∀ g ∈ segs, segmentFits (pathWidth cx k) g) {tail : Bytes} {e : CodecError}
    (htail : decodeSegments cx k tail = .error e) :
    decodeSegments cx k ((segs.map (segmentOctets (pathWidth cx k))).flatten ++ tail) = .error e := by
  rw [decodeSegments_whole_append hfits, htail, error_bind]

/-- A body of one octet has no room for TYPE and COUNT. -/
theorem decodeSegments_lone_octet (st : Byte) :
    decodeSegments cx k [st] = .error (err .truncated (attrCode (pathAttr k)).toNat) := by
  rw [decodeSegments_step (by simp)]
  rfl

/-- A segment type other than 1 and 2 is refused before the count is looked at. -/
theorem decodeSegments_bad_type {st : Byte} (hset : st ≠ 1) (hsequence : st ≠ 2) (c : Byte) (tail : Bytes) :
    decodeSegments cx k (st :: c :: tail) = .error (err .badSegmentType (attrCode (pathAttr k)).toNat) := by
  rw [decodeSegments_step (by simp), readSegment, segKindOf_eq_none hset hsequence]
  rfl

/-- A segment of a legal type whose members are not all there. -/
theorem decodeSegments_cut_short {st c : Byte} {tail : Bytes} (hst : st = 1 ∨ st = 2)
    (hshort : tail.length < c.toNat * pathWidth cx k) :
    decodeSegments cx k (st :: c :: tail) = .error (err .truncated (attrCode (pathAttr k)).toNat) := by
  obtain ⟨kind, rfl⟩ : ∃ kind, st = segCode kind := hst.elim (fun h => ⟨.set, h⟩) (fun h => ⟨.sequence, h⟩)
  rw [decodeSegments_step (by simp), readSegment, segKindOf_segCode]
  simp only [readOctets_short hshort, error_bind]

theorem parseField_path_error {v : Bytes} {e : CodecError} (h : decodeSegments cx k v = .error e) :
    parseField cx (pathAttr k) v = .error e := by
  cases k <;> simp only [pathAttr, parseField, h, error_bind]

end PathBody

/-- Settles O36: what follows the whole segments is the first thing that `decode_segments` cannot read. -/
theorem malformedPaths : Obligations.MalformedPaths := by
  intro s cx w flags st c segs tail k i code hrow hfits whole
  have raises : ∀ {v : Bytes} {r : Reason}, decodeSegments cx k v = .error (err r (attrCode (pathAttr k)).toNat) →
      exec (i (whole ++ v)) (atRecords cx w s) = .next (raiseError 1 (err r code.toNat) s) := by
    intro v r hv
    have hbody := parseField_path_error (decodeSegments_whole_append_error hfits hv)
    rcases hrow with ⟨rfl, rfl, rfl, hopens⟩ | ⟨rfl, rfl, rfl, hopens⟩
    · exact exec_rejects (t := .asPath) hopens hbody
    · exact exec_rejects (t := .as4Path) hopens hbody
  exact ⟨raises (decodeSegments_lone_octet st),
    fun hset hsequence => raises (decodeSegments_bad_type hset hsequence c tail),
    fun hst hshort => raises (decodeSegments_cut_short hst hshort)⟩

/-! ### A path attribute inside an ENCODE (R211, R215, R216) -/

/-- An emission ends at the first item that fails (R287). -/
theorem emitAll_first_error {α : Type} {f : α → Except CodecError Bytes} {before : List α} {out : Bytes} {x : α}
    {e : CodecError} (hbefore : emitAll f before = .ok out) (hx : f x = .error e) (rest : List α) :
    emitAll f (before ++ x :: rest) = .error e := by
  rw [emitAll_append, hbefore, ok_bind, emitAll_cons, hx, error_bind, error_bind]

/-- At width 2 a member above 0xFFFF ends the emission of a segment's members. -/
theorem emitAll_writeAsn_too_wide {t : AttrType} {members : List Asn} (h : ∃ a ∈ members, 0xFFFF < a.toNat) :
    emitAll (writeAsn 2 t) members = .error (err .asnWidth (attrCode t).toNat) := by
  induction members with
  | nil => simp at h
  | cons a members ih =>
    by_cases ha : 0xFFFF < a.toNat
    · rw [emitAll_cons, writeAsn, decide_eq_true ha]
      rfl
    · have hrest : ∃ b ∈ members, 0xFFFF < b.toNat := by simpa [ha] using h
      rw [emitAll_cons, writeAsn_fits t (.inl rfl) (by omega), ok_bind, ih hrest, error_bind]

section PathEmission

variable {cx : Cxt} {k : PathKind} {seg : AsPathSegment}

theorem encodeSegment_too_long (h : 255 < seg.members.length) :
    encodeSegment cx k seg = .error (err .segmentTooLong (attrCode (pathAttr k)).toNat) := by
  rw [encodeSegment, decide_eq_true h, raiseIf_true, error_bind]

theorem encodeSegment_too_wide (hlength : seg.members.length ≤ 255) (hwidth : pathWidth cx k = 2)
    (hmember : ∃ a ∈ seg.members, 0xFFFF < a.toNat) :
    encodeSegment cx k seg = .error (err .asnWidth (attrCode (pathAttr k)).toNat) := by
  rw [encodeSegment, decide_eq_false (Nat.not_lt.mpr hlength), raiseIf_false, ok_bind, hwidth,
    emitAll_writeAsn_too_wide hmember, error_bind]

/-- The first segment that the wire cannot hold is the one reported (R215). -/
theorem encodeSegments_first_error {segs : List AsPathSegment} {e : CodecError}
    (hfits : ∀ g ∈ segs, segmentFits (pathWidth cx k) g) (hseg : encodeSegment cx k seg = .error e)
    (more : List AsPathSegment) : encodeSegments cx k (segs ++ seg :: more) = .error e :=
  emitAll_first_error (encodeSegments_fits cx k segs hfits) hseg more

end PathEmission

/-- Settles O37: the step emits the record of the segments' octets, and the first segment that cannot be written is the error
of the body. -/
theorem pathsEncode : Obligations.PathsEncode := by
  intro s cx e rest segs more bad k path hrow hfits body flags
  rw [pathCode_eq_attrCode]
  have hflags : flags = expectedFlags (pathAttr k) := by cases k <;> rfl
  have hclear : flags &&& 0x10 = 0 := hflags ▸ expectedFlags_not_extended (pathAttr k)
  have hstep : step (atEmission cx e s) = emitRecord cx { e with todo := rest } s
      (encodeSegments cx k path.segments >>= encodeRecord flags (attrCode (pathAttr k))) := by
    rw [hflags]
    rcases hrow with ⟨rfl, htodo, hpath⟩ | ⟨rfl, htodo, hpath⟩
    · exact step_atEmission_present (t := .asPath) htodo (by rw [slotForm, hpath]; rfl)
    · exact step_atEmission_present (t := .as4Path) htodo (by rw [slotForm, hpath]; rfl)
  have emits : path.segments = segs → step (atEmission cx e s) =
      emitRecord cx { e with todo := rest } s (encodeRecord flags (attrCode (pathAttr k)) body) := by
    intro hsegs
    rw [hstep, hsegs, encodeSegments_fits cx k segs hfits, ok_bind]
  have raises : ∀ {x : CodecError}, encodeSegment cx k bad = .error x → path.segments = segs ++ bad :: more →
      step (atEmission cx e s) = .next (raiseError 2 x s) := by
    intro x hbad hsegs
    rw [hstep, hsegs, encodeSegments_first_error hfits hbad, error_bind]
    rfl
  refine ⟨fun hsegs hlength => ?_, fun hsegs hlength => ?_,
    fun hsegs hlong => raises (encodeSegment_too_long hlong) hsegs,
    fun hsegs hlength hwidth hmember => raises (encodeSegment_too_wide hlength hwidth hmember) hsegs⟩
  · rw [emits hsegs, emitRecord_encodeRecord hclear, if_pos hlength]
  · rw [emits hsegs, emitRecord_encodeRecord hclear, if_neg (Nat.not_le.mpr hlength)]
    rfl

/-! ### The segment forms (R214, R215) -/

/-- Settles O38: each segment form is its kind's instance of what every segment does at its place. -/
theorem segmentForms : Obligations.SegmentForms := by
  intro s cx w e k sec out cur segs todo members st c
  have emits : ∀ seg : AsPathSegment, segmentFits (pathWidth cx k) seg →
      exec (SegForm.known seg).toInstr (atPathEmission cx e k todo out s) =
        .next (atPathEmission cx e k todo (out ++ segmentOctets (pathWidth cx k) seg) s) := by
    intro seg hfits
    rw [exec_segment_atPathEmission, encodeSegment_fits cx k seg hfits]
  rw [pathCode_eq_attrCode]
  exact ⟨exec_segment_known ⟨.set, members⟩, exec_segment_known ⟨.sequence, members⟩, exec_segment_other st c,
    fun hfits => ⟨emits ⟨.set, members⟩ hfits, emits ⟨.sequence, members⟩ hfits⟩⟩

end Sys2Proof.Machine

/-! ### Proofs: prefixes and multiprotocol NLRI, decode and encode (44_nlri.md R230 to R242) -/

namespace Sys2Proof.Machine

open Sys2Proof

/-! ### What CXT_CAPS selects (R212, R236) -/

/-- Segments the wire can hold are read from their own octets (R214). -/
theorem decodeSegments_segmentOctets {cx : Cxt} {k : PathKind} {width : Nat} {segs : List AsPathSegment}
    (hwidth : pathWidth cx k = width) (hfits : ∀ g ∈ segs, segmentFits width g) :
    decodeSegments cx k (segs.map (segmentOctets width)).flatten = .ok segs := by
  subst hwidth
  exact decodeSegments_encodeSegments (encodeSegments_fits cx k segs hfits)

/-- Settles O34: the width and the families are read off their bits; at each width the example is the octets of the segments
that the spec reads from it. -/
theorem contextSelectsForms : Obligations.ContextSelectsForms :=
  ⟨fun _ => rfl, fun _ => ⟨rfl, rfl⟩,
    fun _ hcx => decodeSegments_segmentOctets (k := .asPath) (width := 2)
      (segs := [⟨.sequence, [7]⟩, ⟨.sequence, [512]⟩]) (asnWidth_of_not_as4 hcx) (by simp [segmentFits]),
    fun _ hcx => decodeSegments_segmentOctets (k := .asPath) (width := 4)
      (segs := [⟨.sequence, [459265]⟩, ⟨.sequence, []⟩]) (asnWidth_of_as4 hcx) (by simp [segmentFits]),
    fun _ _ _ => legalFamily_eq_true⟩

/-! ### One prefix, decode (R230) -/

section PrefixDecode

variable {w : Nat}

/-- A string of octets that fills a field, octet by octet (R50). -/
theorem extractLsb'_be {bs : Bytes} {k : Nat} (hw : 8 * bs.length = w) (hk : k < bs.length) :
    (be w bs).extractLsb' (w - 8 * (k + 1)) 8 = bs.getD k 0 := by
  have hoctets := toBe_be (w := w) bs (by rw [← hw, Nat.pow_mul])
  rw [toBe_eq_range _ _ hw.le] at hoctets
  have hoctet := congrArg (fun octets : Bytes => octets.getD k 0) hoctets
  simp only [List.getD_eq_getElem?_getD, List.getElem?_map, List.getElem?_range hk, Option.map_some,
    Option.getD_some] at hoctet
  rw [List.getD_eq_getElem?_getD, ← hoctet, ← hw]
  congr 1
  omega

/-- The octets of an address of which the first `n` are read and the others are zero (R230). -/
theorem prefixAddress_octet {rest : Bytes} {n k : Nat} (hw : 8 ∣ w) (hn : n ≤ w / 8) (hrest : n ≤ rest.length)
    (hk : k < w / 8) :
    (be w (rest.take n ++ List.replicate (w / 8 - n) 0)).extractLsb' (w - 8 * (k + 1)) 8 =
      if k < n then rest.getD k 0 else 0 := by
  have hraw : (rest.take n).length = n := List.length_take_of_le hrest
  have hlen : (rest.take n ++ List.replicate (w / 8 - n) (0 : Byte)).length = w / 8 := by
    rw [List.length_append, hraw, List.length_replicate]
    omega
  rw [extractLsb'_be (by omega) (by omega)]
  split
  · next h =>
    rw [List.getD_append _ _ _ _ (by omega), List.getD_eq_getElem?_getD, List.getElem?_take_of_lt h,
      List.getD_eq_getElem?_getD]
  · next h =>
    rw [List.getD_append_right _ _ _ _ (by omega)]
    exact List.getD_replicate _ (by omega)

/-- The last octet of a prefix is looked at only where its length ends inside it. -/
theorem hasTrailingBits_take {len : Nat} {rest : Bytes} (h : ceil8 len ≤ rest.length) :
    hasTrailingBits len (rest.take (ceil8 len)) = true ↔
      len % 8 ≠ 0 ∧ rest.getD (ceil8 len - 1) 0 &&& ((0xFF : Byte) >>> (len % 8)) ≠ 0 := by
  by_cases hr : len % 8 = 0
  · simp [hasTrailingBits, hr]
  · have hlast : (rest.take (ceil8 len)).getLastD 0 = rest.getD (ceil8 len - 1) 0 := by
      have hpos : 0 < ceil8 len := by unfold ceil8; omega
      rw [List.getLastD_eq_getLast?, List.getLast?_eq_getElem?, List.length_take_of_le h,
        List.getElem?_take_of_lt (by omega), List.getD_eq_getElem?_getD]
    simp only [hasTrailingBits, hlast, Bool.and_eq_true, bne_iff_ne]

/-- Octets after those of a prefix are left for what follows it (R231). -/
theorem decodePrefix_append {bs rest : Bytes} {p : Prefix w} (h : decodePrefix w bs = .ok (p, rest)) (more : Bytes) :
    decodePrefix w (bs ++ more) = .ok (p, rest ++ more) := by
  cases bs with
  | nil => cases h
  | cons l bs =>
    rw [decodePrefix_cons] at h
    split_ifs at h with hwidth hshort htrail
    cases h
    have hlong := Nat.le_of_not_lt hshort
    rw [List.cons_append, decodePrefix_cons, List.take_append_of_le_length hlong, List.drop_append_of_le_length hlong,
      if_neg hwidth, if_neg (by rw [List.length_append]; omega), if_neg htrail]

end PrefixDecode

/-! ### A list of prefixes, decode (R231) -/

section PrefixListDecode

variable {w : Nat} {bs : Bytes}

/-- `decode_prefix_list` on a section that is not exhausted: one prefix, then the rest. -/
theorem decodePrefixList_step (h : bs ≠ []) : decodePrefixList w bs =
    decodePrefix w bs >>= fun q => decodePrefixList w q.2 >>= fun ps => .ok (q.1 :: ps) := by
  refine (scan_step (consumes_prefix w) [] h).trans ?_
  simp only [bind_assoc, ok_bind]
  congr 1; funext q
  exact scan_append_start (consumes_prefix w) (fun acc bs => by simp only [bind_assoc, ok_bind, List.nil_append]) [q.1] q.2

/-- After a section of whole prefixes the list goes on with what follows as with a section of its own. -/
theorem decodePrefixList_append {ps : List (Prefix w)} (h : decodePrefixList w bs = .ok ps) (tail : Bytes) :
    decodePrefixList w (bs ++ tail) = decodePrefixList w tail >>= fun more => .ok (ps ++ more) := by
  induction ps generalizing bs with
  | nil =>
    cases bs with
    | nil => cases htail : decodePrefixList w tail <;> simp [htail]
    | cons b bs =>
      rw [decodePrefixList_step (List.cons_ne_nil b bs)] at h
      obtain ⟨q, -, h⟩ := bind_eq_ok.mp h
      obtain ⟨_, -, h⟩ := bind_eq_ok.mp h
      cases h
  | cons p ps ih =>
    have hne : bs ≠ [] := by
      rintro rfl
      cases h
    rw [decodePrefixList_step hne] at h
    obtain ⟨⟨q, rest⟩, hprefix, h⟩ := bind_eq_ok.mp h
    obtain ⟨_, hrest, h⟩ := bind_eq_ok.mp h
    cases h
    rw [decodePrefixList_step (by simp [hne]), decodePrefix_append hprefix, ok_bind, ih hrest, bind_assoc]
    simp only [ok_bind, List.cons_append]

end PrefixListDecode

theorem eight_dvd_of_width {w : Nat} (h : w = 32 ∨ w = 128) : 8 ∣ w := by
  rcases h with rfl | rfl <;> norm_num

/-- Settles O39: the checks of one prefix in their order, its address octet by octet; a list is decoded one prefix at a time,
and what follows whole prefixes as a list of its own. -/
theorem prefixDecodes : Obligations.PrefixDecodes := by
  intro w hw
  have hdvd := eight_dvd_of_width hw
  refine ⟨?_, rfl, fun bs tail p ps e =>
    ⟨fun hp hps => ?_, fun hp hps => ?_, fun hne hp => ?_, fun hbs hne htail => ?_⟩⟩
  · intro l rest n
    have hceil : n = ceil8 l.toNat := rfl
    clear_value n
    subst hceil
    rw [decodePrefix_cons]
    refine ⟨fun hwidth => if_pos hwidth, fun hwidth hshort => ?_, fun hwidth hlong hr hbits => ?_,
      fun hwidth hlong hbits => ?_⟩
    · rw [if_neg (Nat.not_lt.mpr hwidth), if_pos hshort]
    · rw [if_neg (Nat.not_lt.mpr hwidth), if_neg (Nat.not_lt.mpr hlong),
        if_pos ((hasTrailingBits_take hlong).mpr ⟨hr, hbits⟩)]
    · have hclear : ¬ hasTrailingBits l.toNat (rest.take (ceil8 l.toNat)) = true := by
        rw [hasTrailingBits_take hlong]
        exact fun ⟨hr, hset⟩ => hset (hbits hr)
      have hread := decodePrefix_cons w l rest
      rw [if_neg (Nat.not_lt.mpr hwidth), if_neg (Nat.not_lt.mpr hlong), if_neg hclear] at hread ⊢
      exact ⟨_, rfl, rfl, decodePrefix_canonical hdvd hread,
        fun k hk => prefixAddress_octet hdvd (by unfold ceil8; omega) hlong hk⟩
  · rw [decodePrefixList_step (by rintro rfl; cases hp), hp, ok_bind, hps, ok_bind]
  · rw [decodePrefixList_step (by rintro rfl; cases hp), hp, ok_bind, hps, error_bind]
  · rw [decodePrefixList_step hne, hp, error_bind]
  · rw [decodePrefixList_append hbs, decodePrefixList_step hne, htail, error_bind, error_bind]

/-! ### Prefixes, encode (R232, R233) -/

/-- The leading octets of a big-endian field (R50). -/
theorem take_toBe {w n : Nat} (v : BitVec w) (hw : 8 ∣ w) (hn : 8 * n ≤ w) :
    (toBe (w / 8) v.toNat).take n = (List.range n).map (fun k => v.extractLsb' (w - 8 * (k + 1)) 8) := by
  rw [toBe_eq_range _ _ (by omega), ← List.map_take, List.take_range, Nat.min_eq_left (by omega)]
  refine List.map_congr_left fun k hk => ?_
  congr 1
  rw [List.mem_range] at hk
  omega

/-- Masking clears the bits past the length, the address being divided by their range and multiplied again (R232). -/
theorem maskedAddr_eq {w : Nat} (p : Prefix w) :
    maskedAddr p = BitVec.ofNat w (p.addr.toNat / 2 ^ (w - p.len) * 2 ^ (w - p.len)) := by
  rw [maskedAddr, Nat.div_mul_self_eq_mod_sub_self]

/-- Settles O40: one prefix is its length and the leading octets of the masked address; a list whose lengths are legal is
read back, and the first illegal length ends it. -/
theorem prefixEncodes : Obligations.PrefixEncodes := by
  intro w p ps more hw
  have hdvd := eight_dvd_of_width hw
  refine ⟨encodePrefix_too_long, fun hlen => ?_, fun hps => ?_⟩
  · rw [encodePrefix_ok hlen, take_toBe _ hdvd (by unfold ceil8; omega), maskedAddr_eq, ceil8]
  · obtain ⟨bs, hbs⟩ := emitAll_succeeds.mpr fun q hq => ⟨_, encodePrefix_ok (hps q hq)⟩
    exact ⟨bs, hbs, decodePrefixList_encodePrefixList hdvd (by omega) hbs,
      fun hlong => emitAll_first_error hbs (encodePrefix_too_long hlong) more⟩

/-! ### A multiprotocol attribute inside a DECODE, by its family (R236, R237, R239, R242) -/

section MpAttributes

variable {cx : Cxt} {w : UpdWork} {s : State} {flags : Byte} {v : Bytes}

theorem legalFamily_ipv4 (cx : Cxt) : legalFamily cx 1 1 = cx.mpIpv4 := by simp [legalFamily]

theorem legalFamily_ipv6 (cx : Cxt) : legalFamily cx 2 1 = cx.mpIpv6 := by simp [legalFamily]

/-- Past the duplicate and the flag check a record's value is stored as its body rule reads it, or the record is captured
(R163, R242). -/
theorem exec_parses {t : AttrType} {x : Option (FieldValue t)} (hopens : recordOpens (attrCode t) (expectedFlags t) flags w)
    (h : parseField cx t v = .ok x) :
    exec (RecForm.toInstr { flags := flags, type := attrCode t, body := v }) (atRecords cx w s) =
      .next (atRecords cx { w with recs := storeRecord t flags v (noteType (attrCode t) w.recs) x } s) := by
  refine exec_record_of_ok ?_
  rw [dispatchAttr_of_opens hopens, h, ok_bind]

section Legal

variable {α : Type} {k : MpKind} {group : FamForm → Except CodecError α} {fam : FamForm}
  (hread : readFamily k v = .ok fam) (hl : legalFamily cx fam.afi fam.safi = true)

include hread hl

theorem parseMp_of_group {g : α} (h : group fam = .ok g) : parseMp cx k group v = .ok (some g) := by
  rw [parseMp, hread, ok_bind, if_pos hl, h, ok_bind]

theorem parseMp_of_group_error {e : CodecError} (h : group fam = .error e) : parseMp cx k group v = .error e := by
  rw [parseMp, hread, ok_bind, if_pos hl, h, error_bind]

end Legal

/-- A body of fewer than 3 octets has no family. -/
theorem parseMp_short {α : Type} {k : MpKind} {group : FamForm → Except CodecError α} (h : v.length < 3) :
    parseMp cx k group v = .error (err .bodyLength (attrCode (mpAttr k)).toNat) := by
  rw [parseMp, readFamily_short k h, error_bind]

/-- A body whose family is not one of the two legal ones is captured, whatever follows the family (R242). -/
theorem parseMp_of_illegal {α : Type} {k : MpKind} {group : FamForm → Except CodecError α} {a1 a2 safi : Byte}
    {rest : Bytes} (h4 : ¬ (a1 = 0 ∧ a2 = 1 ∧ safi = 1 ∧ cx.mpIpv4 = true))
    (h6 : ¬ (a1 = 0 ∧ a2 = 2 ∧ safi = 1 ∧ cx.mpIpv6 = true)) :
    parseMp cx k group (a1 :: a2 :: safi :: rest) = .ok none := by
  have hlen : 3 ≤ (a1 :: a2 :: safi :: rest).length := by simp
  refine parseMp_eq_none.mpr ⟨hlen, Bool.eq_false_iff.mpr fun hl => ?_⟩
  have hoctets := (legalFamily_octets hlen).mp hl
  simp only [List.take_succ_cons, List.take_zero, List.cons.injEq, and_true] at hoctets
  tauto

end MpAttributes

/-! ### MP_REACH_NLRI after its family (R237, R238) -/

section ReachGroup

variable {afi : Half} {safi l : Byte} {rest nh ll : Bytes}

theorem reachGroup_ipv4 (x0 x1 x2 x3 r : Byte) (nl : Bytes) :
    reachGroup ⟨1, 1, [4, x0, x1, x2, x3, r] ++ nl⟩ =
      decodePrefixList 32 nl >>= fun ps => .ok (.ipv4Unicast ps (x0 ++ x1 ++ x2 ++ x3)) := by
  refine (reachGroup_fields (nh := [x0, x1, x2, x3]) (nlri := nl) rfl rfl).trans ?_
  rw [if_pos rfl, be_four]

theorem reachGroup_ipv6 (hnh : nh.length = 16) (r : Byte) (nl : Bytes) :
    reachGroup ⟨2, 1, [16] ++ nh ++ [r] ++ nl⟩ =
      decodePrefixList 128 nl >>= fun ps => .ok (.ipv6Unicast ps (be 128 nh) none) := by
  have hrest : [16] ++ nh ++ [r] ++ nl = (16 : Byte) :: (nh ++ r :: nl) := by simp
  rw [hrest, reachGroup_fields (by rw [hnh]; rfl) (by rw [hnh]; rfl), if_neg (by decide), hnh, if_neg (by decide),
    List.take_of_length_le hnh.le]

theorem reachGroup_linkLocal (hnh : nh.length = 16) (hll : ll.length = 16) (r : Byte) (nl : Bytes) :
    reachGroup ⟨2, 1, [32] ++ nh ++ ll ++ [r] ++ nl⟩ =
      decodePrefixList 128 nl >>= fun ps => .ok (.ipv6Unicast ps (be 128 nh) (some (be 128 ll))) := by
  have hrest : [32] ++ nh ++ ll ++ [r] ++ nl = (32 : Byte) :: ((nh ++ ll) ++ r :: nl) := by simp
  have hlen : (nh ++ ll).length = 32 := by rw [List.length_append, hnh, hll]
  rw [hrest, reachGroup_fields (by rw [hlen]; rfl) (by rw [hlen]; rfl), if_neg (by decide), hlen, if_pos rfl,
    List.take_left' hnh, List.drop_left' hnh]

theorem reachGroup_no_length : reachGroup ⟨afi, safi, []⟩ = .error (err .bodyLength 14) := rfl

theorem reachGroup_illegal_length (h : nexthopOk afi l.toNat = false) :
    reachGroup ⟨afi, safi, l :: rest⟩ = .error (err .nexthopLength 14) := by
  simp only [reachGroup, octet, List.headD_cons, h]
  rfl

theorem reachGroup_cut_short (hok : nexthopOk afi l.toNat = true) (h : rest.length < l.toNat + 1) :
    reachGroup ⟨afi, safi, l :: rest⟩ = .error (err .bodyLength 14) := by
  simp only [reachGroup, raiseIf_bind]
  rw [if_neg (by simp), if_neg (by simpa [octet] using hok), if_pos (by simp [octet]; omega)]
  rfl

/-- Past the next hop and the reserved octet the prefixes of the family decide (R237). -/
theorem reachGroup_prefix_error {e : CodecError} (hok : nexthopOk afi l.toNat = true) (h : l.toNat + 1 ≤ rest.length)
    (h4 : afi = 1 → decodePrefixList 32 (rest.drop (l.toNat + 1)) = .error e)
    (h6 : afi ≠ 1 → decodePrefixList 128 (rest.drop (l.toNat + 1)) = .error e) :
    reachGroup ⟨afi, safi, l :: rest⟩ = .error e := by
  have hsplit : rest = rest.take l.toNat ++ rest[l.toNat] :: rest.drop (l.toNat + 1) := by
    rw [← List.drop_eq_getElem_cons, List.take_append_drop]
  have hnh : (rest.take l.toNat).length = l.toNat := List.length_take_of_le (by omega)
  rw [hsplit, reachGroup_fields hnh.symm (hnh.symm ▸ hok)]
  by_cases hafi : afi = 1
  · rw [if_pos hafi, h4 hafi, error_bind]
  · rw [if_neg hafi, h6 hafi, error_bind]

theorem nexthopOk_ipv4 : nexthopOk 1 l.toNat = true ↔ l = 4 := by
  rw [← BitVec.toNat_inj]
  exact beq_iff_eq

theorem nexthopOk_ipv6 : nexthopOk 2 l.toNat = true ↔ l = 16 ∨ l = 32 := by
  rw [← BitVec.toNat_inj, ← BitVec.toNat_inj]
  simp [nexthopOk]

end ReachGroup

/-- Settles O41: the three next hops are the three forms in which the fields of a legal family are read. -/
theorem mpReachDecodes : Obligations.MpReachDecodes := by
  intro s cx w flags x0 x1 x2 x3 r nh ll nl ps4 ps6 hopens
  have stores : ∀ {a safi : Byte} {rest : Bytes} {g : MpReachNlri}, legalFamily cx ((0 : Byte) ++ a) safi = true →
      reachGroup ⟨(0 : Byte) ++ a, safi, rest⟩ = .ok g →
      exec (.attrMpReachNlri flags (0 :: a :: safi :: rest)) (atRecords cx w s) =
        .next (atRecords cx (storeSide 14 (fun st => { st with mpReach := some g }) w) s) := fun hl hg =>
    exec_parses (t := .mpReachNlri) (x := some _) hopens (parseMp_of_group (readFamily_cons ..) hl hg)
  refine ⟨fun hcx hps => ?_, fun hcx hnh hps => ?_, fun hcx hnh hll hps => ?_⟩
  · exact stores (a := 1) ((legalFamily_ipv4 cx).trans hcx) ((reachGroup_ipv4 ..).trans (by rw [hps, ok_bind]))
  · exact stores (a := 2) ((legalFamily_ipv6 cx).trans hcx) ((reachGroup_ipv6 hnh ..).trans (by rw [hps, ok_bind]))
  · exact stores (a := 2) ((legalFamily_ipv6 cx).trans hcx) ((reachGroup_linkLocal hnh hll ..).trans (by rw [hps, ok_bind]))

/-- Settles O42: past the family each check of the group is the first that fails. -/
theorem mpReachErrors : Obligations.MpReachErrors := by
  intro s cx w flags afi nhl v rest e hopens raises fits
  refine ⟨fun hshort => exec_rejects (t := .mpReachNlri) hopens (parseMp_short hshort), fun hfamily => ?_⟩
  have hl : legalFamily cx ((0 : Byte) ++ afi) 1 = true := by
    rcases hfamily with ⟨rfl, hcx⟩ | ⟨rfl, hcx⟩
    · exact (legalFamily_ipv4 cx).trans hcx
    · exact (legalFamily_ipv6 cx).trans hcx
  have hok : nexthopOk ((0 : Byte) ++ afi) nhl.toNat = true ↔ fits := by
    rcases hfamily with ⟨rfl, -⟩ | ⟨rfl, -⟩
    · refine nexthopOk_ipv4.trans ?_
      simp [fits]
    · refine nexthopOk_ipv6.trans ?_
      simp [fits]
  have hraises : ∀ {rest : Bytes} {e : CodecError}, reachGroup ⟨(0 : Byte) ++ afi, 1, rest⟩ = .error e →
      raises ([0, afi, 1] ++ rest) e := fun he =>
    exec_rejects (t := .mpReachNlri) hopens (parseMp_of_group_error (readFamily_cons ..) hl he)
  refine ⟨hraises reachGroup_no_length,
    fun hfits => hraises (reachGroup_illegal_length (Bool.eq_false_iff.mpr fun h => hfits (hok.mp h))),
    fun hfits hshort => hraises (reachGroup_cut_short (hok.mpr hfits) hshort), ?_, ?_⟩
  · rintro hfits hlong rfl hps
    exact hraises (reachGroup_prefix_error (hok.mpr hfits) hlong (fun _ => hps) (fun h => absurd rfl h))
  · rintro hfits hlong rfl hps
    exact hraises (reachGroup_prefix_error (hok.mpr hfits) hlong (fun h => absurd h (by decide)) (fun _ => hps))

/-! ### MP_UNREACH_NLRI after its family (R239) -/

theorem unreachGroup_ipv4 (nl : Bytes) :
    unreachGroup ⟨1, 1, nl⟩ = decodePrefixList 32 nl >>= fun ps => .ok (.ipv4Unicast ps) := if_pos rfl

theorem unreachGroup_ipv6 (nl : Bytes) :
    unreachGroup ⟨2, 1, nl⟩ = decodePrefixList 128 nl >>= fun ps => .ok (.ipv6Unicast ps) :=
  if_neg (show (2 : Half) ≠ 1 by decide)

/-- Settles O43: the body rule of a legal family is that of its list of prefixes. -/
theorem mpUnreachAttribute : Obligations.MpUnreachAttribute := by
  intro s cx w flags v nl ps4 ps6 e hopens
  have stores : ∀ {a safi : Byte} {rest : Bytes} {g : MpUnreachNlri}, legalFamily cx ((0 : Byte) ++ a) safi = true →
      unreachGroup ⟨(0 : Byte) ++ a, safi, rest⟩ = .ok g →
      exec (.attrMpUnreachNlri flags (0 :: a :: safi :: rest)) (atRecords cx w s) =
        .next (atRecords cx (storeSide 15 (fun st => { st with mpUnreach := some g }) w) s) := fun hl hg =>
    exec_parses (t := .mpUnreachNlri) (x := some _) hopens (parseMp_of_group (readFamily_cons ..) hl hg)
  have raises : ∀ {a safi : Byte} {rest : Bytes}, legalFamily cx ((0 : Byte) ++ a) safi = true →
      unreachGroup ⟨(0 : Byte) ++ a, safi, rest⟩ = .error e →
      exec (.attrMpUnreachNlri flags (0 :: a :: safi :: rest)) (atRecords cx w s) = .next (raiseError 1 e s) := fun hl he =>
    exec_rejects (t := .mpUnreachNlri) hopens (parseMp_of_group_error (readFamily_cons ..) hl he)
  refine ⟨fun hshort => exec_rejects (t := .mpUnreachNlri) hopens (parseMp_short hshort), fun hcx hps => ?_,
    fun hcx hps => ?_, fun hcx hps => ?_, fun hcx hps => ?_⟩
  · exact stores (a := 1) ((legalFamily_ipv4 cx).trans hcx) ((unreachGroup_ipv4 nl).trans (by rw [hps, ok_bind]))
  · exact stores (a := 2) ((legalFamily_ipv6 cx).trans hcx) ((unreachGroup_ipv6 nl).trans (by rw [hps, ok_bind]))
  · exact raises (a := 1) ((legalFamily_ipv4 cx).trans hcx) ((unreachGroup_ipv4 nl).trans (by rw [hps, error_bind]))
  · exact raises (a := 2) ((legalFamily_ipv6 cx).trans hcx) ((unreachGroup_ipv6 nl).trans (by rw [hps, error_bind]))

/-- Settles O44: the record of a family that is not legal has no typed value, and such a record is kept. -/
theorem illegalFamiliesCaptured : Obligations.IllegalFamiliesCaptured := by
  intro s cx w flags a1 a2 safi rest h4 h6
  exact ⟨fun hopens => exec_parses (t := .mpReachNlri) (x := none) hopens (parseMp_of_illegal h4 h6),
    fun hopens => exec_parses (t := .mpUnreachNlri) (x := none) hopens (parseMp_of_illegal h4 h6)⟩

/-! ### The family forms inside a DECODE (R236, R237, R239, R242) -/

section FamilyForms

variable {cx : Cxt} {w : UpdWork} {k : MpKind} {flags : Byte} {body rest : Bytes} {s : State}

/-- A family form does with the record of its place what the body rule does from the family on. -/
theorem exec_familyIpv4_atFamily {r : RecState} (h : decodeFamily cx k flags ⟨1, 1, rest⟩ w.recs = .ok r) :
    exec (.familyIpv4Unicast rest) (atFamily cx w k flags body s) = .next (atRecords cx { w with recs := r } s) := by
  simp only [exec, execFamilyIpv4Unicast, runFamily_atFamily, h]

theorem exec_familyIpv6_atFamily {r : RecState} (h : decodeFamily cx k flags ⟨2, 1, rest⟩ w.recs = .ok r) :
    exec (.familyIpv6Unicast rest) (atFamily cx w k flags body s) = .next (atRecords cx { w with recs := r } s) := by
  simp only [exec, execFamilyIpv6Unicast, runFamily_atFamily, h]

theorem exec_familyOther_atFamily (afi : Half) (safi : Byte) :
    exec (.familyOther afi safi rest) (atFamily cx w k flags body s) =
      .next (atRecords cx { w with recs := captureFamily k flags ⟨afi, safi, rest⟩ w.recs } s) := by
  simp only [exec, execFamilyOther, runFamily_atFamily]

theorem decodeFamily_reach {fam : FamForm} {g : MpReachNlri} {r : RecState} (hl : legalFamily cx fam.afi fam.safi = true)
    (hg : reachGroup fam = .ok g) :
    decodeFamily cx .reach flags fam r = .ok (setSide (fun st => { st with mpReach := some g }) r) := by
  rw [decodeFamily, if_pos hl, hg]
  rfl

theorem decodeFamily_unreach {fam : FamForm} {g : MpUnreachNlri} {r : RecState}
    (hl : legalFamily cx fam.afi fam.safi = true) (hg : unreachGroup fam = .ok g) :
    decodeFamily cx .unreach flags fam r = .ok (setSide (fun st => { st with mpUnreach := some g }) r) := by
  rw [decodeFamily, if_pos hl, hg]
  rfl

end FamilyForms

/-- Settles O45: each legal form stores the group its octets are read as, and FAMILY_OTHER keeps its own octets. -/
theorem familyFormsDecode : Obligations.FamilyFormsDecode := by
  intro s cx w flags safi x0 x1 x2 x3 r afi body nh ll nl rest ps4 ps6 stored
  refine ⟨fun hcx hps => ?_, fun hcx hnh hps => ?_, ?_⟩
  · have hl := (legalFamily_ipv4 cx).trans hcx
    exact ⟨exec_familyIpv4_atFamily (decodeFamily_reach hl (by rw [reachGroup_ipv4, hps, ok_bind])),
      exec_familyIpv4_atFamily (decodeFamily_unreach hl (by rw [unreachGroup_ipv4, hps, ok_bind]))⟩
  · have hl := (legalFamily_ipv6 cx).trans hcx
    exact ⟨exec_familyIpv6_atFamily (decodeFamily_reach hl (by rw [reachGroup_ipv6 hnh, hps, ok_bind])),
      fun hll => exec_familyIpv6_atFamily (decodeFamily_reach hl (by rw [reachGroup_linkLocal hnh hll, hps, ok_bind])),
      exec_familyIpv6_atFamily (decodeFamily_unreach hl (by rw [unreachGroup_ipv6, hps, ok_bind]))⟩
  · intro k captured
    rw [exec_familyOther_atFamily, captureFamily, attrCode_mpAttr, familyOctets, toBe_half]
    rfl

/-! ### The multiprotocol records on encode (R240, R241) -/

section GroupEmission

variable {cx : Cxt} {e : EncWork} {todo : List Slot} {s : State} {g : MpGroup}

theorem groupBody_error {x : CodecError} (hl : legalFamily cx (groupAfi g) 1 = true) (h : groupRest g = .error x) :
    groupBody cx g = .error x := by
  rw [groupBody, groupForm, if_pos hl, h, error_bind, error_bind]

/-- The family is refused before the prefixes are looked at (R240, R241). -/
theorem groupBody_illegal (hl : legalFamily cx (groupAfi g) 1 = false) :
    groupBody cx g = .error (err .family (mpCode (groupKind g)).toNat) := by
  rw [groupBody, groupForm, hl, if_neg Bool.false_ne_true, ok_bind, familyBody, hl, Bool.not_false, raiseIf_true, error_bind,
    attrCode_mpAttr]

/-- What a step at the slot of a group does, where its prefixes are what is left to build after the octets `front`. -/
theorem step_at_group {width : Nat} {ps : List (Prefix width)} {nl front body : Bytes} {x : CodecError} {negotiated : Bool}
    (htodo : e.todo = .known (mpAttr (groupKind g)) :: todo)
    (hslot : slotForm cx e.upd e.attrs (.known (mpAttr (groupKind g))) =
      groupBody cx g >>= fun v => .ok (some (knownForm (mpAttr (groupKind g)) v)))
    (hl : legalFamily cx (groupAfi g) 1 = negotiated)
    (hrest : groupRest g = encodePrefixList ps >>= fun nl => .ok (front ++ nl))
    (hbody : familyOctets (groupAfi g) 1 (front ++ nl) = body) :
    (negotiated = true → encodePrefixList ps = .ok nl →
      (body.length ≤ 65535 → step (atEmission cx e s) =
        .next (atEmission cx (appendOut (wireRecord 0x80 (mpCode (groupKind g)) body) { e with todo := todo }) s)) ∧
      (65535 < body.length → step (atEmission cx e s) =
        .next (raiseError 2 (err .attrTooLong (mpCode (groupKind g)).toNat) s))) ∧
    (negotiated = true → encodePrefixList ps = .error x → step (atEmission cx e s) = .next (raiseError 2 x s)) ∧
    (negotiated = false → step (atEmission cx e s) =
      .next (raiseError 2 (err .family (mpCode (groupKind g)).toNat) s)) := by
  rw [step_atEmission_present htodo hslot, expectedFlags_mpAttr, attrCode_mpAttr]
  refine ⟨fun hneg hps => ?_, fun hneg hps => ?_, fun hneg => ?_⟩
  · have hrest : groupRest g = .ok (front ++ nl) := by rw [hrest, hps, ok_bind]
    rw [groupBody_of_legal (hl.trans hneg) hrest, hbody, ok_bind, emitRecord_encodeRecord (by decide)]
    exact ⟨fun h => if_pos h, fun h => if_neg (Nat.not_le.mpr h)⟩
  · have hrest : groupRest g = .error x := by rw [hrest, hps, error_bind]
    rw [groupBody_error (hl.trans hneg) hrest, error_bind]
    rfl
  · rw [groupBody_illegal (hl.trans hneg), error_bind]
    rfl

theorem slotForm_reach {u : UpdateMsg} {g : MpReachNlri} (h : u.mpReach = some g) (a : Attrs) :
    slotForm cx u a (.known .mpReachNlri) =
      groupBody cx (.reach g) >>= fun v => .ok (some (knownForm .mpReachNlri v)) := by
  rw [slotForm, h, fieldForm]

theorem slotForm_unreach {u : UpdateMsg} {g : MpUnreachNlri} (h : u.mpUnreach = some g) (a : Attrs) :
    slotForm cx u a (.known .mpUnreachNlri) =
      groupBody cx (.unreach g) >>= fun v => .ok (some (knownForm .mpUnreachNlri v)) := by
  rw [slotForm, h, fieldForm]

end GroupEmission

/-- Settles O46: a group of either kind and family is the octets before its prefixes, and then what `step_at_group` says. -/
theorem mpGroupsEncode : Obligations.MpGroupsEncode := by
  intro s cx e rest ps4 ps6 nl nh4 nh6 ll x octets nh4Octets nh6Octets raises emits
  have hoctets : ∀ a : Ipv6, toBe 16 a.toNat = octets a := fun a => toBe_eq_range 16 a (by norm_num)
  have hreach4 : groupRest (.reach (.ipv4Unicast ps4 nh4)) = encodePrefixList ps4 >>= fun nl =>
      .ok ([4] ++ nh4Octets ++ [0] ++ nl) := by
    rw [groupRest, toBe_eq_range 4 nh4 (by norm_num)]
  have hreach6 : groupRest (.reach (.ipv6Unicast ps6 nh6 ll)) = encodePrefixList ps6 >>= fun nl =>
      .ok ([BitVec.ofNat 8 nh6Octets.length] ++ nh6Octets ++ [0] ++ nl) := by
    cases ll <;> simp [groupRest, hoctets, nh6Octets, octets]
  exact ⟨
    fun htodo hg => step_at_group (g := .reach (.ipv4Unicast ps4 nh4)) htodo (slotForm_reach hg _) (legalFamily_ipv4 cx)
      hreach4 (familyOctets_ipv4 _),
    fun htodo hg => step_at_group (g := .reach (.ipv6Unicast ps6 nh6 ll)) htodo (slotForm_reach hg _) (legalFamily_ipv6 cx)
      hreach6 (familyOctets_ipv6 _),
    fun htodo hg => step_at_group (g := .unreach (.ipv4Unicast ps4)) (front := []) htodo (slotForm_unreach hg _)
      (legalFamily_ipv4 cx) (bind_pure _).symm (familyOctets_ipv4 nl),
    fun htodo hg => step_at_group (g := .unreach (.ipv6Unicast ps6)) (front := []) htodo (slotForm_unreach hg _)
      (legalFamily_ipv6 cx) (bind_pure _).symm (familyOctets_ipv6 nl)⟩

end Sys2Proof.Machine

/-! ### Proofs: the four community attributes, decode and encode (45_communities.md R260 to R264) -/

namespace Sys2Proof.Machine

open Sys2Proof

/-! ### Arrays of fixed-width records (R260) -/

/-- The width of a record of a type whose body is an array of them (R173, R260). -/
def recordWidth : AttrType → Option Nat
  | .communities | .clusterList => some 4
  | .extendedCommunities => some 8
  | .largeCommunity => some 12
  | .ipv6ExtendedCommunities => some 20
  | _ => none

section RecordArrays

variable {cx : Cxt} {t : AttrType} {k : Nat} {v : Bytes}

/-- A body that is no whole number of records is refused. -/
theorem parseField_partial_record (hk : recordWidth t = some k) (h : v.length % k ≠ 0) :
    parseField cx t v = .error (err .bodyLength (attrCode t).toNat) := by
  cases t <;> cases hk
  all_goals rw [parseField, decodeRecords_error _ _ _ v h, error_bind]

/-- An array of records inside a DECODE: a body that an ENCODE writes is stored, a partial record ends the command. -/
theorem exec_recordArray {x : FieldValue t} {flags : Byte} {v' : Bytes} {w : UpdWork} {s : State}
    (hk : recordWidth t = some k) (hbody : fieldBody cx t x = .ok v)
    (hopens : recordOpens (attrCode t) (expectedFlags t) flags w) :
    exec (RecForm.toInstr { flags := flags, type := attrCode t, body := v }) (atRecords cx w s) =
        .next (atRecords cx { w with recs := setField t (canonField t x) (noteType (attrCode t) w.recs) } s) ∧
      (v'.length % k ≠ 0 → exec (RecForm.toInstr { flags := flags, type := attrCode t, body := v' }) (atRecords cx w s) =
        .next (raiseError lastDecode (err .bodyLength (attrCode t).toNat) s)) :=
  ⟨exec_stores hopens hbody, fun hv => exec_rejects hopens (parseField_partial_record hk hv)⟩

variable {α : Type} {rec octets : α → Bytes} {rs : List α}

/-- The body of a list whose records are known octet by octet. -/
theorem recordsBody_octets (h : ∀ c, rec c = octets c) (rs : List α) : recordsBody rec rs = .ok (rs.map octets).flatten := by
  rw [recordsBody, funext h]

theorem recordsBody_length (hbody : recordsBody rec rs = .ok v) (hlen : ∀ c, (rec c).length = k) :
    v.length = rs.length * k := by
  cases hbody
  rw [length_flatten_of_length _ k (by simp [hlen]), List.length_map]

end RecordArrays

/-! ### The octets of one record (R261, R263, R264) -/

theorem encodeComm_octets (c : Comm) : encodeComm c =
    [c.global.extractLsb' 8 8, c.global.extractLsb' 0 8, c.loc.extractLsb' 8 8, c.loc.extractLsb' 0 8] := by
  rw [encodeComm, toBe_half, toBe_half]
  rfl

/-- The four octets of a word, most significant first. -/
def wordOctets (x : Word) : Bytes :=
  [x.extractLsb' 24 8, x.extractLsb' 16 8, x.extractLsb' 8 8, x.extractLsb' 0 8]

theorem encodeLargeComm_octets (c : LargeComm) :
    encodeLargeComm c = wordOctets c.global ++ wordOctets c.local1 ++ wordOctets c.local2 := by
  simp only [encodeLargeComm, toBe_word, wordOctets]

theorem encodeExtv6Comm_octets (c : Extv6Comm) : encodeExtv6Comm c =
    (List.range 16).map (fun k => c.addr.extractLsb' (8 * (15 - k)) 8) ++ wordOctets c.localAdmin := by
  rw [encodeExtv6Comm, toBe_eq_range 16 c.addr (by norm_num), toBe_word, wordOctets]

/-! ### The attributes -/

/-- Settles O30: both bodies are arrays of records, 4 octets wide and 8, and within the list bounds they fit a record. -/
theorem narrowCommunities : Obligations.NarrowCommunities := by
  intro s cx w flags v cs xs e rest hcs hxs commBody extBody emits
  have hcomm : recordsBody encodeComm cs = .ok commBody := recordsBody_octets encodeComm_octets cs
  have hext : recordsBody encodeExtComm xs = .ok extBody := rfl
  have hcommLen : commBody.length = cs.length * 4 := recordsBody_length hcomm (fun _ => by simp [encodeComm])
  have hextLen : extBody.length = xs.length * 8 := recordsBody_length hext (fun _ => rfl)
  exact ⟨exec_recordArray (t := .communities) rfl hcomm, exec_recordArray (t := .extendedCommunities) rfl hext,
    fun htodo hfield => step_emits (t := .communities) htodo hfield hcomm (by omega),
    fun htodo hfield => step_emits (t := .extendedCommunities) htodo hfield hext (by omega)⟩

/-- Settles O31: both bodies are arrays of records, 12 octets wide and 20, and within the list bounds they fit a record. -/
theorem wideCommunities : Obligations.WideCommunities := by
  intro s cx w flags v cs xs e rest hcs hxs field largeBody v6Body emits
  have hlarge : recordsBody encodeLargeComm cs = .ok largeBody := recordsBody_octets encodeLargeComm_octets cs
  have hv6 : recordsBody encodeExtv6Comm xs = .ok v6Body := recordsBody_octets encodeExtv6Comm_octets xs
  have hlargeLen : largeBody.length = cs.length * 12 := recordsBody_length hlarge (fun _ => by simp [encodeLargeComm])
  have hv6Len : v6Body.length = xs.length * 20 := recordsBody_length hv6 (fun _ => by simp [encodeExtv6Comm])
  exact ⟨exec_recordArray (t := .largeCommunity) rfl hlarge, exec_recordArray (t := .ipv6ExtendedCommunities) rfl hv6,
    fun htodo hfield => step_emits (t := .largeCommunity) htodo hfield hlarge (by omega),
    fun htodo hfield => step_emits (t := .ipv6ExtendedCommunities) htodo hfield hv6 (by omega)⟩

end Sys2Proof.Machine

/-! ### Proofs: the ERR word, the codes of the 36 rows, and the end of a command by an error (60_exceptions.md R280 to R283) -/

namespace Sys2Proof.Machine

open Sys2Proof

/-! ### The ERR word (R282) -/

/-- Two octets below `v` reach neither into it nor into each other, so putting the three together by `|||` adds them. -/
theorem fields_or_eq_add {s c : Nat} (v : Nat) (hs : s < 256) (hc : c < 256) :
    v <<< 16 ||| s <<< 8 ||| c = v * 65536 + s * 256 + c := by
  have hupper : v <<< 16 ||| s <<< 8 = (v <<< 8 + s) <<< 8 := by
    rw [Nat.shiftLeft_add_eq_or_of_lt hs, Nat.shiftLeft_or_distrib, ← Nat.shiftLeft_add]
  rw [hupper, ← Nat.shiftLeft_add_eq_or_of_lt hc, Nat.shiftLeft_eq, Nat.shiftLeft_eq]
  omega

theorem ofNat_shiftLeft (w n k : Nat) : BitVec.ofNat w (n <<< k) = BitVec.ofNat w n <<< k := by
  apply BitVec.eq_of_toNat_eq
  rw [BitVec.toNat_shiftLeft, BitVec.toNat_ofNat, BitVec.toNat_ofNat, Nat.shiftLeft_eq, Nat.shiftLeft_eq, Nat.mod_mul_mod]

/-- The sum that makes ERR is the word put together field by field. -/
theorem errWord_eq_or (e : CodecError) :
    errWord e = (e.value.setWidth 32 <<< 16) ||| (BitVec.ofNat 32 (reasonSub e.reason) <<< 8)
      ||| BitVec.ofNat 32 (reasonClass e.reason) := by
  have hs := reasonSub_range e.reason
  have hc := reasonClass_range e.reason
  rw [errWord, ← fields_or_eq_add _ (by omega) (by omega), BitVec.ofNat_or, BitVec.ofNat_or, ofNat_shiftLeft,
    ofNat_shiftLeft, BitVec.ofNat_toNat]

/-- The three fields of ERR read back. -/
theorem errWord_fields (e : CodecError) :
    (errWord e).toNat % 256 = reasonClass e.reason ∧ (errWord e).toNat / 256 % 256 = reasonSub e.reason ∧
      (errWord e).toNat / 65536 = e.value.toNat := by
  have hs := reasonSub_range e.reason
  have hc := reasonClass_range e.reason
  rw [errWord_toNat]
  omega

/-- Where the rows of a table list every sub-reason and no two rows share CLASS and SUB, these two fix the sub-reason. -/
theorem reason_eq_of_class_sub {rows : List (Nat × Nat × Reason)}
    (hrows : ∀ r, (reasonClass r, reasonSub r, r) ∈ rows) (hcodes : (rows.map fun row => (row.1, row.2.1)).Nodup)
    {r r' : Reason} (hc : reasonClass r = reasonClass r') (hs : reasonSub r = reasonSub r') : r = r' := by
  have hrow : (reasonClass r, reasonSub r, r) = (reasonClass r', reasonSub r', r') :=
    List.inj_on_of_nodup_map hcodes (hrows r) (hrows r') (Prod.ext hc hs)
  exact congrArg (·.2.2) hrow

/-- Settles O8: no field of the word reaches into the next, and the codes of the table are pairwise different. -/
theorem errorCodes : Obligations.ErrorCodes := by
  unfold Obligations.ErrorCodes
  intro table
  have hrows : ∀ r, (reasonClass r, reasonSub r, r) ∈ table := fun r => by cases r <;> decide
  have hcodes : (table.map fun row => (row.1, row.2.1)).Nodup := by decide
  exact ⟨fun e => ⟨errWord_eq_or e, errWord_fields e⟩, rfl, hrows, fun _ _ => reason_eq_of_class_sub hrows hcodes,
    fun r => ⟨(reasonClass_range r).1, (reasonClass_range r).2, (reasonSub_range r).1⟩⟩

/-! ### The end of a command by an error (R283) -/

/-- All an error changes: the four results and the engine, which it leaves idle. -/
theorem raiseError_ends (last : Nat) (e : CodecError) (s : State) :
    (raiseError last e s).err = errWord e ∧ (raiseError last e s).obufLen = 0 ∧ (raiseError last e s).msgOut = none ∧
      (raiseError last e s).engine = .idle ∧ sameInputs s (raiseError last e s) ∧
      ∀ a, (raiseError last e s).obuf.read a = s.obuf.read a :=
  ⟨raiseError_err last e s, raiseError_obufLen last e s, raiseError_msgOut last e s, raiseError_engine last e s,
    sameInputs_raiseError last e s, fun a => congrArg (·.read a) (raiseError_obuf last e s)⟩

/-- Settles O9: both commands end an error in `raiseError`, and differ in the LAST field of STATUS alone. -/
theorem errorEndsCommand : Obligations.ErrorEndsCommand :=
  fun s _ e => ⟨fun _ hin h => ⟨_, exec_decode_of_error hin h, rfl, raiseError_ends lastDecode e s⟩,
    fun _ hin h => ⟨_, exec_encode_of_error hin h, rfl, raiseError_ends lastEncode e s⟩⟩

end Sys2Proof.Machine
